-- ==== Sys2Proof/Word.lean ====
section
/-! DEFINITION. The widths of the HufPix core's values (spec/00_scope.md rules R7 and R11): every value is an
unsigned bit string, bit 0 the least significant. -/

namespace Sys2Proof

/-- A 64-bit register, frequency or code pattern (`FREQ_W`, `PAT_W`; R7, R21). -/
abbrev Word := BitVec 64

/-- A byte of a buffer (R14). -/
abbrev Byte := BitVec 8

/-- A symbol: one byte value (`SYM_W`; R7). -/
abbrev Symbol := BitVec 8

/-- The index of an arena slot, or `NIL` (`IDX_W`; R7). -/
abbrev NodeIdx := BitVec 10

/-- A byte count, a byte cursor or a buffer limit (`LEN_W`; R7). -/
abbrev Length := BitVec 32

end Sys2Proof
end

