-- ==== Sys2Proof/Config.lean ====
section
/-! DEFINITION. What is fixed for one machine: the parameters of spec/00_scope.md rules R7 to R10, and the free
values the spec leaves open (spec/93_implementation_defined.md U1 and U3). -/

namespace Sys2Proof.Config

/-- `ALPHABET` (R7). -/
abbrev alphabet : Nat := 256

/-- `ARENA_CAP`: node slots in the arena (R7, R8; spec/90_conflicts.md C1). -/
abbrev arenaCap : Nat := 511

/-- `HEAP_CAP`: entries of the heap array (R7). -/
abbrev heapCap : Nat := 256

/-- `NIL`: the node index that means "no node" (R7). -/
abbrev nil : NodeIdx := 0x3FF

/-- The depth at which CODEGEN's walk fails, one more than `MAX_LEN` (R9, R162). -/
abbrev depthBound : Nat := 64

/-- The largest count the `N` field of a command may hold (R80, R85 step 6). -/
abbrev maxCount : Nat := 64

/-- The open parameters of the block, the physical sizes of its three buffer memories (R10). A machine carries its
own `Params`, which no step changes: every statement over all states is a statement over all parameters. -/
structure Params where
  treeBufBytes : Length
  payBufBytes  : Length
  rawBufBytes  : Length
deriving DecidableEq, Repr

/-- Each size is a natural with `0 < size ≤ 2^32 − 1` (R10); the type gives the upper bound. -/
def Params.wf (p : Params) : Bool :=
  p.treeBufBytes != 0 && p.payBufBytes != 0 && p.rawBufBytes != 0

/-- The sizes of the one machine `State.reset` is: those of the instance under test of spec/95_test_vectors.md
part 0. DESIGN CHOICE (log 3, unsafe): the spec leaves them open. -/
def defaultParams : Params :=
  { treeBufBytes := 512, payBufBytes := 1024, rawBufBytes := 1024 }

/-- What a buffer byte that nothing has written reads as. DESIGN CHOICE (log 2, unsafe): the spec says "any value"
and recommends all zero (spec/93_implementation_defined.md U4). -/
def unwrittenByte : Byte := 0

/-- FREE VALUES (log 1, safe): the values the spec calls unspecified and lets the block go on with: `RESULT` after a
command that failed (U1) and what a read window returns beyond the live entries (U3). It has no body: nothing can
evaluate it, so a proof about it holds for every value. The argument is the state's counter `freeIdx`, which moves on
at every use. -/
opaque freeValue : Nat → Word

end Sys2Proof.Config
end

