-- ==== Sys2Proof/Syntax.lean ====
section
/-! DEFINITION. The 17 commands (spec/30_encoding.md rule R83), one constructor per row of spec/opcode_table.json. -/

namespace Sys2Proof

/-- The stream number `S` (R80, R81): stream 0 works on the TREE buffer, stream 1 on the PAY buffer; the binding is
fixed (R35). -/
inductive StreamSel where
  | tree
  | pay
deriving DecidableEq, Repr

/-- A command with its encoded operands: `S` for the seven stream commands, and the 7-bit count `N` for WRITE_BITS and
READ_BITS (R80). Every other operand is a register or a buffer, taken implicitly. -/
inductive Instr where
  | nop
  | ctxReset
  | bsOpenW (s : StreamSel)
  | bsOpenR (s : StreamSel)
  | writeBit (s : StreamSel)
  | writeBits (s : StreamSel) (n : BitVec 7)
  | finalize (s : StreamSel)
  | readBit (s : StreamSel)
  | readBits (s : StreamSel) (n : BitVec 7)
  | freqClear
  | freqCount
  | build
  | codegen
  | treeSave
  | treeLoad
  | encode
  | decode
deriving DecidableEq, Repr

end Sys2Proof
end

