-- ==== Sys2Proof/WellFormed.lean ====
section
/-! DEFINITION. Which instructions a command word can stand for: the one restriction the 7-bit field `N` does not
state by its width is `N ≤ 64` (spec/30_encoding.md rules R80, R81 and R85 step 6). -/

namespace Sys2Proof

/-- A legal bit count: 0 to 64 (R80); "the values 65 to 127 make the command illegal" (R81). -/
def countOk (n : BitVec 7) : Bool := n.toNat ≤ Config.maxCount

/-- Every command is well formed but a WRITE_BITS or READ_BITS whose count is above 64. -/
def Instr.wf : Instr → Bool
  | .nop => true
  | .ctxReset => true
  | .bsOpenW _ => true
  | .bsOpenR _ => true
  | .writeBit _ => true
  | .writeBits _ n => countOk n
  | .finalize _ => true
  | .readBit _ => true
  | .readBits _ n => countOk n
  | .freqClear => true
  | .freqCount => true
  | .build => true
  | .codegen => true
  | .treeSave => true
  | .treeLoad => true
  | .encode => true
  | .decode => true

end Sys2Proof
end

