-- ==== Sys2Proof/Decode.lean ====
section
/-! DEFINITION. The command decoder, total on every 64-bit value written to `CMD` and rejecting by name, and the
encoder (spec/30_encoding.md rules R80 to R86). -/

namespace Sys2Proof

/-! ## The opcode map -/

/-- One row of the opcode map (R83): the mnemonic, and `match` and `mask` of the whole 32-bit word; `usesN` says that
the row's free bits hold a count, which must be at most 64. -/
structure OpRow where
  mnemonic : String
  value    : BitVec 32
  mask     : BitVec 32
  usesN    : Bool
deriving DecidableEq, Repr

/-- The rows of R83 for the system, stream and frequency commands. -/
def opRowsLow : List OpRow :=
  [ ⟨"NOP",        0x00000000, 0xFFFFFFFF, false⟩,
    ⟨"CTX_RESET",  0x00000001, 0xFFFFFFFF, false⟩,
    ⟨"BS_OPEN_W",  0x00000010, 0xFFFFFEFF, false⟩,
    ⟨"BS_OPEN_R",  0x00000011, 0xFFFFFEFF, false⟩,
    ⟨"WRITE_BIT",  0x00000012, 0xFFFFFEFF, false⟩,
    ⟨"WRITE_BITS", 0x00000013, 0xFF80FEFF, true⟩,
    ⟨"FINALIZE",   0x00000014, 0xFFFFFEFF, false⟩,
    ⟨"READ_BIT",   0x00000015, 0xFFFFFEFF, false⟩,
    ⟨"READ_BITS",  0x00000016, 0xFF80FEFF, true⟩,
    ⟨"FREQ_CLEAR", 0x00000040, 0xFFFFFFFF, false⟩,
    ⟨"FREQ_COUNT", 0x00000041, 0xFFFFFFFF, false⟩ ]

/-- The rows of R83 for the tree and payload commands. -/
def opRowsHigh : List OpRow :=
  [ ⟨"BUILD",      0x00000050, 0xFFFFFFFF, false⟩,
    ⟨"CODEGEN",    0x00000051, 0xFFFFFFFF, false⟩,
    ⟨"TREE_SAVE",  0x00000052, 0xFFFFFFFF, false⟩,
    ⟨"TREE_LOAD",  0x00000053, 0xFFFFFFFF, false⟩,
    ⟨"ENCODE",     0x00000060, 0xFFFFFFFF, false⟩,
    ⟨"DECODE",     0x00000061, 0xFFFFFFFF, false⟩ ]

/-- The opcode map of R83, in its order. The decoder below is written from the field rules R80 and R85; that the two
say the same is a statement (`Obligations.DecodeAgreesWithOpcodeMap`). -/
def opRows : List OpRow := opRowsLow ++ opRowsHigh

/-- "a word `w` is the command iff `(w & mask) = match`" (R83). -/
def OpRow.hits (r : OpRow) (w : BitVec 32) : Bool := (w &&& r.mask) == r.value

/-! ## The fields of a command word (R80) -/

/-- `OPC`, bits [7:0]. -/
def fieldOPC (w : BitVec 32) : BitVec 8 := w.extractLsb' 0 8

/-- `S`, bit [8]. -/
def fieldS (w : BitVec 32) : Bool := w.getLsbD 8

/-- The zero field of bits [15:9]. -/
def fieldZeroLow (w : BitVec 32) : BitVec 7 := w.extractLsb' 9 7

/-- `N`, bits [22:16]. -/
def fieldN (w : BitVec 32) : BitVec 7 := w.extractLsb' 16 7

/-- The zero field of bits [31:23]. -/
def fieldZeroHigh (w : BitVec 32) : BitVec 9 := w.extractLsb' 23 9

/-- The stream an `S` bit selects: 0 = stream 0, 1 = stream 1 (R80, R81). -/
def StreamSel.ofBit (b : Bool) : StreamSel := if b then .pay else .tree

/-- The `S` bit of a stream. -/
def StreamSel.toBit : StreamSel → Bool
  | .tree => false
  | .pay  => true

/-! ## The decoder -/

/-- How a command uses the variable fields of its word: neither, `S`, or `S` and `N` (R80, R83). -/
inductive Shape where
  | plain (i : Instr)
  | stream (mk : StreamSel → Instr)
  | counted (mk : StreamSel → BitVec 7 → Instr)

/-- The command of an opcode (R83); `none` for the reserved opcodes of R86. -/
def shapeOf (opc : BitVec 8) : Option Shape :=
  match opc.toNat with
  | 0x00 => some (.plain .nop)
  | 0x01 => some (.plain .ctxReset)
  | 0x10 => some (.stream .bsOpenW)
  | 0x11 => some (.stream .bsOpenR)
  | 0x12 => some (.stream .writeBit)
  | 0x13 => some (.counted .writeBits)
  | 0x14 => some (.stream .finalize)
  | 0x15 => some (.stream .readBit)
  | 0x16 => some (.counted .readBits)
  | 0x40 => some (.plain .freqClear)
  | 0x41 => some (.plain .freqCount)
  | 0x50 => some (.plain .build)
  | 0x51 => some (.plain .codegen)
  | 0x52 => some (.plain .treeSave)
  | 0x53 => some (.plain .treeLoad)
  | 0x60 => some (.plain .encode)
  | 0x61 => some (.plain .decode)
  | _    => none

/-- Why a value is no command: the first failing test of R85, steps 1 to 6. -/
inductive DecodeError where
  /-- Step 1: `v[63:32] != 0`. -/
  | upperHalf
  /-- Step 2: the opcode is reserved. -/
  | reservedOpcode
  /-- Step 3: a zero field is not zero. -/
  | reservedBits
  /-- Step 4: `S` is set in a command that does not use it. -/
  | strayS
  /-- Step 5: `N` is not zero in a command that does not use it. -/
  | strayN
  /-- Step 6: the count is above 64. -/
  | countTooLarge
deriving DecidableEq, Repr

/-- The decoder's answer. -/
inductive Decoded where
  | command (i : Instr)
  | illegal (e : DecodeError)
deriving DecidableEq, Repr

/-- Steps 4 to 7 of R85, for the shape of the word's opcode. -/
def Shape.decode (sh : Shape) (w : BitVec 32) : Decoded :=
  match sh with
  | .plain i =>
    if fieldS w then .illegal .strayS
    else if fieldN w != 0 then .illegal .strayN
    else .command i
  | .stream mk =>
    if fieldN w != 0 then .illegal .strayN
    else .command (mk (.ofBit (fieldS w)))
  | .counted mk =>
    if countOk (fieldN w) then .command (mk (.ofBit (fieldS w)) (fieldN w))
    else .illegal .countTooLarge

/-- Steps 2 to 7 of R85, on the 32-bit command word. -/
def decodeWord (w : BitVec 32) : Decoded :=
  match shapeOf (fieldOPC w) with
  | none => .illegal .reservedOpcode
  | some sh =>
    if fieldZeroLow w != 0 || fieldZeroHigh w != 0 then .illegal .reservedBits
    else sh.decode w

/-- R85: what a value written to `CMD` stands for; "the first failing test decides". -/
def decode (v : Word) : Decoded :=
  if v.extractLsb' 32 32 != 0 then .illegal .upperHalf
  else decodeWord (v.extractLsb' 0 32)

/-! ## The encoder -/

/-- A command word from its fields, `[31:23] zero, N, [15:9] zero, S, OPC` (R80). -/
def packWord (opc : BitVec 8) (s : Bool) (n : BitVec 7) : BitVec 32 :=
  (0#9 ++ n ++ 0#7 ++ BitVec.ofBool s ++ opc : BitVec (9 + 7 + 7 + 1 + 8))

/-- The command word of an instruction (R80, R83). -/
def encode : Instr → BitVec 32
  | .nop           => packWord 0x00 false 0
  | .ctxReset      => packWord 0x01 false 0
  | .bsOpenW s     => packWord 0x10 s.toBit 0
  | .bsOpenR s     => packWord 0x11 s.toBit 0
  | .writeBit s    => packWord 0x12 s.toBit 0
  | .writeBits s n => packWord 0x13 s.toBit n
  | .finalize s    => packWord 0x14 s.toBit 0
  | .readBit s     => packWord 0x15 s.toBit 0
  | .readBits s n  => packWord 0x16 s.toBit n
  | .freqClear     => packWord 0x40 false 0
  | .freqCount     => packWord 0x41 false 0
  | .build         => packWord 0x50 false 0
  | .codegen       => packWord 0x51 false 0
  | .treeSave      => packWord 0x52 false 0
  | .treeLoad      => packWord 0x53 false 0
  | .encode        => packWord 0x60 false 0
  | .decode        => packWord 0x61 false 0

/-- The value a host writes to `CMD` to issue an instruction: its word, upper half zero (R23, R88). -/
def commandValue (i : Instr) : Word := (encode i).zeroExtend 64

/-- The mnemonic of the row of R83 an instruction belongs to. -/
def Instr.mnemonic : Instr → String
  | .nop           => "NOP"
  | .ctxReset      => "CTX_RESET"
  | .bsOpenW _     => "BS_OPEN_W"
  | .bsOpenR _     => "BS_OPEN_R"
  | .writeBit _    => "WRITE_BIT"
  | .writeBits _ _ => "WRITE_BITS"
  | .finalize _    => "FINALIZE"
  | .readBit _     => "READ_BIT"
  | .readBits _ _  => "READ_BITS"
  | .freqClear     => "FREQ_CLEAR"
  | .freqCount     => "FREQ_COUNT"
  | .build         => "BUILD"
  | .codegen       => "CODEGEN"
  | .treeSave      => "TREE_SAVE"
  | .treeLoad      => "TREE_LOAD"
  | .encode        => "ENCODE"
  | .decode        => "DECODE"

/-! ## The host's question -/

/-- The value written to `CMD` for an instruction whose bits, as spec/opcode_table.json numbers them, are `w`: there is
one word, and every bit from `nbits` on is 0. -/
def tableValue (nbits w : Nat) : Word := BitVec.ofNat 64 (w % 2 ^ nbits)

/-- The instruction the decoder reads from an instruction word of the opcode table; `none` where it refuses. -/
def decodeTableWord (nbits w : Nat) : Option Instr :=
  match decode (tableValue nbits w) with
  | .command i => some i
  | .illegal _ => none

end Sys2Proof
end

