-- ==== Sys2Proof/Machine/State.lean ====
section
/-! DEFINITION. The state of the HufPix core as plain data (spec/10_state.md), the host's transactions that drive it
(R20, R22, R60, R250), and the state after reset (R42). -/

namespace Sys2Proof.Machine

/-! ## Result codes (spec/60_exceptions.md) -/

/-- The seven error kinds of R220, in the order of their codes 1 to 7. -/
inductive ErrorKind where
  | emptyInput
  | capacityExceeded
  | overflow
  | truncated
  | unencodableSymbol
  | corruptTree
  | illegalCommand
deriving DecidableEq, Repr

/-- What a command ends with: code 0 (`OK`) or an error kind (R220). "Codes 8 to 15 never appear." -/
inductive ResultCode where
  | ok
  | error (k : ErrorKind)
deriving DecidableEq, Repr

/-! ## BitStream units (R35) -/

/-- `BS[s].mode`; the value 3 never occurs (R35, R36). -/
inductive StreamMode where
  | closed
  | writer
  | reader
deriving DecidableEq, Repr

/-- One BitStream unit: "in WRITER mode the partially filled pending byte" is `hold`, which in READER mode is the byte
latched on entering the current byte (R35, R37). -/
structure Stream where
  mode  : StreamMode
  byte  : Length
  bit   : BitVec 3
  hold  : Byte
  limit : Length
deriving DecidableEq, Repr

/-- A closed stream, every field 0: the state of both units after reset (R42) and CTX_RESET (R211). -/
def Stream.closed : Stream :=
  { mode := .closed, byte := 0, bit := 0, hold := 0, limit := 0 }

/-! ## Tables (R30 to R34) -/

/-- One entry of the code table: `pat`, right-aligned, and `len`, where 0 means "unassigned" (R31). -/
structure CodeEntry where
  pat : Word
  len : BitVec 7
deriving DecidableEq, Repr

/-- An unassigned symbol (R31). -/
def CodeEntry.unassigned : CodeEntry := { pat := 0, len := 0 }

/-- `ARENA[i].kind`: the stored bit is 1 for LEAF, 0 for INTERNAL (R32). -/
inductive NodeKind where
  | internal
  | leaf
deriving DecidableEq, Repr

/-- One node record, one arena slot (R32). -/
structure Node where
  kind  : NodeKind
  sym   : Symbol
  freq  : Word
  left  : NodeIdx
  right : NodeIdx
deriving DecidableEq, Repr

/-- A leaf: "its symbol and count, both children `NIL`" (R32, R121). -/
def Node.mkLeaf (sym : Symbol) (freq : Word) : Node :=
  { kind := .leaf, sym := sym, freq := freq, left := Config.nil, right := Config.nil }

/-- An internal node: no symbol, and the two children (R32, R121). -/
def Node.mkInternal (freq : Word) (left right : NodeIdx) : Node :=
  { kind := .internal, sym := 0, freq := freq, left := left, right := right }

/-- The all-zero record, what an arena slot that was never written holds. DESIGN CHOICE (log 2): the spec leaves it
unspecified (U3) and no read returns it. -/
def Node.blank : Node := { kind := .internal, sym := 0, freq := 0, left := 0, right := 0 }

/-! ## Buffers (R38) -/

/-- A buffer's bytes as (address, byte) pairs in one canonical form: addresses strictly rising, no byte that an
unlisted address would read as (`Memory.wf` in Machine/Ops.lean). -/
abbrev Memory := List Host.Cell

/-- The three buffer spaces of R38 and R60. -/
inductive Space where
  | tree
  | pay
  | raw
deriving DecidableEq, Repr

/-! ## The host (R20) -/

/-- One host transaction: on the register port (R22), on the buffer port (R60), or the reset input (R250). A command
is a `regWrite` to index 0 (R23). "A model has one step per host transaction" (R20). -/
inductive HostTxn where
  | regRead (idx : BitVec 12)
  | regWrite (idx : BitVec 12) (v : Word)
  | bufRead (sp : BitVec 2) (a : BitVec 32)
  | bufWrite (sp : BitVec 2) (a : BitVec 32) (v : Byte)
  | reset
deriving DecidableEq, Repr

/-! ## How a step can stop -/

/-- The reasons the machine can stop with a fault. There is none: every command ends with a result code and the block
goes on (R224, R226), every port access has an outcome (R40, R60), and "there is no unpredictable behaviour anywhere
in this spec" (R264). Nothing raises a fault; that is safe, since a fault would only make claims unprovable. -/
inductive Fault where
deriving DecidableEq, Repr

/-- The reasons the model can refuse an instruction. -/
inductive Refusal where
  /-- Raised by an arm of `exec` for a command that has no meaning yet; safe. No arm raises it now. -/
  | notModelled (mnemonic : String)
deriving DecidableEq, Repr

/-! ## The state -/

/-- Everything the spec gives the machine, and, last, four fields of the model's own. -/
structure State where
  /-- `ARG0`, the operand register (R21). -/
  arg0 : Word
  /-- `RESULT`, the result register (R21). -/
  result : Word
  /-- `STATUS.CODE`, the code of the most recent command (R25). -/
  status : ResultCode
  /-- `ERRLOG`, bit k for error code k (R26); bit 0 does not exist. -/
  errlog : BitVec 8
  /-- `RAW_LEN`, the number of valid bytes of the RAW buffer (R27). -/
  rawLen : Length
  /-- `ROOT` (R28). -/
  root : NodeIdx
  /-- `TREE_VALID`, also `STATUS` bit [8] (R25, R28). -/
  treeValid : Bool
  /-- `ARENA_COUNT`, 0 to `ARENA_CAP` (R29). -/
  arenaCount : Fin 512
  /-- `HEAP_SIZE`, 0 to `HEAP_CAP` (R29). -/
  heapSize : Fin 257
  /-- `BS[0]`, on the TREE buffer (R35). -/
  bsTree : Stream
  /-- `BS[1]`, on the PAY buffer (R35). -/
  bsPay : Stream
  /-- `FREQ[0..255]` (R30). -/
  freq : Vector Word 256
  /-- `CODE[0..255]` (R31). -/
  code : Vector CodeEntry 256
  /-- `ARENA[0..510]` (R32). -/
  arena : Vector Node 511
  /-- `HEAP[0..255]` (R34). -/
  heap : Vector NodeIdx 256
  /-- The TREE buffer (R38). -/
  treeBuf : Memory
  /-- The PAY buffer (R38). -/
  payBuf : Memory
  /-- The RAW buffer (R38). -/
  rawBuf : Memory
  /-- MODEL'S OWN: the open parameters (R10), which no step changes. -/
  params : Config.Params
  /-- MODEL'S OWN: the transactions the host has still to make, first first (R20, R70). -/
  host : List HostTxn
  /-- MODEL'S OWN: the value the host's latest read transaction returned. -/
  reply : Word
  /-- MODEL'S OWN: how many free values have been used; `Config.freeValue freeIdx` is the next one. -/
  freeIdx : Nat
deriving DecidableEq, Repr

/-- The table of R42 for a machine with parameters `p`. Where R42 says "unspecified" the arena slots, heap entries and
buffer bytes hold 0, as spec/93_implementation_defined.md recommends (DESIGN CHOICE, log 2, unsafe). The model's own
fields start empty. -/
def State.resetWith (p : Config.Params) : State :=
  { arg0 := 0
    result := 0
    status := .ok
    errlog := 0
    rawLen := 0
    root := Config.nil
    treeValid := false
    arenaCount := 0
    heapSize := 0
    bsTree := Stream.closed
    bsPay := Stream.closed
    freq := Vector.replicate 256 0
    code := Vector.replicate 256 CodeEntry.unassigned
    arena := Vector.replicate 511 Node.blank
    heap := Vector.replicate 256 0
    treeBuf := []
    payBuf := []
    rawBuf := []
    params := p
    host := []
    reply := 0
    freeIdx := 0 }

/-- The machine right after reset (R250, R42), with the parameters of the spec's own test instance (log 3). No
transaction is pending: "The first thing the block does after reset is wait for a host transaction" (R250). -/
def State.reset : State := State.resetWith Config.defaultParams

end Sys2Proof.Machine
end

