-- ==== Sys2Proof/Machine/Flags.lean ====
section
/-! DEFINITION. The flags of R43: `STATUS.CODE`, `TREE_VALID` and the bits of `ERRLOG`; how each is computed, set and
read (spec/10_state.md rules R25, R26 and R28). -/

namespace Sys2Proof.Machine

/-- The numeric codes 1 to 7 of R220. -/
def ErrorKind.code : ErrorKind → BitVec 4
  | .emptyInput        => 1
  | .capacityExceeded  => 2
  | .overflow          => 3
  | .truncated         => 4
  | .unencodableSymbol => 5
  | .corruptTree       => 6
  | .illegalCommand    => 7

/-- The numeric codes of R220, `OK` being 0. -/
def ResultCode.code : ResultCode → BitVec 4
  | .ok      => 0
  | .error k => k.code

/-- The `ERRLOG` bit of an error kind: bit k for code k (R26). -/
def ErrorKind.logBit (k : ErrorKind) : BitVec 8 := 1#8 <<< k.code.toNat

/-- The bits of `ERRLOG` that exist, 1 to 7 (R26). -/
def errlogMask : BitVec 8 := 0xFE

/-- "A command's epilogue sets the bit of its non-zero code" (R26). -/
def logError (log : BitVec 8) (k : ErrorKind) : BitVec 8 := log ||| k.logBit

/-- Write one to clear: "clears every bit k in 1..7 for which `v[k] = 1` and leaves the others" (R26). -/
def clearErrors (log : BitVec 8) (v : Word) : BitVec 8 :=
  log &&& ~~~(v.extractLsb' 0 8 &&& errlogMask)

/-- What a read of `ERRLOG` returns: "Bit 0 and bits [63:8] read as 0" (R26). -/
def errlogWord (log : BitVec 8) : Word := (log &&& errlogMask).zeroExtend 64

/-- What a read of `STATUS` returns: the code in bits [3:0], `TREE_VALID` in bit [8], 0 elsewhere (R25). -/
def statusWord (code : ResultCode) (treeValid : Bool) : Word :=
  code.code.zeroExtend 64 ||| ((BitVec.ofBool treeValid).zeroExtend 64 <<< 8)

end Sys2Proof.Machine
end

