-- ==== Sys2Proof/Machine/Operands.lean ====
section
/-! DEFINITION. How the commands read their operands: the register `ARG0` (spec/30_encoding.md rule R82) and the
count field `N` (R81). -/

namespace Sys2Proof.Machine

/-- `ARG0[31:0]` as a byte limit or symbol count; `none` when `ARG0[63:32] != 0` (BS_OPEN_W, BS_OPEN_R, DECODE;
R82). -/
def lengthOperand (st : State) : Option Length :=
  if st.arg0.extractLsb' 32 32 != 0 then none else some (st.arg0.extractLsb' 0 32)

/-- WRITE_BIT: "`bit = ARG0[0]`; `ARG0[63:1]` is ignored" (R82). -/
def bitOperand (st : State) : Bool := st.arg0.getLsbD 0

/-- WRITE_BITS: "`value = ARG0`", of which the command uses the low `N` bits (R82). -/
def valueOperand (st : State) : Word := st.arg0

/-- `N`, "an unsigned count, zero-extended, not scaled" (R81). -/
def countOperand (n : BitVec 7) : Nat := n.toNat

end Sys2Proof.Machine
end

