-- ==== Sys2Proof/Machine/Ops.lean ====
section
/-! DEFINITION. The named operations every command is made of: the outcome of a procedure and `raise`
(spec/00_scope.md rules R15 and R16), the buffers (R14, R60), the stream registers, the loop, and the epilogue that
ends every command, with an error or without (spec/60_exceptions.md rule R224). -/

namespace Sys2Proof.Machine

/-! ## Procedures that can raise (R15, R16) -/

/-- What a procedure does: it returns a value, or it raises an error kind. Either way it leaves a state: "State written
before the `raise` stays written" (R15). -/
inductive Result (α : Type) where
  | ok (a : α) (st : State)
  | raised (k : ErrorKind) (st : State)
deriving DecidableEq, Repr

/-- Run `f` after a procedure; a `raise` "ends every enclosing procedure" (R15). -/
def Result.andThen {α β : Type} (r : Result α) (f : α → State → Result β) : Result β :=
  match r with
  | .ok a st     => f a st
  | .raised k st => .raised k st

/-- `for i in lo .. lo + n - 1`: the body at each index in ascending order, until one raises (R16). The first argument
is the number of iterations left. -/
def forLoop (body : Nat → State → Result Unit) : Nat → Nat → State → Result Unit
  | 0, _, st => .ok () st
  | n + 1, i, st => (body i st).andThen fun _ st => forLoop body n (i + 1) st

/-! ## Buffers (R14, R38, R60) -/

/-- The byte at an address; an unlisted address reads as `Config.unwrittenByte`. -/
def Memory.read : Memory → Nat → Byte
  | [], _ => Config.unwrittenByte
  | c :: cs, a => if c.1 = a then c.2 else Memory.read cs a

/-- The list with the cell of address `a` taken out and, unless `v` is what an unlisted address reads as, the cell
`(a, v)` put in its place in the rising order. -/
def Memory.write : Memory → Nat → Byte → Memory
  | [], a, v => if v = Config.unwrittenByte then [] else [(a, v)]
  | c :: cs, a, v =>
    if c.1 < a then c :: Memory.write cs a v
    else if c.1 = a then (if v = Config.unwrittenByte then cs else (a, v) :: cs)
    else (if v = Config.unwrittenByte then c :: cs else (a, v) :: c :: cs)

/-- The addresses are all at least `lo` and strictly rising, and no entry is what an unlisted address reads as. -/
def Memory.wfFrom : Nat → Memory → Bool
  | _, [] => true
  | lo, c :: cs => decide (lo ≤ c.1) && (c.2 != Config.unwrittenByte) && Memory.wfFrom (c.1 + 1) cs

/-- The canonical form of a buffer's contents. -/
def Memory.wf (m : Memory) : Bool := Memory.wfFrom 0 m

/-- The contents of a buffer space. -/
def State.buf (st : State) : Space → Memory
  | .tree => st.treeBuf
  | .pay  => st.payBuf
  | .raw  => st.rawBuf

/-- Replace the contents of a buffer space. -/
def State.setBuf (st : State) (sp : Space) (m : Memory) : State :=
  match sp with
  | .tree => { st with treeBuf := m }
  | .pay  => { st with payBuf := m }
  | .raw  => { st with rawBuf := m }

/-- The physical size in bytes of a buffer space (R10, R38). -/
def State.bufSize (st : State) : Space → Nat
  | .tree => st.params.treeBufBytes.toNat
  | .pay  => st.params.payBufBytes.toNat
  | .raw  => st.params.rawBufBytes.toNat

/-- `MemRead(sp, a, 1)` (R14). At or above the physical size it returns 0, which is the buffer port's rule (R60); the
block itself never gets there (R69). -/
def State.memRead (st : State) (sp : Space) (a : Nat) : Byte :=
  if a < st.bufSize sp then Memory.read (st.buf sp) a else 0

/-- `MemWrite(sp, a, 1, v)` (R14). At or above the physical size it changes nothing (R60). -/
def State.memWrite (st : State) (sp : Space) (a : Nat) (v : Byte) : State :=
  if a < st.bufSize sp then st.setBuf sp (Memory.write (st.buf sp) a v) else st

/-! ## Stream registers (R35) -/

/-- The buffer a stream works on: "the binding is fixed" (R35). -/
def streamSpace : StreamSel → Space
  | .tree => .tree
  | .pay  => .pay

/-- `BS[s]`. -/
def State.bs (st : State) : StreamSel → Stream
  | .tree => st.bsTree
  | .pay  => st.bsPay

/-- `BS[s] <- q`. -/
def State.setBs (st : State) (s : StreamSel) (q : Stream) : State :=
  match s with
  | .tree => { st with bsTree := q }
  | .pay  => { st with bsPay := q }

/-- The mode check of R102: in another mode the command "ends with `ILLEGAL_COMMAND` before it does anything else and
changes no state". -/
def inMode {α : Type} (s : StreamSel) (m : StreamMode) (st : State) (f : State → Result α) : Result α :=
  if (st.bs s).mode = m then f st else .raised .illegalCommand st

/-! ## Tables (R30 to R32) -/

/-- `FREQ[sym]`. -/
def State.freqAt (st : State) (sym : Symbol) : Word := st.freq[sym.toNat]

/-- `FREQ[sym] <- v`. -/
def State.setFreq (st : State) (sym : Symbol) (v : Word) : State :=
  { st with freq := st.freq.set sym.toNat v }

/-- `CODE[sym]`. -/
def State.codeAt (st : State) (sym : Symbol) : CodeEntry := st.code[sym.toNat]

/-- `CODE[sym] <- e`. -/
def State.setCode (st : State) (sym : Symbol) (e : CodeEntry) : State :=
  { st with code := st.code.set sym.toNat e }

/-- `for s in 0 .. 255: FREQ[s] <- 0` (R140, R141, R211). -/
def State.clearFreq (st : State) : State := { st with freq := Vector.replicate 256 0 }

/-- `for s in 0 .. 255: CODE[s] <- (pat = 0, len = 0)` (R160, R211). -/
def State.clearCode (st : State) : State := { st with code := Vector.replicate 256 CodeEntry.unassigned }

/-- The symbol of a loop index 0 .. 255. -/
def symbolOf (i : Nat) : Symbol := BitVec.ofNat 8 i

/-! ## Free values (spec/93_implementation_defined.md) -/

/-- The next free value. -/
def State.freeValue (st : State) : Word := Config.freeValue st.freeIdx

/-- The state in which that value is used up. -/
def State.dropFree (st : State) : State := { st with freeIdx := st.freeIdx + 1 }

/-! ## The end of a command (R224) -/

/-- The epilogue of a command that failed, the block's only exceptional event: `STATUS.CODE` takes the code, `ERRLOG`
its bit, `RESULT` a free value (U1). "Nothing else is saved or changed". -/
def State.endError (st : State) (k : ErrorKind) : State :=
  { st with
    status := .error k
    errlog := logError st.errlog k
    result := st.freeValue
    freeIdx := st.freeIdx + 1 }

/-- The epilogue of a command that ran to completion with result `v`. There is no return from an error to model beside
it: "There is nothing to return from" (R226). -/
def State.endOk (st : State) (v : Word) : State :=
  { st with status := .ok, result := v }

/-- The end of every command: its epilogue, then the next host transaction. -/
def finish (r : Result Word) : Host.Outcome State Fault Refusal :=
  match r with
  | .ok v st     => .next (st.endOk v)
  | .raised k st => .next (st.endError k)

/-- The end of a command with no natural result: `RESULT <- 0` (R21). -/
def finishUnit (r : Result Unit) : Host.Outcome State Fault Refusal :=
  finish (r.andThen fun _ st => .ok 0 st)

end Sys2Proof.Machine
end

