-- ==== Sys2Proof/Machine/BitStream.lean ====
section
/-! DEFINITION. The BitStream procedures and commands (spec/40_bitstream.md). -/

namespace Sys2Proof.Machine

/-! ## Procedures -/

/-- Bit `b` at position `k` of a byte, position 0 being the most significant (R12): `b << (7 - k)`. -/
def bitAt (k : BitVec 3) (b : Bool) : Byte := (BitVec.ofBool b).zeroExtend 8 <<< (7 - k.toNat)

/-- `writeBit` (R103): "A call that raises `OVERFLOW` changes nothing". -/
def writeBit (s : StreamSel) (b : Bool) (st : State) : Result Unit :=
  let q := st.bs s
  let h := q.hold ||| bitAt q.bit b
  if q.bit.toNat < 7 then
    .ok () (st.setBs s { q with hold := h, bit := q.bit + 1 })
  else if q.limit ≤ q.byte then
    .raised .overflow st
  else
    .ok () ((st.memWrite (streamSpace s) q.byte.toNat h).setBs s
      { q with byte := q.byte + 1, bit := 0, hold := 0 })

/-- `writeBits` (R104): bits `n - 1` down to 0 of `v`; the argument is the number of bits left. -/
def writeBits (s : StreamSel) (v : Word) : Nat → State → Result Unit
  | 0, st => .ok () st
  | n + 1, st => (writeBit s (v.getLsbD n) st).andThen fun _ st => writeBits s v n st

/-- `finalize` (R105): commit the pending byte, zero-padded, and return the committed byte count. -/
def finalize (s : StreamSel) (st : State) : Result Length :=
  let q := st.bs s
  if q.bit = 0 then
    .ok q.byte st
  else if q.limit ≤ q.byte then
    .raised .overflow st
  else
    .ok (q.byte + 1) ((st.memWrite (streamSpace s) q.byte.toNat q.hold).setBs s
      { q with byte := q.byte + 1, bit := 0, hold := 0 })

/-- The latched byte after a stream has entered the byte at its cursor (R37, R106). -/
def latched (s : StreamSel) (st : State) : Byte :=
  if (st.bs s).bit = 0 then st.memRead (streamSpace s) (st.bs s).byte.toNat else (st.bs s).hold

/-- `readBit` (R106): the buffer is read once a byte, when `bit = 0`; "A call that raises `TRUNCATED` changes
nothing". -/
def readBit (s : StreamSel) (st : State) : Result Bool :=
  let q := st.bs s
  if q.bit = 0 ∧ q.limit ≤ q.byte then
    .raised .truncated st
  else
    let h := latched s st
    let b := h.getLsbD (7 - q.bit.toNat)
    if q.bit.toNat < 7 then
      .ok b (st.setBs s { q with hold := h, bit := q.bit + 1 })
    else
      .ok b (st.setBs s { q with hold := h, bit := 0, byte := q.byte + 1 })

/-- `readBits` after some bits, whose value is `v`, have been received (R107): "most-significant bit received first". -/
def readBitsFrom (s : StreamSel) : Nat → Word → State → Result Word
  | 0, v, st => .ok v st
  | n + 1, v, st => (readBit s st).andThen fun b st =>
      readBitsFrom s n ((v <<< 1) ||| (BitVec.ofBool b).zeroExtend 64) st

/-- `readBits` (R107). -/
def readBits (s : StreamSel) (n : Nat) (st : State) : Result Word := readBitsFrom s n 0 st

/-! ## Commands -/

/-- The two open commands (R100, R101): the limit must fit 32 bits and the stream's buffer; otherwise "the stream is
unchanged". -/
def openStream (s : StreamSel) (m : StreamMode) (st : State) : Result Unit :=
  match lengthOperand st with
  | none => .raised .illegalCommand st
  | some limit =>
    if st.bufSize (streamSpace s) < limit.toNat then .raised .illegalCommand st
    else .ok () (st.setBs s { mode := m, byte := 0, bit := 0, hold := 0, limit := limit })

/-- BS_OPEN_W (R100). -/
def execBsOpenW (s : StreamSel) (st : State) : Host.Outcome State Fault Refusal :=
  finishUnit (openStream s .writer st)

/-- BS_OPEN_R (R101). -/
def execBsOpenR (s : StreamSel) (st : State) : Host.Outcome State Fault Refusal :=
  finishUnit (openStream s .reader st)

/-- The body of WRITE_BIT (R108). -/
def writeBitBody (s : StreamSel) (st : State) : Result Unit :=
  inMode s .writer st fun st => writeBit s (bitOperand st) st

/-- WRITE_BIT (R108). -/
def execWriteBit (s : StreamSel) (st : State) : Host.Outcome State Fault Refusal := finishUnit (writeBitBody s st)

/-- The body of WRITE_BITS (R109). -/
def writeBitsBody (s : StreamSel) (n : BitVec 7) (st : State) : Result Unit :=
  inMode s .writer st fun st => writeBits s (valueOperand st) (countOperand n) st

/-- WRITE_BITS (R109). -/
def execWriteBits (s : StreamSel) (n : BitVec 7) (st : State) : Host.Outcome State Fault Refusal :=
  finishUnit (writeBitsBody s n st)

/-- The body of FINALIZE (R110): `RESULT` is the committed byte count. -/
def finalizeBody (s : StreamSel) (st : State) : Result Word :=
  inMode s .writer st fun st => (finalize s st).andThen fun count st => .ok (count.zeroExtend 64) st

/-- FINALIZE (R110). -/
def execFinalize (s : StreamSel) (st : State) : Host.Outcome State Fault Refusal := finish (finalizeBody s st)

/-- The body of READ_BIT (R111): `RESULT` is the bit. -/
def readBitBody (s : StreamSel) (st : State) : Result Word :=
  inMode s .reader st fun st => (readBit s st).andThen fun b st => .ok ((BitVec.ofBool b).zeroExtend 64) st

/-- READ_BIT (R111). -/
def execReadBit (s : StreamSel) (st : State) : Host.Outcome State Fault Refusal := finish (readBitBody s st)

/-- The body of READ_BITS (R112): `RESULT` is the field, right-aligned. -/
def readBitsBody (s : StreamSel) (n : BitVec 7) (st : State) : Result Word :=
  inMode s .reader st fun st => readBits s (countOperand n) st

/-- READ_BITS (R112). -/
def execReadBits (s : StreamSel) (n : BitVec 7) (st : State) : Host.Outcome State Fault Refusal :=
  finish (readBitsBody s n st)

end Sys2Proof.Machine
end

