-- ==== Sys2Proof/Machine/ArenaHeap.lean ====
section
/-! DEFINITION. The node arena and the priority queue, procedures without a command of their own
(spec/41_arena_heap.md). -/

namespace Sys2Proof.Machine

/-! ## Node arena -/

/-- `arenaReset` (R120). Slot and heap entry contents are not cleared. -/
def State.arenaReset (st : State) : State :=
  { st with arenaCount := 0, heapSize := 0, treeValid := false, root := Config.nil }

/-- The record of a slot; an index that is no slot gives the blank record, which no command gets to see. -/
def State.slot (st : State) (i : NodeIdx) : Node := st.arena[i.toNat]?.getD Node.blank

/-- `allocNode` (R121): the next free slot; a full arena raises `CAPACITY_EXCEEDED` with nothing written. -/
def allocNode (n : Node) (st : State) : Result NodeIdx :=
  if h : st.arenaCount.val < Config.arenaCap then
    .ok (BitVec.ofNat 10 st.arenaCount.val)
      { st with
        arena := st.arena.set st.arenaCount.val n h
        arenaCount := ⟨st.arenaCount.val + 1, by simp only [Config.arenaCap] at h; omega⟩ }
  else
    .raised .capacityExceeded st

/-- `node(i)` (R123): `none` where the procedure raises `CORRUPT_TREE`, "includes `i = NIL`". -/
def State.node? (st : State) (i : NodeIdx) : Option Node :=
  if i.toNat < st.arenaCount.val then some (st.slot i) else none

/-- `child(i, b)` of the record `r` already fetched from slot `i` (R123): `none` where the procedure raises
`CORRUPT_TREE`; "a child always has a smaller index". -/
def child? (i : NodeIdx) (r : Node) (b : Bool) : Option NodeIdx :=
  let c := if b then r.right else r.left
  if i ≤ c then none else some c

/-! ## Priority queue -/

/-- The heap array of R34. -/
abbrev HeapArray := Vector NodeIdx 256

/-- `HEAP[p]`. -/
def heapAt (h : HeapArray) (p : Nat) : NodeIdx := h[p]?.getD Config.nil

/-- Exchange two entries. -/
def heapSwap (h : HeapArray) (p q : Nat) : HeapArray :=
  (h.setIfInBounds p (heapAt h q)).setIfInBounds q (heapAt h p)

/-- `parent(p) = (p − 1) div 2` (R125). -/
def parentPos (p : Nat) : Nat := (p - 1) / 2

/-- `leftpos(p) = 2p + 1` (R125). -/
def leftPos (p : Nat) : Nat := 2 * p + 1

/-- `rightpos(p) = 2p + 2` (R125). -/
def rightPos (p : Nat) : Nat := 2 * p + 2

/-- The key of a node: "the frequency alone" (R125). -/
def State.nodeKey (st : State) (i : NodeIdx) : Word := (st.slot i).freq

/-- Sift-up from position `p` (R127): up while the key is strictly smaller than the parent's. The first argument bounds
the number of moves; `p` itself is enough, since a parent's position is smaller. -/
def siftUp (key : NodeIdx → Word) : Nat → Nat → HeapArray → HeapArray
  | 0, _, h => h
  | fuel + 1, p, h =>
    if 0 < p ∧ key (heapAt h p) < key (heapAt h (parentPos p)) then
      siftUp key fuel (parentPos p) (heapSwap h p (parentPos p))
    else h

/-- The position, among `p` and its children below `size`, that sift-down moves to (R128): strict comparisons, the left
child examined first. -/
def smallest (key : NodeIdx → Word) (size : Nat) (h : HeapArray) (p : Nat) : Nat :=
  let m := if leftPos p < size ∧ key (heapAt h (leftPos p)) < key (heapAt h p) then leftPos p else p
  if rightPos p < size ∧ key (heapAt h (rightPos p)) < key (heapAt h m) then rightPos p else m

/-- Sift-down from position `p` among the first `size` entries (R128). The first argument bounds the number of moves;
`size` is enough, since every move is to a larger position below `size`. -/
def siftDown (key : NodeIdx → Word) (size : Nat) : Nat → Nat → HeapArray → HeapArray
  | 0, _, h => h
  | fuel + 1, p, h =>
    let m := smallest key size h p
    if m = p then h else siftDown key size fuel m (heapSwap h p m)

/-- `heapPush` (R127): a full heap raises `CAPACITY_EXCEEDED` with nothing written. -/
def heapPush (n : NodeIdx) (st : State) : Result Unit :=
  if h : st.heapSize.val < Config.heapCap then
    .ok ()
      { st with
        heap := siftUp st.nodeKey st.heapSize.val st.heapSize.val (st.heap.set st.heapSize.val n h)
        heapSize := ⟨st.heapSize.val + 1, by simp only [Config.heapCap] at h; omega⟩ }
  else
    .raised .capacityExceeded st

/-- `heapPop` (R128): the minimum, and the state without it. On an empty heap, which no command meets, it returns `NIL`
and changes nothing, as spec/93_implementation_defined.md U2 allows. -/
def heapPop (st : State) : NodeIdx × State :=
  if st.heapSize.val = 0 then (Config.nil, st)
  else
    let size := st.heapSize.val - 1
    let moved := st.heap.setIfInBounds 0 (heapAt st.heap size)
    (heapAt st.heap 0,
      { st with
        heap := if 0 < size then siftDown st.nodeKey size size 0 moved else st.heap
        heapSize := ⟨size, by have := st.heapSize.isLt; omega⟩ })

end Sys2Proof.Machine
end

