-- ==== Sys2Proof/Machine/CodeGen.lean ====
section
/-! DEFINITION. The code table generator (spec/43_codegen.md). -/

namespace Sys2Proof.Machine

/-- `visit(i, pat, depth)` (R160). The first argument is `64 − depth`, so its case 0 is the depth test of R162, which
comes before the fetch of the node. A leaf at depth 0 is given length 1 (R161). -/
def visit : Nat → NodeIdx → Word → State → Result Unit
  | 0, _, _, st => .raised .capacityExceeded st
  | left + 1, i, pat, st =>
    match st.node? i with
    | none => .raised .corruptTree st
    | some r =>
      match r.kind with
      | .leaf =>
        let depth := Config.depthBound - (left + 1)
        .ok () (st.setCode r.sym
          { pat := pat, len := if depth = 0 then 1 else BitVec.ofNat 7 depth })
      | .internal =>
        match child? i r false with
        | none => .raised .corruptTree st
        | some l =>
          (visit left l (pat <<< 1) st).andThen fun _ st =>
            match child? i r true with
            | none => .raised .corruptTree st
            | some c => visit left c ((pat <<< 1) ||| 1) st

/-- The body of CODEGEN (R160): the table is cleared before anything that can fail. -/
def generateCodes (st : State) : Result Unit :=
  let st := st.clearCode
  if st.treeValid then visit Config.depthBound st.root 0 st
  else .raised .corruptTree st

/-- CODEGEN (R160). -/
def execCodegen (st : State) : Host.Outcome State Fault Refusal := finishUnit (generateCodes st)

end Sys2Proof.Machine
end

