-- ==== Sys2Proof/Machine/PayloadCodec.lean ====
section
/-! DEFINITION. The payload encoder and decoder, both on stream 1 and the RAW buffer (spec/45_payload_codec.md). -/

namespace Sys2Proof.Machine

/-- One iteration of ENCODE's loop: look the byte's code up, then write it (R191). -/
def encodeByte (i : Nat) (st : State) : Result Unit :=
  let e := st.codeAt (st.memRead .raw i)
  if e.len = 0 then .raised .unencodableSymbol st
  else writeBits .pay e.pat e.len.toNat st

/-- The body of ENCODE (R191). -/
def encodeBody (st : State) : Result Unit :=
  inMode .pay .writer st fun st =>
    if st.bufSize .raw < st.rawLen.toNat then .raised .illegalCommand st
    else forLoop encodeByte st.rawLen.toNat 0 st

/-- ENCODE (R191). -/
def execEncode (st : State) : Host.Outcome State Fault Refusal := finishUnit (encodeBody st)

/-- The walk of DECODE from node `i` to a leaf, one bit of stream 1 a step (R195): the leaf's symbol. The first argument
bounds the number of steps; `i + 1` is enough, since a child's index is smaller than its parent's (R123), so case 0 is
never met. -/
def walk : Nat → NodeIdx → State → Result Symbol
  | 0, _, st => .raised .corruptTree st
  | fuel + 1, i, st =>
    match st.node? i with
    | none => .raised .corruptTree st
    | some r =>
      match r.kind with
      | .leaf => .ok r.sym st
      | .internal =>
        (readBit .pay st).andThen fun b st =>
          match child? i r b with
          | none => .raised .corruptTree st
          | some c => walk fuel c st

/-- One iteration of DECODE's loop: walk to symbol number `k`, then store it; with no room for it the command raises
`OVERFLOW`, after the walk (R195, R227). -/
def decodeSymbol (k : Nat) (st : State) : Result Unit :=
  (walk (st.root.toNat + 1) st.root st).andThen fun sym st =>
    if st.bufSize .raw ≤ k then .raised .overflow st
    else .ok () (st.memWrite .raw k sym)

/-- DECODE after its mode check (R195): `RAW_LEN` is 0 until all `count` symbols are stored (R196). -/
def decodePayload (st : State) : Result Word :=
  match lengthOperand st with
  | none => .raised .illegalCommand st
  | some count =>
    if st.treeValid then
      (forLoop decodeSymbol count.toNat 0 { st with rawLen := 0 }).andThen fun _ st =>
        .ok (count.zeroExtend 64) { st with rawLen := count }
    else .raised .corruptTree st

/-- The body of DECODE (R195). -/
def decodeBody (st : State) : Result Word := inMode .pay .reader st decodePayload

/-- DECODE (R195). -/
def execDecode (st : State) : Host.Outcome State Fault Refusal := finish (decodeBody st)

end Sys2Proof.Machine
end

