-- ==== Sys2Proof/Machine/System.lean ====
section
/-! DEFINITION. The system commands (spec/46_system.md). -/

namespace Sys2Proof.Machine

/-- NOP (R210). -/
def execNop (st : State) : Host.Outcome State Fault Refusal := finishUnit (.ok () st)

/-- Discard the context of a run and create a fresh one: arena, heap, tree flag, both tables, both streams and
`RAW_LEN`; not `ARG0`, `ERRLOG` or the buffers (R211). -/
def State.freshContext (st : State) : State :=
  { st.arenaReset.clearFreq.clearCode with
    bsTree := Stream.closed
    bsPay := Stream.closed
    rawLen := 0 }

/-- CTX_RESET (R211). -/
def execCtxReset (st : State) : Host.Outcome State Fault Refusal :=
  finishUnit (.ok () st.freshContext)

end Sys2Proof.Machine
end

