-- ==== Sys2Proof/Machine/TreeBuilder.lean ====
section
/-! DEFINITION. The frequency table commands and the tree builder (spec/42_tree_builder.md). -/

namespace Sys2Proof.Machine

/-- FREQ_CLEAR (R140). -/
def execFreqClear (st : State) : Host.Outcome State Fault Refusal :=
  finishUnit (.ok () st.clearFreq)

/-- One iteration of FREQ_COUNT's loop: count the byte at address `i` of RAW (R141). -/
def countByte (i : Nat) (st : State) : Result Unit :=
  let b := st.memRead .raw i
  .ok () (st.setFreq b (st.freqAt b + 1))

/-- The body of FREQ_COUNT (R141): `RESULT` is `RAW_LEN`. -/
def freqCountBody (st : State) : Result Word :=
  if st.bufSize .raw < st.rawLen.toNat then .raised .illegalCommand st
  else (forLoop countByte st.rawLen.toNat 0 st.clearFreq).andThen fun _ st => .ok (st.rawLen.zeroExtend 64) st

/-- FREQ_COUNT (R141). -/
def execFreqCount (st : State) : Host.Outcome State Fault Refusal := finish (freqCountBody st)

/-- Step 1 of BUILD for one symbol: a fresh leaf, pushed, if the count is not zero (R143). -/
def collectLeaf (i : Nat) (st : State) : Result Unit :=
  let sym := symbolOf i
  if st.freqAt sym = 0 then .ok () st
  else (allocNode (Node.mkLeaf sym (st.freqAt sym)) st).andThen fun n st => heapPush n st

/-- One turn of BUILD's step 4: merge the two minima; a sum of 2^64 or more raises before the allocation (R143,
R144). -/
def mergeTwo (st : State) : Result Unit :=
  let (a, st) := heapPop st
  let (b, st) := heapPop st
  let f := (st.slot a).freq.toNat + (st.slot b).freq.toNat
  if 2 ^ 64 ≤ f then .raised .capacityExceeded st
  else (allocNode (Node.mkInternal (BitVec.ofNat 64 f) a b) st).andThen fun n st => heapPush n st

/-- `while HEAP_SIZE > 1` (R143). The first argument bounds the number of turns; the heap's size is enough, since every
turn leaves one entry less. -/
def mergeLoop : Nat → State → Result Unit
  | 0, st => .ok () st
  | fuel + 1, st =>
    if 1 < st.heapSize.val then (mergeTwo st).andThen fun _ st => mergeLoop fuel st
    else .ok () st

/-- The body of BUILD (R143): `RESULT` is the root's index. -/
def buildTree (st : State) : Result Word :=
  (forLoop collectLeaf Config.alphabet 0 st.arenaReset).andThen fun _ st =>
    if st.heapSize.val = 0 then .raised .emptyInput st
    else (mergeLoop st.heapSize.val st).andThen fun _ st =>
      let r := heapAt st.heap 0
      .ok (r.zeroExtend 64) { st with root := r, treeValid := true }

/-- BUILD (R143). -/
def execBuild (st : State) : Host.Outcome State Fault Refusal := finish (buildTree st)

end Sys2Proof.Machine
end

