-- ==== Sys2Proof/Machine/TreeCodec.lean ====
section
/-! DEFINITION. The tree serializer and deserializer, both on stream 0 (spec/44_tree_codec.md). -/

namespace Sys2Proof.Machine

/-- `save(i)` (R171). The first argument bounds the depth of the walk; `i + 1` is enough, since a child's index is
smaller than its parent's (R123), so case 0 is never met. -/
def saveNode : Nat → NodeIdx → State → Result Unit
  | 0, _, st => .raised .corruptTree st
  | fuel + 1, i, st =>
    match st.node? i with
    | none => .raised .corruptTree st
    | some r =>
      match r.kind with
      | .leaf =>
        (writeBit .tree true st).andThen fun _ st =>
          writeBits .tree (r.sym.zeroExtend 64) 8 st
      | .internal =>
        (writeBit .tree false st).andThen fun _ st =>
          match child? i r false with
          | none => .raised .corruptTree st
          | some l =>
            (saveNode fuel l st).andThen fun _ st =>
              match child? i r true with
              | none => .raised .corruptTree st
              | some c => saveNode fuel c st

/-- The body of TREE_SAVE (R171). -/
def treeSaveBody (st : State) : Result Unit :=
  inMode .tree .writer st fun st =>
    if st.treeValid then saveNode (st.root.toNat + 1) st.root st
    else .raised .corruptTree st

/-- TREE_SAVE (R171). -/
def execTreeSave (st : State) : Host.Outcome State Fault Refusal := finishUnit (treeSaveBody st)

/-- `load()` (R176): the index of the node read and the count of nodes entered so far, of which the second argument is
the count before. A node is counted when it is entered and numbered when it is complete. The first argument bounds the
depth; `ARENA_CAP + 1` is enough, since every enclosing node has been counted (R262), so case 0 is never met. -/
def loadNode : Nat → Nat → State → Result (NodeIdx × Nat)
  | 0, _, st => .raised .capacityExceeded st
  | fuel + 1, reserved, st =>
    (readBit .tree st).andThen fun m st =>
      if Config.arenaCap < reserved + 1 then .raised .capacityExceeded st
      else if m then
        (readBits .tree 8 st).andThen fun v st =>
          (allocNode (Node.mkLeaf (v.extractLsb' 0 8) 0) st).andThen fun i st =>
            .ok (i, reserved + 1) st
      else
        (loadNode fuel (reserved + 1) st).andThen fun l st =>
          (loadNode fuel l.2 st).andThen fun r st =>
            (allocNode (Node.mkInternal 0 l.1 r.1) st).andThen fun i st =>
              .ok (i, r.2) st

/-- TREE_LOAD after its mode check (R176): `RESULT` is the root's index. -/
def loadTree (st : State) : Result Word :=
  (loadNode (Config.arenaCap + 1) 0 st.arenaReset).andThen fun r st =>
    .ok (r.1.zeroExtend 64) { st with root := r.1, treeValid := true }

/-- The body of TREE_LOAD (R176). -/
def treeLoadBody (st : State) : Result Word := inMode .tree .reader st loadTree

/-- TREE_LOAD (R176). -/
def execTreeLoad (st : State) : Host.Outcome State Fault Refusal := finish (treeLoadBody st)

end Sys2Proof.Machine
end

