-- ==== Sys2Proof/Machine/Dispatch.lean ====
section
/-! DEFINITION. One arm per command (spec/30_encoding.md rule R83), each one call of its meaning. -/

namespace Sys2Proof.Machine

def exec (i : Instr) (s : State) : Host.Outcome State Fault Refusal :=
  match i with
  | .nop => Sys2Proof.Machine.execNop s
  | .ctxReset => Sys2Proof.Machine.execCtxReset s
  | .bsOpenW b => Sys2Proof.Machine.execBsOpenW b s
  | .bsOpenR b => Sys2Proof.Machine.execBsOpenR b s
  | .writeBit b => Sys2Proof.Machine.execWriteBit b s
  | .writeBits b n => Sys2Proof.Machine.execWriteBits b n s
  | .finalize b => Sys2Proof.Machine.execFinalize b s
  | .readBit b => Sys2Proof.Machine.execReadBit b s
  | .readBits b n => Sys2Proof.Machine.execReadBits b n s
  | .freqClear => Sys2Proof.Machine.execFreqClear s
  | .freqCount => Sys2Proof.Machine.execFreqCount s
  | .build => Sys2Proof.Machine.execBuild s
  | .codegen => Sys2Proof.Machine.execCodegen s
  | .treeSave => Sys2Proof.Machine.execTreeSave s
  | .treeLoad => Sys2Proof.Machine.execTreeLoad s
  | .encode => Sys2Proof.Machine.execEncode s
  | .decode => Sys2Proof.Machine.execDecode s

end Sys2Proof.Machine
end

