-- ==== Sys2Proof/Machine/Ports.lean ====
section
/-! DEFINITION. The two ports of the block and the reset input: what one host transaction does (spec/10_state.md rules
R20 to R40, spec/20_memory.md rule R60, spec/70_reset_and_hazards.md rule R250). -/

namespace Sys2Proof.Machine

/-! ## The register map (R22) -/

/-- What a register index names (R22). -/
inductive RegLoc where
  | cmd
  | status
  | result
  | errlog
  | arg0
  | rawLen
  | root
  | arenaCount
  | heapSize
  | bsMode (s : StreamSel)
  | bsByte (s : StreamSel)
  | bsBit (s : StreamSel)
  | bsHold (s : StreamSel)
  | bsLimit (s : StreamSel)
  | freq (sym : Symbol)
  | codePat (sym : Symbol)
  | codeLen (sym : Symbol)
  | nodeFreq (i : BitVec 9)
  | nodeInfo (i : BitVec 9)
  | heapEnt (i : BitVec 8)
  /-- An index the map does not list (R40). -/
  | unmapped
deriving DecidableEq, Repr

/-- The registers of indices 0x000 to 0x008 and the stream registers, `0x010 + 8·s + 0..4` (R22). -/
def lowLoc (n : Nat) : RegLoc :=
  match n with
  | 0x000 => .cmd
  | 0x001 => .status
  | 0x002 => .result
  | 0x003 => .errlog
  | 0x004 => .arg0
  | 0x005 => .rawLen
  | 0x006 => .root
  | 0x007 => .arenaCount
  | 0x008 => .heapSize
  | 0x010 => .bsMode .tree
  | 0x011 => .bsByte .tree
  | 0x012 => .bsBit .tree
  | 0x013 => .bsHold .tree
  | 0x014 => .bsLimit .tree
  | 0x018 => .bsMode .pay
  | 0x019 => .bsByte .pay
  | 0x01A => .bsBit .pay
  | 0x01B => .bsHold .pay
  | 0x01C => .bsLimit .pay
  | _     => .unmapped

/-- The location of a 12-bit index (R22): by its upper four bits a register, a table or a read window. -/
def regLoc (idx : BitVec 12) : RegLoc :=
  match (idx.extractLsb' 8 4).toNat with
  | 0x0 => lowLoc idx.toNat
  | 0x1 => .freq (idx.extractLsb' 0 8)
  | 0x2 => .codePat (idx.extractLsb' 0 8)
  | 0x3 => .codeLen (idx.extractLsb' 0 8)
  | 0x4 => .nodeFreq (idx.extractLsb' 0 9)
  | 0x5 => .nodeFreq (idx.extractLsb' 0 9)
  | 0x6 => .nodeInfo (idx.extractLsb' 0 9)
  | 0x7 => .nodeInfo (idx.extractLsb' 0 9)
  | 0x8 => .heapEnt (idx.extractLsb' 0 8)
  | _   => .unmapped

/-! ## Register reads -/

/-- The 2-bit value of `BS_MODE` (R35). -/
def StreamMode.bits : StreamMode → BitVec 2
  | .closed => 0
  | .writer => 1
  | .reader => 2

/-- The stored bit of a node's kind (R32). -/
def NodeKind.bits : NodeKind → BitVec 1
  | .internal => 0
  | .leaf     => 1

/-- The packing of `NODE_INFO` (R39): `kind` in bit [0], `sym` in [15:8], `left` in [25:16], `right` in [41:32]. -/
def Node.info (r : Node) : Word :=
  r.kind.bits.zeroExtend 64 ||| (r.sym.zeroExtend 64 <<< 8)
    ||| (r.left.zeroExtend 64 <<< 16) ||| (r.right.zeroExtend 64 <<< 32)

/-- A read of a window beyond the live entries: a free value (R39, U3). -/
def State.readFree (st : State) : State := { st.dropFree with reply := st.freeValue }

/-- A read that returns `v` to the host. -/
def State.answer (st : State) (v : Word) : State := { st with reply := v }

/-- `RegRead` at a location: the value goes to the host; nothing of the block changes (R22, R39, R40). -/
def readLoc (l : RegLoc) (st : State) : State :=
  match l with
  | .cmd        => st.answer 0
  | .status     => st.answer (statusWord st.status st.treeValid)
  | .result     => st.answer st.result
  | .errlog     => st.answer (errlogWord st.errlog)
  | .arg0       => st.answer st.arg0
  | .rawLen     => st.answer (st.rawLen.zeroExtend 64)
  | .root       => st.answer (st.root.zeroExtend 64)
  | .arenaCount => st.answer (BitVec.ofNat 64 st.arenaCount.val)
  | .heapSize   => st.answer (BitVec.ofNat 64 st.heapSize.val)
  | .bsMode s   => st.answer ((st.bs s).mode.bits.zeroExtend 64)
  | .bsByte s   => st.answer ((st.bs s).byte.zeroExtend 64)
  | .bsBit s    => st.answer ((st.bs s).bit.zeroExtend 64)
  | .bsHold s   => st.answer ((st.bs s).hold.zeroExtend 64)
  | .bsLimit s  => st.answer ((st.bs s).limit.zeroExtend 64)
  | .freq sym   => st.answer (st.freqAt sym)
  | .codePat y  => st.answer (st.codeAt y).pat
  | .codeLen y  => st.answer ((st.codeAt y).len.zeroExtend 64)
  | .nodeFreq i =>
    if i.toNat < st.arenaCount.val then st.answer (st.slot (i.zeroExtend 10)).freq else st.readFree
  | .nodeInfo i =>
    if i.toNat < st.arenaCount.val then st.answer (st.slot (i.zeroExtend 10)).info else st.readFree
  | .heapEnt i  =>
    if i.toNat < st.heapSize.val then st.answer ((heapAt st.heap i.toNat).zeroExtend 64) else st.readFree
  | .unmapped   => st.answer 0

/-! ## Register writes -/

/-- A write to `CMD` (R23, R85): the command runs to its end; a value that is no command ends with `ILLEGAL_COMMAND` and
"nothing else happens". -/
def issue (v : Word) (st : State) : Host.Outcome State Fault Refusal :=
  match decode v with
  | .command i => exec i st
  | .illegal _ => finish (.raised .illegalCommand st)

/-- `RegWrite` at a location other than `CMD`: `ERRLOG`, `ARG0`, `RAW_LEN` and `FREQ` can be written; a write anywhere
else "changes nothing" (R22, R26, R27, R40). -/
def writeLoc (l : RegLoc) (v : Word) (st : State) : State :=
  match l with
  | .errlog   => { st with errlog := clearErrors st.errlog v }
  | .arg0     => { st with arg0 := v }
  | .rawLen   => { st with rawLen := v.extractLsb' 0 32 }
  | .freq sym => st.setFreq sym v
  | _         => st

/-! ## The buffer port (R60) -/

/-- The space a 2-bit selector names; 3 names none (R60). -/
def spaceOf (sp : BitVec 2) : Option Space :=
  match sp.toNat with
  | 0 => some .tree
  | 1 => some .pay
  | 2 => some .raw
  | _ => none

/-- `BufRead(sp, a)`: 0 where there is no such byte (R60). -/
def bufRead (sp : BitVec 2) (a : BitVec 32) (st : State) : State :=
  match spaceOf sp with
  | some x => st.answer ((st.memRead x a.toNat).zeroExtend 64)
  | none   => st.answer 0

/-- `BufWrite(sp, a, v)`: nothing where there is no such byte (R60). -/
def bufWrite (sp : BitVec 2) (a : BitVec 32) (v : Byte) (st : State) : State :=
  match spaceOf sp with
  | some x => st.memWrite x a.toNat v
  | none   => st

/-! ## Reset (R250) -/

/-- The reset input: "a transition from any state to the reset state" (R250). The parameters are not state of the block
(R41), and what the host has still to do, has read, and the free values used are not the block's. -/
def State.resetInput (st : State) : State :=
  { State.resetWith st.params with host := st.host, reply := st.reply, freeIdx := st.freeIdx }

/-! ## One transaction -/

/-- What one host transaction does (R20): "the step of a write to `CMD` contains the whole command". -/
def transact (t : HostTxn) (st : State) : Host.Outcome State Fault Refusal :=
  match t with
  | .regRead idx      => .next (readLoc (regLoc idx) st)
  | .regWrite idx v   =>
    match regLoc idx with
    | .cmd => issue v st
    | l    => .next (writeLoc l v st)
  | .bufRead sp a     => .next (bufRead sp a st)
  | .bufWrite sp a v  => .next (bufWrite sp a v st)
  | .reset            => .next st.resetInput

/-- The next host transaction, taken off the list of those still to come; with none the block waits (R250). -/
def nextTransaction (st : State) : Host.Outcome State Fault Refusal :=
  match st.host with
  | []      => .next st
  | t :: ts => transact t { st with host := ts }

/-- The host issues value `v` as its very next transaction. -/
def State.issueNext (st : State) (v : Word) : State :=
  { st with host := .regWrite 0x000 v :: st.host }

end Sys2Proof.Machine
end

