-- ==== Sys2Proof/Machine/Step.lean ====
section
/-! DEFINITION. One step is one host transaction (spec/10_state.md rule R20). -/

namespace Sys2Proof.Machine

/-- One step of the machine (R20): the next host transaction, whole. -/
def step (s : State) : Host.Outcome State Fault Refusal := nextTransaction s

/-- `s` with an instruction word of the opcode table placed where the block takes its next instruction from: as the host's
next transaction, a write to `CMD` (R23, R24; log 4). -/
def State.withFetchWord (s : State) (nbits w : Nat) : State := s.issueNext (tableValue nbits w)

end Sys2Proof.Machine
end

