-- ==== Sys2Proof/Machine/Bodies.lean ====
section
/-! DEFINITION. What each command does before its epilogue (spec/60_exceptions.md rule R224): the outcome its meaning
gives `finish`, under one name, for statements about every command. -/

namespace Sys2Proof.Machine

/-- "everything the command's own rule did" (R224); a command with no natural result ends with `RESULT <- 0` (R21). -/
def body : Instr → State → Result Word
  | .nop, st           => .ok 0 st
  | .ctxReset, st      => .ok 0 st.freshContext
  | .bsOpenW s, st     => (openStream s .writer st).andThen fun _ t => .ok 0 t
  | .bsOpenR s, st     => (openStream s .reader st).andThen fun _ t => .ok 0 t
  | .writeBit s, st    => (writeBitBody s st).andThen fun _ t => .ok 0 t
  | .writeBits s n, st => (writeBitsBody s n st).andThen fun _ t => .ok 0 t
  | .finalize s, st    => finalizeBody s st
  | .readBit s, st     => readBitBody s st
  | .readBits s n, st  => readBitsBody s n st
  | .freqClear, st     => .ok 0 st.clearFreq
  | .freqCount, st     => freqCountBody st
  | .build, st         => buildTree st
  | .codegen, st       => (generateCodes st).andThen fun _ t => .ok 0 t
  | .treeSave, st      => (treeSaveBody st).andThen fun _ t => .ok 0 t
  | .treeLoad, st      => treeLoadBody st
  | .encode, st        => (encodeBody st).andThen fun _ t => .ok 0 t
  | .decode, st        => decodeBody st

end Sys2Proof.Machine
end

