-- ==== Sys2Proof/Machine/Script.lean ====
section
/-! DEFINITION. The script lines and pseudo-instructions of spec/30_encoding.md rules R88 and R89, as the host
transactions they stand for. An `expect` line is a check, not a transaction, and has no counterpart here. -/

namespace Sys2Proof.Machine.Script

/-- A run of host transactions, first first. -/
abbrev Lines := List HostTxn

/-- A command by its mnemonic: `RegWrite(0x000, word)` (R88). -/
def command (i : Instr) : Lines := [.regWrite 0x000 (commandValue i)]

/-- `cmd w` (R88). -/
def cmd (w : Word) : Lines := [.regWrite 0x000 w]

/-- `arg0 v` (R88). -/
def arg0 (v : Word) : Lines := [.regWrite 0x004 v]

/-- `rawlen v` (R88). -/
def rawlen (v : Word) : Lines := [.regWrite 0x005 v]

/-- `freq sym, v`: `RegWrite(0x100 + sym, v)` (R88). -/
def freq (sym : Symbol) (v : Word) : Lines := [.regWrite (0x100 + sym.zeroExtend 12) v]

/-- `errclr v` (R88). -/
def errclr (v : Word) : Lines := [.regWrite 0x003 v]

/-- The selector of a buffer space: TREE = 0, PAY = 1, RAW = 2 (R60). -/
def spaceSel : Space → BitVec 2
  | .tree => 0
  | .pay  => 1
  | .raw  => 2

/-- `buf sp, a: b0 b1 …`: `BufWrite(sp, a + i, bi)` for each byte given (R88). DESIGN CHOICE (log 13): the spec does not say
what a line stands for whose `a + i` passes 2^32 - 1; here the addition is of 32 bits, as the port's address is (R60), so
the line goes on at address 0. -/
def buf (sp : Space) (a : BitVec 32) : List Byte → Lines
  | []      => []
  | b :: bs => .bufWrite (spaceSel sp) a b :: buf sp (a + 1) bs

/-- `OPENW s, limit` (R89). -/
def openW (s : StreamSel) (limit : Word) : Lines := arg0 limit ++ command (.bsOpenW s)

/-- `OPENR s, limit` (R89). -/
def openR (s : StreamSel) (limit : Word) : Lines := arg0 limit ++ command (.bsOpenR s)

/-- `WBIT s, b` (R89). -/
def wbit (s : StreamSel) (b : Word) : Lines := arg0 b ++ command (.writeBit s)

/-- `WBITS s, n, v` (R89). -/
def wbits (s : StreamSel) (n : BitVec 7) (v : Word) : Lines := arg0 v ++ command (.writeBits s n)

/-- `DEC count` (R89). -/
def dec (count : Word) : Lines := arg0 count ++ command .decode

/-- `HUF_ENCODE tcap, pcap` (R89). -/
def hufEncode (tcap pcap : Word) : Lines :=
  command .freqCount ++ command .build ++ command .codegen
    ++ openW .tree tcap ++ command .treeSave ++ command (.finalize .tree)
    ++ openW .pay pcap ++ command .encode ++ command (.finalize .pay)

/-- `HUF_DECODE tlen, plen, count` (R89). -/
def hufDecode (tlen plen count : Word) : Lines :=
  openR .tree tlen ++ command .treeLoad ++ openR .pay plen ++ dec count

end Sys2Proof.Machine.Script
end

