-- ==== Sys2Proof/Safety.lean ====
section
/-! DEFINITION. The terms claims use: streams as bit strings (spec/20_memory.md rules R63 and R64), trees and codes
(R161, R170, R190, R195), and the invariants of the spec (R26, R28, R33, R36, R126, R163). A safe run of this block is
one whose every state meets them; no run stops. -/

namespace Sys2Proof.Machine

/-! ## Fields as bit strings (R64) -/

/-- The `n` low bits of `v`, most significant first: "the first of them is `v[count − 1]`, the last is `v[0]`". -/
def fieldBits {w : Nat} (v : BitVec w) (n : Nat) : List Bool :=
  (List.range n).map fun i => v.getLsbD (n - 1 - i)

/-- The number whose binary digits are the bits, the first the most significant. -/
def bitsToNat (bs : List Bool) : Nat := bs.foldl (fun a b => 2 * a + b.toNat) 0

/-! ## Streams as bit strings (R63, R113) -/

/-- How many bits the stream has moved since it was opened (R113). -/
def Stream.pos (q : Stream) : Nat := 8 * q.byte.toNat + q.bit.toNat

/-- Bit number `n` of a buffer: "bit `7 − (n mod 8)` of `BUF[s][n div 8]`" (R63). -/
def State.bufBit (st : State) (sp : Space) (n : Nat) : Bool :=
  (st.memRead sp (n / 8)).getLsbD (7 - n % 8)

/-- The bits of a writer: those committed to the buffer, then those pending in `hold` (R36). -/
def State.written (st : State) (s : StreamSel) : List Bool :=
  ((List.range (8 * (st.bs s).byte.toNat)).map fun n => st.bufBit (streamSpace s) n)
    ++ (List.range (st.bs s).bit.toNat).map fun k => (st.bs s).hold.getLsbD (7 - k)

/-- Bit number `n` as an open reader sees it: from the latch in a byte it has entered (R37), else from the buffer. -/
def State.readerBit (st : State) (s : StreamSel) (n : Nat) : Bool :=
  if n / 8 = (st.bs s).byte.toNat ∧ (st.bs s).bit ≠ 0 then (st.bs s).hold.getLsbD (7 - n % 8)
  else st.bufBit (streamSpace s) n

/-- The bits a reader can still deliver: from its cursor to its limit. -/
def State.unread (st : State) (s : StreamSel) : List Bool :=
  (List.range (8 * (st.bs s).limit.toNat - (st.bs s).pos)).map fun j => st.readerBit s ((st.bs s).pos + j)

/-- What the latch of an open reader holds when its cursor has come from where it is in `st` to bit number `p`: what it
held, if no byte was entered on the way, else the byte entered last (R37). -/
def State.latchAt (st : State) (s : StreamSel) (p : Nat) : Byte :=
  if p = (st.bs s).pos ∨ ((p - 1) / 8 = (st.bs s).byte.toNat ∧ (st.bs s).bit ≠ 0) then (st.bs s).hold
  else st.memRead (streamSpace s) ((p - 1) / 8)

/-- How many bits a writer still takes before it overflows (R103). -/
def Stream.space (q : Stream) : Nat := 8 * q.limit.toNat + 7 - q.pos

/-- A writer has room for `n` more bits: every byte they complete can be committed below `limit` (R103). -/
def Stream.hasRoom (q : Stream) (n : Nat) : Prop := (q.pos + n) / 8 ≤ q.limit.toNat

/-! ## How a command ends (R224) -/

/-- The command ran to completion: it left `t`, and the epilogue put `v` into `RESULT` and `OK` into `STATUS.CODE`. -/
def EndsOk (o : Host.Outcome State Fault Refusal) (v : Word) (t : State) : Prop :=
  o = .next { t with status := .ok, result := v }

/-- The command failed with code `k`: it left `t`, the epilogue put `k` into `STATUS.CODE` and set its `ERRLOG` bit, and
nothing is said of `RESULT` (U1) nor of the count of free values used. -/
def EndsIn (o : Host.Outcome State Fault Refusal) (k : ErrorKind) (t : State) : Prop :=
  ∃ r n, o = .next { t with status := .error k, errlog := t.errlog ||| k.logBit, result := r, freeIdx := n }

/-! ## Reset (R42) -/

/-- The values of the table of R42; nothing is said of what it leaves unspecified. -/
structure ResetValues (st : State) : Prop where
  arg0       : st.arg0 = 0
  result     : st.result = 0
  status     : st.status = .ok
  treeValid  : st.treeValid = false
  root       : st.root = 0x3FF
  errlog     : st.errlog = 0
  rawLen     : st.rawLen = 0
  arenaCount : st.arenaCount = 0
  heapSize   : st.heapSize = 0
  streams    : ∀ s : StreamSel, st.bs s = { mode := .closed, byte := 0, bit := 0, hold := 0, limit := 0 }
  freq       : ∀ y : Symbol, st.freqAt y = 0
  code       : ∀ y : Symbol, st.codeAt y = { pat := 0, len := 0 }

/-! ## What a command can touch -/

/-- Only the registers of stream `s`. -/
def OnlyStream (s : StreamSel) (st t : State) : Prop := t = st.setBs s (t.bs s)

/-- Only the registers of stream `s` and its buffer. -/
def OnlyWriter (s : StreamSel) (st t : State) : Prop :=
  t = (st.setBs s (t.bs s)).setBuf (streamSpace s) (t.buf (streamSpace s))

/-- Only the frequency table. -/
def OnlyFreq (st t : State) : Prop := t = { st with freq := t.freq }

/-- Only the code table. -/
def OnlyCode (st t : State) : Prop := t = { st with code := t.code }

/-- Only the arena, the heap, `ROOT` and `TREE_VALID`. -/
def OnlyTree (st t : State) : Prop :=
  t = { st with arena := t.arena, arenaCount := t.arenaCount, heap := t.heap, heapSize := t.heapSize,
                root := t.root, treeValid := t.treeValid }

/-- Only what `OnlyTree` names and stream 0. -/
def OnlyLoad (st t : State) : Prop :=
  t = { st with bsTree := t.bsTree, arena := t.arena, arenaCount := t.arenaCount, heap := t.heap,
                heapSize := t.heapSize, root := t.root, treeValid := t.treeValid }

/-- Only stream 1, the RAW buffer and `RAW_LEN`. -/
def OnlyDecode (st t : State) : Prop :=
  t = { st with bsPay := t.bsPay, rawBuf := t.rawBuf, rawLen := t.rawLen }

/-- Every byte of every buffer reads as before, but for those of space `sp` at addresses `lo` to `hi - 1`. -/
def BytesKept (sp : Space) (lo hi : Nat) (st t : State) : Prop :=
  ∀ x a, ¬ (x = sp ∧ lo ≤ a ∧ a < hi) → t.memRead x a = st.memRead x a

/-! ## Runs of procedures and of host transactions -/

/-- One `writeBit` call for each bit, in order. -/
def writeList (s : StreamSel) : List Bool → State → Result Unit
  | [], st => .ok () st
  | b :: bs, st => (writeBit s b st).andThen fun _ st => writeList s bs st

/-- `n` calls of `readBit`, and the bits they return. -/
def readList (s : StreamSel) : Nat → State → Result (List Bool)
  | 0, st => .ok [] st
  | n + 1, st => (readBit s st).andThen fun b st =>
      (readList s n st).andThen fun bs st => .ok (b :: bs) st

/-- A stream just opened (R100, R101). -/
def Stream.opened (m : StreamMode) (limit : Length) : Stream :=
  { mode := m, byte := 0, bit := 0, hold := 0, limit := limit }

/-- The machine after the host has made the transactions `ls`, one a step. -/
def runLines (ls : Script.Lines) (st : State) : Host.Outcome State Fault Refusal :=
  Host.Core.run Sys2Proof.core ls.length { st with host := ls }

/-! ## Decoding as a list of tests (R85) -/

/-- The 17 opcodes of R83. -/
def opcodes : List Nat :=
  [0x00, 0x01, 0x10, 0x11, 0x12, 0x13, 0x14, 0x15, 0x16, 0x40, 0x41, 0x50, 0x51, 0x52, 0x53, 0x60, 0x61]

/-- The opcodes whose command uses `S` (R83). -/
def streamOpcodes : List Nat := [0x10, 0x11, 0x12, 0x13, 0x14, 0x15, 0x16]

/-- The opcodes whose command uses `N` (R83). -/
def countOpcodes : List Nat := [0x13, 0x16]

/-- Steps 1 to 6 of R85 in their order: the first test a value fails. -/
def firstFailing (v : Word) : Option DecodeError :=
  let w : BitVec 32 := v.extractLsb' 0 32
  let opc := (w.extractLsb' 0 8).toNat
  if v.extractLsb' 32 32 ≠ 0 then some .upperHalf
  else if opc ∉ opcodes then some .reservedOpcode
  else if w.extractLsb' 9 7 ≠ 0 ∨ w.extractLsb' 23 9 ≠ 0 then some .reservedBits
  else if opc ∉ streamOpcodes ∧ w.getLsbD 8 = true then some .strayS
  else if opc ∉ countOpcodes ∧ w.extractLsb' 16 7 ≠ 0 then some .strayN
  else if opc ∈ countOpcodes ∧ 64 < (w.extractLsb' 16 7).toNat then some .countTooLarge
  else none

/-! ## The commands (R61, R82, R222) -/

/-- The rows of R222: the error kinds a command's own rule can raise. -/
def errorsOf : Instr → List ErrorKind
  | .nop           => []
  | .ctxReset      => []
  | .bsOpenW _     => [.illegalCommand]
  | .bsOpenR _     => [.illegalCommand]
  | .writeBit _    => [.overflow, .illegalCommand]
  | .writeBits _ _ => [.overflow, .illegalCommand]
  | .finalize _    => [.overflow, .illegalCommand]
  | .readBit _     => [.truncated, .illegalCommand]
  | .readBits _ _  => [.truncated, .illegalCommand]
  | .freqClear     => []
  | .freqCount     => [.illegalCommand]
  | .build         => [.emptyInput, .capacityExceeded]
  | .codegen       => [.capacityExceeded, .corruptTree]
  | .treeSave      => [.overflow, .corruptTree, .illegalCommand]
  | .treeLoad      => [.capacityExceeded, .truncated, .illegalCommand]
  | .encode        => [.overflow, .unencodableSymbol, .illegalCommand]
  | .decode        => [.overflow, .truncated, .corruptTree, .illegalCommand]

/-- The streams a command works on or sets (R61, R211). -/
def usesStream : Instr → StreamSel → Bool
  | .nop, _           => false
  | .ctxReset, _      => true
  | .bsOpenW r, s     => r = s
  | .bsOpenR r, s     => r = s
  | .writeBit r, s    => r = s
  | .writeBits r _, s => r = s
  | .finalize r, s    => r = s
  | .readBit r, s     => r = s
  | .readBits r _, s  => r = s
  | .freqClear, _     => false
  | .freqCount, _     => false
  | .build, _         => false
  | .codegen, _       => false
  | .treeSave, s      => s = .tree
  | .treeLoad, s      => s = .tree
  | .encode, s        => s = .pay
  | .decode, s        => s = .pay

/-- The commands that write through a stream (R61). -/
def writesStream : Instr → StreamSel → Bool
  | .nop, _           => false
  | .ctxReset, _      => false
  | .bsOpenW _, _     => false
  | .bsOpenR _, _     => false
  | .writeBit r, s    => r = s
  | .writeBits r _, s => r = s
  | .finalize r, s    => r = s
  | .readBit _, _     => false
  | .readBits _ _, _  => false
  | .freqClear, _     => false
  | .freqCount, _     => false
  | .build, _         => false
  | .codegen, _       => false
  | .treeSave, s      => s = .tree
  | .treeLoad, _      => false
  | .encode, s        => s = .pay
  | .decode, _        => false

/-- The commands that read through a stream (R61). -/
def readsStream : Instr → StreamSel → Bool
  | .nop, _           => false
  | .ctxReset, _      => false
  | .bsOpenW _, _     => false
  | .bsOpenR _, _     => false
  | .writeBit _, _    => false
  | .writeBits _ _, _ => false
  | .finalize _, _    => false
  | .readBit r, s     => r = s
  | .readBits r _, s  => r = s
  | .freqClear, _     => false
  | .freqCount, _     => false
  | .build, _         => false
  | .codegen, _       => false
  | .treeSave, _      => false
  | .treeLoad, s      => s = .tree
  | .encode, _        => false
  | .decode, s        => s = .pay

/-- The values of `ARG0` a command tells apart (R82): all of them for an operand of 32 bits, one bit or `N` bits for the
writers, none for the rest. -/
def sameOperand : Instr → Word → Word → Prop
  | .nop, _, _           => True
  | .ctxReset, _, _      => True
  | .bsOpenW _, v, w     => v = w
  | .bsOpenR _, v, w     => v = w
  | .writeBit _, v, w    => v.getLsbD 0 = w.getLsbD 0
  | .writeBits _ n, v, w => ∀ j, j < n.toNat → v.getLsbD j = w.getLsbD j
  | .finalize _, _, _    => True
  | .readBit _, _, _     => True
  | .readBits _ _, _, _  => True
  | .freqClear, _, _     => True
  | .freqCount, _, _     => True
  | .build, _, _         => True
  | .codegen, _, _       => True
  | .treeSave, _, _      => True
  | .treeLoad, _, _      => True
  | .encode, _, _        => True
  | .decode, v, w        => v = w

/-! ## The frequency table (R142, R146) -/

/-- The sum of all counts. -/
def State.totalFreq (st : State) : Nat := ((List.range 256).map fun i => (st.freqAt (symbolOf i)).toNat).sum

/-- The symbols with a count that is not zero, in ascending order. -/
def State.usedSymbols (st : State) : List Symbol :=
  ((List.range 256).map symbolOf).filter fun y => st.freqAt y ≠ 0

/-! ## Trees (R33, R161, R170, R195) -/

/-- A full binary tree with a symbol on every leaf. -/
inductive Tree where
  | leaf (sym : Symbol)
  | node (l r : Tree)
deriving DecidableEq, Repr

/-- The number of leaves. -/
def Tree.leaves : Tree → Nat
  | .leaf _   => 1
  | .node l r => l.leaves + r.leaves

/-- The most edges between the root and a leaf. -/
def Tree.depth : Tree → Nat
  | .leaf _   => 0
  | .node l r => 1 + max l.depth r.depth

/-- The serialized tree `T(x)` of R170. -/
def Tree.bits : Tree → List Bool
  | .leaf y   => true :: fieldBits y 8
  | .node l r => false :: (l.bits ++ r.bits)

/-- Every leaf's symbol with the branch bits from the root to it, left = 0, right = 1, in pre-order (R161). -/
def Tree.paths : Tree → List (Symbol × List Bool)
  | .leaf y   => [(y, [])]
  | .node l r => (l.paths.map fun p => (p.1, false :: p.2)) ++ r.paths.map fun p => (p.1, true :: p.2)

/-- The sum over the leaves of count times depth: the bits a payload takes (R147, R192). -/
def Tree.cost (f : Symbol → Word) (t : Tree) : Nat := (t.paths.map fun p => (f p.1).toNat * p.2.length).sum

/-- One walk of DECODE: the symbol reached and the bits left, `none` if the bits run out (R195). -/
def Tree.walk : Tree → List Bool → Option (Symbol × List Bool)
  | .leaf y, bs           => some (y, bs)
  | .node _ _, []         => none
  | .node l _, false :: bs => l.walk bs
  | .node _ r, true :: bs  => r.walk bs

/-- `k` walks one after another: the symbols and the bits left. -/
def Tree.decodeMany (t : Tree) : Nat → List Bool → Option (List Symbol × List Bool)
  | 0, bs => some ([], bs)
  | k + 1, bs =>
    match t.walk bs with
    | none => none
    | some (y, bs') =>
      match t.decodeMany k bs' with
      | none => none
      | some (ys, rest) => some (y :: ys, rest)

/-- The arena of `st` holds the tree `t` at slot `i`, as the checked accessors of R123 see it. -/
def Holds (st : State) : Tree → NodeIdx → Prop
  | .leaf y, i => ∃ r, st.node? i = some r ∧ r.kind = .leaf ∧ r.sym = y
  | .node a b, i => ∃ r l c, st.node? i = some r ∧ r.kind = .internal ∧
      child? i r false = some l ∧ child? i r true = some c ∧ Holds st a l ∧ Holds st b c

/-! ## A tree cut short (R176)

Where a load stands inside a tree: for every internal node entered and not complete, from the root down, `none` while its
left child is read, and `some l` with the complete left child `l` while its right child is. -/

/-- The nodes entered and not complete. -/
abbrev Unfinished := List (Option Tree)

/-- The bits read so far: each of these nodes' marker 0, with the bits of its complete left child. -/
def Unfinished.bits (z : Unfinished) : List Bool :=
  z.flatMap fun
    | none   => [false]
    | some l => false :: l.bits

/-- The nodes entered so far: these, and the `2L - 1` of each complete left child. -/
def Unfinished.entered (z : Unfinished) : Nat :=
  (z.map fun
    | none   => 1
    | some l => 2 * l.leaves).sum

/-- The nodes complete so far. -/
def Unfinished.complete (z : Unfinished) : Nat :=
  (z.map fun
    | none   => 0
    | some l => 2 * l.leaves - 1).sum

/-- Where a load that finds `bits` stops inside the tree, after how many bits, and with which error (R176): right after
the marker of the 512th node entered; before a marker, out of bits; or inside a leaf's symbol, out of bits. -/
inductive LoadStops (bits : List Bool) : Unfinished → Nat → ErrorKind → Prop where
  | full {z : Unfinished} {m : Bool} {rest : List Bool} :
      bits = z.bits ++ m :: rest → z.entered = 511 → LoadStops bits z (z.bits.length + 1) .capacityExceeded
  | noMarker {z : Unfinished} :
      bits = z.bits → z.entered ≤ 511 → LoadStops bits z bits.length .truncated
  | noSymbol {z : Unfinished} {part : List Bool} :
      bits = z.bits ++ true :: part → part.length < 8 → z.entered ≤ 510 → LoadStops bits z bits.length .truncated

/-- From `st` to `t` a load failed inside the tree at `z`, `n` bits read: no tree and an empty heap, in the arena the
complete nodes and nothing else, every frequency 0, the reader's mode and limit as before. -/
structure LoadFailed (z : Unfinished) (n : Nat) (st t : State) : Prop where
  only       : OnlyLoad st t
  treeValid  : t.treeValid = false
  root       : t.root = 0x3FF
  heapSize   : t.heapSize.val = 0
  arenaCount : t.arenaCount.val = z.complete
  holds      : ∀ l, some l ∈ z → ∃ i, Holds t l i
  freq       : ∀ i : NodeIdx, i.toNat < t.arenaCount.val → (t.slot i).freq = 0
  unread     : t.unread .tree = (st.unread .tree).drop n
  pos        : (t.bs .tree).pos = (st.bs .tree).pos + n
  mode       : (t.bs .tree).mode = .reader
  limit      : (t.bs .tree).limit = (st.bs .tree).limit

/-! ## Codes (R161, R190) -/

/-- The code of a leaf reached by the branch bits `p`: length 1 and pattern 0 for the root of a one-leaf tree (R161). -/
def pathCode (p : List Bool) : CodeEntry :=
  { pat := BitVec.ofNat 64 (bitsToNat p), len := if p = [] then 1 else BitVec.ofNat 7 p.length }

/-- The code a symbol has once the leaves of a list have been met in order: that of its last one (R164), or none. -/
def lastCode (ps : List (Symbol × List Bool)) (y : Symbol) : CodeEntry :=
  match (ps.filter fun p => p.1 = y).getLast? with
  | some p => pathCode p.2
  | none   => CodeEntry.unassigned

/-- The code a walk of the whole tree leaves for a symbol. -/
def Tree.codeOf (t : Tree) (y : Symbol) : CodeEntry := lastCode t.paths y

/-- The leaves a walk meets before it first steps to a node `d` edges below the root (R162). The first leaf at depth `d` or
more is the first below that node. -/
def Tree.leavesAbove (t : Tree) (d : Nat) : List (Symbol × List Bool) := t.paths.takeWhile fun p => p.2.length < d

/-- "the `CODE[x].len` bits of `CODE[x].pat`, most significant of those bits first" (R190). -/
def CodeEntry.bits (e : CodeEntry) : List Bool := fieldBits e.pat e.len.toNat

/-- The codes of a byte string one after another: the payload of R190. -/
def State.codeBits (st : State) (xs : List Byte) : List Bool := xs.flatMap fun x => (st.codeAt x).bits

/-- The bytes `RAW[0 .. n − 1]`. -/
def State.rawBytes (st : State) (n : Nat) : List Byte := (List.range n).map fun i => st.memRead .raw i

/-! ## The heap (R125, R126) -/

/-- The live entries `HEAP[0 .. HEAP_SIZE − 1]`. -/
def State.liveHeap (st : State) : List NodeIdx := (List.range st.heapSize.val).map fun p => heapAt st.heap p

/-- R126: for every p with 0 < p < `HEAP_SIZE`, `key(parent(p)) ≤ key(p)`. -/
def HeapOrdered (st : State) : Prop :=
  ∀ p, 0 < p → p < st.heapSize.val →
    st.nodeKey (heapAt st.heap (parentPos p)) ≤ st.nodeKey (heapAt st.heap p)

/-- Of the children of position `p` below `size`, the one with the smaller key, the left one if the keys are equal. -/
def lighterChild (key : NodeIdx → Word) (size : Nat) (h : HeapArray) (p : Nat) : Nat :=
  if rightPos p < size ∧ key (heapAt h (rightPos p)) < key (heapAt h (leftPos p)) then rightPos p else leftPos p

/-- A push of `n` onto `size` entries (R127): `n` rises from position `size` past `k` ancestors, all of strictly greater
key, and stops below one that is not; each of them moves down one step of that path, and no other entry moves. -/
structure Rises (key : NodeIdx → Word) (size : Nat) (n : NodeIdx) (k : Nat) (h h' : HeapArray) : Prop where
  above : ∀ j, j < k → 0 < parentPos^[j] size ∧ key n < key (heapAt h (parentPos^[j + 1] size))
  stops : parentPos^[k] size = 0 ∨ key (heapAt h (parentPos^[k + 1] size)) ≤ key n
  at_   : heapAt h' (parentPos^[k] size) = n
  moved : ∀ j, j < k → heapAt h' (parentPos^[j] size) = heapAt h (parentPos^[j + 1] size)
  other : ∀ q, q < size → (∀ j, j ≤ k → q ≠ parentPos^[j] size) → heapAt h' q = heapAt h q

/-- A pop that leaves `size` entries, `size` not 0 (R128): the entry `n` from the old last position falls from position 0
past `k` entries, at each step the lighter child and of strictly smaller key, and stops above children that are not; each
of them moves up one step of that path, and no other entry moves. -/
structure Falls (key : NodeIdx → Word) (size : Nat) (n : NodeIdx) (k : Nat) (h h' : HeapArray) : Prop where
  below : ∀ j, j < k → (lighterChild key size h)^[j + 1] 0 < size ∧
            key (heapAt h ((lighterChild key size h)^[j + 1] 0)) < key n
  stops : size ≤ (lighterChild key size h)^[k + 1] 0 ∨ key n ≤ key (heapAt h ((lighterChild key size h)^[k + 1] 0))
  at_   : heapAt h' ((lighterChild key size h)^[k] 0) = n
  moved : ∀ j, j < k → heapAt h' ((lighterChild key size h)^[j] 0) = heapAt h ((lighterChild key size h)^[j + 1] 0)
  other : ∀ q, q < size → (∀ j, j ≤ k → q ≠ (lighterChild key size h)^[j] 0) → heapAt h' q = heapAt h q

/-! ## Invariants -/

/-- R36 for one stream on a buffer of `size` bytes. -/
structure Stream.Ok (q : Stream) (size : Nat) : Prop where
  byte_le  : q.byte.toNat ≤ q.limit.toNat
  limit_le : q.limit.toNat ≤ size
  padded   : q.mode = .writer → ∀ j, j < 8 - q.bit.toNat → q.hold.getLsbD j = false
  entered  : q.mode = .reader → q.bit ≠ 0 → q.byte.toNat < q.limit.toNat

/-- R36 for both streams. -/
def StreamsOk (st : State) : Prop := ∀ s, (st.bs s).Ok (st.bufSize (streamSpace s))

/-- A buffer's contents are in canonical form and lie below its physical size (R60, R69). -/
def BufferOk (m : Memory) (size : Nat) : Prop := m.wf = true ∧ ∀ c ∈ m, c.1 < size

/-- The three buffers. -/
def BuffersOk (st : State) : Prop := ∀ sp, BufferOk (st.buf sp) (st.bufSize sp)

/-- Slot `c` is a child of slot `i`, both in use. -/
def ChildOf (st : State) (c i : NodeIdx) : Prop :=
  i.toNat < st.arenaCount.val ∧ (st.slot i).kind = .internal ∧ ((st.slot i).left = c ∨ (st.slot i).right = c)

/-- Slot `j` can be reached from slot `i` through child references. -/
inductive Reaches (st : State) : NodeIdx → NodeIdx → Prop where
  | here (i : NodeIdx) : Reaches st i i
  | down {i c j : NodeIdx} : ChildOf st c i → Reaches st c j → Reaches st i j

/-- R33 items 1 and 2, and R32's "0 in an internal node", for one record in slot `i`. -/
structure Node.Ok (r : Node) (i : NodeIdx) : Prop where
  internal : r.kind = .internal → r.left < i ∧ r.right < i ∧ r.left ≠ r.right ∧ r.sym = 0
  leaf     : r.kind = .leaf → r.left = Config.nil ∧ r.right = Config.nil

/-- R33: the arena invariants, with R28's "`ROOT` is `NIL` whenever `TREE_VALID = 0`". -/
structure ArenaOk (st : State) : Prop where
  nodes    : ∀ i : NodeIdx, i.toNat < st.arenaCount.val → (st.slot i).Ok i
  parent   : ∀ c i j : NodeIdx, ChildOf st c i → ChildOf st c j → i = j
  root     : st.treeValid = true → st.root.toNat + 1 = st.arenaCount.val
  reached  : st.treeValid = true → ∀ j : NodeIdx, j.toNat < st.arenaCount.val → Reaches st st.root j
  tree     : st.treeValid = true → ∃ t : Tree, Holds st t st.root ∧ 1 ≤ t.leaves ∧ t.leaves ≤ 256 ∧
               st.arenaCount.val = 2 * t.leaves - 1 ∧ t.depth ≤ 255
  noTree   : st.treeValid = false → st.root = Config.nil

/-- R34 and R126: the live heap entries are slots in use, and in heap order. -/
structure HeapOk (st : State) : Prop where
  live    : ∀ i ∈ st.liveHeap, i.toNat < st.arenaCount.val
  ordered : HeapOrdered st

/-- R9, R31 and R163 item 2: every length is 0 to 63 and every pattern fits its length. -/
def CodesOk (st : State) : Prop :=
  ∀ y : Symbol, (st.codeAt y).len.toNat ≤ 63 ∧ (st.codeAt y).pat.toNat < 2 ^ (st.codeAt y).len.toNat

/-- R26: bit 0 of `ERRLOG` does not exist; R10: no buffer has size 0. -/
structure RegistersOk (st : State) : Prop where
  errlog : st.errlog.getLsbD 0 = false
  params : st.params.wf = true

end Sys2Proof.Machine
end

