-- ==== Sys2Proof/Certificates/Slice0/Obligations.lean ====
section
/-! DEFINITION. The statements for the provers, file by file through the numbered rules of spec/. A statement is about
every state unless it says otherwise; `EndsOk`, `EndsIn` and the other words are in Sys2Proof/Safety.lean. Nothing here
says what `RESULT` is after a failed command or what a read window returns beyond the live entries. -/

open Sys2Proof Sys2Proof.Machine

/-! ## spec/30_encoding.md -/

/-- R84: the examples of encodings decode to the commands they stand for, and are what the encoder gives. -/
def Obligations.SampleWordsDecode : Prop :=
  (decode 0x00000000 = .command .nop ∧ encode .nop = 0x00000000) ∧
  (decode 0x00000010 = .command (.bsOpenW .tree) ∧ encode (.bsOpenW .tree) = 0x00000010) ∧
  (decode 0x00000110 = .command (.bsOpenW .pay) ∧ encode (.bsOpenW .pay) = 0x00000110) ∧
  (decode 0x00090113 = .command (.writeBits .pay 9) ∧ encode (.writeBits .pay 9) = 0x00090113) ∧
  (decode 0x00400016 = .command (.readBits .tree 64) ∧ encode (.readBits .tree 64) = 0x00400016) ∧
  (decode 0x00000016 = .command (.readBits .tree 0) ∧ encode (.readBits .tree 0) = 0x00000016) ∧
  (decode 0x00000061 = .command .decode ∧ encode .decode = 0x00000061)

/-- R80, R83: decoding the word of a well-formed command gives it back, with every operand it can have. -/
def Obligations.DecodeOfEncode : Prop :=
  ∀ i : Instr, i.wf = true → decode (commandValue i) = .command i

/-- R80, R81, R85: every value that decodes to a command is that command's one word, and the command is well formed. -/
def Obligations.DecodedCommandEncodes : Prop :=
  ∀ (v : Word) (i : Instr), decode v = .command i → i.wf = true ∧ v = commandValue i

/-- R83 with R85 step 6: a 32-bit word is a command with some mnemonic exactly when the row of that mnemonic in the opcode
map matches it under its mask and, where the row uses `N`, the count is at most 64; and no word matches two rows. -/
def Obligations.DecodeAgreesWithOpcodeMap : Prop :=
  (∀ (w : BitVec 32) (m : String),
    (∃ i : Instr, decode (w.zeroExtend 64) = .command i ∧ i.mnemonic = m) ↔
      ∃ r ∈ opRows, r.mnemonic = m ∧ r.hits w = true ∧ (r.usesN = true → (w.extractLsb' 16 7).toNat ≤ 64)) ∧
  opRows.Pairwise fun r q => ∀ w : BitVec 32, ¬ (r.hits w = true ∧ q.hits w = true)

/-- R85: the first failing test decides; a value that fails one is illegal for that reason and, written to `CMD`, changes
nothing but through the epilogue; every other value is a legal command. -/
def Obligations.DecodeFirstFailingTest : Prop :=
  ∀ v : Word,
    (∀ e, firstFailing v = some e → decode v = .illegal e ∧
      ∀ (st : State) (ts : List HostTxn), st.host = .regWrite 0x000 v :: ts →
        EndsIn (step st) .illegalCommand { st with host := ts }) ∧
    (firstFailing v = none → ∃ i : Instr, decode v = .command i ∧ i.wf = true)

/-! ## spec/10_state.md: the ports and the registers -/

/-- R23: a write to `CMD` runs the whole command in one step; one with a non-zero upper half is illegal and nothing else
happens; `CMD` reads as 0. The last clause: a well-formed command's word, placed as the next instruction, is what the
next step runs. That clause is the model's choice, no rule of the spec: the block fetches nothing, and the list of
transactions into which the word is placed is log 4 (DESIGN CHOICE). -/
def Obligations.StepRunsDecodedCommand : Prop :=
  ∀ (st : State) (ts : List HostTxn) (v : Word),
    (∀ i : Instr, st.host = .regWrite 0x000 v :: ts → decode v = .command i →
      step st = exec i { st with host := ts }) ∧
    (st.host = .regWrite 0x000 v :: ts → v.extractLsb' 32 32 ≠ 0 →
      EndsIn (step st) .illegalCommand { st with host := ts }) ∧
    (st.host = .regRead 0x000 :: ts → step st = .next { st with host := ts, reply := 0 }) ∧
    (∀ i : Instr, i.wf = true → step (st.withFetchWord 32 (encode i).toNat) = exec i st)

/-- R226, R250, R264: no transaction and no command stops the machine, and with no transaction to make it waits as it
is. -/
def Obligations.EveryStepCompletes : Prop :=
  ∀ st : State, (∃ t, step st = .next t) ∧ (st.host = [] → step st = .next st) ∧ ∀ i : Instr, ∃ t, exec i st = .next t

/-- R22, R25, R26, R31, R35: what a register read returns, index by index; it changes nothing of the block. -/
def Obligations.RegisterReads : Prop :=
  ∀ (st : State) (ts : List HostTxn) (idx : BitVec 12), st.host = .regRead idx :: ts →
    ∃ t, step st = .next t ∧ t = { st with host := ts, reply := t.reply, freeIdx := t.freeIdx } ∧
      (idx.toNat = 0x000 → t.reply = 0) ∧
      (idx.toNat = 0x001 → t.reply.extractLsb' 0 4 = st.status.code ∧ t.reply.extractLsb' 4 4 = 0 ∧
        t.reply.getLsbD 8 = st.treeValid ∧ t.reply.extractLsb' 9 55 = 0) ∧
      (idx.toNat = 0x002 → t.reply = st.result) ∧
      (idx.toNat = 0x003 → (∀ k, 1 ≤ k → k ≤ 7 → t.reply.getLsbD k = st.errlog.getLsbD k) ∧
        t.reply.getLsbD 0 = false ∧ t.reply.extractLsb' 8 56 = 0) ∧
      (idx.toNat = 0x004 → t.reply = st.arg0) ∧
      (idx.toNat = 0x005 → t.reply.toNat = st.rawLen.toNat) ∧
      (idx.toNat = 0x006 → t.reply.toNat = st.root.toNat) ∧
      (idx.toNat = 0x007 → t.reply.toNat = st.arenaCount.val) ∧
      (idx.toNat = 0x008 → t.reply.toNat = st.heapSize.val) ∧
      (∀ s : StreamSel,
        (idx.toNat = 0x010 + 8 * s.toBit.toNat → t.reply =
          match (st.bs s).mode with
          | .closed => 0
          | .writer => 1
          | .reader => 2) ∧
        (idx.toNat = 0x011 + 8 * s.toBit.toNat → t.reply.toNat = (st.bs s).byte.toNat) ∧
        (idx.toNat = 0x012 + 8 * s.toBit.toNat → t.reply.toNat = (st.bs s).bit.toNat) ∧
        (idx.toNat = 0x013 + 8 * s.toBit.toNat → t.reply.toNat = (st.bs s).hold.toNat) ∧
        (idx.toNat = 0x014 + 8 * s.toBit.toNat → t.reply.toNat = (st.bs s).limit.toNat)) ∧
      (∀ y : Symbol,
        (idx.toNat = 0x100 + y.toNat → t.reply = st.freqAt y) ∧
        (idx.toNat = 0x200 + y.toNat → t.reply = (st.codeAt y).pat) ∧
        (idx.toNat = 0x300 + y.toNat → t.reply.toNat = (st.codeAt y).len.toNat))

/-- R39: the read windows on the live arena slots and heap entries, the packing of `NODE_INFO`, reads beyond the live
entries (which return something and change nothing of the block), and writes, which are ignored. -/
def Obligations.ReadWindows : Prop :=
  ∀ (st : State) (ts : List HostTxn) (idx : BitVec 12), 0x400 ≤ idx.toNat → idx.toNat < 0x900 →
    (st.host = .regRead idx :: ts →
      ∃ t, step st = .next t ∧ t = { st with host := ts, reply := t.reply, freeIdx := t.freeIdx } ∧
        (∀ i : NodeIdx, i.toNat < st.arenaCount.val →
          (idx.toNat = 0x400 + i.toNat → t.reply = (st.slot i).freq) ∧
          (idx.toNat = 0x600 + i.toNat →
            t.reply.getLsbD 0 = decide ((st.slot i).kind = .leaf) ∧
            t.reply.extractLsb' 8 8 = (st.slot i).sym ∧
            t.reply.extractLsb' 16 10 = (st.slot i).left ∧
            t.reply.extractLsb' 32 10 = (st.slot i).right ∧
            t.reply.extractLsb' 1 7 = 0 ∧ t.reply.extractLsb' 26 6 = 0 ∧ t.reply.extractLsb' 42 22 = 0)) ∧
        (∀ p, p < st.heapSize.val → idx.toNat = 0x800 + p → t.reply = (heapAt st.heap p).zeroExtend 64)) ∧
    (∀ v : Word, st.host = .regWrite idx v :: ts → step st = .next { st with host := ts })

/-- R22, R26, R27, R30: what a register write changes, and that it changes nothing else. -/
def Obligations.RegisterWrites : Prop :=
  ∀ (st : State) (ts : List HostTxn) (v : Word),
    (st.host = .regWrite 0x003 v :: ts →
      ∃ t, step st = .next t ∧ t = { st with host := ts, errlog := t.errlog } ∧
        ∀ k, 1 ≤ k → k ≤ 7 → t.errlog.getLsbD k = (st.errlog.getLsbD k && !v.getLsbD k)) ∧
    (st.host = .regWrite 0x004 v :: ts → step st = .next { st with host := ts, arg0 := v }) ∧
    (st.host = .regWrite 0x005 v :: ts → step st = .next { st with host := ts, rawLen := v.extractLsb' 0 32 }) ∧
    (∀ (y : Symbol) (idx : BitVec 12), idx.toNat = 0x100 + y.toNat → st.host = .regWrite idx v :: ts →
      ∃ t, step st = .next t ∧ t = { st with host := ts, freq := t.freq } ∧
        ∀ z : Symbol, t.freqAt z = if z = y then v else st.freqAt z)

/-- R26: a command sets the `ERRLOG` bit of its non-zero code and clears none; a write clears the bits it has ones in; the
other bits read as 0; all are 0 after reset. -/
def Obligations.ErrlogBits : Prop :=
  (∀ (i : Instr) (st t : State), exec i st = .next t → ∀ k, 1 ≤ k → k ≤ 7 →
    t.errlog.getLsbD k = (st.errlog.getLsbD k || decide (t.status.code.toNat = k))) ∧
  (∀ (st : State) (ts : List HostTxn), st.host = .regRead 0x003 :: ts →
    ∃ t, step st = .next t ∧ t.reply.getLsbD 0 = false ∧ t.reply.extractLsb' 8 56 = 0 ∧
      ∀ k, 1 ≤ k → k ≤ 7 → t.reply.getLsbD k = st.errlog.getLsbD k) ∧
  (∀ (st : State) (ts : List HostTxn) (v : Word), st.host = .regWrite 0x003 v :: ts →
    ∃ t, step st = .next t ∧ ∀ k, 1 ≤ k → k ≤ 7 → t.errlog.getLsbD k = (st.errlog.getLsbD k && !v.getLsbD k)) ∧
  (∀ k, 1 ≤ k → k ≤ 7 → State.reset.errlog.getLsbD k = false)

/-- R40: writes to read-only indices and accesses to indices the map does not list. -/
def Obligations.OddAccesses : Prop :=
  ∀ (st : State) (ts : List HostTxn) (idx : BitVec 12) (v : Word),
    ((idx.toNat = 0x001 ∨ idx.toNat = 0x002 ∨ (0x006 ≤ idx.toNat ∧ idx.toNat ≤ 0x008) ∨
        (0x010 ≤ idx.toNat ∧ idx.toNat ≤ 0x01F) ∨ (0x200 ≤ idx.toNat ∧ idx.toNat ≤ 0x8FF)) →
      st.host = .regWrite idx v :: ts → step st = .next { st with host := ts }) ∧
    (((0x009 ≤ idx.toNat ∧ idx.toNat ≤ 0x00F) ∨ (0x015 ≤ idx.toNat ∧ idx.toNat ≤ 0x017) ∨
        (0x01D ≤ idx.toNat ∧ idx.toNat ≤ 0x0FF) ∨ (0x900 ≤ idx.toNat ∧ idx.toNat ≤ 0xFFF)) →
      (st.host = .regRead idx :: ts → step st = .next { st with host := ts, reply := 0 }) ∧
      (st.host = .regWrite idx v :: ts → step st = .next { st with host := ts }))

/-- R37, R106: a command that reads through an open reader keeps it open with its limit, never moves its cursor back or past
the limit, and leaves in `hold` the byte that the latest bit came from, as it was when the reader entered it; so it is
however the command ends. -/
def Obligations.LatchedByte : Prop :=
  ∀ (i : Instr) (st t : State) (s : StreamSel), StreamsOk st → (st.bs s).mode = .reader → readsStream i s = true →
    exec i st = .next t →
    (t.bs s).mode = .reader ∧ (t.bs s).limit = (st.bs s).limit ∧ (st.bs s).pos ≤ (t.bs s).pos ∧
    (t.bs s).pos ≤ 8 * (st.bs s).limit.toNat ∧ (t.bs s).hold = st.latchAt s (t.bs s).pos

/-- R37, R72: a byte the host writes under an open reader is seen by the bits of that byte still to come only if the
reader has not entered the byte; a byte it has entered keeps its old bits. -/
def Obligations.ReaderLatch : Prop :=
  ∀ (st : State) (ts : List HostTxn) (s : StreamSel) (a : BitVec 32) (v : Byte), BuffersOk st →
    (st.bs s).mode = .reader → a.toNat < st.bufSize (streamSpace s) →
    st.host = .bufWrite (Script.spaceSel (streamSpace s)) a v :: ts →
      ∃ t, step st = .next t ∧ t.bs s = st.bs s ∧ ∀ n : Nat, t.readerBit s n =
        if n / 8 = a.toNat ∧ ¬ (n / 8 = (st.bs s).byte.toNat ∧ (st.bs s).bit ≠ 0) then v.getLsbD (7 - n % 8)
        else st.readerBit s n

/-! ## spec/20_memory.md -/

/-- R60: the buffer port reads and writes one byte below the physical size of its space; at or above it, or for selector 3,
a read returns 0 and a write changes nothing. -/
def Obligations.BufferPort : Prop :=
  ∀ (st : State) (ts : List HostTxn) (sp : BitVec 2) (a : BitVec 32) (v : Byte), BuffersOk st →
    (∀ x : Space, sp = Script.spaceSel x → a.toNat < st.bufSize x →
      (st.host = .bufRead sp a :: ts →
        step st = .next { st with host := ts, reply := (st.memRead x a.toNat).zeroExtend 64 }) ∧
      (st.host = .bufWrite sp a v :: ts →
        ∃ t, step st = .next t ∧ t = ({ st with host := ts } : State).setBuf x (t.buf x) ∧
          t.memRead x a.toNat = v ∧ BytesKept x a.toNat (a.toNat + 1) st t)) ∧
    ((∀ x : Space, sp = Script.spaceSel x → st.bufSize x ≤ a.toNat) →
      (st.host = .bufRead sp a :: ts → step st = .next { st with host := ts, reply := 0 }) ∧
      (st.host = .bufWrite sp a v :: ts → step st = .next { st with host := ts }))

/-- R61, R69: which bytes a command can change: through a stream it writes, those its cursor passed, all below the limit;
DECODE, those of RAW below its count; no other. -/
def Obligations.CommandStores : Prop :=
  ∀ (i : Instr) (st t : State), StreamsOk st → exec i st = .next t →
    ∀ (x : Space) (a : Nat), t.memRead x a ≠ st.memRead x a →
      (∃ s : StreamSel, x = streamSpace s ∧ writesStream i s = true ∧ (st.bs s).byte.toNat ≤ a ∧
        a < (t.bs s).byte.toNat ∧ (t.bs s).byte.toNat ≤ (st.bs s).limit.toNat) ∨
      (x = .raw ∧ i = .decode ∧ a < st.arg0.toNat)

/-- R60, R69: every step keeps the buffers in canonical form and below their physical sizes (the form is the model's, the
sizes the spec's). -/
def Obligations.StepKeepsBuffers : Prop :=
  ∀ st t : State, BuffersOk st → step st = .next t → BuffersOk t

/-! ## spec/40_bitstream.md -/

/-- R100, R101: opening a stream, in whatever mode it is; an operand out of range leaves it unchanged. -/
def Obligations.OpenStream : Prop :=
  ∀ (st : State) (s : StreamSel),
    (st.arg0.extractLsb' 32 32 ≠ 0 ∨ st.bufSize (streamSpace s) < (st.arg0.extractLsb' 0 32).toNat →
      EndsIn (exec (.bsOpenW s) st) .illegalCommand st ∧ EndsIn (exec (.bsOpenR s) st) .illegalCommand st) ∧
    (st.arg0.extractLsb' 32 32 = 0 → (st.arg0.extractLsb' 0 32).toNat ≤ st.bufSize (streamSpace s) →
      EndsOk (exec (.bsOpenW s) st) 0
        (st.setBs s { mode := .writer, byte := 0, bit := 0, hold := 0, limit := st.arg0.extractLsb' 0 32 }) ∧
      EndsOk (exec (.bsOpenR s) st) 0
        (st.setBs s { mode := .reader, byte := 0, bit := 0, hold := 0, limit := st.arg0.extractLsb' 0 32 }))

/-- R102: a command whose stream is in another mode ends with `ILLEGAL_COMMAND` and changes no state. -/
def Obligations.WrongModeIsIllegal : Prop :=
  ∀ st : State,
    (∀ s : StreamSel, (st.bs s).mode ≠ .writer →
      EndsIn (exec (.writeBit s) st) .illegalCommand st ∧
      (∀ n, EndsIn (exec (.writeBits s n) st) .illegalCommand st) ∧
      EndsIn (exec (.finalize s) st) .illegalCommand st) ∧
    (∀ s : StreamSel, (st.bs s).mode ≠ .reader →
      EndsIn (exec (.readBit s) st) .illegalCommand st ∧
      (∀ n, EndsIn (exec (.readBits s n) st) .illegalCommand st)) ∧
    ((st.bs .tree).mode ≠ .writer → EndsIn (exec .treeSave st) .illegalCommand st) ∧
    ((st.bs .pay).mode ≠ .writer → EndsIn (exec .encode st) .illegalCommand st) ∧
    ((st.bs .tree).mode ≠ .reader → EndsIn (exec .treeLoad st) .illegalCommand st) ∧
    ((st.bs .pay).mode ≠ .reader → EndsIn (exec .decode st) .illegalCommand st)

/-- R103, R108: WRITE_BIT adds bit 0 of `ARG0` to the pending byte, or commits the completed byte at the cursor, or, with
no room for it, changes nothing. -/
def Obligations.WriteBitEffect : Prop :=
  ∀ (st : State) (s : StreamSel), BuffersOk st → StreamsOk st →
    ((st.bs s).mode ≠ .writer → EndsIn (exec (.writeBit s) st) .illegalCommand st) ∧
    ((st.bs s).mode = .writer →
      ∀ h : Byte, h = (st.bs s).hold |||
          ((BitVec.ofBool (st.arg0.getLsbD 0)).zeroExtend 8 <<< (7 - (st.bs s).bit.toNat)) →
        ((st.bs s).bit.toNat < 7 →
          EndsOk (exec (.writeBit s) st) 0
            (st.setBs s { st.bs s with hold := h, bit := (st.bs s).bit + 1 })) ∧
        ((st.bs s).bit.toNat = 7 → (st.bs s).byte.toNat < (st.bs s).limit.toNat →
          ∃ t, EndsOk (exec (.writeBit s) st) 0 t ∧
            t = (st.setBs s { st.bs s with byte := (st.bs s).byte + 1, bit := 0, hold := 0 }).setBuf (streamSpace s)
              (t.buf (streamSpace s)) ∧
            t.memRead (streamSpace s) (st.bs s).byte.toNat = h ∧
            BytesKept (streamSpace s) (st.bs s).byte.toNat ((st.bs s).byte.toNat + 1) st t) ∧
        ((st.bs s).bit.toNat = 7 → (st.bs s).limit.toNat ≤ (st.bs s).byte.toNat →
          EndsIn (exec (.writeBit s) st) .overflow st))

/-- R104, R109: WRITE_BITS appends the low `N` bits of `ARG0`, most significant first, to the bits of the writer; without
room for all of them it ends with `OVERFLOW` after the last bit there was room for. -/
def Obligations.WriteBitsEffect : Prop :=
  ∀ (st : State) (s : StreamSel) (n : BitVec 7), n.toNat ≤ 64 → BuffersOk st → StreamsOk st →
    ((st.bs s).mode ≠ .writer → EndsIn (exec (.writeBits s n) st) .illegalCommand st) ∧
    ((st.bs s).mode = .writer → (st.bs s).hasRoom n.toNat →
      ∃ t, EndsOk (exec (.writeBits s n) st) 0 t ∧ OnlyWriter s st t ∧
        t.written s = st.written s ++ fieldBits st.arg0 n.toNat ∧
        (t.bs s).pos = (st.bs s).pos + n.toNat ∧ (t.bs s).mode = .writer ∧ (t.bs s).limit = (st.bs s).limit ∧
        (t.bs s).Ok (st.bufSize (streamSpace s)) ∧
        BytesKept (streamSpace s) (st.bs s).byte.toNat (t.bs s).byte.toNat st t) ∧
    ((st.bs s).mode = .writer → ¬ (st.bs s).hasRoom n.toNat →
      ∃ t, EndsIn (exec (.writeBits s n) st) .overflow t ∧ OnlyWriter s st t ∧
        t.written s = st.written s ++ (fieldBits st.arg0 n.toNat).take (st.bs s).space ∧
        (t.bs s).pos = (st.bs s).pos + (st.bs s).space ∧ (t.bs s).mode = .writer ∧
        (t.bs s).limit = (st.bs s).limit ∧ (t.bs s).Ok (st.bufSize (streamSpace s)) ∧
        BytesKept (streamSpace s) (st.bs s).byte.toNat (t.bs s).byte.toNat st t)

/-- R105, R110: FINALIZE commits the pending byte, if there is one, and reports the number of committed bytes; without
room for it nothing changes. -/
def Obligations.FinalizeEffect : Prop :=
  ∀ (st : State) (s : StreamSel), BuffersOk st → StreamsOk st →
    ((st.bs s).mode ≠ .writer → EndsIn (exec (.finalize s) st) .illegalCommand st) ∧
    ((st.bs s).mode = .writer → (st.bs s).bit = 0 →
      EndsOk (exec (.finalize s) st) ((st.bs s).byte.zeroExtend 64) st) ∧
    ((st.bs s).mode = .writer → (st.bs s).bit ≠ 0 → (st.bs s).byte.toNat < (st.bs s).limit.toNat →
      ∃ t, EndsOk (exec (.finalize s) st) (((st.bs s).byte + 1).zeroExtend 64) t ∧
        t = (st.setBs s { st.bs s with byte := (st.bs s).byte + 1, bit := 0, hold := 0 }).setBuf (streamSpace s)
          (t.buf (streamSpace s)) ∧
        t.memRead (streamSpace s) (st.bs s).byte.toNat = (st.bs s).hold ∧
        (∀ j, j < 8 - (st.bs s).bit.toNat → (st.bs s).hold.getLsbD j = false) ∧
        BytesKept (streamSpace s) (st.bs s).byte.toNat ((st.bs s).byte.toNat + 1) st t) ∧
    ((st.bs s).mode = .writer → (st.bs s).bit ≠ 0 → (st.bs s).limit.toNat ≤ (st.bs s).byte.toNat →
      EndsIn (exec (.finalize s) st) .overflow st)

/-- R106, R111: READ_BIT latches the byte at the cursor when it enters it, returns the next bit and moves on; at the limit
it ends with `TRUNCATED` and changes nothing. -/
def Obligations.ReadBitEffect : Prop :=
  ∀ (st : State) (s : StreamSel),
    ((st.bs s).mode ≠ .reader → EndsIn (exec (.readBit s) st) .illegalCommand st) ∧
    ((st.bs s).mode = .reader → (st.bs s).bit = 0 → (st.bs s).limit.toNat ≤ (st.bs s).byte.toNat →
      EndsIn (exec (.readBit s) st) .truncated st) ∧
    ((st.bs s).mode = .reader → ((st.bs s).bit = 0 → (st.bs s).byte.toNat < (st.bs s).limit.toNat) →
      ∀ h : Byte, h = (if (st.bs s).bit = 0 then st.memRead (streamSpace s) (st.bs s).byte.toNat else (st.bs s).hold) →
        EndsOk (exec (.readBit s) st) (if h.getLsbD (7 - (st.bs s).bit.toNat) then 1 else 0)
          (st.setBs s
            (if (st.bs s).bit.toNat < 7 then { st.bs s with hold := h, bit := (st.bs s).bit + 1 }
             else { st.bs s with hold := h, bit := 0, byte := (st.bs s).byte + 1 })))

/-- R107, R112: READ_BITS returns the next `N` bits as a number, the first the most significant; with fewer bits left it
consumes them all and ends with `TRUNCATED`. -/
def Obligations.ReadBitsEffect : Prop :=
  ∀ (st : State) (s : StreamSel) (n : BitVec 7), n.toNat ≤ 64 → StreamsOk st →
    ((st.bs s).mode ≠ .reader → EndsIn (exec (.readBits s n) st) .illegalCommand st) ∧
    ((st.bs s).mode = .reader → n.toNat ≤ (st.unread s).length →
      ∃ t, EndsOk (exec (.readBits s n) st) (BitVec.ofNat 64 (bitsToNat ((st.unread s).take n.toNat))) t ∧
        OnlyStream s st t ∧ t.unread s = (st.unread s).drop n.toNat ∧
        (t.bs s).pos = (st.bs s).pos + n.toNat ∧ (t.bs s).mode = .reader ∧ (t.bs s).limit = (st.bs s).limit ∧
        bitsToNat ((st.unread s).take n.toNat) < 2 ^ n.toNat) ∧
    ((st.bs s).mode = .reader → (st.unread s).length < n.toNat →
      ∃ t, EndsIn (exec (.readBits s n) st) .truncated t ∧ OnlyStream s st t ∧ t.unread s = [] ∧
        (t.bs s).pos = 8 * (st.bs s).limit.toNat ∧ (t.bs s).mode = .reader ∧ (t.bs s).limit = (st.bs s).limit)

/-- R114: what a writer writes and finalizes, a reader opened with the count FINALIZE gave reads back, then the zero
padding, then `TRUNCATED`. -/
def Obligations.StreamRoundTrip : Prop :=
  ∀ (st : State) (s : StreamSel) (cap : Length) (bs : List Bool), BuffersOk st →
    cap.toNat ≤ st.bufSize (streamSpace s) → bs.length ≤ 8 * cap.toNat →
    ∃ (t u v : State) (c : Length),
      writeList s bs (st.setBs s (Stream.opened .writer cap)) = .ok () t ∧ finalize s t = .ok c u ∧
      bs.length ≤ 8 * c.toNat ∧ 8 * c.toNat < bs.length + 8 ∧
      readList s (8 * c.toNat) (u.setBs s (Stream.opened .reader c)) =
        .ok (bs ++ List.replicate (8 * c.toNat - bs.length) false) v ∧
      readBit s v = .raised .truncated v

/-- R36: every step keeps the invariants of both streams. -/
def Obligations.StepKeepsStreams : Prop :=
  ∀ st t : State, StreamsOk st → step st = .next t → StreamsOk t

/-! ## spec/41_arena_heap.md -/

/-- R121: one allocation takes the next slot and touches no other; a full arena raises with nothing written. -/
def Obligations.AllocateNode : Prop :=
  ∀ (n : Node) (st : State),
    (st.arenaCount.val < 511 →
      ∃ t, allocNode n st = .ok (BitVec.ofNat 10 st.arenaCount.val) t ∧
        t.arenaCount.val = st.arenaCount.val + 1 ∧ t.slot (BitVec.ofNat 10 st.arenaCount.val) = n ∧
        (∀ j : NodeIdx, j.toNat ≠ st.arenaCount.val → t.slot j = st.slot j) ∧
        t = { st with arena := t.arena, arenaCount := t.arenaCount }) ∧
    (511 ≤ st.arenaCount.val → allocNode n st = .raised .capacityExceeded st)

/-- R126, with R127 to R129. A push below capacity puts its entry at the end and lets it rise past the ancestors of strictly
greater frequency, and no further; on a full heap it raises with nothing written. A pop takes out `HEAP[0]` and lets the
last entry fall from there past the child of smaller frequency, the left one if the two are equal, as long as that is
strictly smaller. Each entry passed moves one step the other way, no other moves, and nothing but the heap changes. From
a heap in order both leave one, and the entry popped has least frequency. -/
def Obligations.HeapOperations : Prop :=
  ∀ st : State,
    (∀ n : NodeIdx, st.heapSize.val < 256 →
      ∃ (t : State) (k : Nat), heapPush n st = .ok () t ∧ t.heapSize.val = st.heapSize.val + 1 ∧
        Rises st.nodeKey st.heapSize.val n k st.heap t.heap ∧ t.liveHeap.Perm (n :: st.liveHeap) ∧
        t = { st with heap := t.heap, heapSize := t.heapSize } ∧ (HeapOrdered st → HeapOrdered t)) ∧
    (∀ n : NodeIdx, 256 ≤ st.heapSize.val → heapPush n st = .raised .capacityExceeded st) ∧
    (0 < st.heapSize.val →
      ∃ t : State, heapPop st = (heapAt st.heap 0, t) ∧ t.heapSize.val = st.heapSize.val - 1 ∧
        (1 < st.heapSize.val → ∃ k,
          Falls st.nodeKey (st.heapSize.val - 1) (heapAt st.heap (st.heapSize.val - 1)) k st.heap t.heap) ∧
        (heapAt st.heap 0 :: t.liveHeap).Perm st.liveHeap ∧
        t = { st with heap := t.heap, heapSize := t.heapSize } ∧
        (HeapOrdered st → HeapOrdered t ∧ ∀ i ∈ st.liveHeap, st.nodeKey (heapAt st.heap 0) ≤ st.nodeKey i))

/-- R34, R126: every step keeps the live heap entries in use and in heap order. -/
def Obligations.StepKeepsHeap : Prop :=
  ∀ st t : State, HeapOk st → step st = .next t → HeapOk t

/-- R33: every step keeps the arena invariants. -/
def Obligations.StepKeepsArena : Prop :=
  ∀ st t : State, ArenaOk st → step st = .next t → ArenaOk t

/-! ## spec/42_tree_builder.md -/

/-- R140: FREQ_CLEAR sets every count to zero and touches nothing else. -/
def Obligations.FreqClearEffect : Prop :=
  ∀ st : State, ∃ t, EndsOk (exec .freqClear st) 0 t ∧ t = { st with freq := t.freq } ∧ ∀ y : Symbol, t.freqAt y = 0

/-- R141, R142: FREQ_COUNT counts the valid bytes of RAW; the counts sum to `RAW_LEN`, which is the result; a `RAW_LEN`
above the buffer's size is illegal and changes nothing. -/
def Obligations.FreqCountEffect : Prop :=
  ∀ st : State,
    (st.bufSize .raw < st.rawLen.toNat → EndsIn (exec .freqCount st) .illegalCommand st) ∧
    (st.rawLen.toNat ≤ st.bufSize .raw →
      ∃ t, EndsOk (exec .freqCount st) (st.rawLen.zeroExtend 64) t ∧ t = { st with freq := t.freq } ∧
        (∀ y : Symbol, (t.freqAt y).toNat = (st.rawBytes st.rawLen.toNat).count y) ∧
        t.totalFreq = st.rawLen.toNat)

/-- R143, R144: BUILD fails with `EMPTY_INPUT` exactly on an all-zero table, leaving an empty arena and heap; it fails with
`CAPACITY_EXCEEDED` exactly when the counts sum to 2^64 or more; either way no tree is left. -/
def Obligations.BuildFailures : Prop :=
  ∀ st : State,
    ((∀ y : Symbol, st.freqAt y = 0) →
      EndsIn (exec .build st) .emptyInput
        { st with arenaCount := 0, heapSize := 0, treeValid := false, root := 0x3FF }) ∧
    (2 ^ 64 ≤ st.totalFreq →
      ∃ t, EndsIn (exec .build st) .capacityExceeded t ∧ OnlyTree st t ∧ t.treeValid = false ∧ t.root = 0x3FF) ∧
    (∀ t, exec .build st = .next t →
      (t.status = .error .emptyInput → ∀ y : Symbol, st.freqAt y = 0) ∧
      (t.status = .error .capacityExceeded → 2 ^ 64 ≤ st.totalFreq))

/-- R143, R146: on every other table BUILD succeeds, and the shape of its result is as stated there: the leaves first, in
ascending symbol order, then the internal nodes, each with the sum of its children's frequencies; the root last; the
whole a full binary tree over exactly the used symbols. -/
def Obligations.BuildResult : Prop :=
  ∀ st : State, 0 < st.totalFreq → st.totalFreq < 2 ^ 64 →
    ∃ (t : State) (T : Tree), EndsOk (exec .build st) (t.root.zeroExtend 64) t ∧ OnlyTree st t ∧
      t.treeValid = true ∧ Holds t T t.root ∧
      T.leaves = st.usedSymbols.length ∧ 1 ≤ T.leaves ∧ T.leaves ≤ 256 ∧
      (T.paths.map Prod.fst).Perm st.usedSymbols ∧
      t.arenaCount.val = 2 * T.leaves - 1 ∧ t.root.toNat = 2 * T.leaves - 2 ∧
      t.heapSize.val = 1 ∧ heapAt t.heap 0 = t.root ∧
      (∀ (i : NodeIdx) (h : i.toNat < st.usedSymbols.length),
        t.slot i = Node.mkLeaf st.usedSymbols[i.toNat] (st.freqAt st.usedSymbols[i.toNat])) ∧
      (∀ i : NodeIdx, T.leaves ≤ i.toNat → i.toNat < t.arenaCount.val →
        (t.slot i).kind = .internal ∧ (t.slot i).left < i ∧ (t.slot i).right < i ∧
        (t.slot i).freq.toNat = (t.slot (t.slot i).left).freq.toNat + (t.slot (t.slot i).right).freq.toNat) ∧
      (t.slot t.root).freq.toNat = st.totalFreq ∧
      (∀ c i j : NodeIdx, ChildOf t c i → ChildOf t c j → i = j) ∧
      (∀ j : NodeIdx, j.toNat < t.arenaCount.val → Reaches t t.root j)

/-- R147 ("the sum over symbols of FREQ[s] × depth(s) is the least possible for any prefix code"): no full binary tree over
the used symbols costs less than the one BUILD makes. -/
def Obligations.BuildIsOptimal : Prop :=
  ∀ (st t : State) (T U : Tree), exec .build st = .next t → t.status = .ok → Holds t T t.root →
    (U.paths.map Prod.fst).Perm st.usedSymbols → T.cost st.freqAt ≤ U.cost st.freqAt

/-- R198, R162: a leaf at depth d of BUILD's tree needs counts that sum to the Fibonacci number d + 2 or more; so below the
66th, 27777890035288, CODEGEN never meets its depth bound. -/
def Obligations.BuildDepthBound : Prop :=
  ∀ (st t : State) (T : Tree), exec .build st = .next t → t.status = .ok → Holds t T t.root →
    Nat.fib (T.depth + 2) ≤ st.totalFreq ∧ (st.totalFreq < 27777890035288 → T.depth < 64)

/-- R147: the result of BUILD is a function of `FREQ` alone. -/
def Obligations.BuildDependsOnFreqOnly : Prop :=
  ∀ st st' : State, st.freq = st'.freq →
    ∃ t t', exec .build st = .next t ∧ exec .build st' = .next t' ∧ t.status = t'.status ∧
      t.arenaCount = t'.arenaCount ∧ t.heapSize = t'.heapSize ∧ t.root = t'.root ∧ t.treeValid = t'.treeValid ∧
      (∀ i : NodeIdx, i.toNat < t.arenaCount.val → t.slot i = t'.slot i) ∧ t.liveHeap = t'.liveHeap ∧
      (t.status = .ok → t.result = t'.result)

/-! ## spec/43_codegen.md -/

/-- R160, R161, R164: on a tree no deeper than 63 CODEGEN gives every symbol the code of its last leaf in pre-order, every
other symbol none, and touches nothing but the code table. -/
def Obligations.CodegenFillsTable : Prop :=
  ∀ (st : State) (T : Tree), st.treeValid = true → Holds st T st.root → T.depth < 64 →
    ∃ t, EndsOk (exec .codegen st) 0 t ∧ t = { st with code := t.code } ∧ ∀ y : Symbol, t.codeAt y = T.codeOf y

/-- R160, R162, R164: on a tree with a leaf at depth 64 or more CODEGEN fails with `CAPACITY_EXCEEDED` where its walk first
steps to a node at depth 64: the leaves met before have their codes, every other symbol none. Without a tree it fails
with `CORRUPT_TREE`, every symbol unassigned. Only the code table changes. -/
def Obligations.CodegenFailures : Prop :=
  ∀ st : State,
    (∀ T : Tree, st.treeValid = true → Holds st T st.root → 64 ≤ T.depth →
      ∃ t, EndsIn (exec .codegen st) .capacityExceeded t ∧ t = { st with code := t.code } ∧
        ∀ y : Symbol, t.codeAt y = lastCode (T.leavesAbove 64) y) ∧
    (st.treeValid = false →
      ∃ t, EndsIn (exec .codegen st) .corruptTree t ∧ t = { st with code := t.code } ∧
        ∀ y : Symbol, t.codeAt y = CodeEntry.unassigned)

/-- R163: the properties of the code table of a tree whose leaves carry distinct symbols: which symbols have a code, that
it fits its length, that no code is a beginning of another, that the codes are complete, that a walk along a code
reaches its leaf; and BUILD's trees are such trees, over the symbols with a count. -/
def Obligations.CodegenCodes : Prop :=
  (∀ (st : State) (T : Tree), st.treeValid = true → Holds st T st.root → T.depth < 64 →
    (T.paths.map Prod.fst).Nodup →
    ∃ t, EndsOk (exec .codegen st) 0 t ∧
      (∀ y : Symbol, 0 < (t.codeAt y).len.toNat ↔ y ∈ T.paths.map Prod.fst) ∧
      (∀ y : Symbol, (t.codeAt y).pat.toNat < 2 ^ (t.codeAt y).len.toNat) ∧
      (∀ y z : Symbol, 0 < (t.codeAt y).len.toNat → 0 < (t.codeAt z).len.toNat → y ≠ z →
        ¬ (t.codeAt y).bits <+: (t.codeAt z).bits) ∧
      (2 ≤ T.leaves →
        ((List.range 256).map fun i =>
          if (t.codeAt (symbolOf i)).len.toNat = 0 then 0 else 2 ^ (63 - (t.codeAt (symbolOf i)).len.toNat)).sum = 2 ^ 63) ∧
      (∀ y : Symbol, T = .leaf y → (t.codeAt y).bits = [false]) ∧
      (2 ≤ T.leaves → ∀ (y : Symbol) (rest : List Bool), y ∈ T.paths.map Prod.fst →
        T.walk ((t.codeAt y).bits ++ rest) = some (y, rest))) ∧
  (∀ st t : State, exec .build st = .next t → t.status = .ok →
    ∃ T : Tree, Holds t T t.root ∧ (T.paths.map Prod.fst).Nodup ∧
      ∀ y : Symbol, y ∈ T.paths.map Prod.fst ↔ st.freqAt y ≠ 0)

/-- R9, R31, R26: every step keeps every code length at 63 or less and every pattern below 2 to its length, and keeps
`ERRLOG` bit 0, which does not exist, at 0. -/
def Obligations.StepKeepsTables : Prop :=
  ∀ st t : State, step st = .next t → (CodesOk st → CodesOk t) ∧ (RegistersOk st → RegistersOk t)

/-! ## spec/44_tree_codec.md -/

/-- R170, R171, R172: TREE_SAVE appends the serialized tree, 10L − 1 bits, to stream 0, and touches nothing else; without
room for all of it the bits there was room for stay written; without a tree nothing is. -/
def Obligations.TreeSaveEffect : Prop :=
  ∀ st : State, BuffersOk st → StreamsOk st →
    ((st.bs .tree).mode ≠ .writer → EndsIn (exec .treeSave st) .illegalCommand st) ∧
    ((st.bs .tree).mode = .writer → st.treeValid = false → EndsIn (exec .treeSave st) .corruptTree st) ∧
    (∀ T : Tree, (st.bs .tree).mode = .writer → st.treeValid = true → Holds st T st.root →
      T.bits.length = 10 * T.leaves - 1 ∧
      ((st.bs .tree).hasRoom T.bits.length →
        ∃ t, EndsOk (exec .treeSave st) 0 t ∧ OnlyWriter .tree st t ∧ t.written .tree = st.written .tree ++ T.bits ∧
          (t.bs .tree).pos = (st.bs .tree).pos + T.bits.length ∧ (t.bs .tree).mode = .writer ∧
          (t.bs .tree).limit = (st.bs .tree).limit ∧ (t.bs .tree).Ok (st.bufSize .tree) ∧
          BytesKept .tree (st.bs .tree).byte.toNat (t.bs .tree).byte.toNat st t) ∧
      (¬ (st.bs .tree).hasRoom T.bits.length →
        ∃ t, EndsIn (exec .treeSave st) .overflow t ∧ OnlyWriter .tree st t ∧
          t.written .tree = st.written .tree ++ T.bits.take (st.bs .tree).space ∧
          (t.bs .tree).pos = (st.bs .tree).pos + (st.bs .tree).space ∧ (t.bs .tree).mode = .writer ∧
          (t.bs .tree).limit = (st.bs .tree).limit ∧ (t.bs .tree).Ok (st.bufSize .tree) ∧
          BytesKept .tree (st.bs .tree).byte.toNat (t.bs .tree).byte.toNat st t))

/-- R176, R177: when the bits from the cursor on begin with a serialized tree of at most 256 leaves, TREE_LOAD makes that
tree in a fresh arena, every frequency 0, its root the last slot, and stops right after its last bit. -/
def Obligations.TreeLoadEffect : Prop :=
  ∀ (st : State) (T : Tree) (rest : List Bool), StreamsOk st → (st.bs .tree).mode = .reader →
    st.unread .tree = T.bits ++ rest → T.leaves ≤ 256 →
    ∃ t, EndsOk (exec .treeLoad st) (t.root.zeroExtend 64) t ∧ OnlyLoad st t ∧ t.treeValid = true ∧
      Holds t T t.root ∧ t.root.toNat = 2 * T.leaves - 2 ∧ t.arenaCount.val = 2 * T.leaves - 1 ∧
      t.heapSize.val = 0 ∧ (∀ i : NodeIdx, i.toNat < t.arenaCount.val → (t.slot i).freq = 0) ∧
      t.unread .tree = rest ∧ (t.bs .tree).pos = (st.bs .tree).pos + T.bits.length ∧
      (t.bs .tree).mode = .reader ∧ (t.bs .tree).limit = (st.bs .tree).limit ∧ ∀ x a, t.memRead x a = st.memRead x a

/-- R178: TREE_LOAD succeeds exactly when the bits from the cursor up to the limit begin with a serialized tree of at most
256 leaves. -/
def Obligations.TreeLoadAcceptsExactly : Prop :=
  ∀ st : State, StreamsOk st → (st.bs .tree).mode = .reader →
    ((∃ t, exec .treeLoad st = .next t ∧ t.status = .ok) ↔
      ∃ (T : Tree) (rest : List Bool), st.unread .tree = T.bits ++ rest ∧ T.leaves ≤ 256)

/-- R176, R181, R227: a load stops with `CAPACITY_EXCEEDED` right after the marker of the 512th node it enters, before that
leaf's symbol is read, and otherwise with `TRUNCATED` when the bits run out, all of them read. It then has made the nodes
that were complete and no others, with frequency 0, no tree and an empty heap; the arena invariants of R33 hold; and it
has touched only stream 0, the arena and the heap, `ROOT` and `TREE_VALID`. A load on a reader fails in no other way. -/
def Obligations.TreeLoadFailure : Prop :=
  ∀ st : State, StreamsOk st → (st.bs .tree).mode = .reader →
    (∀ (z : Unfinished) (n : Nat) (k : ErrorKind), LoadStops (st.unread .tree) z n k →
      ∃ s, EndsIn (exec .treeLoad st) k s ∧ LoadFailed z n st s ∧ ArenaOk s) ∧
    (∀ (t : State) (k : ErrorKind), exec .treeLoad st = .next t → t.status = .error k →
      ∃ (z : Unfinished) (n : Nat), LoadStops (st.unread .tree) z n k)

/-- R180: a tree saved, finalized and loaded again is the same tree; every command ends with `OK`, and the bytes are the
`ceil((10L − 1) / 8)` that FINALIZE reports. -/
def Obligations.TreeRoundTrip : Prop :=
  ∀ (st : State) (T : Tree) (cap : Length), BuffersOk st → st.treeValid = true → Holds st T st.root →
    T.leaves ≤ 256 → cap.toNat ≤ st.bufSize .tree → 10 * T.leaves - 1 ≤ 8 * cap.toNat →
    ∃ u, runLines (Script.openW .tree (cap.zeroExtend 64) ++ Script.command .treeSave
        ++ Script.command (.finalize .tree)) st = .next u ∧
      u.status = .ok ∧ u.errlog = st.errlog ∧ u.result.toNat = (10 * T.leaves + 6) / 8 ∧
      ∃ v, runLines (Script.openR .tree u.result ++ Script.command .treeLoad) u = .next v ∧
        v.status = .ok ∧ v.errlog = st.errlog ∧ v.treeValid = true ∧ Holds v T v.root

/-! ## spec/45_payload_codec.md -/

/-- R190, R191: ENCODE appends the codes of the valid bytes of RAW to stream 1 and touches nothing else; it stops with
`UNENCODABLE_SYMBOL` at the first byte without a code, the codes before it written, and with `OVERFLOW` at the first bit
without room. -/
def Obligations.EncodeEffect : Prop :=
  ∀ st : State, BuffersOk st → StreamsOk st →
    ((st.bs .pay).mode ≠ .writer ∨ st.bufSize .raw < st.rawLen.toNat →
      EndsIn (exec .encode st) .illegalCommand st) ∧
    ((st.bs .pay).mode = .writer → st.rawLen.toNat ≤ st.bufSize .raw →
      (∀ x ∈ st.rawBytes st.rawLen.toNat, (st.codeAt x).len ≠ 0) →
      (st.bs .pay).hasRoom (st.codeBits (st.rawBytes st.rawLen.toNat)).length →
      ∃ t, EndsOk (exec .encode st) 0 t ∧ OnlyWriter .pay st t ∧
        t.written .pay = st.written .pay ++ st.codeBits (st.rawBytes st.rawLen.toNat) ∧
        (t.bs .pay).pos = (st.bs .pay).pos + (st.codeBits (st.rawBytes st.rawLen.toNat)).length ∧
        (t.bs .pay).mode = .writer ∧ (t.bs .pay).limit = (st.bs .pay).limit ∧
        (t.bs .pay).Ok (st.bufSize .pay) ∧ BytesKept .pay (st.bs .pay).byte.toNat (t.bs .pay).byte.toNat st t) ∧
    (∀ j, (st.bs .pay).mode = .writer → st.rawLen.toNat ≤ st.bufSize .raw → j < st.rawLen.toNat →
      (∀ x ∈ st.rawBytes j, (st.codeAt x).len ≠ 0) → (st.codeAt (st.memRead .raw j)).len = 0 →
      (st.bs .pay).hasRoom (st.codeBits (st.rawBytes j)).length →
      ∃ t, EndsIn (exec .encode st) .unencodableSymbol t ∧ OnlyWriter .pay st t ∧
        t.written .pay = st.written .pay ++ st.codeBits (st.rawBytes j) ∧
        (t.bs .pay).pos = (st.bs .pay).pos + (st.codeBits (st.rawBytes j)).length ∧
        (t.bs .pay).mode = .writer ∧ (t.bs .pay).limit = (st.bs .pay).limit ∧
        (t.bs .pay).Ok (st.bufSize .pay) ∧ BytesKept .pay (st.bs .pay).byte.toNat (t.bs .pay).byte.toNat st t) ∧
    (∀ j, (st.bs .pay).mode = .writer → st.rawLen.toNat ≤ st.bufSize .raw → j ≤ st.rawLen.toNat →
      (∀ x ∈ st.rawBytes j, (st.codeAt x).len ≠ 0) →
      ¬ (st.bs .pay).hasRoom (st.codeBits (st.rawBytes j)).length →
      ∃ t, EndsIn (exec .encode st) .overflow t ∧ OnlyWriter .pay st t ∧
        t.written .pay = st.written .pay ++ (st.codeBits (st.rawBytes j)).take (st.bs .pay).space ∧
        (t.bs .pay).pos = (st.bs .pay).pos + (st.bs .pay).space ∧
        (t.bs .pay).mode = .writer ∧ (t.bs .pay).limit = (st.bs .pay).limit ∧
        (t.bs .pay).Ok (st.bufSize .pay) ∧ BytesKept .pay (st.bs .pay).byte.toNat (t.bs .pay).byte.toNat st t)

/-- R195, R196: when the bits left are enough and RAW has room, DECODE stores the symbols its walks reach at RAW[0] upward,
sets `RAW_LEN` to the count, which is the result, stops right after the last bit used, and touches nothing else. -/
def Obligations.DecodeEffect : Prop :=
  ∀ (st : State) (T : Tree) (count : Length) (ys : List Symbol) (rest : List Bool), BuffersOk st → StreamsOk st →
    (st.bs .pay).mode = .reader → st.arg0 = count.zeroExtend 64 → st.treeValid = true → Holds st T st.root →
    count.toNat ≤ st.bufSize .raw → T.decodeMany count.toNat (st.unread .pay) = some (ys, rest) →
    ∃ t, EndsOk (exec .decode st) (count.zeroExtend 64) t ∧ OnlyDecode st t ∧ t.rawLen = count ∧
      t.rawBytes count.toNat = ys ∧ t.unread .pay = rest ∧ (t.bs .pay).mode = .reader ∧
      (t.bs .pay).limit = (st.bs .pay).limit ∧ BytesKept .raw 0 count.toNat st t

/-- R195, R196: how DECODE fails. Its checks before the loop change nothing, `RAW_LEN` included; bits that run out in the
walk for symbol number `j` end it with `TRUNCATED`, and a symbol RAW has no room for with `OVERFLOW`, `RAW_LEN` then 0
and the symbols before it stored. -/
def Obligations.DecodeFailures : Prop :=
  ∀ st : State, BuffersOk st → StreamsOk st →
    ((st.bs .pay).mode ≠ .reader ∨ st.arg0.extractLsb' 32 32 ≠ 0 → EndsIn (exec .decode st) .illegalCommand st) ∧
    ((st.bs .pay).mode = .reader → st.arg0.extractLsb' 32 32 = 0 → st.treeValid = false →
      EndsIn (exec .decode st) .corruptTree st) ∧
    (∀ (T : Tree) (count : Length) (j : Nat) (ys : List Symbol) (bits : List Bool),
      (st.bs .pay).mode = .reader → st.arg0 = count.zeroExtend 64 → st.treeValid = true → Holds st T st.root →
      j < count.toNat → T.decodeMany j (st.unread .pay) = some (ys, bits) →
      (j ≤ st.bufSize .raw → T.walk bits = none →
        ∃ t, EndsIn (exec .decode st) .truncated t ∧ OnlyDecode st t ∧ t.rawLen = 0 ∧ t.rawBytes j = ys ∧
          t.unread .pay = [] ∧ (t.bs .pay).mode = .reader ∧ (t.bs .pay).limit = (st.bs .pay).limit ∧
          BytesKept .raw 0 j st t) ∧
      (j = st.bufSize .raw → ∀ (y : Symbol) (rest : List Bool), T.walk bits = some (y, rest) →
        ∃ t, EndsIn (exec .decode st) .overflow t ∧ OnlyDecode st t ∧ t.rawLen = 0 ∧ t.rawBytes j = ys ∧
          t.unread .pay = rest ∧ (t.bs .pay).mode = .reader ∧ (t.bs .pay).limit = (st.bs .pay).limit ∧
          BytesKept .raw 0 j st t))

/-- R197: with a one-leaf tree DECODE stores copies of the leaf's symbol, reads nothing from stream 1 and never ends with
`TRUNCATED`; the code CODEGEN gives that leaf is still the one bit 0. -/
def Obligations.DecodeOneLeaf : Prop :=
  ∀ (st : State) (y : Symbol) (count : Length), BuffersOk st → (st.bs .pay).mode = .reader →
    st.arg0 = count.zeroExtend 64 → st.treeValid = true → Holds st (.leaf y) st.root →
    (count.toNat ≤ st.bufSize .raw →
      ∃ t, EndsOk (exec .decode st) (count.zeroExtend 64) t ∧
        t = { st with rawBuf := t.rawBuf, rawLen := count } ∧
        t.rawBytes count.toNat = List.replicate count.toNat y ∧ BytesKept .raw 0 count.toNat st t) ∧
    (∀ t, exec .decode st = .next t → t.status ≠ .error .truncated ∧ t.bsPay = st.bsPay) ∧
    ((Tree.leaf y).codeOf y).bits = [false]

/-- R198: the pseudo-instruction HUF_ENCODE on a nonempty RAW, with capacities large enough, ends every command with `OK`;
and HUF_DECODE, on any instance of the block whose TREE and PAY buffers hold the bytes it left, with the two FINALIZE
counts and the number of bytes, ends every command with `OK` and gives the bytes back. -/
def Obligations.PayloadRoundTrip : Prop :=
  ∀ (st : State) (tcap pcap : Length), BuffersOk st → 1 ≤ st.rawLen.toNat → st.rawLen.toNat ≤ st.bufSize .raw →
    320 ≤ tcap.toNat → tcap.toNat ≤ st.bufSize .tree → 63 * st.rawLen.toNat ≤ 8 * pcap.toNat →
    pcap.toNat ≤ st.bufSize .pay →
    ∃ u, runLines (Script.hufEncode (tcap.zeroExtend 64) (pcap.zeroExtend 64)) st = .next u ∧
      u.status = .ok ∧ u.errlog = st.errlog ∧ u.result = u.bsPay.byte.zeroExtend 64 ∧
      ∀ w : State, BuffersOk w → u.bsTree.byte.toNat ≤ w.bufSize .tree → u.bsPay.byte.toNat ≤ w.bufSize .pay →
        st.rawLen.toNat ≤ w.bufSize .raw →
        (∀ a, a < u.bsTree.byte.toNat → w.memRead .tree a = u.memRead .tree a) →
        (∀ a, a < u.bsPay.byte.toNat → w.memRead .pay a = u.memRead .pay a) →
        ∃ v, runLines (Script.hufDecode (u.bsTree.byte.zeroExtend 64) u.result (st.rawLen.zeroExtend 64)) w = .next v ∧
          v.status = .ok ∧ v.errlog = w.errlog ∧ v.rawLen = st.rawLen ∧
          v.rawBytes st.rawLen.toNat = st.rawBytes st.rawLen.toNat

/-! ## spec/46_system.md -/

/-- R210: NOP changes nothing but through the epilogue. -/
def Obligations.NopEffect : Prop :=
  ∀ st : State, EndsOk (exec .nop st) 0 st

/-- R211: CTX_RESET empties the arena and the heap, both tables, both streams and `RAW_LEN`, and touches nothing else:
`ARG0`, `ERRLOG` and the buffers stay. -/
def Obligations.CtxResetEffect : Prop :=
  ∀ st : State, ∃ t, EndsOk (exec .ctxReset st) 0 t ∧
    t = { st with
      arenaCount := 0, heapSize := 0, treeValid := false, root := 0x3FF, rawLen := 0,
      bsTree := { mode := .closed, byte := 0, bit := 0, hold := 0, limit := 0 },
      bsPay := { mode := .closed, byte := 0, bit := 0, hold := 0, limit := 0 },
      freq := t.freq, code := t.code } ∧
    (∀ y : Symbol, t.freqAt y = 0) ∧ (∀ y : Symbol, t.codeAt y = { pat := 0, len := 0 })

/-! ## spec/60_exceptions.md -/

/-- R224: every command ends with the epilogue. What its own rule did is `body i st`, which leaves a state `s` with
`STATUS.CODE`, `ERRLOG`, `RESULT`, `ARG0` and all of the host's side as before; from `s` the epilogue writes the code,
the `ERRLOG` bit of a non-zero code and the result, and nothing else is saved or changed. -/
def Obligations.CommandEpilogue : Prop :=
  ∀ (i : Instr) (st : State), ∃ s : State,
    ((∃ v : Word, body i st = .ok v s ∧ EndsOk (exec i st) v s) ∨
      ∃ k : ErrorKind, body i st = .raised k s ∧ EndsIn (exec i st) k s) ∧
    s.status = st.status ∧ s.errlog = st.errlog ∧ s.result = st.result ∧ s.arg0 = st.arg0 ∧
    s.params = st.params ∧ s.host = st.host ∧ s.reply = st.reply ∧ s.freeIdx = st.freeIdx

/-- R221, R222: the error codes each command's own rule can end with. -/
def Obligations.CommandErrorCodes : Prop :=
  ∀ (i : Instr) (st t : State) (k : ErrorKind), exec i st = .next t → t.status = .error k → k ∈ errorsOf i

/-- R21, R30, R31, R61, R82: what each command leaves alone, whatever the state and however it ends: `ARG0` always; `FREQ`,
`CODE`, the arena with the heap, `ROOT` and `TREE_VALID`, and `RAW_LEN` unless it is one of the commands that write
them; and every stream and buffer it does not work on. -/
def Obligations.CommandFootprint : Prop :=
  ∀ (i : Instr) (st t : State), exec i st = .next t →
    t.arg0 = st.arg0 ∧ t.params = st.params ∧ t.host = st.host ∧ t.reply = st.reply ∧
    (i ∉ [.ctxReset, .freqClear, .freqCount] → t.freq = st.freq) ∧
    (i ∉ [.ctxReset, .codegen] → t.code = st.code) ∧
    (i ∉ [.ctxReset, .build, .treeLoad] →
      t.arena = st.arena ∧ t.arenaCount = st.arenaCount ∧ t.heap = st.heap ∧ t.heapSize = st.heapSize ∧
      t.root = st.root ∧ t.treeValid = st.treeValid) ∧
    (i ∉ [.ctxReset, .decode] → t.rawLen = st.rawLen) ∧
    (∀ s : StreamSel, usesStream i s = false → t.bs s = st.bs s) ∧
    (∀ s : StreamSel, writesStream i s = false → ∀ a, t.memRead (streamSpace s) a = st.memRead (streamSpace s) a) ∧
    (i ≠ .decode → ∀ a, t.memRead .raw a = st.memRead .raw a)

/-- R43, R226: no command reads `STATUS.CODE`, `ERRLOG` or `RESULT`: a failed command does not change what later ones do. -/
def Obligations.StatusDoesNotSteer : Prop :=
  ∀ (i : Instr) (st : State) (c : ResultCode) (e : BitVec 8) (r : Word),
    ∃ t t', exec i st = .next t ∧ exec i { st with status := c, errlog := e, result := r } = .next t' ∧
      t'.status = t.status ∧ t' = { t with errlog := t'.errlog, result := t'.result } ∧
      (t.status = .ok → t'.result = t.result)

/-- R82: of `ARG0` a command sees only its operand: WRITE_BIT bit 0, WRITE_BITS the low `N` bits, and every command without
an operand nothing. -/
def Obligations.OperandIndependence : Prop :=
  ∀ (i : Instr) (st : State) (v : Word), sameOperand i v st.arg0 →
    ∃ t, exec i st = .next t ∧ exec i { st with arg0 := v } = .next { t with arg0 := v }

/-! ## spec/70_reset_and_hazards.md -/

/-- R42: the state after reset, whatever the sizes of the buffers; and R250: the reset input takes the block there from any
state, the buffers keeping their sizes. Nothing is said of what R42 leaves unspecified. -/
def Obligations.ResetState : Prop :=
  ResetValues State.reset ∧ (∀ p : Config.Params, ResetValues (State.resetWith p)) ∧
  ∀ (st : State) (ts : List HostTxn), st.host = .reset :: ts →
    ∃ t, step st = .next t ∧ ResetValues t ∧ t.params = st.params ∧ t.host = ts

/-- The state after reset meets every invariant that the statements above say each step keeps. -/
def Obligations.ResetMeetsInvariants : Prop :=
  StreamsOk State.reset ∧ BuffersOk State.reset ∧ ArenaOk State.reset ∧ HeapOk State.reset ∧
  CodesOk State.reset ∧ RegistersOk State.reset
end

