-- ==== Sys2Proof/Laws/State.lean ====
section
/-! SUPPORT. Record updates of the state: for every named update, what each field is afterwards, so that no proof
unfolds an update. -/

namespace Sys2Proof.Machine

variable (st : State)

/-! ## setFreq -/

@[simp] theorem State.setFreq_arg0 (y : Symbol) (v : Word) : (st.setFreq y v).arg0 = st.arg0 := rfl
@[simp] theorem State.setFreq_result (y : Symbol) (v : Word) : (st.setFreq y v).result = st.result := rfl
@[simp] theorem State.setFreq_status (y : Symbol) (v : Word) : (st.setFreq y v).status = st.status := rfl
@[simp] theorem State.setFreq_errlog (y : Symbol) (v : Word) : (st.setFreq y v).errlog = st.errlog := rfl
@[simp] theorem State.setFreq_rawLen (y : Symbol) (v : Word) : (st.setFreq y v).rawLen = st.rawLen := rfl
@[simp] theorem State.setFreq_root (y : Symbol) (v : Word) : (st.setFreq y v).root = st.root := rfl
@[simp] theorem State.setFreq_treeValid (y : Symbol) (v : Word) : (st.setFreq y v).treeValid = st.treeValid := rfl
@[simp] theorem State.setFreq_arenaCount (y : Symbol) (v : Word) : (st.setFreq y v).arenaCount = st.arenaCount := rfl
@[simp] theorem State.setFreq_heapSize (y : Symbol) (v : Word) : (st.setFreq y v).heapSize = st.heapSize := rfl
@[simp] theorem State.setFreq_bsTree (y : Symbol) (v : Word) : (st.setFreq y v).bsTree = st.bsTree := rfl
@[simp] theorem State.setFreq_bsPay (y : Symbol) (v : Word) : (st.setFreq y v).bsPay = st.bsPay := rfl
@[simp] theorem State.setFreq_freq (y : Symbol) (v : Word) : (st.setFreq y v).freq = st.freq.set y.toNat v := rfl
@[simp] theorem State.setFreq_code (y : Symbol) (v : Word) : (st.setFreq y v).code = st.code := rfl
@[simp] theorem State.setFreq_arena (y : Symbol) (v : Word) : (st.setFreq y v).arena = st.arena := rfl
@[simp] theorem State.setFreq_heap (y : Symbol) (v : Word) : (st.setFreq y v).heap = st.heap := rfl
@[simp] theorem State.setFreq_treeBuf (y : Symbol) (v : Word) : (st.setFreq y v).treeBuf = st.treeBuf := rfl
@[simp] theorem State.setFreq_payBuf (y : Symbol) (v : Word) : (st.setFreq y v).payBuf = st.payBuf := rfl
@[simp] theorem State.setFreq_rawBuf (y : Symbol) (v : Word) : (st.setFreq y v).rawBuf = st.rawBuf := rfl
@[simp] theorem State.setFreq_params (y : Symbol) (v : Word) : (st.setFreq y v).params = st.params := rfl
@[simp] theorem State.setFreq_host (y : Symbol) (v : Word) : (st.setFreq y v).host = st.host := rfl
@[simp] theorem State.setFreq_reply (y : Symbol) (v : Word) : (st.setFreq y v).reply = st.reply := rfl
@[simp] theorem State.setFreq_freeIdx (y : Symbol) (v : Word) : (st.setFreq y v).freeIdx = st.freeIdx := rfl

/-! ## setCode -/

@[simp] theorem State.setCode_arg0 (y : Symbol) (e : CodeEntry) : (st.setCode y e).arg0 = st.arg0 := rfl
@[simp] theorem State.setCode_result (y : Symbol) (e : CodeEntry) : (st.setCode y e).result = st.result := rfl
@[simp] theorem State.setCode_status (y : Symbol) (e : CodeEntry) : (st.setCode y e).status = st.status := rfl
@[simp] theorem State.setCode_errlog (y : Symbol) (e : CodeEntry) : (st.setCode y e).errlog = st.errlog := rfl
@[simp] theorem State.setCode_rawLen (y : Symbol) (e : CodeEntry) : (st.setCode y e).rawLen = st.rawLen := rfl
@[simp] theorem State.setCode_root (y : Symbol) (e : CodeEntry) : (st.setCode y e).root = st.root := rfl
@[simp] theorem State.setCode_treeValid (y : Symbol) (e : CodeEntry) : (st.setCode y e).treeValid = st.treeValid := rfl
@[simp] theorem State.setCode_arenaCount (y : Symbol) (e : CodeEntry) : (st.setCode y e).arenaCount = st.arenaCount := rfl
@[simp] theorem State.setCode_heapSize (y : Symbol) (e : CodeEntry) : (st.setCode y e).heapSize = st.heapSize := rfl
@[simp] theorem State.setCode_bsTree (y : Symbol) (e : CodeEntry) : (st.setCode y e).bsTree = st.bsTree := rfl
@[simp] theorem State.setCode_bsPay (y : Symbol) (e : CodeEntry) : (st.setCode y e).bsPay = st.bsPay := rfl
@[simp] theorem State.setCode_freq (y : Symbol) (e : CodeEntry) : (st.setCode y e).freq = st.freq := rfl
@[simp] theorem State.setCode_code (y : Symbol) (e : CodeEntry) : (st.setCode y e).code = st.code.set y.toNat e := rfl
@[simp] theorem State.setCode_arena (y : Symbol) (e : CodeEntry) : (st.setCode y e).arena = st.arena := rfl
@[simp] theorem State.setCode_heap (y : Symbol) (e : CodeEntry) : (st.setCode y e).heap = st.heap := rfl
@[simp] theorem State.setCode_treeBuf (y : Symbol) (e : CodeEntry) : (st.setCode y e).treeBuf = st.treeBuf := rfl
@[simp] theorem State.setCode_payBuf (y : Symbol) (e : CodeEntry) : (st.setCode y e).payBuf = st.payBuf := rfl
@[simp] theorem State.setCode_rawBuf (y : Symbol) (e : CodeEntry) : (st.setCode y e).rawBuf = st.rawBuf := rfl
@[simp] theorem State.setCode_params (y : Symbol) (e : CodeEntry) : (st.setCode y e).params = st.params := rfl
@[simp] theorem State.setCode_host (y : Symbol) (e : CodeEntry) : (st.setCode y e).host = st.host := rfl
@[simp] theorem State.setCode_reply (y : Symbol) (e : CodeEntry) : (st.setCode y e).reply = st.reply := rfl
@[simp] theorem State.setCode_freeIdx (y : Symbol) (e : CodeEntry) : (st.setCode y e).freeIdx = st.freeIdx := rfl

/-! ## clearFreq -/

@[simp] theorem State.clearFreq_arg0 : (st.clearFreq).arg0 = st.arg0 := rfl
@[simp] theorem State.clearFreq_result : (st.clearFreq).result = st.result := rfl
@[simp] theorem State.clearFreq_status : (st.clearFreq).status = st.status := rfl
@[simp] theorem State.clearFreq_errlog : (st.clearFreq).errlog = st.errlog := rfl
@[simp] theorem State.clearFreq_rawLen : (st.clearFreq).rawLen = st.rawLen := rfl
@[simp] theorem State.clearFreq_root : (st.clearFreq).root = st.root := rfl
@[simp] theorem State.clearFreq_treeValid : (st.clearFreq).treeValid = st.treeValid := rfl
@[simp] theorem State.clearFreq_arenaCount : (st.clearFreq).arenaCount = st.arenaCount := rfl
@[simp] theorem State.clearFreq_heapSize : (st.clearFreq).heapSize = st.heapSize := rfl
@[simp] theorem State.clearFreq_bsTree : (st.clearFreq).bsTree = st.bsTree := rfl
@[simp] theorem State.clearFreq_bsPay : (st.clearFreq).bsPay = st.bsPay := rfl
@[simp] theorem State.clearFreq_freq : (st.clearFreq).freq = Vector.replicate 256 0 := rfl
@[simp] theorem State.clearFreq_code : (st.clearFreq).code = st.code := rfl
@[simp] theorem State.clearFreq_arena : (st.clearFreq).arena = st.arena := rfl
@[simp] theorem State.clearFreq_heap : (st.clearFreq).heap = st.heap := rfl
@[simp] theorem State.clearFreq_treeBuf : (st.clearFreq).treeBuf = st.treeBuf := rfl
@[simp] theorem State.clearFreq_payBuf : (st.clearFreq).payBuf = st.payBuf := rfl
@[simp] theorem State.clearFreq_rawBuf : (st.clearFreq).rawBuf = st.rawBuf := rfl
@[simp] theorem State.clearFreq_params : (st.clearFreq).params = st.params := rfl
@[simp] theorem State.clearFreq_host : (st.clearFreq).host = st.host := rfl
@[simp] theorem State.clearFreq_reply : (st.clearFreq).reply = st.reply := rfl
@[simp] theorem State.clearFreq_freeIdx : (st.clearFreq).freeIdx = st.freeIdx := rfl

/-! ## clearCode -/

@[simp] theorem State.clearCode_arg0 : (st.clearCode).arg0 = st.arg0 := rfl
@[simp] theorem State.clearCode_result : (st.clearCode).result = st.result := rfl
@[simp] theorem State.clearCode_status : (st.clearCode).status = st.status := rfl
@[simp] theorem State.clearCode_errlog : (st.clearCode).errlog = st.errlog := rfl
@[simp] theorem State.clearCode_rawLen : (st.clearCode).rawLen = st.rawLen := rfl
@[simp] theorem State.clearCode_root : (st.clearCode).root = st.root := rfl
@[simp] theorem State.clearCode_treeValid : (st.clearCode).treeValid = st.treeValid := rfl
@[simp] theorem State.clearCode_arenaCount : (st.clearCode).arenaCount = st.arenaCount := rfl
@[simp] theorem State.clearCode_heapSize : (st.clearCode).heapSize = st.heapSize := rfl
@[simp] theorem State.clearCode_bsTree : (st.clearCode).bsTree = st.bsTree := rfl
@[simp] theorem State.clearCode_bsPay : (st.clearCode).bsPay = st.bsPay := rfl
@[simp] theorem State.clearCode_freq : (st.clearCode).freq = st.freq := rfl
@[simp] theorem State.clearCode_code : (st.clearCode).code = Vector.replicate 256 CodeEntry.unassigned := rfl
@[simp] theorem State.clearCode_arena : (st.clearCode).arena = st.arena := rfl
@[simp] theorem State.clearCode_heap : (st.clearCode).heap = st.heap := rfl
@[simp] theorem State.clearCode_treeBuf : (st.clearCode).treeBuf = st.treeBuf := rfl
@[simp] theorem State.clearCode_payBuf : (st.clearCode).payBuf = st.payBuf := rfl
@[simp] theorem State.clearCode_rawBuf : (st.clearCode).rawBuf = st.rawBuf := rfl
@[simp] theorem State.clearCode_params : (st.clearCode).params = st.params := rfl
@[simp] theorem State.clearCode_host : (st.clearCode).host = st.host := rfl
@[simp] theorem State.clearCode_reply : (st.clearCode).reply = st.reply := rfl
@[simp] theorem State.clearCode_freeIdx : (st.clearCode).freeIdx = st.freeIdx := rfl

/-! ## arenaReset -/

@[simp] theorem State.arenaReset_arg0 : (st.arenaReset).arg0 = st.arg0 := rfl
@[simp] theorem State.arenaReset_result : (st.arenaReset).result = st.result := rfl
@[simp] theorem State.arenaReset_status : (st.arenaReset).status = st.status := rfl
@[simp] theorem State.arenaReset_errlog : (st.arenaReset).errlog = st.errlog := rfl
@[simp] theorem State.arenaReset_rawLen : (st.arenaReset).rawLen = st.rawLen := rfl
@[simp] theorem State.arenaReset_root : (st.arenaReset).root = Config.nil := rfl
@[simp] theorem State.arenaReset_treeValid : (st.arenaReset).treeValid = false := rfl
@[simp] theorem State.arenaReset_arenaCount : (st.arenaReset).arenaCount = 0 := rfl
@[simp] theorem State.arenaReset_heapSize : (st.arenaReset).heapSize = 0 := rfl
@[simp] theorem State.arenaReset_bsTree : (st.arenaReset).bsTree = st.bsTree := rfl
@[simp] theorem State.arenaReset_bsPay : (st.arenaReset).bsPay = st.bsPay := rfl
@[simp] theorem State.arenaReset_freq : (st.arenaReset).freq = st.freq := rfl
@[simp] theorem State.arenaReset_code : (st.arenaReset).code = st.code := rfl
@[simp] theorem State.arenaReset_arena : (st.arenaReset).arena = st.arena := rfl
@[simp] theorem State.arenaReset_heap : (st.arenaReset).heap = st.heap := rfl
@[simp] theorem State.arenaReset_treeBuf : (st.arenaReset).treeBuf = st.treeBuf := rfl
@[simp] theorem State.arenaReset_payBuf : (st.arenaReset).payBuf = st.payBuf := rfl
@[simp] theorem State.arenaReset_rawBuf : (st.arenaReset).rawBuf = st.rawBuf := rfl
@[simp] theorem State.arenaReset_params : (st.arenaReset).params = st.params := rfl
@[simp] theorem State.arenaReset_host : (st.arenaReset).host = st.host := rfl
@[simp] theorem State.arenaReset_reply : (st.arenaReset).reply = st.reply := rfl
@[simp] theorem State.arenaReset_freeIdx : (st.arenaReset).freeIdx = st.freeIdx := rfl

/-! ## endOk -/

@[simp] theorem State.endOk_arg0 (v : Word) : (st.endOk v).arg0 = st.arg0 := rfl
@[simp] theorem State.endOk_result (v : Word) : (st.endOk v).result = v := rfl
@[simp] theorem State.endOk_status (v : Word) : (st.endOk v).status = .ok := rfl
@[simp] theorem State.endOk_errlog (v : Word) : (st.endOk v).errlog = st.errlog := rfl
@[simp] theorem State.endOk_rawLen (v : Word) : (st.endOk v).rawLen = st.rawLen := rfl
@[simp] theorem State.endOk_root (v : Word) : (st.endOk v).root = st.root := rfl
@[simp] theorem State.endOk_treeValid (v : Word) : (st.endOk v).treeValid = st.treeValid := rfl
@[simp] theorem State.endOk_arenaCount (v : Word) : (st.endOk v).arenaCount = st.arenaCount := rfl
@[simp] theorem State.endOk_heapSize (v : Word) : (st.endOk v).heapSize = st.heapSize := rfl
@[simp] theorem State.endOk_bsTree (v : Word) : (st.endOk v).bsTree = st.bsTree := rfl
@[simp] theorem State.endOk_bsPay (v : Word) : (st.endOk v).bsPay = st.bsPay := rfl
@[simp] theorem State.endOk_freq (v : Word) : (st.endOk v).freq = st.freq := rfl
@[simp] theorem State.endOk_code (v : Word) : (st.endOk v).code = st.code := rfl
@[simp] theorem State.endOk_arena (v : Word) : (st.endOk v).arena = st.arena := rfl
@[simp] theorem State.endOk_heap (v : Word) : (st.endOk v).heap = st.heap := rfl
@[simp] theorem State.endOk_treeBuf (v : Word) : (st.endOk v).treeBuf = st.treeBuf := rfl
@[simp] theorem State.endOk_payBuf (v : Word) : (st.endOk v).payBuf = st.payBuf := rfl
@[simp] theorem State.endOk_rawBuf (v : Word) : (st.endOk v).rawBuf = st.rawBuf := rfl
@[simp] theorem State.endOk_params (v : Word) : (st.endOk v).params = st.params := rfl
@[simp] theorem State.endOk_host (v : Word) : (st.endOk v).host = st.host := rfl
@[simp] theorem State.endOk_reply (v : Word) : (st.endOk v).reply = st.reply := rfl
@[simp] theorem State.endOk_freeIdx (v : Word) : (st.endOk v).freeIdx = st.freeIdx := rfl

/-! ## endError -/

@[simp] theorem State.endError_arg0 (k : ErrorKind) : (st.endError k).arg0 = st.arg0 := rfl
@[simp] theorem State.endError_result (k : ErrorKind) : (st.endError k).result = st.freeValue := rfl
@[simp] theorem State.endError_status (k : ErrorKind) : (st.endError k).status = .error k := rfl
@[simp] theorem State.endError_errlog (k : ErrorKind) : (st.endError k).errlog = logError st.errlog k := rfl
@[simp] theorem State.endError_rawLen (k : ErrorKind) : (st.endError k).rawLen = st.rawLen := rfl
@[simp] theorem State.endError_root (k : ErrorKind) : (st.endError k).root = st.root := rfl
@[simp] theorem State.endError_treeValid (k : ErrorKind) : (st.endError k).treeValid = st.treeValid := rfl
@[simp] theorem State.endError_arenaCount (k : ErrorKind) : (st.endError k).arenaCount = st.arenaCount := rfl
@[simp] theorem State.endError_heapSize (k : ErrorKind) : (st.endError k).heapSize = st.heapSize := rfl
@[simp] theorem State.endError_bsTree (k : ErrorKind) : (st.endError k).bsTree = st.bsTree := rfl
@[simp] theorem State.endError_bsPay (k : ErrorKind) : (st.endError k).bsPay = st.bsPay := rfl
@[simp] theorem State.endError_freq (k : ErrorKind) : (st.endError k).freq = st.freq := rfl
@[simp] theorem State.endError_code (k : ErrorKind) : (st.endError k).code = st.code := rfl
@[simp] theorem State.endError_arena (k : ErrorKind) : (st.endError k).arena = st.arena := rfl
@[simp] theorem State.endError_heap (k : ErrorKind) : (st.endError k).heap = st.heap := rfl
@[simp] theorem State.endError_treeBuf (k : ErrorKind) : (st.endError k).treeBuf = st.treeBuf := rfl
@[simp] theorem State.endError_payBuf (k : ErrorKind) : (st.endError k).payBuf = st.payBuf := rfl
@[simp] theorem State.endError_rawBuf (k : ErrorKind) : (st.endError k).rawBuf = st.rawBuf := rfl
@[simp] theorem State.endError_params (k : ErrorKind) : (st.endError k).params = st.params := rfl
@[simp] theorem State.endError_host (k : ErrorKind) : (st.endError k).host = st.host := rfl
@[simp] theorem State.endError_reply (k : ErrorKind) : (st.endError k).reply = st.reply := rfl
@[simp] theorem State.endError_freeIdx (k : ErrorKind) : (st.endError k).freeIdx = st.freeIdx + 1 := rfl

/-! ## answer -/

@[simp] theorem State.answer_arg0 (v : Word) : (st.answer v).arg0 = st.arg0 := rfl
@[simp] theorem State.answer_result (v : Word) : (st.answer v).result = st.result := rfl
@[simp] theorem State.answer_status (v : Word) : (st.answer v).status = st.status := rfl
@[simp] theorem State.answer_errlog (v : Word) : (st.answer v).errlog = st.errlog := rfl
@[simp] theorem State.answer_rawLen (v : Word) : (st.answer v).rawLen = st.rawLen := rfl
@[simp] theorem State.answer_root (v : Word) : (st.answer v).root = st.root := rfl
@[simp] theorem State.answer_treeValid (v : Word) : (st.answer v).treeValid = st.treeValid := rfl
@[simp] theorem State.answer_arenaCount (v : Word) : (st.answer v).arenaCount = st.arenaCount := rfl
@[simp] theorem State.answer_heapSize (v : Word) : (st.answer v).heapSize = st.heapSize := rfl
@[simp] theorem State.answer_bsTree (v : Word) : (st.answer v).bsTree = st.bsTree := rfl
@[simp] theorem State.answer_bsPay (v : Word) : (st.answer v).bsPay = st.bsPay := rfl
@[simp] theorem State.answer_freq (v : Word) : (st.answer v).freq = st.freq := rfl
@[simp] theorem State.answer_code (v : Word) : (st.answer v).code = st.code := rfl
@[simp] theorem State.answer_arena (v : Word) : (st.answer v).arena = st.arena := rfl
@[simp] theorem State.answer_heap (v : Word) : (st.answer v).heap = st.heap := rfl
@[simp] theorem State.answer_treeBuf (v : Word) : (st.answer v).treeBuf = st.treeBuf := rfl
@[simp] theorem State.answer_payBuf (v : Word) : (st.answer v).payBuf = st.payBuf := rfl
@[simp] theorem State.answer_rawBuf (v : Word) : (st.answer v).rawBuf = st.rawBuf := rfl
@[simp] theorem State.answer_params (v : Word) : (st.answer v).params = st.params := rfl
@[simp] theorem State.answer_host (v : Word) : (st.answer v).host = st.host := rfl
@[simp] theorem State.answer_reply (v : Word) : (st.answer v).reply = v := rfl
@[simp] theorem State.answer_freeIdx (v : Word) : (st.answer v).freeIdx = st.freeIdx := rfl

/-! ## readFree -/

@[simp] theorem State.readFree_arg0 : (st.readFree).arg0 = st.arg0 := rfl
@[simp] theorem State.readFree_result : (st.readFree).result = st.result := rfl
@[simp] theorem State.readFree_status : (st.readFree).status = st.status := rfl
@[simp] theorem State.readFree_errlog : (st.readFree).errlog = st.errlog := rfl
@[simp] theorem State.readFree_rawLen : (st.readFree).rawLen = st.rawLen := rfl
@[simp] theorem State.readFree_root : (st.readFree).root = st.root := rfl
@[simp] theorem State.readFree_treeValid : (st.readFree).treeValid = st.treeValid := rfl
@[simp] theorem State.readFree_arenaCount : (st.readFree).arenaCount = st.arenaCount := rfl
@[simp] theorem State.readFree_heapSize : (st.readFree).heapSize = st.heapSize := rfl
@[simp] theorem State.readFree_bsTree : (st.readFree).bsTree = st.bsTree := rfl
@[simp] theorem State.readFree_bsPay : (st.readFree).bsPay = st.bsPay := rfl
@[simp] theorem State.readFree_freq : (st.readFree).freq = st.freq := rfl
@[simp] theorem State.readFree_code : (st.readFree).code = st.code := rfl
@[simp] theorem State.readFree_arena : (st.readFree).arena = st.arena := rfl
@[simp] theorem State.readFree_heap : (st.readFree).heap = st.heap := rfl
@[simp] theorem State.readFree_treeBuf : (st.readFree).treeBuf = st.treeBuf := rfl
@[simp] theorem State.readFree_payBuf : (st.readFree).payBuf = st.payBuf := rfl
@[simp] theorem State.readFree_rawBuf : (st.readFree).rawBuf = st.rawBuf := rfl
@[simp] theorem State.readFree_params : (st.readFree).params = st.params := rfl
@[simp] theorem State.readFree_host : (st.readFree).host = st.host := rfl
@[simp] theorem State.readFree_reply : (st.readFree).reply = st.freeValue := rfl
@[simp] theorem State.readFree_freeIdx : (st.readFree).freeIdx = st.freeIdx + 1 := rfl

/-! ## setBs -/

@[simp] theorem State.setBs_arg0 (s : StreamSel) (q : Stream) : (st.setBs s q).arg0 = st.arg0 := by cases s <;> rfl
@[simp] theorem State.setBs_result (s : StreamSel) (q : Stream) : (st.setBs s q).result = st.result := by cases s <;> rfl
@[simp] theorem State.setBs_status (s : StreamSel) (q : Stream) : (st.setBs s q).status = st.status := by cases s <;> rfl
@[simp] theorem State.setBs_errlog (s : StreamSel) (q : Stream) : (st.setBs s q).errlog = st.errlog := by cases s <;> rfl
@[simp] theorem State.setBs_rawLen (s : StreamSel) (q : Stream) : (st.setBs s q).rawLen = st.rawLen := by cases s <;> rfl
@[simp] theorem State.setBs_root (s : StreamSel) (q : Stream) : (st.setBs s q).root = st.root := by cases s <;> rfl
@[simp] theorem State.setBs_treeValid (s : StreamSel) (q : Stream) : (st.setBs s q).treeValid = st.treeValid := by cases s <;> rfl
@[simp] theorem State.setBs_arenaCount (s : StreamSel) (q : Stream) : (st.setBs s q).arenaCount = st.arenaCount := by cases s <;> rfl
@[simp] theorem State.setBs_heapSize (s : StreamSel) (q : Stream) : (st.setBs s q).heapSize = st.heapSize := by cases s <;> rfl
@[simp] theorem State.setBs_freq (s : StreamSel) (q : Stream) : (st.setBs s q).freq = st.freq := by cases s <;> rfl
@[simp] theorem State.setBs_code (s : StreamSel) (q : Stream) : (st.setBs s q).code = st.code := by cases s <;> rfl
@[simp] theorem State.setBs_arena (s : StreamSel) (q : Stream) : (st.setBs s q).arena = st.arena := by cases s <;> rfl
@[simp] theorem State.setBs_heap (s : StreamSel) (q : Stream) : (st.setBs s q).heap = st.heap := by cases s <;> rfl
@[simp] theorem State.setBs_treeBuf (s : StreamSel) (q : Stream) : (st.setBs s q).treeBuf = st.treeBuf := by cases s <;> rfl
@[simp] theorem State.setBs_payBuf (s : StreamSel) (q : Stream) : (st.setBs s q).payBuf = st.payBuf := by cases s <;> rfl
@[simp] theorem State.setBs_rawBuf (s : StreamSel) (q : Stream) : (st.setBs s q).rawBuf = st.rawBuf := by cases s <;> rfl
@[simp] theorem State.setBs_params (s : StreamSel) (q : Stream) : (st.setBs s q).params = st.params := by cases s <;> rfl
@[simp] theorem State.setBs_host (s : StreamSel) (q : Stream) : (st.setBs s q).host = st.host := by cases s <;> rfl
@[simp] theorem State.setBs_reply (s : StreamSel) (q : Stream) : (st.setBs s q).reply = st.reply := by cases s <;> rfl
@[simp] theorem State.setBs_freeIdx (s : StreamSel) (q : Stream) : (st.setBs s q).freeIdx = st.freeIdx := by cases s <;> rfl

/-! ## setBuf -/

@[simp] theorem State.setBuf_arg0 (sp : Space) (m : Memory) : (st.setBuf sp m).arg0 = st.arg0 := by cases sp <;> rfl
@[simp] theorem State.setBuf_result (sp : Space) (m : Memory) : (st.setBuf sp m).result = st.result := by cases sp <;> rfl
@[simp] theorem State.setBuf_status (sp : Space) (m : Memory) : (st.setBuf sp m).status = st.status := by cases sp <;> rfl
@[simp] theorem State.setBuf_errlog (sp : Space) (m : Memory) : (st.setBuf sp m).errlog = st.errlog := by cases sp <;> rfl
@[simp] theorem State.setBuf_rawLen (sp : Space) (m : Memory) : (st.setBuf sp m).rawLen = st.rawLen := by cases sp <;> rfl
@[simp] theorem State.setBuf_root (sp : Space) (m : Memory) : (st.setBuf sp m).root = st.root := by cases sp <;> rfl
@[simp] theorem State.setBuf_treeValid (sp : Space) (m : Memory) : (st.setBuf sp m).treeValid = st.treeValid := by cases sp <;> rfl
@[simp] theorem State.setBuf_arenaCount (sp : Space) (m : Memory) : (st.setBuf sp m).arenaCount = st.arenaCount := by cases sp <;> rfl
@[simp] theorem State.setBuf_heapSize (sp : Space) (m : Memory) : (st.setBuf sp m).heapSize = st.heapSize := by cases sp <;> rfl
@[simp] theorem State.setBuf_bsTree (sp : Space) (m : Memory) : (st.setBuf sp m).bsTree = st.bsTree := by cases sp <;> rfl
@[simp] theorem State.setBuf_bsPay (sp : Space) (m : Memory) : (st.setBuf sp m).bsPay = st.bsPay := by cases sp <;> rfl
@[simp] theorem State.setBuf_freq (sp : Space) (m : Memory) : (st.setBuf sp m).freq = st.freq := by cases sp <;> rfl
@[simp] theorem State.setBuf_code (sp : Space) (m : Memory) : (st.setBuf sp m).code = st.code := by cases sp <;> rfl
@[simp] theorem State.setBuf_arena (sp : Space) (m : Memory) : (st.setBuf sp m).arena = st.arena := by cases sp <;> rfl
@[simp] theorem State.setBuf_heap (sp : Space) (m : Memory) : (st.setBuf sp m).heap = st.heap := by cases sp <;> rfl
@[simp] theorem State.setBuf_params (sp : Space) (m : Memory) : (st.setBuf sp m).params = st.params := by cases sp <;> rfl
@[simp] theorem State.setBuf_host (sp : Space) (m : Memory) : (st.setBuf sp m).host = st.host := by cases sp <;> rfl
@[simp] theorem State.setBuf_reply (sp : Space) (m : Memory) : (st.setBuf sp m).reply = st.reply := by cases sp <;> rfl
@[simp] theorem State.setBuf_freeIdx (sp : Space) (m : Memory) : (st.setBuf sp m).freeIdx = st.freeIdx := by cases sp <;> rfl

/-! ## memWrite -/

@[simp] theorem State.memWrite_arg0 (sp : Space) (a : Nat) (v : Byte) : (st.memWrite sp a v).arg0 = st.arg0 := by unfold State.memWrite; split <;> simp
@[simp] theorem State.memWrite_result (sp : Space) (a : Nat) (v : Byte) : (st.memWrite sp a v).result = st.result := by unfold State.memWrite; split <;> simp
@[simp] theorem State.memWrite_status (sp : Space) (a : Nat) (v : Byte) : (st.memWrite sp a v).status = st.status := by unfold State.memWrite; split <;> simp
@[simp] theorem State.memWrite_errlog (sp : Space) (a : Nat) (v : Byte) : (st.memWrite sp a v).errlog = st.errlog := by unfold State.memWrite; split <;> simp
@[simp] theorem State.memWrite_rawLen (sp : Space) (a : Nat) (v : Byte) : (st.memWrite sp a v).rawLen = st.rawLen := by unfold State.memWrite; split <;> simp
@[simp] theorem State.memWrite_root (sp : Space) (a : Nat) (v : Byte) : (st.memWrite sp a v).root = st.root := by unfold State.memWrite; split <;> simp
@[simp] theorem State.memWrite_treeValid (sp : Space) (a : Nat) (v : Byte) : (st.memWrite sp a v).treeValid = st.treeValid := by unfold State.memWrite; split <;> simp
@[simp] theorem State.memWrite_arenaCount (sp : Space) (a : Nat) (v : Byte) : (st.memWrite sp a v).arenaCount = st.arenaCount := by unfold State.memWrite; split <;> simp
@[simp] theorem State.memWrite_heapSize (sp : Space) (a : Nat) (v : Byte) : (st.memWrite sp a v).heapSize = st.heapSize := by unfold State.memWrite; split <;> simp
@[simp] theorem State.memWrite_bsTree (sp : Space) (a : Nat) (v : Byte) : (st.memWrite sp a v).bsTree = st.bsTree := by unfold State.memWrite; split <;> simp
@[simp] theorem State.memWrite_bsPay (sp : Space) (a : Nat) (v : Byte) : (st.memWrite sp a v).bsPay = st.bsPay := by unfold State.memWrite; split <;> simp
@[simp] theorem State.memWrite_freq (sp : Space) (a : Nat) (v : Byte) : (st.memWrite sp a v).freq = st.freq := by unfold State.memWrite; split <;> simp
@[simp] theorem State.memWrite_code (sp : Space) (a : Nat) (v : Byte) : (st.memWrite sp a v).code = st.code := by unfold State.memWrite; split <;> simp
@[simp] theorem State.memWrite_arena (sp : Space) (a : Nat) (v : Byte) : (st.memWrite sp a v).arena = st.arena := by unfold State.memWrite; split <;> simp
@[simp] theorem State.memWrite_heap (sp : Space) (a : Nat) (v : Byte) : (st.memWrite sp a v).heap = st.heap := by unfold State.memWrite; split <;> simp
@[simp] theorem State.memWrite_params (sp : Space) (a : Nat) (v : Byte) : (st.memWrite sp a v).params = st.params := by unfold State.memWrite; split <;> simp
@[simp] theorem State.memWrite_host (sp : Space) (a : Nat) (v : Byte) : (st.memWrite sp a v).host = st.host := by unfold State.memWrite; split <;> simp
@[simp] theorem State.memWrite_reply (sp : Space) (a : Nat) (v : Byte) : (st.memWrite sp a v).reply = st.reply := by unfold State.memWrite; split <;> simp
@[simp] theorem State.memWrite_freeIdx (sp : Space) (a : Nat) (v : Byte) : (st.memWrite sp a v).freeIdx = st.freeIdx := by unfold State.memWrite; split <;> simp

/-! ## Accessors through updates -/

@[simp] theorem State.bs_setBs_same (s : StreamSel) (q : Stream) : (st.setBs s q).bs s = q := by
  cases s <;> rfl

theorem State.bs_setBs (s u : StreamSel) (q : Stream) :
    (st.setBs s q).bs u = if u = s then q else st.bs u := by
  cases s <;> cases u <;> rfl

theorem State.bs_setBs_ne {s u : StreamSel} (q : Stream) (h : u ≠ s) : (st.setBs s q).bs u = st.bs u := by
  rw [State.bs_setBs, if_neg h]

@[simp] theorem State.setBs_bs (s : StreamSel) : st.setBs s (st.bs s) = st := by
  cases s <;> rfl

@[simp] theorem State.setBs_setBs (s : StreamSel) (q r : Stream) : (st.setBs s q).setBs s r = st.setBs s r := by
  cases s <;> rfl

@[simp] theorem State.bs_memWrite (s : StreamSel) (sp : Space) (a : Nat) (v : Byte) :
    (st.memWrite sp a v).bs s = st.bs s := by
  cases s <;> simp [State.bs]

@[simp] theorem State.buf_setBs (sp : Space) (s : StreamSel) (q : Stream) : (st.setBs s q).buf sp = st.buf sp := by
  cases sp <;> simp [State.buf]

@[simp] theorem State.buf_setBuf_same (sp : Space) (m : Memory) : (st.setBuf sp m).buf sp = m := by
  cases sp <;> rfl

theorem State.buf_setBuf_ne {sp sp' : Space} (m : Memory) (h : sp' ≠ sp) : (st.setBuf sp m).buf sp' = st.buf sp' := by
  cases sp <;> cases sp' <;> first | rfl | exact absurd rfl h

@[simp] theorem State.bufSize_setBs (sp : Space) (s : StreamSel) (q : Stream) :
    (st.setBs s q).bufSize sp = st.bufSize sp := by
  cases sp <;> simp [State.bufSize]

@[simp] theorem State.bufSize_memWrite (sp sp' : Space) (a : Nat) (v : Byte) :
    (st.memWrite sp a v).bufSize sp' = st.bufSize sp' := by
  cases sp' <;> simp [State.bufSize]

@[simp] theorem State.bufSize_setBuf (sp sp' : Space) (m : Memory) :
    (st.setBuf sp m).bufSize sp' = st.bufSize sp' := by
  cases sp' <;> simp [State.bufSize]

@[simp] theorem State.memRead_setBs (sp : Space) (a : Nat) (s : StreamSel) (q : Stream) :
    (st.setBs s q).memRead sp a = st.memRead sp a := by
  simp [State.memRead]

/-! ## What the accessors depend on -/

theorem State.bs_congr {st st' : State} (s : StreamSel) (ht : st'.bsTree = st.bsTree) (hp : st'.bsPay = st.bsPay) :
    st'.bs s = st.bs s := by
  cases s <;> simp [State.bs, ht, hp]

theorem State.memRead_congr {st st' : State} (sp : Space) (a : Nat) (hb : st'.buf sp = st.buf sp)
    (hp : st'.params = st.params) : st'.memRead sp a = st.memRead sp a := by
  have hs : st'.bufSize sp = st.bufSize sp := by cases sp <;> simp [State.bufSize, hp]
  simp [State.memRead, hb, hs]

theorem State.slot_congr {st st' : State} (i : NodeIdx) (h : st'.arena = st.arena) : st'.slot i = st.slot i := by
  simp [State.slot, h]

theorem State.node?_congr {st st' : State} (i : NodeIdx) (ha : st'.arena = st.arena)
    (hc : st'.arenaCount = st.arenaCount) : st'.node? i = st.node? i := by
  simp [State.node?, State.slot, ha, hc]

theorem Holds_congr {st st' : State} (ha : st'.arena = st.arena) (hc : st'.arenaCount = st.arenaCount) (t : Tree)
    (i : NodeIdx) : Holds st' t i ↔ Holds st t i := by
  induction t generalizing i with
  | leaf y => simp only [Holds, State.node?_congr i ha hc]
  | node a b iha ihb => simp only [Holds, State.node?_congr i ha hc, iha, ihb]

end Sys2Proof.Machine
end

