-- ==== Sys2Proof/Laws/Memory.lean ====
section
/-! SUPPORT. The laws of a buffer's contents: a read after a write, and that every write keeps the canonical form and
the physical bounds. -/

namespace Sys2Proof.Machine

/-! ## Reads and writes of one contents -/

/-- Below every listed address nothing is listed. -/
theorem Memory.read_of_lt {m : Memory} {lo a : Nat} (hw : Memory.wfFrom lo m = true) (ha : a < lo) :
    Memory.read m a = Config.unwrittenByte := by
  induction m generalizing lo with
  | nil => rfl
  | cons c cs ih =>
    simp only [Memory.wfFrom, Bool.and_eq_true, decide_eq_true_eq] at hw
    rw [Memory.read, if_neg (by omega)]
    exact ih hw.2 (by omega)

theorem Memory.wfFrom_mono {m : Memory} {lo lo' : Nat} (h : lo' ≤ lo) (hw : Memory.wfFrom lo m = true) :
    Memory.wfFrom lo' m = true := by
  cases m with
  | nil => rfl
  | cons c cs =>
    simp only [Memory.wfFrom, Bool.and_eq_true, decide_eq_true_eq] at hw ⊢
    exact ⟨⟨by omega, hw.1.2⟩, hw.2⟩

theorem Memory.read_write_same {m : Memory} {lo : Nat} (a : Nat) (v : Byte) (hw : Memory.wfFrom lo m = true) :
    Memory.read (Memory.write m a v) a = v := by
  induction m generalizing lo with
  | nil =>
    unfold Memory.write
    split
    · rename_i h; rw [h]; rfl
    · simp [Memory.read]
  | cons c cs ih =>
    simp only [Memory.wfFrom, Bool.and_eq_true, decide_eq_true_eq] at hw
    unfold Memory.write
    split
    · rw [Memory.read, if_neg (by omega)]
      exact ih hw.2
    · split
      · split
        · rename_i h; rw [h]; exact Memory.read_of_lt hw.2 (by omega)
        · simp [Memory.read]
      · split
        · rename_i h
          rw [h, Memory.read, if_neg (by omega)]
          exact Memory.read_of_lt hw.2 (by omega)
        · simp [Memory.read]

theorem Memory.read_write_ne {m : Memory} {a b : Nat} (v : Byte) (h : b ≠ a) :
    Memory.read (Memory.write m a v) b = Memory.read m b := by
  induction m with
  | nil =>
    unfold Memory.write
    split
    · rfl
    · simp [Memory.read, Ne.symm h]
  | cons c cs ih =>
    unfold Memory.write
    split
    · simp only [Memory.read, ih]
    · split
      · rename_i hc
        split
        · rw [Memory.read, if_neg (by omega)]
        · simp [Memory.read, hc, Ne.symm h]
      · split
        · rfl
        · rw [Memory.read, if_neg (by exact Ne.symm h)]

theorem Memory.wfFrom_write {m : Memory} {lo : Nat} (a : Nat) (v : Byte) (hw : Memory.wfFrom lo m = true)
    (ha : lo ≤ a) : Memory.wfFrom lo (Memory.write m a v) = true := by
  induction m generalizing lo with
  | nil =>
    unfold Memory.write
    split
    · rfl
    · simp [Memory.wfFrom, *]
  | cons c cs ih =>
    simp only [Memory.wfFrom, Bool.and_eq_true, decide_eq_true_eq] at hw
    unfold Memory.write
    split
    · simp only [Memory.wfFrom, Bool.and_eq_true, decide_eq_true_eq]
      exact ⟨hw.1, ih hw.2 (by omega)⟩
    · split
      · split
        · exact Memory.wfFrom_mono (by omega) hw.2
        · rename_i hc hv
          simp only [Memory.wfFrom, Bool.and_eq_true, decide_eq_true_eq, bne_iff_ne, ne_eq]
          exact ⟨⟨ha, hv⟩, by rw [← hc]; exact hw.2⟩
      · split
        · simp only [Memory.wfFrom, Bool.and_eq_true, decide_eq_true_eq]
          exact hw
        · rename_i hv
          simp only [Memory.wfFrom, Bool.and_eq_true, decide_eq_true_eq, bne_iff_ne, ne_eq]
          refine ⟨⟨ha, hv⟩, ⟨by omega, by simpa using hw.1.2⟩, hw.2⟩

theorem Memory.mem_write {m : Memory} {a : Nat} {v : Byte} {c : Host.Cell} (h : c ∈ Memory.write m a v) :
    c = (a, v) ∨ c ∈ m := by
  induction m with
  | nil =>
    unfold Memory.write at h
    split at h <;> simp_all
  | cons d ds ih =>
    unfold Memory.write at h
    split at h
    · rcases List.mem_cons.1 h with h | h
      · exact .inr (h ▸ List.mem_cons_self)
      · exact (ih h).imp id (List.mem_cons_of_mem _)
    · split at h
      · split at h
        · exact .inr (List.mem_cons_of_mem _ h)
        · rcases List.mem_cons.1 h with h | h
          · exact .inl h
          · exact .inr (List.mem_cons_of_mem _ h)
      · split at h
        · exact .inr h
        · rcases List.mem_cons.1 h with h | h
          · exact .inl h
          · exact .inr h

/-- Every write below the physical size keeps the canonical form and the bounds. -/
theorem BufferOk.write {m : Memory} {size : Nat} (h : BufferOk m size) {a : Nat} (ha : a < size) (v : Byte) :
    BufferOk (Memory.write m a v) size :=
  ⟨Memory.wfFrom_write a v h.1 (Nat.zero_le a), fun c hc => by
    rcases Memory.mem_write hc with hc | hc
    · rw [hc]; exact ha
    · exact h.2 c hc⟩

/-! ## Reads and writes of a buffer space -/

@[simp] theorem State.buf_memWrite_ne {st : State} {sp sp' : Space} {a : Nat} {v : Byte} (h : sp' ≠ sp) :
    (st.memWrite sp a v).buf sp' = st.buf sp' := by
  unfold State.memWrite
  split
  · exact State.buf_setBuf_ne st _ h
  · rfl

theorem State.memRead_memWrite_ne {st : State} {sp sp' : Space} {a b : Nat} {v : Byte} (h : sp' ≠ sp ∨ b ≠ a) :
    (st.memWrite sp a v).memRead sp' b = st.memRead sp' b := by
  by_cases hs : sp' = sp
  · have hb : b ≠ a := h.resolve_left (by simpa using hs)
    subst hs
    have hm : Memory.read ((st.memWrite sp' a v).buf sp') b = Memory.read (st.buf sp') b := by
      unfold State.memWrite
      split
      · rw [State.buf_setBuf_same, Memory.read_write_ne v hb]
      · rfl
    simp only [State.memRead, State.bufSize_memWrite, hm]
  · simp only [State.memRead, State.bufSize_memWrite, State.buf_memWrite_ne hs]

theorem State.memRead_memWrite_same {st : State} {sp : Space} {a : Nat} {v : Byte}
    (hw : (st.buf sp).wf = true) (ha : a < st.bufSize sp) : (st.memWrite sp a v).memRead sp a = v := by
  simp only [State.memRead, State.bufSize_memWrite, if_pos ha]
  rw [State.memWrite, if_pos ha, State.buf_setBuf_same]
  exact Memory.read_write_same a v hw

/-- Every write to a buffer space keeps the canonical form of all three. -/
theorem BuffersOk.memWrite {st : State} (h : BuffersOk st) (sp : Space) (a : Nat) (v : Byte) :
    BuffersOk (st.memWrite sp a v) := by
  intro sp'
  rw [State.bufSize_memWrite]
  by_cases hs : sp' = sp
  · subst hs
    unfold State.memWrite
    split
    · rename_i ha
      rw [State.buf_setBuf_same]
      exact (h sp').write ha v
    · exact h sp'
  · rw [State.buf_memWrite_ne hs]
    exact h sp'

theorem BuffersOk.congr {st st' : State} (h : BuffersOk st) (hb : ∀ sp, st'.buf sp = st.buf sp)
    (hp : st'.params = st.params) : BuffersOk st' := by
  intro sp
  have hs : st'.bufSize sp = st.bufSize sp := by cases sp <;> simp [State.bufSize, hp]
  rw [hb, hs]
  exact h sp

/-- Reset memory lists nothing, which is the canonical form. -/
theorem BuffersOk.resetWith (p : Config.Params) : BuffersOk (State.resetWith p) := by
  intro sp
  cases sp <;> exact ⟨rfl, fun c hc => absurd hc (by simp [State.buf, State.resetWith])⟩

end Sys2Proof.Machine
end

