-- ==== Sys2Proof/Laws/Stream.lean ====
section
/-! SUPPORT. What the BitStream procedures do, said once for each: a writer appends to its bit string, a reader takes from
the front of its own, and nothing else of the state moves. -/

namespace Sys2Proof.Machine

/-! ## Bit strings -/

@[simp] theorem fieldBits_length {w : Nat} (v : BitVec w) (n : Nat) : (fieldBits v n).length = n := by
  simp [fieldBits]

/-- The first bit sent of an (n+1)-bit field is bit n; the rest is the n-bit field. -/
theorem fieldBits_succ {w : Nat} (v : BitVec w) (n : Nat) :
    fieldBits v (n + 1) = v.getLsbD n :: fieldBits v n := by
  simp only [fieldBits, List.range_succ_eq_map, List.map_cons, List.map_map, Nat.add_sub_cancel, Nat.sub_zero]
  congr 1
  apply List.map_congr_left
  intro i _
  simp only [Function.comp_apply, Nat.succ_eq_add_one]
  congr 1
  omega

theorem bitAt_getLsbD (k : BitVec 3) (b : Bool) (j : Nat) :
    (bitAt k b).getLsbD j = (decide (j = 7 - k.toNat) && b) := by
  by_cases hj : j < 8
  · have key : ∀ (k : BitVec 3) (b : Bool) (j : Fin 8),
        (bitAt k b).getLsbD j.val = (decide (j.val = 7 - k.toNat) && b) := by decide
    exact key k b ⟨j, hj⟩
  · rw [BitVec.getLsbD_of_ge _ _ (by omega), decide_eq_false (by omega), Bool.false_and]

theorem range_eight {n : Nat} (h : n ≤ 8) : List.range 8 = List.range n ++ (List.range (8 - n)).map (n + ·) := by
  rw [← List.range_add, show n + (8 - n) = 8 by omega]

theorem Stream.bit_lt (q : Stream) : q.bit.toNat < 8 := q.bit.isLt

theorem Stream.pos_div (q : Stream) : q.pos / 8 = q.byte.toNat := by
  have := q.bit_lt; unfold Stream.pos; omega

theorem Stream.pos_mod (q : Stream) : q.pos % 8 = q.bit.toNat := by
  have := q.bit_lt; unfold Stream.pos; omega

theorem State.written_length (st : State) (s : StreamSel) : (st.written s).length = (st.bs s).pos := by
  simp [State.written, Stream.pos]

/-! ## Writers -/

/-- An open writer of a state that keeps R36 and whose buffer is in canonical form. -/
structure WriterOk (st : State) (s : StreamSel) : Prop where
  mode : (st.bs s).mode = .writer
  ok   : (st.bs s).Ok (st.bufSize (streamSpace s))
  mem  : (st.buf (streamSpace s)).wf = true

/-- From `st` to `t` only stream `s` and its buffer moved: mode and limit stayed, and the buffer changed at most at the
bytes the cursor passed. -/
structure WriterFrame (s : StreamSel) (st t : State) : Prop where
  rest  : t = (st.setBs s (t.bs s)).setBuf (streamSpace s) (t.buf (streamSpace s))
  mode  : (t.bs s).mode = (st.bs s).mode
  limit : (t.bs s).limit = (st.bs s).limit
  bytes : ∀ a, a < (st.bs s).byte.toNat ∨ (t.bs s).byte.toNat ≤ a →
            t.memRead (streamSpace s) a = st.memRead (streamSpace s) a
  up    : (st.bs s).byte.toNat ≤ (t.bs s).byte.toNat

theorem State.setBuf_buf (st : State) (sp : Space) : st.setBuf sp (st.buf sp) = st := by
  cases sp <;> rfl

theorem WriterFrame.refl (s : StreamSel) (st : State) : WriterFrame s st st where
  rest := by rw [State.setBs_bs, State.setBuf_buf]
  mode := rfl
  limit := rfl
  bytes := fun _ _ => rfl
  up := Nat.le_refl _

theorem setBs_setBuf_trans {s : StreamSel} {sp : Space} {st t u : State}
    (h : t = (st.setBs s (t.bs s)).setBuf sp (t.buf sp)) (h' : u = (t.setBs s (u.bs s)).setBuf sp (u.buf sp)) :
    u = (st.setBs s (u.bs s)).setBuf sp (u.buf sp) := by
  rw [h'] ; conv_lhs => rw [h]
  cases s <;> cases sp <;> simp [State.setBs, State.setBuf, State.bs, State.buf]

theorem WriterFrame.trans {s : StreamSel} {st t u : State} (h : WriterFrame s st t) (h' : WriterFrame s t u) :
    WriterFrame s st u where
  rest := setBs_setBuf_trans h.rest h'.rest
  mode := h'.mode.trans h.mode
  limit := h'.limit.trans h.limit
  bytes := fun a ha => by
    have := h.up; have := h'.up
    rw [h'.bytes a (by omega), h.bytes a (by omega)]
  up := Nat.le_trans h.up h'.up

theorem writeBit_pending {s : StreamSel} {b : Bool} {st : State} (h : (st.bs s).bit.toNat < 7) :
    writeBit s b st = .ok () (st.setBs s
      { st.bs s with hold := (st.bs s).hold ||| bitAt (st.bs s).bit b, bit := (st.bs s).bit + 1 }) := by
  simp [writeBit, h]

theorem writeBit_commit {s : StreamSel} {b : Bool} {st : State} (h : ¬ (st.bs s).bit.toNat < 7)
    (hl : ¬ (st.bs s).limit ≤ (st.bs s).byte) :
    writeBit s b st = .ok ()
      ((st.memWrite (streamSpace s) (st.bs s).byte.toNat ((st.bs s).hold ||| bitAt (st.bs s).bit b)).setBs s
        { st.bs s with byte := (st.bs s).byte + 1, bit := 0, hold := 0 }) := by
  simp only [writeBit, if_neg h, if_neg hl]

theorem writeBit_overflow {s : StreamSel} {b : Bool} {st : State} (h : ¬ (st.bs s).bit.toNat < 7)
    (hl : (st.bs s).limit ≤ (st.bs s).byte) : writeBit s b st = .raised .overflow st := by
  simp only [writeBit, if_neg h, if_pos hl]

theorem bit_succ_toNat {k : BitVec 3} (h : k.toNat < 7) : (k + 1).toNat = k.toNat + 1 := by
  rw [BitVec.toNat_add]
  simp
  omega

theorem byte_succ_toNat {a b : Length} (h : a.toNat < b.toNat) : (a + 1).toNat = a.toNat + 1 := by
  have := b.isLt
  rw [BitVec.toNat_add]
  simp
  omega

theorem setBuf_memWrite (st : State) (sp : Space) (a : Nat) (v : Byte) :
    st.memWrite sp a v = st.setBuf sp ((st.memWrite sp a v).buf sp) := by
  unfold State.memWrite
  split
  · rw [State.buf_setBuf_same]
  · rw [State.setBuf_buf]

theorem setBs_setBuf_comm (st : State) (s : StreamSel) (q : Stream) (sp : Space) (m : Memory) :
    (st.setBuf sp m).setBs s q = (st.setBs s q).setBuf sp m := by
  cases s <;> cases sp <;> rfl

/-- A write to the stream's buffer and then to its registers is a change of those two alone. -/
theorem rest_of_commit (st : State) (s : StreamSel) (q : Stream) (a : Nat) (v : Byte) :
    (st.memWrite (streamSpace s) a v).setBs s q =
      (st.setBs s (((st.memWrite (streamSpace s) a v).setBs s q).bs s)).setBuf (streamSpace s)
        (((st.memWrite (streamSpace s) a v).setBs s q).buf (streamSpace s)) := by
  rw [State.bs_setBs_same, State.buf_setBs, ← setBs_setBuf_comm, ← setBuf_memWrite]

/-- Committing byte `h` at the cursor: what the writer's bit string becomes when the bits of `h` are the pending bits
and then `more`. -/
theorem commit_spec {st : State} {s : StreamSel} (hw : WriterOk st s) (hl : ¬ (st.bs s).limit ≤ (st.bs s).byte)
    {h : Byte} {more : List Bool}
    (hh : (List.range 8).map (fun k => h.getLsbD (7 - k)) =
      (List.range (st.bs s).bit.toNat).map (fun k => (st.bs s).hold.getLsbD (7 - k)) ++ more) :
    let t := (st.memWrite (streamSpace s) (st.bs s).byte.toNat h).setBs s
      { st.bs s with byte := (st.bs s).byte + 1, bit := 0, hold := 0 }
    WriterOk t s ∧ t.written s = st.written s ++ more ∧ (t.bs s).pos = 8 * (st.bs s).byte.toNat + 8 ∧
      WriterFrame s st t := by
  intro t
  have hlt : (st.bs s).byte.toNat < (st.bs s).limit.toNat := by
    simpa [BitVec.le_def] using hl
  have hsz : (st.bs s).byte.toNat < st.bufSize (streamSpace s) := Nat.lt_of_lt_of_le hlt hw.ok.limit_le
  have hq : t.bs s = { st.bs s with byte := (st.bs s).byte + 1, bit := 0, hold := 0 } := State.bs_setBs_same ..
  have hbyte : (t.bs s).byte.toNat = (st.bs s).byte.toNat + 1 := by rw [hq]; exact byte_succ_toNat hlt
  have hread : ∀ a, t.memRead (streamSpace s) a =
      if a = (st.bs s).byte.toNat then h else st.memRead (streamSpace s) a := by
    intro a
    simp only [t, State.memRead_setBs]
    split
    · rename_i ha; rw [ha]; exact State.memRead_memWrite_same hw.mem hsz
    · rename_i ha; exact State.memRead_memWrite_ne (.inr ha)
  refine ⟨⟨?_, ⟨?_, ?_, ?_, ?_⟩, ?_⟩, ?_, ?_, ⟨rest_of_commit .., ?_, ?_, ?_, ?_⟩⟩
  · rw [hq]; exact hw.mode
  · rw [hbyte, hq]; exact hlt
  · rw [hq]; simpa [t] using hw.ok.limit_le
  · intro _ j _; rw [hq]; simp
  · intro hm; rw [hq] at hm; exact absurd (hw.mode.symm.trans hm) (by decide)
  · simp only [t, State.buf_setBs]
    rw [State.memWrite, if_pos hsz, State.buf_setBuf_same]
    exact Memory.wfFrom_write _ _ hw.mem (Nat.zero_le _)
  · have hold : ∀ n, n < 8 * (st.bs s).byte.toNat →
        t.bufBit (streamSpace s) n = st.bufBit (streamSpace s) n := by
      intro n hn
      rw [State.bufBit, State.bufBit, hread, if_neg (by omega)]
    have hnew : ∀ k, k < 8 → t.bufBit (streamSpace s) (8 * (st.bs s).byte.toNat + k) = h.getLsbD (7 - k) := by
      intro k hk
      rw [State.bufBit, hread, if_pos (by omega)]
      congr 1
      omega
    have h1 : (List.range (8 * (st.bs s).byte.toNat)).map (fun n => t.bufBit (streamSpace s) n)
        = (List.range (8 * (st.bs s).byte.toNat)).map (fun n => st.bufBit (streamSpace s) n) :=
      List.map_congr_left fun n hn => hold n (List.mem_range.1 hn)
    have h2 : (List.range 8).map ((fun n => t.bufBit (streamSpace s) n) ∘ (8 * (st.bs s).byte.toNat + ·))
        = (List.range 8).map (fun k => h.getLsbD (7 - k)) :=
      List.map_congr_left fun k hk => hnew k (List.mem_range.1 hk)
    have hb0 : (t.bs s).bit.toNat = 0 := by rw [hq]; rfl
    rw [State.written, State.written, hbyte, hb0, Nat.mul_add, Nat.mul_one, List.range_add, List.map_append,
      List.map_map, h1, h2, hh]
    simp
  · rw [Stream.pos, hbyte, hq]; simp; omega
  · rw [hq]
  · rw [hq]
  · intro a ha
    rw [hread, if_neg (by omega)]
  · omega

/-- `writeBit` with room: it appends its bit. -/
theorem writeBit_room {st : State} {s : StreamSel} (b : Bool) (hw : WriterOk st s) (hr : (st.bs s).hasRoom 1) :
    ∃ t, writeBit s b st = .ok () t ∧ WriterOk t s ∧ t.written s = st.written s ++ [b] ∧
      (t.bs s).pos = (st.bs s).pos + 1 ∧ WriterFrame s st t := by
  have h8 := (st.bs s).bit_lt
  have hpad := hw.ok.padded hw.mode
  by_cases h7 : (st.bs s).bit.toNat < 7
  · refine ⟨_, writeBit_pending h7, ?_⟩
    generalize ht : st.setBs s _ = t
    have hq : t.bs s = { st.bs s with hold := (st.bs s).hold ||| bitAt (st.bs s).bit b, bit := (st.bs s).bit + 1 } := by
      rw [← ht]; exact State.bs_setBs_same ..
    have hbit : (t.bs s).bit.toNat = (st.bs s).bit.toNat + 1 := by rw [hq]; exact bit_succ_toNat h7
    have hread : ∀ sp a, t.memRead sp a = st.memRead sp a := by intro sp a; rw [← ht]; simp
    have hbuf : t.buf (streamSpace s) = st.buf (streamSpace s) := by rw [← ht]; simp
    have hsize : t.bufSize (streamSpace s) = st.bufSize (streamSpace s) := by rw [← ht]; simp
    have hbyte : (t.bs s).byte = (st.bs s).byte := by rw [hq]
    have hget : ∀ j, (t.bs s).hold.getLsbD j =
        ((st.bs s).hold.getLsbD j || (decide (j = 7 - (st.bs s).bit.toNat) && b)) := by
      intro j; rw [hq]; simp [bitAt_getLsbD]
    refine ⟨⟨?_, ⟨?_, ?_, ?_, ?_⟩, ?_⟩, ?_, ?_, ⟨?_, ?_, ?_, ?_, ?_⟩⟩
    · rw [hq]; exact hw.mode
    · rw [hq]; exact hw.ok.byte_le
    · rw [hsize, hq]; exact hw.ok.limit_le
    · intro _ j hj
      rw [hbit] at hj
      rw [hget, hpad j (by omega), decide_eq_false (by omega)]
      rfl
    · intro hm; rw [hq] at hm; exact absurd (hw.mode.symm.trans hm) (by decide)
    · rw [hbuf]; exact hw.mem
    · have h1 : (List.range (8 * (t.bs s).byte.toNat)).map (fun n => t.bufBit (streamSpace s) n)
          = (List.range (8 * (st.bs s).byte.toNat)).map (fun n => st.bufBit (streamSpace s) n) := by
        rw [hbyte]
        exact List.map_congr_left fun n _ => by rw [State.bufBit, State.bufBit, hread]
      have h2 : (List.range (st.bs s).bit.toNat).map (fun k => (t.bs s).hold.getLsbD (7 - k))
          = (List.range (st.bs s).bit.toNat).map (fun k => (st.bs s).hold.getLsbD (7 - k)) :=
        List.map_congr_left fun k hk => by
          have := List.mem_range.1 hk
          rw [hget, decide_eq_false (by omega), Bool.false_and, Bool.or_false]
      have h3 : (t.bs s).hold.getLsbD (7 - (st.bs s).bit.toNat) = b := by
        rw [hget, hpad _ (by omega)]; simp
      rw [State.written, State.written, h1, hbit, List.range_succ, List.map_append, h2, List.map_singleton, h3,
        List.append_assoc]
    · rw [Stream.pos, hbit, hbyte, Stream.pos]; omega
    · rw [hbuf, ← ht, State.bs_setBs_same]
      rw [← State.buf_setBs, State.setBuf_buf]
    · rw [hq]
    · rw [hq]
    · intro a _; exact hread _ a
    · rw [hbyte]
  · have hlim : ¬ (st.bs s).limit ≤ (st.bs s).byte := by
      have hr' : ((st.bs s).pos + 1) / 8 ≤ (st.bs s).limit.toNat := hr
      unfold Stream.pos at hr'
      rw [BitVec.le_def]; omega
    have hb7 : (st.bs s).bit.toNat = 7 := by omega
    have hh : (List.range 8).map (fun k => ((st.bs s).hold ||| bitAt (st.bs s).bit b).getLsbD (7 - k)) =
        (List.range (st.bs s).bit.toNat).map (fun k => (st.bs s).hold.getLsbD (7 - k)) ++ [b] := by
      rw [hb7, range_eight (n := 7) (by omega), List.map_append]
      congr 1
      · apply List.map_congr_left
        intro k hk
        have := List.mem_range.1 hk
        rw [BitVec.getLsbD_or, bitAt_getLsbD, hb7, decide_eq_false (by omega), Bool.false_and, Bool.or_false]
      · have h0 : (st.bs s).hold[0] = false := by simpa using hpad 0 (by omega)
        simp [bitAt_getLsbD, hb7, h0]
    obtain ⟨h1, h2, h3, h4⟩ := commit_spec hw hlim hh
    exact ⟨_, writeBit_commit h7 hlim, h1, h2, by rw [h3, Stream.pos, hb7], h4⟩

/-- `writeBit` without room changes nothing. -/
theorem writeBit_noRoom {st : State} {s : StreamSel} (b : Bool) (hw : WriterOk st s)
    (hr : ¬ (st.bs s).hasRoom 1) : writeBit s b st = .raised .overflow st := by
  have h8 := (st.bs s).bit_lt
  have hle := hw.ok.byte_le
  have hr' : ¬ ((st.bs s).pos + 1) / 8 ≤ (st.bs s).limit.toNat := hr
  unfold Stream.pos at hr'
  apply writeBit_overflow (by omega)
  rw [BitVec.le_def]
  omega

theorem Result.andThen_assoc {α β γ : Type} (r : Result α) (f : α → State → Result β) (g : β → State → Result γ) :
    (r.andThen f).andThen g = r.andThen fun a st => (f a st).andThen g := by
  cases r <;> rfl

@[simp] theorem Result.andThen_ok {α β : Type} (a : α) (st : State) (f : α → State → Result β) :
    (Result.ok a st).andThen f = f a st := rfl

@[simp] theorem Result.andThen_raised {α β : Type} (k : ErrorKind) (st : State) (f : α → State → Result β) :
    (Result.raised k st : Result α).andThen f = .raised k st := rfl

theorem Result.andThen_unit (r : Result Unit) : (r.andThen fun _ st => .ok () st) = r := by
  cases r <;> rfl

theorem writeList_append (s : StreamSel) (as bs : List Bool) (st : State) :
    writeList s (as ++ bs) st = (writeList s as st).andThen fun _ st => writeList s bs st := by
  induction as generalizing st with
  | nil => rfl
  | cons a as ih =>
    simp only [List.cons_append, writeList, Result.andThen_assoc]
    cases writeBit s a st with
    | ok u st' => exact ih st'
    | raised k st' => rfl

/-- `writeBits` writes the field's bit string (R64, R104). -/
theorem writeBits_eq_writeList (s : StreamSel) (v : Word) (n : Nat) (st : State) :
    writeBits s v n st = writeList s (fieldBits v n) st := by
  induction n generalizing st with
  | zero => rfl
  | succ n ih =>
    rw [fieldBits_succ, writeBits, writeList]
    congr 1
    funext _ st
    exact ih st

theorem Stream.hasRoom_mono {q : Stream} {m n : Nat} (h : q.hasRoom n) (hm : m ≤ n) : q.hasRoom m := by
  unfold Stream.hasRoom at *; omega

/-- Writing a bit string with room for all of it appends it. -/
theorem writeList_room {st : State} {s : StreamSel} (bs : List Bool) (hw : WriterOk st s)
    (hr : (st.bs s).hasRoom bs.length) :
    ∃ t, writeList s bs st = .ok () t ∧ WriterOk t s ∧ t.written s = st.written s ++ bs ∧
      (t.bs s).pos = (st.bs s).pos + bs.length ∧ WriterFrame s st t := by
  induction bs generalizing st with
  | nil => exact ⟨st, rfl, hw, by simp, by simp, .refl s st⟩
  | cons b bs ih =>
    obtain ⟨t, h1, h2, h3, h4, h5⟩ := writeBit_room b hw (Stream.hasRoom_mono hr (by simp))
    have hr' : (t.bs s).hasRoom bs.length := by
      unfold Stream.hasRoom at *
      rw [h4, h5.limit]
      simp only [List.length_cons] at hr
      omega
    obtain ⟨u, k1, k2, k3, k4, k5⟩ := ih h2 hr'
    refine ⟨u, by rw [writeList, h1]; exact k1, k2, ?_, ?_, h5.trans k5⟩
    · rw [k3, h3]; simp
    · rw [k4, h4, List.length_cons]; omega

theorem Stream.hasRoom_iff {q : Stream} {n : Nat} (hle : q.byte.toNat ≤ q.limit.toNat) :
    q.hasRoom n ↔ n ≤ q.space := by
  have := q.bit_lt
  unfold Stream.hasRoom Stream.space Stream.pos
  omega

/-- Writing a bit string without room for all of it "leaves the stream at the last successful bit". -/
theorem writeList_noRoom {st : State} {s : StreamSel} (bs : List Bool) (hw : WriterOk st s)
    (hr : ¬ (st.bs s).hasRoom bs.length) :
    ∃ t, writeList s bs st = .raised .overflow t ∧ WriterOk t s ∧
      t.written s = st.written s ++ bs.take (st.bs s).space ∧
      (t.bs s).pos = 8 * (st.bs s).limit.toNat + 7 ∧ WriterFrame s st t := by
  induction bs generalizing st with
  | nil =>
    exfalso; apply hr
    rw [Stream.hasRoom_iff hw.ok.byte_le]; simp
  | cons b bs ih =>
    have h8 := (st.bs s).bit_lt
    have hle := hw.ok.byte_le
    by_cases h1 : (st.bs s).hasRoom 1
    · obtain ⟨t, e1, e2, e3, e4, e5⟩ := writeBit_room b hw h1
      have hr' : ¬ (t.bs s).hasRoom bs.length := by
        unfold Stream.hasRoom at *
        rw [e4, e5.limit]
        simp only [List.length_cons] at hr
        omega
      obtain ⟨u, k1, k2, k3, k4, k5⟩ := ih e2 hr'
      have hsp : (st.bs s).space = (t.bs s).space + 1 := by
        rw [Stream.hasRoom_iff hle] at h1
        unfold Stream.space at *
        rw [e4, e5.limit]
        omega
      refine ⟨u, by rw [writeList, e1]; exact k1, k2, ?_, ?_, e5.trans k5⟩
      · rw [k3, e3, hsp, List.take_succ_cons]; simp
      · rw [k4, e5.limit]
    · refine ⟨st, by rw [writeList, writeBit_noRoom b hw h1]; rfl, hw, ?_, ?_, .refl s st⟩
      · rw [Stream.hasRoom_iff hle] at h1
        rw [show (st.bs s).space = 0 by omega]; simp
      · unfold Stream.hasRoom Stream.pos at h1
        unfold Stream.pos
        omega

/-- `finalize` with no pending bit is a no-op that returns the count. -/
theorem finalize_idle {st : State} {s : StreamSel} (h : (st.bs s).bit = 0) :
    finalize s st = .ok (st.bs s).byte st := by
  simp [finalize, h]

theorem finalize_overflow {st : State} {s : StreamSel} (h : (st.bs s).bit ≠ 0)
    (hl : (st.bs s).limit ≤ (st.bs s).byte) : finalize s st = .raised .overflow st := by
  rw [finalize, if_neg h, if_pos hl]

theorem finalize_commit {st : State} {s : StreamSel} (h : (st.bs s).bit ≠ 0)
    (hl : ¬ (st.bs s).limit ≤ (st.bs s).byte) :
    finalize s st = .ok ((st.bs s).byte + 1)
      ((st.memWrite (streamSpace s) (st.bs s).byte.toNat (st.bs s).hold).setBs s
        { st.bs s with byte := (st.bs s).byte + 1, bit := 0, hold := 0 }) := by
  simp only [finalize, if_neg h, if_neg hl]

/-- The number of zero bits FINALIZE adds. -/
def Stream.padding (q : Stream) : Nat := (8 - q.bit.toNat) % 8

/-- `finalize` with room: the pending bits are in the buffer, padded with zeros to a whole number of bytes, and the
count is exact. -/
theorem finalize_room {st : State} {s : StreamSel} (hw : WriterOk st s)
    (hr : (st.bs s).hasRoom (st.bs s).padding) :
    ∃ t, finalize s st = .ok (t.bs s).byte t ∧ WriterOk t s ∧
      t.written s = st.written s ++ List.replicate (st.bs s).padding false ∧ (t.bs s).bit = 0 ∧
      WriterFrame s st t := by
  have h8 := (st.bs s).bit_lt
  have hpad := hw.ok.padded hw.mode
  by_cases hb : (st.bs s).bit = 0
  · have hz : (st.bs s).padding = 0 := by unfold Stream.padding; rw [hb]; rfl
    exact ⟨st, finalize_idle hb, hw, by rw [hz]; simp, hb, .refl s st⟩
  · have hbn : (st.bs s).bit.toNat ≠ 0 := fun h => hb (by
      apply BitVec.eq_of_toNat_eq; simpa using h)
    have hlim : ¬ (st.bs s).limit ≤ (st.bs s).byte := by
      have hr' : ((st.bs s).pos + (st.bs s).padding) / 8 ≤ (st.bs s).limit.toNat := hr
      unfold Stream.pos Stream.padding at hr'
      rw [BitVec.le_def]; omega
    have hp : (st.bs s).padding = 8 - (st.bs s).bit.toNat := by unfold Stream.padding; omega
    have hh : (List.range 8).map (fun k => (st.bs s).hold.getLsbD (7 - k)) =
        (List.range (st.bs s).bit.toNat).map (fun k => (st.bs s).hold.getLsbD (7 - k))
          ++ List.replicate (st.bs s).padding false := by
      rw [hp]
      rw [range_eight (n := (st.bs s).bit.toNat) (by omega), List.map_append, List.map_map]
      congr 1
      rw [List.eq_replicate_iff]
      refine ⟨by simp, ?_⟩
      intro b hbm
      simp only [List.mem_map, List.mem_range, Function.comp_apply] at hbm
      obtain ⟨k, hk, rfl⟩ := hbm
      exact hpad _ (by omega)
    obtain ⟨h1, h2, h3, h4⟩ := commit_spec hw hlim hh
    refine ⟨_, ?_, h1, h2, by rw [State.bs_setBs_same], h4⟩
    rw [finalize_commit hb hlim, State.bs_setBs_same]

/-- `finalize` without room changes nothing. -/
theorem finalize_noRoom {st : State} {s : StreamSel} (hw : WriterOk st s)
    (hr : ¬ (st.bs s).hasRoom (st.bs s).padding) : finalize s st = .raised .overflow st := by
  have h8 := (st.bs s).bit_lt
  have hle := hw.ok.byte_le
  have hr' : ¬ ((st.bs s).pos + (st.bs s).padding) / 8 ≤ (st.bs s).limit.toNat := hr
  unfold Stream.pos Stream.padding at hr'
  apply finalize_overflow
  · intro hb; rw [hb] at hr'; simp at hr'; omega
  · rw [BitVec.le_def]; omega

end Sys2Proof.Machine
end

