-- ==== Sys2Proof/Laws/Reader.lean ====
section
/-! SUPPORT. What the reader procedures do, said once for each: a read takes the first of the bits a reader can still
deliver, and only the stream's own registers move. -/

namespace Sys2Proof.Machine

/-- An open reader of a state that keeps R36. -/
structure ReaderOk (st : State) (s : StreamSel) : Prop where
  mode : (st.bs s).mode = .reader
  ok   : (st.bs s).Ok (st.bufSize (streamSpace s))

/-- From `st` to `t` only the registers of stream `s` moved, and not its mode or limit. -/
structure ReaderFrame (s : StreamSel) (st t : State) : Prop where
  rest  : t = st.setBs s (t.bs s)
  mode  : (t.bs s).mode = (st.bs s).mode
  limit : (t.bs s).limit = (st.bs s).limit

theorem ReaderFrame.refl (s : StreamSel) (st : State) : ReaderFrame s st st where
  rest := by rw [State.setBs_bs]
  mode := rfl
  limit := rfl

theorem ReaderFrame.trans {s : StreamSel} {st t u : State} (h : ReaderFrame s st t) (h' : ReaderFrame s t u) :
    ReaderFrame s st u where
  rest := by rw [h'.rest]; conv_lhs => rw [h.rest]
             simp
  mode := h'.mode.trans h.mode
  limit := h'.limit.trans h.limit

theorem ReaderFrame.memRead {s : StreamSel} {st t : State} (h : ReaderFrame s st t) (sp : Space) (a : Nat) :
    t.memRead sp a = st.memRead sp a := by
  rw [h.rest]; simp

theorem ReaderFrame.bufSize {s : StreamSel} {st t : State} (h : ReaderFrame s st t) (sp : Space) :
    t.bufSize sp = st.bufSize sp := by
  rw [h.rest]; simp

theorem State.unread_length (st : State) (s : StreamSel) :
    (st.unread s).length = 8 * (st.bs s).limit.toNat - (st.bs s).pos := by
  simp [State.unread]

/-- An open reader's cursor never passes its limit (R36). -/
theorem ReaderOk.pos_le {st : State} {s : StreamSel} (h : ReaderOk st s) :
    (st.bs s).pos ≤ 8 * (st.bs s).limit.toNat := by
  have h1 := h.ok.byte_le
  have h2 := h.ok.entered h.mode
  have h3 := (st.bs s).bit_lt
  unfold Stream.pos
  by_cases h0 : (st.bs s).bit = 0
  · have : (st.bs s).bit.toNat = 0 := by rw [h0]; rfl
    omega
  · have := h2 h0
    omega

/-- The front of what a reader can still deliver. -/
theorem State.unread_cons {st : State} {s : StreamSel} (h : (st.bs s).pos < 8 * (st.bs s).limit.toNat) :
    st.unread s = st.readerBit s (st.bs s).pos ::
      (List.range (8 * (st.bs s).limit.toNat - ((st.bs s).pos + 1))).map fun j =>
        st.readerBit s ((st.bs s).pos + 1 + j) := by
  have e : 8 * (st.bs s).limit.toNat - (st.bs s).pos = 8 * (st.bs s).limit.toNat - ((st.bs s).pos + 1) + 1 := by
    omega
  rw [State.unread, e, List.range_succ_eq_map, List.map_cons, List.map_map, Nat.add_zero]
  congr 1
  apply List.map_congr_left
  intro j _
  simp only [Function.comp_apply, Nat.succ_eq_add_one]
  congr 1
  omega

theorem latched_getLsbD (st : State) (s : StreamSel) (n : Nat) (hn : n / 8 = (st.bs s).byte.toNat) :
    (latched s st).getLsbD (7 - n % 8) = st.readerBit s n := by
  unfold latched State.readerBit
  by_cases hb : (st.bs s).bit = 0
  · rw [if_pos hb, if_neg (fun h => h.2 hb), State.bufBit, hn]
  · rw [if_neg hb, if_pos ⟨hn, hb⟩]

/-- `readBit` at the end of the source changes nothing. -/
theorem readBit_end {st : State} {s : StreamSel} (hw : ReaderOk st s)
    (h : 8 * (st.bs s).limit.toNat ≤ (st.bs s).pos) : readBit s st = .raised .truncated st := by
  have h8 := (st.bs s).bit_lt
  have hent := hw.ok.entered hw.mode
  have hle := hw.ok.byte_le
  unfold Stream.pos at h
  have hb : (st.bs s).bit = 0 := by
    by_contra hb
    have := hent hb
    omega
  have hl : (st.bs s).limit ≤ (st.bs s).byte := by
    rw [BitVec.le_def]; rw [hb] at h; simp at h; omega
  rw [readBit, if_pos ⟨hb, hl⟩]

/-- `readBit` before the end of the source delivers the next bit. -/
theorem readBit_more {st : State} {s : StreamSel} (hw : ReaderOk st s)
    (h : (st.bs s).pos < 8 * (st.bs s).limit.toNat) :
    ∃ b t, readBit s st = .ok b t ∧ ReaderOk t s ∧ st.unread s = b :: t.unread s ∧
      (t.bs s).pos = (st.bs s).pos + 1 ∧ ReaderFrame s st t := by
  have h8 := (st.bs s).bit_lt
  have hlt : (st.bs s).byte.toNat < (st.bs s).limit.toNat := by unfold Stream.pos at h; omega
  have hcond : ¬ ((st.bs s).bit = 0 ∧ (st.bs s).limit ≤ (st.bs s).byte) := by
    rintro ⟨_, hl⟩; rw [BitVec.le_def] at hl; omega
  have hval : (latched s st).getLsbD (7 - (st.bs s).bit.toNat) = st.readerBit s (st.bs s).pos := by
    rw [← latched_getLsbD st s _ (Stream.pos_div _), Stream.pos_mod]
  refine ⟨st.readerBit s (st.bs s).pos, ?_⟩
  by_cases h7 : (st.bs s).bit.toNat < 7
  · refine ⟨st.setBs s { st.bs s with hold := latched s st, bit := (st.bs s).bit + 1 }, ?_, ?_⟩
    · simp only [readBit, if_neg hcond, if_pos h7, hval]
    · generalize ht : st.setBs s _ = t
      have hq : t.bs s = { st.bs s with hold := latched s st, bit := (st.bs s).bit + 1 } := by
        rw [← ht]; exact State.bs_setBs_same ..
      have hbit : (t.bs s).bit.toNat = (st.bs s).bit.toNat + 1 := by rw [hq]; exact bit_succ_toNat h7
      have hbne : (t.bs s).bit ≠ 0 := fun hb => by rw [hb] at hbit; simp at hbit
      have hbyte : (t.bs s).byte = (st.bs s).byte := by rw [hq]
      have hpos : (t.bs s).pos = (st.bs s).pos + 1 := by rw [Stream.pos, hbit, hbyte, Stream.pos]; omega
      have hread : ∀ sp a, t.memRead sp a = st.memRead sp a := by intro sp a; rw [← ht]; simp
      have hsame : ∀ n, t.readerBit s n = st.readerBit s n := by
        intro n
        by_cases hn : n / 8 = (st.bs s).byte.toNat
        · rw [← latched_getLsbD st s n hn, State.readerBit, if_pos ⟨by rw [hq]; exact hn, hbne⟩, hq]
        · rw [State.readerBit, State.readerBit, if_neg (by rw [hq]; exact fun h => hn h.1),
            if_neg (fun h => hn h.1), State.bufBit, State.bufBit, hread]
      refine ⟨⟨?_, ⟨?_, ?_, ?_, ?_⟩⟩, ?_, hpos, ⟨?_, ?_, ?_⟩⟩
      · rw [hq]; exact hw.mode
      · rw [hq]; exact hw.ok.byte_le
      · rw [hq, ← ht, State.bufSize_setBs]; exact hw.ok.limit_le
      · intro hm; rw [hq] at hm; exact absurd (hw.mode.symm.trans hm) (by decide)
      · intro _ _; rw [hq]; exact hlt
      · rw [State.unread_cons h, State.unread, hpos, hq]
        simp only [hsame]
      · rw [hq, ht]
      · rw [hq]
      · rw [hq]
  · have hb7 : (st.bs s).bit.toNat = 7 := by omega
    refine ⟨st.setBs s { st.bs s with hold := latched s st, bit := 0, byte := (st.bs s).byte + 1 }, ?_, ?_⟩
    · simp only [readBit, if_neg hcond, if_neg h7, hval]
    · generalize ht : st.setBs s _ = t
      have hq : t.bs s = { st.bs s with hold := latched s st, bit := 0, byte := (st.bs s).byte + 1 } := by
        rw [← ht]; exact State.bs_setBs_same ..
      have hbyte : (t.bs s).byte.toNat = (st.bs s).byte.toNat + 1 := by rw [hq]; exact byte_succ_toNat hlt
      have hpos : (t.bs s).pos = (st.bs s).pos + 1 := by
        rw [Stream.pos, hbyte, hq, Stream.pos, hb7]; simp; omega
      have hread : ∀ sp a, t.memRead sp a = st.memRead sp a := by intro sp a; rw [← ht]; simp
      have hsame : ∀ n, (st.bs s).pos + 1 ≤ n → t.readerBit s n = st.readerBit s n := by
        intro n hn
        have : n / 8 ≠ (st.bs s).byte.toNat := by unfold Stream.pos at hn; omega
        rw [State.readerBit, State.readerBit, if_neg (by rw [hq]; exact fun h => h.2 rfl),
          if_neg (fun h => this h.1), State.bufBit, State.bufBit, hread]
      refine ⟨⟨?_, ⟨?_, ?_, ?_, ?_⟩⟩, ?_, hpos, ⟨?_, ?_, ?_⟩⟩
      · rw [hq]; exact hw.mode
      · rw [hbyte, hq]; exact hlt
      · rw [hq, ← ht, State.bufSize_setBs]; exact hw.ok.limit_le
      · intro hm; rw [hq] at hm; exact absurd (hw.mode.symm.trans hm) (by decide)
      · intro _ hb; rw [hq] at hb; exact absurd rfl hb
      · rw [State.unread_cons h, State.unread, hpos, show (t.bs s).limit = (st.bs s).limit by rw [hq]]
        congr 1
        exact List.map_congr_left fun j _ => (hsame _ (by omega)).symm
      · rw [hq, ht]
      · rw [hq]
      · rw [hq]

/-- `readBit` by the bits still to deliver. -/
theorem readBit_of_unread {st : State} {s : StreamSel} (hw : ReaderOk st s) {b : Bool} {bs : List Bool}
    (h : st.unread s = b :: bs) :
    ∃ t, readBit s st = .ok b t ∧ ReaderOk t s ∧ t.unread s = bs ∧ (t.bs s).pos = (st.bs s).pos + 1 ∧
      ReaderFrame s st t := by
  have hl := st.unread_length s
  rw [h, List.length_cons] at hl
  obtain ⟨b', t, h1, h2, h3, h4, h5⟩ := readBit_more hw (by omega)
  rw [h] at h3
  obtain ⟨rfl, rfl⟩ := List.cons.inj h3
  exact ⟨t, h1, h2, rfl, h4, h5⟩

theorem readBit_of_unread_nil {st : State} {s : StreamSel} (hw : ReaderOk st s) (h : st.unread s = []) :
    readBit s st = .raised .truncated st := by
  have hl := st.unread_length s
  rw [h, List.length_nil] at hl
  exact readBit_end hw (by omega)

/-! ## Fields -/

theorem shiftIn_eq (v : Word) (b : Bool) :
    (v <<< 1) ||| (BitVec.ofBool b).zeroExtend 64 = BitVec.ofNat 64 (2 * v.toNat + b.toNat) := by
  apply BitVec.eq_of_getLsbD_eq
  intro i hi
  rw [BitVec.getLsbD_or, BitVec.getLsbD_shiftLeft, BitVec.getLsbD_ofNat]
  cases i with
  | zero => cases b <;> simp [Nat.testBit_zero]
  | succ i =>
    have e : (2 * v.toNat + b.toNat).testBit (i + 1) = v.toNat.testBit i := by
      rw [Nat.testBit_succ]
      congr 1
      have := Bool.toNat_lt b
      omega
    rw [e]
    have h1 : Nat.testBit 1 (i + 1) = false := by rw [Nat.testBit_succ]; simp
    cases b <;> simp [hi, BitVec.getLsbD, h1]

/-- The value `readBits` has assembled after the bits `bs`, from `v` on. -/
theorem ofNat_foldl_shiftIn (bs : List Bool) (n : Nat) :
    BitVec.ofNat 64 (bs.foldl (fun a b => 2 * a + b.toNat) (n % 2 ^ 64)) =
      BitVec.ofNat 64 (bs.foldl (fun a b => 2 * a + b.toNat) n) := by
  have key : ∀ (bs : List Bool) (a b : Nat), a % 2 ^ 64 = b % 2 ^ 64 →
      bs.foldl (fun a b => 2 * a + b.toNat) a % 2 ^ 64 = bs.foldl (fun a b => 2 * a + b.toNat) b % 2 ^ 64 := by
    intro bs
    induction bs with
    | nil => intro a b h; exact h
    | cons x xs ih =>
      intro a b h
      have : (2 * a + x.toNat) % 2 ^ 64 = (2 * b + x.toNat) % 2 ^ 64 := by omega
      exact ih _ _ this
  apply BitVec.eq_of_toNat_eq
  rw [BitVec.toNat_ofNat, BitVec.toNat_ofNat]
  exact key bs _ _ (Nat.mod_mod _ _)

theorem readBitsFrom_of_unread {st : State} {s : StreamSel} (bs rest : List Bool) (v : Word) (hw : ReaderOk st s)
    (h : st.unread s = bs ++ rest) :
    ∃ t, readBitsFrom s bs.length v st =
        .ok (BitVec.ofNat 64 (bs.foldl (fun a b => 2 * a + b.toNat) v.toNat)) t ∧
      ReaderOk t s ∧ t.unread s = rest ∧ (t.bs s).pos = (st.bs s).pos + bs.length ∧ ReaderFrame s st t := by
  induction bs generalizing st v with
  | nil => exact ⟨st, by simp [readBitsFrom], hw, h, by simp, .refl s st⟩
  | cons b bs ih =>
    obtain ⟨t, h1, h2, h3, h4, h5⟩ := readBit_of_unread hw h
    obtain ⟨u, k1, k2, k3, k4, k5⟩ := ih ((v <<< 1) ||| (BitVec.ofBool b).zeroExtend 64) h2 h3
    refine ⟨u, ?_, k2, k3, by rw [k4, h4, List.length_cons]; omega, h5.trans k5⟩
    rw [List.length_cons, readBitsFrom, h1, Result.andThen_ok, k1, shiftIn_eq, BitVec.toNat_ofNat,
      ofNat_foldl_shiftIn, List.foldl_cons]

/-- `readBits` with enough bits left: their value, the first the most significant (R107). -/
theorem readBits_of_unread {st : State} {s : StreamSel} (bs rest : List Bool) (hw : ReaderOk st s)
    (h : st.unread s = bs ++ rest) :
    ∃ t, readBits s bs.length st = .ok (BitVec.ofNat 64 (bitsToNat bs)) t ∧
      ReaderOk t s ∧ t.unread s = rest ∧ (t.bs s).pos = (st.bs s).pos + bs.length ∧ ReaderFrame s st t :=
  readBitsFrom_of_unread bs rest 0 hw h

/-- A field longer than the bits left: all of them are consumed. -/
theorem readBitsFrom_short {st : State} {s : StreamSel} (n : Nat) (v : Word) (hw : ReaderOk st s)
    (h : (st.unread s).length < n) :
    ∃ t, readBitsFrom s n v st = .raised .truncated t ∧ ReaderOk t s ∧ t.unread s = [] ∧ ReaderFrame s st t := by
  induction n generalizing st v with
  | zero => omega
  | succ n ih =>
    cases hu : st.unread s with
    | nil => exact ⟨st, by rw [readBitsFrom, readBit_of_unread_nil hw hu]; rfl, hw, hu, .refl s st⟩
    | cons b bs =>
      obtain ⟨t, h1, h2, h3, _, h5⟩ := readBit_of_unread hw hu
      rw [hu, List.length_cons] at h
      obtain ⟨u, k1, k2, k3, k4⟩ := ih ((v <<< 1) ||| (BitVec.ofBool b).zeroExtend 64) h2 (by rw [h3]; omega)
      exact ⟨u, by rw [readBitsFrom, h1]; exact k1, k2, k3, h5.trans k4⟩

/-! ## Fields and their values -/

theorem bitsToNat_append_singleton (bs : List Bool) (b : Bool) :
    bitsToNat (bs ++ [b]) = 2 * bitsToNat bs + b.toNat := by
  simp [bitsToNat]

theorem bitsToNat_lt (bs : List Bool) : bitsToNat bs < 2 ^ bs.length := by
  induction bs using List.reverseRecOn with
  | nil => simp [bitsToNat]
  | append_singleton bs b ih =>
    rw [bitsToNat_append_singleton, List.length_append, List.length_singleton, Nat.pow_succ]
    have := Bool.toNat_le b
    omega

theorem fieldBits_append_last {w : Nat} (v : BitVec w) (n : Nat) :
    fieldBits v (n + 1) = fieldBits (v >>> 1) n ++ [v.getLsbD 0] := by
  simp only [fieldBits, List.range_succ, List.map_append, List.map_singleton, Nat.add_sub_cancel, Nat.sub_self]
  congr 1
  apply List.map_congr_left
  intro i hi
  have := List.mem_range.1 hi
  rw [BitVec.getLsbD_ushiftRight]
  congr 1
  omega

/-- Writing a value's field and reading it back (R64). -/
theorem fieldBits_ofNat_bitsToNat {w : Nat} (bs : List Bool) (h : bs.length ≤ w) :
    fieldBits (BitVec.ofNat w (bitsToNat bs)) bs.length = bs := by
  have key : ∀ (bs : List Bool) (k : Nat), k < bs.length →
      (bitsToNat bs).testBit (bs.length - 1 - k) = bs[k]! := by
    intro bs
    induction bs using List.reverseRecOn with
    | nil => intro k hk; simp at hk
    | append_singleton bs b ih =>
      intro k hk
      rw [bitsToNat_append_singleton]
      simp only [List.length_append, List.length_singleton] at hk ⊢
      by_cases hk' : k < bs.length
      · rw [show bs.length + 1 - 1 - k = (bs.length - 1 - k) + 1 by omega, Nat.testBit_succ]
        rw [show (2 * bitsToNat bs + b.toNat) / 2 = bitsToNat bs by have := Bool.toNat_lt b; omega, ih k hk']
        simp [hk', List.getElem?_append_left]
      · have : k = bs.length := by omega
        subst this
        rw [show bs.length + 1 - 1 - bs.length = 0 by omega, Nat.testBit_zero]
        cases b <;> simp
  apply List.ext_getElem (by simp)
  intro i h1 h2
  simp only [fieldBits, List.getElem_map, List.getElem_range]
  rw [BitVec.getLsbD_ofNat, key bs i h2]
  simp [h2]
  omega

theorem bitsToNat_fieldBits {w : Nat} (v : BitVec w) (n : Nat) : bitsToNat (fieldBits v n) = v.toNat % 2 ^ n := by
  induction n generalizing v with
  | zero => simp [fieldBits, bitsToNat, Nat.mod_one]
  | succ n ih =>
    rw [fieldBits_append_last, bitsToNat_append_singleton, ih, BitVec.toNat_ushiftRight, Nat.shiftRight_eq_div_pow,
      Nat.pow_one]
    have hb : (v.getLsbD 0).toNat = v.toNat % 2 := by
      rw [BitVec.getLsbD, Nat.testBit_zero]
      have := Nat.mod_two_eq_zero_or_one v.toNat
      rcases this with h | h <;> simp [h]
    rw [hb, Nat.pow_succ, Nat.mul_comm (2 ^ n) 2, Nat.mod_mul]
    omega

end Sys2Proof.Machine
end

