-- ==== Sys2Proof/Laws/Frame.lean ====
section
/-! SUPPORT. What every procedure can touch, whatever the state and however it ends: the frames of the commands, without
an invariant. -/

namespace Sys2Proof.Machine

/-- The state a procedure leaves, whether it returned or raised. -/
def Result.state {α : Type} : Result α → State
  | .ok _ st     => st
  | .raised _ st => st

@[simp] theorem Result.state_ok {α : Type} (a : α) (st : State) : (Result.ok a st).state = st := rfl

@[simp] theorem Result.state_raised {α : Type} (k : ErrorKind) (st : State) :
    (Result.raised k st : Result α).state = st := rfl

/-- A relation between states that a change of nothing meets and that two changes in a row keep. -/
structure Frame (R : State → State → Prop) : Prop where
  refl  : ∀ st, R st st
  trans : ∀ {st t u}, R st t → R t u → R st u

theorem Frame.andThen {R : State → State → Prop} (hR : Frame R) {α β : Type} {st : State} {r : Result α}
    {f : α → State → Result β} (hr : R st r.state) (hf : ∀ a t, R t (f a t).state) :
    R st (r.andThen f).state := by
  cases r with
  | ok a t     => exact hR.trans hr (hf a t)
  | raised k t => exact hr

theorem Frame.forLoop {R : State → State → Prop} (hR : Frame R) {body : Nat → State → Result Unit}
    (hb : ∀ i st, R st (body i st).state) (n i : Nat) (st : State) : R st (forLoop body n i st).state := by
  induction n generalizing i st with
  | zero => exact hR.refl st
  | succ n ih => exact hR.andThen (hb i st) fun _ t => ih (i + 1) t

theorem Frame.inMode {R : State → State → Prop} (hR : Frame R) {α : Type} {s : StreamSel} {m : StreamMode}
    {f : State → Result α} (hf : ∀ st, R st (f st).state) (st : State) : R st (inMode s m st f).state := by
  unfold Sys2Proof.Machine.inMode
  split
  · exact hf st
  · exact hR.refl st

/-! ## The relations of Sys2Proof/Safety.lean -/

theorem frame_onlyStream (s : StreamSel) : Frame (OnlyStream s) where
  refl st := by unfold OnlyStream; rw [State.setBs_bs]
  trans h h' := by
    unfold OnlyStream at *
    rw [h']; conv_lhs => rw [h]
    simp

theorem frame_onlyWriter (s : StreamSel) : Frame (OnlyWriter s) where
  refl st := by unfold OnlyWriter; rw [State.setBs_bs, State.setBuf_buf]
  trans h h' := setBs_setBuf_trans h h'

theorem frame_onlyFreq : Frame OnlyFreq where
  refl _ := rfl
  trans h h' := by unfold OnlyFreq at *; rw [h']; conv_lhs => rw [h]

theorem frame_onlyCode : Frame OnlyCode where
  refl _ := rfl
  trans h h' := by unfold OnlyCode at *; rw [h']; conv_lhs => rw [h]

theorem frame_onlyTree : Frame OnlyTree where
  refl _ := rfl
  trans h h' := by unfold OnlyTree at *; rw [h']; conv_lhs => rw [h]

theorem frame_onlyLoad : Frame OnlyLoad where
  refl _ := rfl
  trans h h' := by unfold OnlyLoad at *; rw [h']; conv_lhs => rw [h]

theorem frame_onlyDecode : Frame OnlyDecode where
  refl _ := rfl
  trans h h' := by unfold OnlyDecode at *; rw [h']; conv_lhs => rw [h]

theorem OnlyStream.writer {s : StreamSel} {st t : State} (h : OnlyStream s st t) : OnlyWriter s st t := by
  unfold OnlyStream at h
  unfold OnlyWriter
  have hb : t.buf (streamSpace s) = (st.setBs s (t.bs s)).buf (streamSpace s) := by
    conv_lhs => rw [h]
  rw [hb, State.setBuf_buf]
  exact h

theorem onlyLoad_of_onlyTree {st t : State} (h : OnlyTree st t) : OnlyLoad st t := by
  unfold OnlyTree at h
  unfold OnlyLoad
  rw [h]

theorem onlyLoad_of_onlyStream {st t : State} (h : OnlyStream .tree st t) : OnlyLoad st t := by
  unfold OnlyStream at h
  unfold OnlyLoad
  rw [h]; rfl

theorem onlyDecode_of_onlyStream {st t : State} (h : OnlyStream .pay st t) : OnlyDecode st t := by
  unfold OnlyStream at h
  unfold OnlyDecode
  rw [h]; rfl

theorem ReaderFrame.only {s : StreamSel} {st t : State} (h : ReaderFrame s st t) : OnlyStream s st t := h.rest

/-! ## Streams -/

theorem onlyStream_setBs (s : StreamSel) (st : State) (q : Stream) : OnlyStream s st (st.setBs s q) := by
  unfold OnlyStream; rw [State.bs_setBs_same]

theorem onlyWriter_writeBit (s : StreamSel) (b : Bool) (st : State) : OnlyWriter s st (writeBit s b st).state := by
  by_cases h : (st.bs s).bit.toNat < 7
  · rw [writeBit_pending h]; exact (onlyStream_setBs ..).writer
  · by_cases hl : (st.bs s).limit ≤ (st.bs s).byte
    · rw [writeBit_overflow h hl]; exact (frame_onlyWriter s).refl st
    · rw [writeBit_commit h hl]; exact rest_of_commit ..

theorem onlyWriter_writeList (s : StreamSel) (bs : List Bool) (st : State) :
    OnlyWriter s st (writeList s bs st).state := by
  induction bs generalizing st with
  | nil => exact (frame_onlyWriter s).refl st
  | cons b bs ih => exact (frame_onlyWriter s).andThen (onlyWriter_writeBit s b st) fun _ t => ih t

theorem onlyWriter_writeBits (s : StreamSel) (v : Word) (n : Nat) (st : State) :
    OnlyWriter s st (writeBits s v n st).state := by
  rw [writeBits_eq_writeList]; exact onlyWriter_writeList ..

theorem onlyWriter_finalize (s : StreamSel) (st : State) : OnlyWriter s st (finalize s st).state := by
  by_cases h : (st.bs s).bit = 0
  · rw [finalize_idle h]; exact (frame_onlyWriter s).refl st
  · by_cases hl : (st.bs s).limit ≤ (st.bs s).byte
    · rw [finalize_overflow h hl]; exact (frame_onlyWriter s).refl st
    · rw [finalize_commit h hl]; exact rest_of_commit ..

theorem onlyStream_readBit (s : StreamSel) (st : State) : OnlyStream s st (readBit s st).state := by
  unfold readBit
  simp only
  split
  · exact (frame_onlyStream s).refl st
  · split <;> exact onlyStream_setBs ..

theorem onlyStream_readBitsFrom (s : StreamSel) (n : Nat) (v : Word) (st : State) :
    OnlyStream s st (readBitsFrom s n v st).state := by
  induction n generalizing v st with
  | zero => exact (frame_onlyStream s).refl st
  | succ n ih => exact (frame_onlyStream s).andThen (onlyStream_readBit s st) fun _ t => ih _ t

theorem onlyStream_openStream (s : StreamSel) (m : StreamMode) (st : State) :
    OnlyStream s st (openStream s m st).state := by
  unfold openStream
  split
  · exact (frame_onlyStream s).refl st
  · split
    · exact (frame_onlyStream s).refl st
    · exact onlyStream_setBs ..

/-! ## Arena and heap -/

theorem onlyTree_arenaReset (st : State) : OnlyTree st st.arenaReset := rfl

theorem onlyTree_allocNode (n : Node) (st : State) : OnlyTree st (allocNode n st).state := by
  unfold allocNode
  split <;> rfl

theorem onlyTree_heapPush (n : NodeIdx) (st : State) : OnlyTree st (heapPush n st).state := by
  unfold heapPush
  split <;> rfl

theorem onlyTree_heapPop (st : State) : OnlyTree st (heapPop st).2 := by
  unfold heapPop
  split <;> rfl

/-! ## Commands -/

theorem onlyFreq_countByte (i : Nat) (st : State) : OnlyFreq st (countByte i st).state := rfl

theorem onlyTree_collectLeaf (i : Nat) (st : State) : OnlyTree st (collectLeaf i st).state := by
  unfold collectLeaf
  simp only
  split
  · exact frame_onlyTree.refl st
  · exact frame_onlyTree.andThen (onlyTree_allocNode _ st) fun n t => onlyTree_heapPush n t

theorem onlyTree_mergeTwo (st : State) : OnlyTree st (mergeTwo st).state := by
  unfold mergeTwo
  simp only
  have h2 : OnlyTree st (heapPop (heapPop st).2).2 :=
    frame_onlyTree.trans (onlyTree_heapPop st) (onlyTree_heapPop _)
  split
  · exact h2
  · exact frame_onlyTree.trans h2
      (frame_onlyTree.andThen (onlyTree_allocNode _ _) fun n t => onlyTree_heapPush n t)

theorem onlyTree_mergeLoop (fuel : Nat) (st : State) : OnlyTree st (mergeLoop fuel st).state := by
  induction fuel generalizing st with
  | zero => exact frame_onlyTree.refl st
  | succ fuel ih =>
    unfold mergeLoop
    split
    · exact frame_onlyTree.andThen (onlyTree_mergeTwo st) fun _ t => ih t
    · exact frame_onlyTree.refl st

theorem onlyTree_buildTree (st : State) : OnlyTree st (buildTree st).state := by
  unfold buildTree
  refine frame_onlyTree.andThen
    (frame_onlyTree.trans (onlyTree_arenaReset st) (frame_onlyTree.forLoop onlyTree_collectLeaf _ _ _)) fun _ t => ?_
  split
  · exact frame_onlyTree.refl t
  · exact frame_onlyTree.andThen (onlyTree_mergeLoop _ t) fun _ u => rfl

theorem onlyCode_visit (left : Nat) (i : NodeIdx) (pat : Word) (st : State) :
    OnlyCode st (visit left i pat st).state := by
  induction left generalizing i pat st with
  | zero => exact frame_onlyCode.refl st
  | succ left ih =>
    unfold visit
    split
    · exact frame_onlyCode.refl st
    · split
      · rfl
      · split
        · exact frame_onlyCode.refl st
        · refine frame_onlyCode.andThen (ih _ _ st) fun _ t => ?_
          split
          · exact frame_onlyCode.refl t
          · exact ih _ _ t

theorem onlyCode_generateCodes (st : State) : OnlyCode st (generateCodes st).state := by
  have hc : OnlyCode st st.clearCode := rfl
  unfold generateCodes
  simp only
  split
  · exact frame_onlyCode.trans hc (onlyCode_visit ..)
  · exact hc

theorem onlyWriter_saveNode (fuel : Nat) (i : NodeIdx) (st : State) :
    OnlyWriter .tree st (saveNode fuel i st).state := by
  have hR := frame_onlyWriter .tree
  induction fuel generalizing i st with
  | zero => exact hR.refl st
  | succ fuel ih =>
    unfold saveNode
    split
    · exact hR.refl st
    · split
      · exact hR.andThen (onlyWriter_writeBit _ _ st) fun _ t => onlyWriter_writeBits ..
      · refine hR.andThen (onlyWriter_writeBit _ _ st) fun _ t => ?_
        split
        · exact hR.refl t
        · refine hR.andThen (ih _ t) fun _ u => ?_
          split
          · exact hR.refl u
          · exact ih _ u

theorem onlyLoad_loadNode (fuel reserved : Nat) (st : State) :
    OnlyLoad st (loadNode fuel reserved st).state := by
  have hR := frame_onlyLoad
  induction fuel generalizing reserved st with
  | zero => exact hR.refl st
  | succ fuel ih =>
    unfold loadNode
    refine hR.andThen (onlyLoad_of_onlyStream (onlyStream_readBit _ st)) fun m t => ?_
    split
    · exact hR.refl t
    · split
      · refine hR.andThen (onlyLoad_of_onlyStream (onlyStream_readBitsFrom ..)) fun v u => ?_
        exact hR.andThen (onlyLoad_of_onlyTree (onlyTree_allocNode _ u)) fun i w => hR.refl w
      · refine hR.andThen (ih _ t) fun l u => hR.andThen (ih _ u) fun r w => ?_
        exact hR.andThen (onlyLoad_of_onlyTree (onlyTree_allocNode _ w)) fun i x => hR.refl x

theorem onlyLoad_loadTree (st : State) : OnlyLoad st (loadTree st).state := by
  unfold loadTree
  exact frame_onlyLoad.andThen
    (frame_onlyLoad.trans (onlyLoad_of_onlyTree (onlyTree_arenaReset st)) (onlyLoad_loadNode ..)) fun _ _ => rfl

theorem onlyWriter_encodeByte (i : Nat) (st : State) : OnlyWriter .pay st (encodeByte i st).state := by
  unfold encodeByte
  simp only
  split
  · exact (frame_onlyWriter .pay).refl st
  · exact onlyWriter_writeBits ..

theorem onlyStream_walk (fuel : Nat) (i : NodeIdx) (st : State) : OnlyStream .pay st (walk fuel i st).state := by
  have hR := frame_onlyStream .pay
  induction fuel generalizing i st with
  | zero => exact hR.refl st
  | succ fuel ih =>
    unfold walk
    split
    · exact hR.refl st
    · split
      · exact hR.refl st
      · refine hR.andThen (onlyStream_readBit _ st) fun b t => ?_
        split
        · exact hR.refl t
        · exact ih _ t

theorem onlyDecode_memWrite (a : Nat) (v : Byte) (st : State) : OnlyDecode st (st.memWrite .raw a v) := by
  unfold State.memWrite
  split <;> rfl

theorem onlyDecode_decodeSymbol (k : Nat) (st : State) : OnlyDecode st (decodeSymbol k st).state := by
  unfold decodeSymbol
  refine frame_onlyDecode.andThen (onlyDecode_of_onlyStream (onlyStream_walk ..)) fun y t => ?_
  split
  · exact frame_onlyDecode.refl t
  · exact onlyDecode_memWrite ..

theorem onlyDecode_decodePayload (st : State) : OnlyDecode st (decodePayload st).state := by
  unfold decodePayload
  split
  · exact frame_onlyDecode.refl st
  · split
    · have h0 : OnlyDecode st { st with rawLen := 0 } := rfl
      exact frame_onlyDecode.andThen
        (frame_onlyDecode.trans h0 (frame_onlyDecode.forLoop onlyDecode_decodeSymbol _ _ _)) fun _ t => rfl
    · exact frame_onlyDecode.refl st

end Sys2Proof.Machine
end

