-- ==== Sys2Proof/Laws/Tree.lean ====
section
/-! SUPPORT. Facts about trees and codes alone: sizes, depths, walks, paths, and the prefix-free property. -/

namespace Sys2Proof.Machine

/-- The number of nodes: `2L − 1` for L leaves (R33, R172). -/
def Tree.size : Tree → Nat
  | .leaf _   => 1
  | .node l r => 1 + l.size + r.size

theorem Tree.leaves_pos (t : Tree) : 1 ≤ t.leaves := by
  induction t with
  | leaf y => exact Nat.le_refl 1
  | node l r ihl ihr => simp only [Tree.leaves]; omega

theorem Tree.size_eq (t : Tree) : t.size + 1 = 2 * t.leaves := by
  induction t with
  | leaf y => rfl
  | node l r ihl ihr => simp only [Tree.leaves, Tree.size]; omega

theorem Tree.size_pos (t : Tree) : 1 ≤ t.size := by
  cases t <;> simp only [Tree.size] <;> omega

theorem Tree.depth_lt_leaves (t : Tree) : t.depth + 1 ≤ t.leaves := by
  induction t with
  | leaf y => exact Nat.le_refl 1
  | node l r ihl ihr =>
    have := l.leaves_pos; have := r.leaves_pos
    simp only [Tree.leaves, Tree.depth]; omega

theorem Tree.bits_length (t : Tree) : t.bits.length + 1 = 10 * t.leaves := by
  induction t with
  | leaf y => simp [Tree.bits, Tree.leaves]
  | node l r ihl ihr => simp only [Tree.bits, Tree.leaves, List.length_cons, List.length_append]; omega

theorem Tree.paths_ne_nil (t : Tree) : t.paths ≠ [] := by
  induction t with
  | leaf y => simp [Tree.paths]
  | node l r ihl ihr => simp [Tree.paths, ihl]

theorem Tree.length_path_le {t : Tree} {y : Symbol} {p : List Bool} (h : (y, p) ∈ t.paths) : p.length ≤ t.depth := by
  induction t generalizing p with
  | leaf z =>
    simp only [Tree.paths, List.mem_singleton, Prod.mk.injEq] at h
    simp [h.2]
  | node l r ihl ihr =>
    simp only [Tree.paths, List.mem_append, List.mem_map, Prod.mk.injEq, Prod.exists] at h
    simp only [Tree.depth]
    rcases h with ⟨a, q, hq, rfl, rfl⟩ | ⟨a, q, hq, rfl, rfl⟩
    · have := ihl hq; simp; omega
    · have := ihr hq; simp; omega

/-- Some leaf lies as deep as the tree. -/
theorem Tree.exists_path_depth (t : Tree) : ∃ p ∈ t.paths, p.2.length = t.depth := by
  induction t with
  | leaf y => exact ⟨(y, []), by simp [paths], rfl⟩
  | node l r ihl ihr =>
    simp only [paths, depth, List.mem_append, List.mem_map]
    rcases Nat.le_total l.depth r.depth with h | h
    · obtain ⟨p, hp, e⟩ := ihr
      exact ⟨_, .inr ⟨p, hp, rfl⟩, by simp [e]; omega⟩
    · obtain ⟨p, hp, e⟩ := ihl
      exact ⟨_, .inl ⟨p, hp, rfl⟩, by simp [e]; omega⟩

@[simp] theorem Tree.leavesAbove_zero (t : Tree) : t.leavesAbove 0 = [] := by
  unfold leavesAbove
  cases t.paths <;> simp

theorem Tree.leavesAbove_of_depth_lt {t : Tree} {d : Nat} (h : t.depth < d) : t.leavesAbove d = t.paths := by
  unfold leavesAbove
  rw [List.takeWhile_eq_self_iff]
  intro p hp
  have := Tree.length_path_le (y := p.1) (p := p.2) hp
  simp; omega

/-- A walk that stops in the left child never comes to the right one. -/
theorem Tree.leavesAbove_node_left {a b : Tree} {d : Nat} (h : d ≤ a.depth) :
    (node a b).leavesAbove (d + 1) = (a.leavesAbove d).map fun p => (p.1, false :: p.2) := by
  have hn : (a.leavesAbove d).length ≠ a.paths.length := by
    intro e
    obtain ⟨p, hp, hl⟩ := a.exists_path_depth
    rw [← (List.takeWhile_prefix _).eq_of_length e] at hp
    have := List.mem_takeWhile_imp hp
    simp at this; omega
  unfold leavesAbove at hn ⊢
  rw [paths, List.takeWhile_append, List.takeWhile_map]
  simp only [Function.comp_def, List.length_cons, Nat.add_lt_add_iff_right, List.length_map, if_neg hn]

theorem Tree.leavesAbove_node_right {a b : Tree} {d : Nat} (h : a.depth < d) :
    (node a b).leavesAbove (d + 1) =
      (a.paths.map fun p => (p.1, false :: p.2)) ++ (b.leavesAbove d).map fun p => (p.1, true :: p.2) := by
  have e := Tree.leavesAbove_of_depth_lt h
  unfold leavesAbove at e ⊢
  rw [paths, List.takeWhile_append, List.takeWhile_map, List.takeWhile_map]
  simp only [Function.comp_def, List.length_cons, Nat.add_lt_add_iff_right, List.length_map, e, if_true]

/-- Walking along a path reaches its leaf and leaves the rest (R163 item 5). -/
theorem Tree.walk_path {t : Tree} {y : Symbol} {p : List Bool} (h : (y, p) ∈ t.paths) (rest : List Bool) :
    t.walk (p ++ rest) = some (y, rest) := by
  induction t generalizing p with
  | leaf z =>
    simp only [Tree.paths, List.mem_singleton, Prod.mk.injEq] at h
    simp [Tree.walk, h]
  | node l r ihl ihr =>
    simp only [Tree.paths, List.mem_append, List.mem_map, Prod.mk.injEq, Prod.exists] at h
    rcases h with ⟨a, q, hq, rfl, rfl⟩ | ⟨a, q, hq, rfl, rfl⟩
    · simpa [Tree.walk] using ihl hq
    · simpa [Tree.walk] using ihr hq

/-- No path of a tree is a beginning of another leaf's path. -/
theorem Tree.paths_prefix_free {t : Tree} {y z : Symbol} {p q : List Bool} (hp : (y, p) ∈ t.paths)
    (hq : (z, q) ∈ t.paths) (h : p <+: q) : y = z ∧ p = q := by
  obtain ⟨r, rfl⟩ := h
  have h1 := Tree.walk_path hp r
  have h2 := Tree.walk_path hq []
  rw [List.append_nil, h1] at h2
  simp only [Option.some.injEq, Prod.mk.injEq] at h2
  exact ⟨h2.1, by rw [h2.2, List.append_nil]⟩

/-- A symbol's entry among the paths is one of the tree's leaves. -/
theorem Tree.codeOf_spec (t : Tree) (y : Symbol) :
    (t.codeOf y = CodeEntry.unassigned ∧ ∀ p, (y, p) ∉ t.paths) ∨
      ∃ p, (y, p) ∈ t.paths ∧ t.codeOf y = pathCode p := by
  unfold Tree.codeOf lastCode
  cases h : (t.paths.filter fun p => p.1 = y).getLast? with
  | none =>
    left
    refine ⟨rfl, fun p hp => ?_⟩
    rw [List.getLast?_eq_none_iff] at h
    have : (y, p) ∈ t.paths.filter fun p => p.1 = y := by simp [List.mem_filter, hp]
    rw [h] at this
    simp at this
  | some p =>
    right
    have hm := List.mem_of_getLast? h
    rw [List.mem_filter] at hm
    refine ⟨p.2, ?_, rfl⟩
    have hy : p.1 = y := by simpa using hm.2
    rw [← hy]
    exact hm.1

/-- The length of the code a path gives. -/
theorem pathCode_len {p : List Bool} (h : p.length ≤ 64) :
    (pathCode p).len.toNat = if p = [] then 1 else p.length := by
  unfold pathCode
  simp only
  split
  · rfl
  · rw [BitVec.toNat_ofNat]; omega

/-- The bits of a path's code: the path itself, or one 0 for the one-leaf tree (R161). -/
theorem pathCode_bits {p : List Bool} (h : p.length ≤ 64) :
    (pathCode p).bits = if p = [] then [false] else p := by
  unfold CodeEntry.bits
  rw [pathCode_len h]
  split
  · rename_i hp; subst hp; decide
  · exact fieldBits_ofNat_bitsToNat p h

theorem Tree.leaf_of_nil_path {t : Tree} {y : Symbol} (h : (y, []) ∈ t.paths) : t = .leaf y := by
  cases t with
  | leaf z =>
    simp only [Tree.paths, List.mem_singleton, Prod.mk.injEq] at h
    rw [h.1]
  | node l r => simp [Tree.paths] at h

end Sys2Proof.Machine
end

