-- ==== Sys2Proof/Laws/Traverse.lean ====
section
/-! SUPPORT. What the three traversals of a tree do when the arena holds one: TREE_SAVE's walk writes its bit string,
CODEGEN's assigns its codes, DECODE's follows the bits to a leaf. -/

namespace Sys2Proof.Machine

/-! ## The checked accessors -/

theorem child?_lt {i c : NodeIdx} {r : Node} {b : Bool} (h : child? i r b = some c) : c.toNat < i.toNat := by
  unfold child? at h
  simp only at h
  generalize (if b = true then r.right else r.left) = d at h
  split at h
  · cases h
  · rename_i hle
    obtain rfl := Option.some.inj h
    rw [BitVec.le_def] at hle
    omega

theorem OnlyWriter.arena {s : StreamSel} {st t : State} (h : OnlyWriter s st t) :
    t.arena = st.arena ∧ t.arenaCount = st.arenaCount := by
  unfold OnlyWriter at h
  constructor <;> rw [h] <;> simp

theorem OnlyStream.arena {s : StreamSel} {st t : State} (h : OnlyStream s st t) :
    t.arena = st.arena ∧ t.arenaCount = st.arenaCount := h.writer.arena

theorem OnlyCode.arena {st t : State} (h : OnlyCode st t) : t.arena = st.arena ∧ t.arenaCount = st.arenaCount := by
  unfold OnlyCode at h
  constructor <;> rw [h]

theorem Holds.of_arena {st t : State} (h : t.arena = st.arena ∧ t.arenaCount = st.arenaCount) {T : Tree} {i : NodeIdx}
    (hT : Holds st T i) : Holds t T i := (Holds_congr h.1 h.2 T i).2 hT

theorem node?_of_arena {st t : State} (h : t.arena = st.arena ∧ t.arenaCount = st.arenaCount) (i : NodeIdx) :
    t.node? i = st.node? i := State.node?_congr i h.1 h.2

/-! ## TREE_SAVE -/

theorem fieldBits_zeroExtend_symbol (y : Symbol) : fieldBits (y.zeroExtend 64) 8 = fieldBits y 8 := by
  unfold fieldBits
  apply List.map_congr_left
  intro i _
  rw [BitVec.getLsbD_setWidth, decide_eq_true (by omega), Bool.true_and]

/-- The walk of TREE_SAVE writes the tree's bit string (R170, R171). -/
theorem saveNode_eq {T : Tree} {fuel : Nat} {i : NodeIdx} {st : State} (hT : Holds st T i) (hf : i.toNat < fuel) :
    saveNode fuel i st = writeList .tree T.bits st := by
  induction T generalizing fuel i st with
  | leaf y =>
    obtain ⟨r, h1, h2, h3⟩ := hT
    cases fuel with
    | zero => omega
    | succ fuel =>
      rw [saveNode]
      simp only [h1, h2, Tree.bits, writeList, h3, writeBits_eq_writeList, fieldBits_zeroExtend_symbol]
  | node a b iha ihb =>
    obtain ⟨r, l, c, h1, h2, hl, hc, ha, hb⟩ := hT
    cases fuel with
    | zero => omega
    | succ fuel =>
      have hl' := child?_lt hl
      have hc' := child?_lt hc
      rw [saveNode]
      simp only [h1, h2, Tree.bits, writeList, hl, hc]
      have ht := onlyWriter_writeBit .tree false st
      cases hw : writeBit .tree false st with
      | raised k t => rfl
      | ok u t =>
        rw [hw, Result.state_ok] at ht
        have hat := OnlyWriter.arena ht
        simp only [Result.andThen_ok]
        rw [iha (ha.of_arena hat) (by omega), writeList_append]
        have hv := onlyWriter_writeList .tree a.bits t
        cases hw' : writeList .tree a.bits t with
        | raised k v => rfl
        | ok u v =>
          rw [hw', Result.state_ok] at hv
          have hav := OnlyWriter.arena hv
          simp only [Result.andThen_ok]
          exact ihb ((hb.of_arena hat).of_arena hav) (by omega)

/-! ## CODEGEN -/

/-- Assign each symbol of the list the code of its path, in order. -/
def assignCodes (l : List (Symbol × List Bool)) (st : State) : State :=
  l.foldl (fun st p => st.setCode p.1 (pathCode p.2)) st

theorem assignCodes_append (l m : List (Symbol × List Bool)) (st : State) :
    assignCodes (l ++ m) st = assignCodes m (assignCodes l st) := by
  simp [assignCodes]

theorem onlyCode_assignCodes (l : List (Symbol × List Bool)) (st : State) : OnlyCode st (assignCodes l st) := by
  induction l generalizing st with
  | nil => exact frame_onlyCode.refl st
  | cons p l ih => exact frame_onlyCode.trans (t := st.setCode p.1 (pathCode p.2)) rfl (ih _)

theorem bitsToNat_snoc_word (pre : List Bool) (b : Bool) :
    BitVec.ofNat 64 (bitsToNat (pre ++ [b])) =
      (BitVec.ofNat 64 (bitsToNat pre) <<< 1) ||| (BitVec.ofBool b).zeroExtend 64 := by
  rw [shiftIn_eq, bitsToNat_append_singleton, BitVec.toNat_ofNat]
  apply BitVec.eq_of_toNat_eq
  simp only [BitVec.toNat_ofNat]
  omega

theorem visit_zero_right (pre : List Bool) :
    BitVec.ofNat 64 (bitsToNat pre) <<< 1 = BitVec.ofNat 64 (bitsToNat (pre ++ [false])) := by
  rw [bitsToNat_snoc_word]; simp

theorem visit_one_right (pre : List Bool) :
    (BitVec.ofNat 64 (bitsToNat pre) <<< 1) ||| 1 = BitVec.ofNat 64 (bitsToNat (pre ++ [true])) := by
  rw [bitsToNat_snoc_word]; rfl

/-- The walk of CODEGEN on a tree that fits the depth bound assigns the codes in pre-order (R160, R161). -/
theorem visit_fits {T : Tree} {left : Nat} {i : NodeIdx} {st : State} {pre : List Bool} (hT : Holds st T i)
    (hl : pre.length + left = 64) (hd : T.depth < left) :
    visit left i (BitVec.ofNat 64 (bitsToNat pre)) st =
      .ok () (assignCodes (T.paths.map fun p => (p.1, pre ++ p.2)) st) := by
  induction T generalizing left i st pre with
  | leaf y =>
    obtain ⟨r, h1, h2, h3⟩ := hT
    cases left with
    | zero => omega
    | succ left =>
      rw [visit]
      simp only [h1, h2, h3, Tree.paths, List.map_cons, List.map_nil, List.append_nil, assignCodes, List.foldl_cons,
        List.foldl_nil, pathCode]
      have e : 64 - (left + 1) = pre.length := by omega
      simp only [Config.depthBound, e, List.length_eq_zero_iff]
  | node a b iha ihb =>
    obtain ⟨r, l, c, h1, h2, hl', hc', ha, hb⟩ := hT
    simp only [Tree.depth] at hd
    cases left with
    | zero => omega
    | succ left =>
      rw [visit]
      simp only [h1, h2, hl', hc']
      rw [visit_one_right, visit_zero_right, iha ha (by simp; omega) (by omega), Result.andThen_ok,
        ihb (hb.of_arena (OnlyCode.arena (onlyCode_assignCodes _ st))) (by simp; omega) (by omega), ← assignCodes_append]
      simp [Tree.paths, Function.comp_def]

/-- The walk of CODEGEN on a tree that does not fit assigns the codes of the leaves above the bound that it meets first,
then raises `CAPACITY_EXCEEDED` (R162). -/
theorem visit_tooDeep {T : Tree} {left : Nat} {i : NodeIdx} {st : State} {pre : List Bool} (hT : Holds st T i)
    (hl : pre.length + left = 64) (hd : left ≤ T.depth) :
    visit left i (BitVec.ofNat 64 (bitsToNat pre)) st =
      .raised .capacityExceeded (assignCodes ((T.leavesAbove left).map fun p => (p.1, pre ++ p.2)) st) := by
  induction T generalizing left i st pre with
  | leaf y =>
    have : left = 0 := by simpa [Tree.depth] using hd
    subst this
    rw [Tree.leavesAbove_zero]
    rfl
  | node a b iha ihb =>
    cases left with
    | zero => rw [Tree.leavesAbove_zero]; rfl
    | succ left =>
      obtain ⟨r, l, c, h1, h2, hl', hc', ha, hb⟩ := hT
      simp only [Tree.depth] at hd
      rw [visit]
      simp only [h1, h2, hl', hc']
      rw [visit_one_right, visit_zero_right]
      by_cases hda : left ≤ a.depth
      · rw [iha (pre := pre ++ [false]) ha (by simp; omega) hda, Tree.leavesAbove_node_left hda]
        simp [Function.comp_def]
      · rw [visit_fits ha (by simp; omega) (by omega), Result.andThen_ok,
          ihb (hb.of_arena (OnlyCode.arena (onlyCode_assignCodes _ st))) (by simp; omega) (by omega),
          ← assignCodes_append, Tree.leavesAbove_node_right (by omega)]
        simp [Function.comp_def]

theorem State.codeAt_setCode (st : State) (y z : Symbol) (e : CodeEntry) :
    (st.setCode y e).codeAt z = if z = y then e else st.codeAt z := by
  unfold State.codeAt State.setCode
  by_cases h : z = y
  · subst h; simp
  · have : y.toNat ≠ z.toNat := fun hn => h (BitVec.eq_of_toNat_eq hn.symm)
    simp [h, this]

theorem State.codeAt_clearCode (st : State) (y : Symbol) : st.clearCode.codeAt y = CodeEntry.unassigned := by
  simp [State.codeAt, State.clearCode]

/-- After assignments in order, the last one to a symbol stays (R164). -/
theorem codeAt_assignCodes (l : List (Symbol × List Bool)) (st : State) (y : Symbol) :
    (assignCodes l st).codeAt y =
      match (l.filter fun p => p.1 = y).getLast? with
      | some p => pathCode p.2
      | none => st.codeAt y := by
  induction l using List.reverseRecOn with
  | nil => rfl
  | append_singleton l p ih =>
    rw [assignCodes_append]
    show ((assignCodes l st).setCode p.1 (pathCode p.2)).codeAt y = _
    rw [State.codeAt_setCode, List.filter_append]
    by_cases h : p.1 = y
    · subst h; simp
    · rw [if_neg (Ne.symm h), ih]
      simp [h]

/-- What CODEGEN leaves when the arena holds a tree that fits the depth bound. -/
theorem generateCodes_fits {st : State} {T : Tree} (hv : st.treeValid = true) (hT : Holds st T st.root)
    (hd : T.depth < 64) :
    ∃ t, generateCodes st = .ok () t ∧ OnlyCode st t ∧ ∀ y, t.codeAt y = T.codeOf y := by
  have hT' : Holds st.clearCode T st.clearCode.root :=
    hT.of_arena (t := st.clearCode) ⟨by simp, by simp⟩
  have e := visit_fits (pre := []) hT' (left := Config.depthBound) (by simp) hd
  refine ⟨_, ?_, frame_onlyCode.trans (st := st) (t := st.clearCode) rfl
    (onlyCode_assignCodes (T.paths.map fun p => (p.1, [] ++ p.2)) st.clearCode), ?_⟩
  · unfold generateCodes
    simp only [State.clearCode_treeValid, hv, if_true]
    exact e
  · intro y
    rw [codeAt_assignCodes, State.codeAt_clearCode]
    simp only [List.nil_append]
    rw [List.map_id']
    rfl

/-- What CODEGEN leaves when the arena holds a tree that does not fit: the codes of the leaves met before it stops. -/
theorem generateCodes_tooDeep {st : State} {T : Tree} (hv : st.treeValid = true) (hT : Holds st T st.root)
    (hd : 64 ≤ T.depth) :
    ∃ t, generateCodes st = .raised .capacityExceeded t ∧ OnlyCode st t ∧
      ∀ y, t.codeAt y = lastCode (T.leavesAbove 64) y := by
  have hT' : Holds st.clearCode T st.clearCode.root :=
    hT.of_arena (t := st.clearCode) ⟨by simp, by simp⟩
  have e := visit_tooDeep (pre := []) hT' (left := Config.depthBound) (by simp) hd
  simp only [List.nil_append, List.map_id'] at e
  refine ⟨_, ?_, frame_onlyCode.trans (st := st) (t := st.clearCode) rfl
    (onlyCode_assignCodes (T.leavesAbove 64) st.clearCode), fun y => ?_⟩
  · unfold generateCodes
    simp only [State.clearCode_treeValid, hv, if_true]
    exact e
  · rw [codeAt_assignCodes, State.codeAt_clearCode]
    rfl

/-! ## DECODE -/

/-- One walk of DECODE when the arena holds a tree: it follows `Tree.walk` on the bits left (R195). -/
theorem walk_some {T : Tree} {fuel : Nat} {i : NodeIdx} {st : State} {y : Symbol} {rest : List Bool}
    (hT : Holds st T i) (hf : i.toNat < fuel) (hw : ReaderOk st .pay)
    (h : T.walk (st.unread .pay) = some (y, rest)) :
    ∃ t, walk fuel i st = .ok y t ∧ ReaderOk t .pay ∧ t.unread .pay = rest ∧ ReaderFrame .pay st t := by
  induction T generalizing fuel i st with
  | leaf z =>
    obtain ⟨r, h1, h2, h3⟩ := hT
    cases fuel with
    | zero => omega
    | succ fuel =>
      simp only [Tree.walk, Option.some.injEq, Prod.mk.injEq] at h
      refine ⟨st, ?_, hw, h.2, .refl _ st⟩
      rw [walk]
      simp only [h1, h2, h3, h.1]
  | node a b iha ihb =>
    obtain ⟨r, l, c, h1, h2, hl, hc, ha, hb⟩ := hT
    cases fuel with
    | zero => omega
    | succ fuel =>
      have hl' := child?_lt hl
      have hc' := child?_lt hc
      rw [walk]
      simp only [h1, h2]
      cases hu : st.unread .pay with
      | nil => rw [hu] at h; simp [Tree.walk] at h
      | cons x xs =>
        obtain ⟨t, e1, e2, e3, _, e5⟩ := readBit_of_unread hw hu
        rw [hu] at h
        rw [e1, Result.andThen_ok]
        have hat := OnlyStream.arena e5.only
        cases x with
        | false =>
          simp only [hl]
          obtain ⟨v, k1, k2, k3, k4⟩ := iha (fuel := fuel) (ha.of_arena hat) (by omega) e2 (by rw [e3]; exact h)
          exact ⟨v, k1, k2, k3, e5.trans k4⟩
        | true =>
          simp only [hc]
          obtain ⟨v, k1, k2, k3, k4⟩ := ihb (fuel := fuel) (hb.of_arena hat) (by omega) e2 (by rw [e3]; exact h)
          exact ⟨v, k1, k2, k3, e5.trans k4⟩

theorem walk_none {T : Tree} {fuel : Nat} {i : NodeIdx} {st : State} (hT : Holds st T i) (hf : i.toNat < fuel)
    (hw : ReaderOk st .pay) (h : T.walk (st.unread .pay) = none) :
    ∃ t, walk fuel i st = .raised .truncated t ∧ ReaderOk t .pay ∧ t.unread .pay = [] ∧ ReaderFrame .pay st t := by
  induction T generalizing fuel i st with
  | leaf z => simp [Tree.walk] at h
  | node a b iha ihb =>
    obtain ⟨r, l, c, h1, h2, hl, hc, ha, hb⟩ := hT
    cases fuel with
    | zero => omega
    | succ fuel =>
      have hl' := child?_lt hl
      have hc' := child?_lt hc
      rw [walk]
      simp only [h1, h2]
      cases hu : st.unread .pay with
      | nil => exact ⟨st, by rw [readBit_of_unread_nil hw hu]; rfl, hw, hu, .refl _ st⟩
      | cons x xs =>
        obtain ⟨t, e1, e2, e3, _, e5⟩ := readBit_of_unread hw hu
        rw [hu] at h
        rw [e1, Result.andThen_ok]
        have hat := OnlyStream.arena e5.only
        cases x with
        | false =>
          simp only [hl]
          obtain ⟨v, k1, k2, k3, k4⟩ := iha (fuel := fuel) (ha.of_arena hat) (by omega) e2 (by rw [e3]; exact h)
          exact ⟨v, k1, k2, k3, e5.trans k4⟩
        | true =>
          simp only [hc]
          obtain ⟨v, k1, k2, k3, k4⟩ := ihb (fuel := fuel) (hb.of_arena hat) (by omega) e2 (by rw [e3]; exact h)
          exact ⟨v, k1, k2, k3, e5.trans k4⟩

end Sys2Proof.Machine
end

