-- ==== Sys2Proof/Laws/Arena.lean ====
section
/-! SUPPORT. The arena as a forest: what one allocation does to it, and that the trees it holds stay. -/

namespace Sys2Proof.Machine

/-! ## One allocation -/

/-- From `st` to `t` only the arena moved, and only by new slots. -/
structure Grows (st t : State) : Prop where
  count : st.arenaCount.val ≤ t.arenaCount.val
  slots : ∀ i : NodeIdx, i.toNat < st.arenaCount.val → t.slot i = st.slot i

theorem Grows.refl (st : State) : Grows st st := ⟨Nat.le_refl _, fun _ _ => rfl⟩

theorem Grows.trans {st t u : State} (h : Grows st t) (h' : Grows t u) : Grows st u where
  count := Nat.le_trans h.count h'.count
  slots i hi := by rw [h'.slots i (Nat.lt_of_lt_of_le hi h.count), h.slots i hi]

theorem slot_of_arena {st t : State} (h : t.arena = st.arena) (i : NodeIdx) : t.slot i = st.slot i := by
  unfold State.slot; rw [h]

theorem Grows.of_arena {st t : State} (h : t.arena = st.arena ∧ t.arenaCount = st.arenaCount) : Grows st t where
  count := by rw [h.2]
  slots i _ := slot_of_arena h.1 i

/-- The state after an allocation in a free slot. -/
structure Allocated (n : Node) (i : NodeIdx) (st t : State) : Prop where
  index : i.toNat = st.arenaCount.val
  count : t.arenaCount.val = st.arenaCount.val + 1
  new   : t.slot i = n
  old   : ∀ j : NodeIdx, j.toNat ≠ st.arenaCount.val → t.slot j = st.slot j
  rest  : t = { st with arena := t.arena, arenaCount := t.arenaCount }

theorem Allocated.grows {n : Node} {i : NodeIdx} {st t : State} (h : Allocated n i st t) : Grows st t where
  count := by rw [h.count]; omega
  slots j hj := h.old j (by omega)

/-- `allocNode` (R121), whatever the arena: the next slot, or nothing. -/
theorem allocNode_cases (n : Node) (st : State) :
    (∃ i t, allocNode n st = .ok i t ∧ st.arenaCount.val < 511 ∧ Allocated n i st t) ∨
      (allocNode n st = .raised .capacityExceeded st ∧ st.arenaCount.val = 511) := by
  unfold allocNode
  by_cases h : st.arenaCount.val < Config.arenaCap
  · left
    rw [dif_pos h]
    have h' : st.arenaCount.val < 511 := h
    refine ⟨_, _, rfl, h', ⟨?_, rfl, ?_, ?_, rfl⟩⟩
    · rw [BitVec.toNat_ofNat]; omega
    · unfold State.slot
      have e : (BitVec.ofNat 10 st.arenaCount.val).toNat = st.arenaCount.val := by rw [BitVec.toNat_ofNat]; omega
      simp [e, h']
    · intro j hj
      unfold State.slot
      simp only
      rw [Vector.getElem?_set_ne _ (Ne.symm hj)]
  · right
    have h' : ¬ st.arenaCount.val < 511 := h
    have := st.arenaCount.isLt
    rw [dif_neg h]
    exact ⟨rfl, by omega⟩

theorem allocNode_room (n : Node) {st : State} (h : st.arenaCount.val < 511) :
    ∃ i t, allocNode n st = .ok i t ∧ Allocated n i st t := by
  rcases allocNode_cases n st with ⟨i, t, h1, _, h2⟩ | ⟨_, h2⟩
  · exact ⟨i, t, h1, h2⟩
  · omega

theorem arenaCount_le (st : State) : st.arenaCount.val ≤ 511 := by have := st.arenaCount.isLt; omega

/-! ## Trees stay -/

theorem node?_eq_some {st : State} {i : NodeIdx} {r : Node} :
    st.node? i = some r ↔ i.toNat < st.arenaCount.val ∧ st.slot i = r := by
  unfold State.node?
  split <;> simp_all

theorem child?_eq_some {i c : NodeIdx} {r : Node} {b : Bool} :
    child? i r b = some c ↔ c.toNat < i.toNat ∧ (if b then r.right else r.left) = c := by
  unfold child?
  simp only
  generalize (if b = true then r.right else r.left) = d
  split
  · rename_i h
    rw [BitVec.le_def] at h
    simp only [reduceCtorEq, false_iff]
    rintro ⟨h1, rfl⟩
    omega
  · rename_i h
    rw [BitVec.le_def] at h
    simp only [Option.some.injEq]
    constructor
    · rintro rfl; exact ⟨by omega, rfl⟩
    · exact fun h => h.2

theorem Holds.grows {st t : State} (g : Grows st t) {T : Tree} {i : NodeIdx} (h : Holds st T i) : Holds t T i := by
  have up : ∀ {j : NodeIdx} {r : Node}, st.node? j = some r → t.node? j = some r := by
    intro j r hj
    rw [node?_eq_some] at *
    exact ⟨Nat.lt_of_lt_of_le hj.1 g.count, by rw [g.slots j hj.1]; exact hj.2⟩
  induction T generalizing i with
  | leaf y =>
    obtain ⟨r, h1, h2, h3⟩ := h
    exact ⟨r, up h1, h2, h3⟩
  | node a b iha ihb =>
    obtain ⟨r, l, c, h1, h2, hl, hc, ha, hb⟩ := h
    exact ⟨r, l, c, up h1, h2, hl, hc, iha ha, ihb hb⟩

theorem Holds.lt {st : State} {T : Tree} {i : NodeIdx} (h : Holds st T i) : i.toNat < st.arenaCount.val := by
  cases T with
  | leaf y => obtain ⟨r, h1, _⟩ := h; exact (node?_eq_some.1 h1).1
  | node a b => obtain ⟨r, l, c, h1, _⟩ := h; exact (node?_eq_some.1 h1).1

/-- A slot holds at most one tree. -/
theorem Holds.unique {st : State} {T U : Tree} {i : NodeIdx} (h : Holds st T i) (h' : Holds st U i) : T = U := by
  induction T generalizing i U with
  | leaf y =>
    obtain ⟨r, h1, h2, h3⟩ := h
    cases U with
    | leaf z =>
      obtain ⟨r', k1, k2, k3⟩ := h'
      rw [h1] at k1; obtain rfl := Option.some.inj k1
      rw [← h3, ← k3]
    | node a b =>
      obtain ⟨r', l, c, k1, k2, _⟩ := h'
      rw [h1] at k1; obtain rfl := Option.some.inj k1
      rw [h2] at k2; cases k2
  | node a b iha ihb =>
    obtain ⟨r, l, c, h1, h2, hl, hc, ha, hb⟩ := h
    cases U with
    | leaf z =>
      obtain ⟨r', k1, k2, k3⟩ := h'
      rw [h1] at k1; obtain rfl := Option.some.inj k1
      rw [h2] at k2; cases k2
    | node a' b' =>
      obtain ⟨r', l', c', k1, k2, kl, kc, ka, kb⟩ := h'
      rw [h1] at k1; obtain rfl := Option.some.inj k1
      rw [hl] at kl; obtain rfl := Option.some.inj kl
      rw [hc] at kc; obtain rfl := Option.some.inj kc
      rw [iha ha ka, ihb hb kb]

/-! ## Forests -/

/-- The slots in use are trees with no slot in common and none left over; `fs` lists their roots and shapes. -/
structure Forest (st : State) (fs : List (NodeIdx × Tree)) : Prop where
  nodes   : ∀ i : NodeIdx, i.toNat < st.arenaCount.val → (st.slot i).Ok i
  parent  : ∀ c i j : NodeIdx, ChildOf st c i → ChildOf st c j → i = j
  nodup   : (fs.map Prod.fst).Nodup
  roots   : ∀ p ∈ fs, ∀ i, ¬ ChildOf st p.1 i
  covered : ∀ j : NodeIdx, j.toNat < st.arenaCount.val → ∃ p ∈ fs, Reaches st p.1 j
  holds   : ∀ p ∈ fs, Holds st p.2 p.1
  size    : (fs.map fun p => p.2.size).sum = st.arenaCount.val

theorem ChildOf.of_arena {st t : State} (h : t.arena = st.arena ∧ t.arenaCount = st.arenaCount) {c i : NodeIdx}
    (hc : ChildOf t c i) : ChildOf st c i := by
  unfold ChildOf at *
  rw [h.2, slot_of_arena h.1] at hc
  exact hc

theorem Reaches.of_arena {st t : State} (h : t.arena = st.arena ∧ t.arenaCount = st.arenaCount) {i j : NodeIdx}
    (hr : Reaches st i j) : Reaches t i j := by
  induction hr with
  | here i => exact .here i
  | down hc _ ih => exact .down (hc.of_arena (st := t) ⟨h.1.symm, h.2.symm⟩) ih

/-- Forests are a matter of the arena alone. -/
theorem Forest.of_arena {st t : State} {fs : List (NodeIdx × Tree)}
    (h : t.arena = st.arena ∧ t.arenaCount = st.arenaCount) (hf : Forest st fs) : Forest t fs where
  nodes i hi := by rw [slot_of_arena h.1]; exact hf.nodes i (by rw [← h.2]; exact hi)
  parent c i j hi hj := hf.parent c i j (hi.of_arena h) (hj.of_arena h)
  nodup := hf.nodup
  roots p hp i hc := hf.roots p hp i (hc.of_arena h)
  covered j hj := by
    obtain ⟨p, hp, hr⟩ := hf.covered j (by rw [← h.2]; exact hj)
    exact ⟨p, hp, hr.of_arena h⟩
  holds p hp := (hf.holds p hp).of_arena h
  size := by rw [hf.size, h.2]

theorem Forest.perm {st : State} {fs gs : List (NodeIdx × Tree)} (h : fs.Perm gs) (hf : Forest st fs) :
    Forest st gs where
  nodes := hf.nodes
  parent := hf.parent
  nodup := (h.map Prod.fst).nodup_iff.1 hf.nodup
  roots p hp := hf.roots p (h.mem_iff.2 hp)
  covered j hj := by
    obtain ⟨p, hp, hr⟩ := hf.covered j hj
    exact ⟨p, h.mem_iff.1 hp, hr⟩
  holds p hp := hf.holds p (h.mem_iff.2 hp)
  size := by rw [← hf.size]; exact ((h.map _).sum_eq).symm

/-- An empty arena is the empty forest. -/
theorem Forest.empty {st : State} (h : st.arenaCount.val = 0) : Forest st [] where
  nodes i hi := by omega
  parent c i j hi _ := by have := hi.1; omega
  nodup := .nil
  roots p hp := by cases hp
  covered j hj := by omega
  holds p hp := by cases hp
  size := by simp [h]

theorem ChildOf.grows {st t : State} (g : Grows st t) {c i : NodeIdx} (h : ChildOf st c i) : ChildOf t c i := by
  obtain ⟨h1, h2⟩ := h
  refine ⟨Nat.lt_of_lt_of_le h1 g.count, ?_⟩
  rw [g.slots i h1]; exact h2

theorem Reaches.grows {st t : State} (g : Grows st t) {i j : NodeIdx} (h : Reaches st i j) : Reaches t i j := by
  induction h with
  | here i => exact .here i
  | down hc _ ih => exact .down (hc.grows g) ih

/-- After an allocation a child is a child from before, or the new node's. -/
theorem Allocated.childOf {n : Node} {k : NodeIdx} {st t : State} (h : Allocated n k st t) {c i : NodeIdx}
    (hc : ChildOf t c i) : ChildOf st c i ∨ (i = k ∧ n.kind = .internal ∧ (n.left = c ∨ n.right = c)) := by
  obtain ⟨h1, h2⟩ := hc
  by_cases hi : i.toNat = st.arenaCount.val
  · have e : i = k := BitVec.eq_of_toNat_eq (by rw [hi, h.index])
    subst e
    rw [h.new] at h2
    exact .inr ⟨rfl, h2⟩
  · rw [h.old i hi] at h2
    rw [h.count] at h1
    exact .inl ⟨by omega, h2⟩

/-- In a forest every child is in use, below its parent. -/
theorem Forest.child_lt {st : State} {fs : List (NodeIdx × Tree)} (hf : Forest st fs) {c i : NodeIdx}
    (h : ChildOf st c i) : c.toNat < i.toNat := by
  obtain ⟨h1, h2, h3⟩ := h
  obtain ⟨k1, k2, _⟩ := (hf.nodes i h1).internal h2
  rw [BitVec.lt_def] at k1 k2
  rcases h3 with rfl | rfl <;> assumption

/-- Allocating a leaf adds a one-leaf tree. -/
theorem Forest.leaf {st t : State} {fs : List (NodeIdx × Tree)} {y : Symbol} {f : Word} {k : NodeIdx}
    (hf : Forest st fs) (h : Allocated (Node.mkLeaf y f) k st t) : Forest t ((k, .leaf y) :: fs) := by
  have old : ∀ {c i}, ChildOf t c i → ChildOf st c i := by
    intro c i hc
    rcases h.childOf hc with hc | ⟨_, hk, _⟩
    · exact hc
    · cases hk
  have hk := h.index
  have hself : Holds t (.leaf y) k := by
    refine ⟨Node.mkLeaf y f, node?_eq_some.2 ⟨?_, h.new⟩, rfl, rfl⟩
    rw [h.count]; omega
  constructor
  · intro i hi
    by_cases e : i.toNat = st.arenaCount.val
    · have e : i = k := BitVec.eq_of_toNat_eq (by omega)
      subst e
      rw [h.new]
      exact ⟨fun hk => (by cases hk), fun _ => ⟨rfl, rfl⟩⟩
    · rw [h.old i e]
      rw [h.count] at hi
      exact hf.nodes i (by omega)
  · exact fun c i j hi hj => hf.parent c i j (old hi) (old hj)
  · rw [List.map_cons, List.nodup_cons]
    refine ⟨fun hm => ?_, hf.nodup⟩
    obtain ⟨p, hp, e⟩ := List.mem_map.1 hm
    have := (hf.holds p hp).lt
    rw [e, hk] at this
    omega
  · intro p hp i hc
    have hc' := old hc
    rcases List.mem_cons.1 hp with rfl | hp
    · have := hf.child_lt hc'
      have := hc'.1
      simp only at *
      omega
    · exact hf.roots p hp i hc'
  · intro j hj
    by_cases e : j.toNat = st.arenaCount.val
    · have e : j = k := BitVec.eq_of_toNat_eq (by omega)
      subst e
      exact ⟨(j, .leaf y), List.mem_cons_self .., .here j⟩
    · rw [h.count] at hj
      obtain ⟨p, hp, hr⟩ := hf.covered j (by omega)
      exact ⟨p, List.mem_cons_of_mem _ hp, hr.grows h.grows⟩
  · intro p hp
    rcases List.mem_cons.1 hp with rfl | hp
    · exact hself
    · exact (hf.holds p hp).grows h.grows
  · rw [List.map_cons, List.sum_cons, hf.size, h.count]
    simp only [Tree.size]; omega

/-- Allocating an internal node over two roots joins their trees. -/
theorem Forest.join {st t : State} {fs : List (NodeIdx × Tree)} {f : Word} {k a b : NodeIdx} {A B : Tree}
    (hf : Forest st ((a, A) :: (b, B) :: fs)) (h : Allocated (Node.mkInternal f a b) k st t) :
    Forest t ((k, .node A B) :: fs) := by
  have hk := h.index
  have hA := hf.holds (a, A) (by simp)
  have hB := hf.holds (b, B) (by simp)
  have la : a.toNat < st.arenaCount.val := hA.lt
  have lb : b.toNat < st.arenaCount.val := hB.lt
  have hnd := hf.nodup
  simp only [List.map_cons, List.nodup_cons, List.mem_cons, not_or] at hnd
  obtain ⟨⟨hab, ha⟩, hb, hnd⟩ := hnd
  have split : ∀ {c i}, ChildOf t c i → ChildOf st c i ∨ (i = k ∧ (a = c ∨ b = c)) := by
    intro c i hc
    rcases h.childOf hc with hc | ⟨e, _, hc⟩
    · exact .inl hc
    · exact .inr ⟨e, hc⟩
  have noA : ∀ i, ¬ ChildOf st a i := hf.roots (a, A) (by simp)
  have noB : ∀ i, ¬ ChildOf st b i := hf.roots (b, B) (by simp)
  have hka : ChildOf t a k := ⟨by rw [h.count]; omega, by rw [h.new]; exact ⟨rfl, .inl rfl⟩⟩
  have hkb : ChildOf t b k := ⟨by rw [h.count]; omega, by rw [h.new]; exact ⟨rfl, .inr rfl⟩⟩
  constructor
  · intro i hi
    by_cases e : i.toNat = st.arenaCount.val
    · have e : i = k := BitVec.eq_of_toNat_eq (by omega)
      subst e
      rw [h.new]
      refine ⟨fun _ => ⟨?_, ?_, hab, rfl⟩, fun hk => (by cases hk)⟩
      · show a < i; rw [BitVec.lt_def]; omega
      · show b < i; rw [BitVec.lt_def]; omega
    · rw [h.old i e]
      rw [h.count] at hi
      exact hf.nodes i (by omega)
  · intro c i j hi hj
    rcases split hi with hi | ⟨rfl, hi⟩ <;> rcases split hj with hj | ⟨rfl, hj⟩
    · exact hf.parent c i j hi hj
    · rcases hj with rfl | rfl
      · exact absurd hi (noA i)
      · exact absurd hi (noB i)
    · rcases hi with rfl | rfl
      · exact absurd hj (noA j)
      · exact absurd hj (noB j)
    · rfl
  · rw [List.map_cons, List.nodup_cons]
    refine ⟨fun hm => ?_, hnd⟩
    obtain ⟨p, hp, e⟩ := List.mem_map.1 hm
    have := (hf.holds p (by simp [hp])).lt
    rw [e, hk] at this
    omega
  · intro p hp i hc
    rcases List.mem_cons.1 hp with rfl | hp
    · rcases split hc with hc | ⟨rfl, hc⟩
      · have := hf.child_lt hc
        have := hc.1
        simp only at *
        omega
      · rcases hc with e | e <;> (have := congrArg BitVec.toNat e; simp only at this; omega)
    · rcases split hc with hc | ⟨_, hc⟩
      · exact hf.roots p (by simp [hp]) i hc
      · rcases hc with e | e
        · exact ha (List.mem_map.2 ⟨p, hp, e.symm⟩)
        · exact hb (List.mem_map.2 ⟨p, hp, e.symm⟩)
  · intro j hj
    by_cases e : j.toNat = st.arenaCount.val
    · have e : j = k := BitVec.eq_of_toNat_eq (by omega)
      subst e
      exact ⟨(j, .node A B), List.mem_cons_self .., .here j⟩
    · rw [h.count] at hj
      obtain ⟨p, hp, hr⟩ := hf.covered j (by omega)
      have hr' := hr.grows h.grows
      simp only [List.mem_cons] at hp
      rcases hp with rfl | rfl | hp
      · exact ⟨_, List.mem_cons_self .., .down hka hr'⟩
      · exact ⟨_, List.mem_cons_self .., .down hkb hr'⟩
      · exact ⟨p, List.mem_cons_of_mem _ hp, hr'⟩
  · intro p hp
    rcases List.mem_cons.1 hp with rfl | hp
    · refine ⟨Node.mkInternal f a b, a, b, node?_eq_some.2 ⟨by rw [h.count]; simp only; omega, h.new⟩, rfl, ?_, ?_,
        hA.grows h.grows, hB.grows h.grows⟩
      · exact child?_eq_some.2 ⟨by simp only; omega, rfl⟩
      · exact child?_eq_some.2 ⟨by simp only; omega, rfl⟩
    · exact (hf.holds p (by simp [hp])).grows h.grows
  · have := hf.size
    simp only [List.map_cons, List.sum_cons] at this ⊢
    rw [h.count]
    simp only [Tree.size]
    omega

/-- A forest of one tree, its root the last slot, meets R33. -/
theorem Forest.arenaOk {st : State} {T : Tree} (hf : Forest st [(st.root, T)])
    (hr : st.root.toNat + 1 = st.arenaCount.val) (hv : st.treeValid = true) : ArenaOk st where
  nodes := hf.nodes
  parent := hf.parent
  root _ := hr
  reached _ j hj := by
    obtain ⟨p, hp, h⟩ := hf.covered j hj
    obtain rfl := List.mem_singleton.1 hp
    exact h
  tree _ := by
    have h := hf.size
    simp only [List.map_cons, List.map_nil, List.sum_cons, List.sum_nil, Nat.add_zero] at h
    have h1 := T.size_eq
    have h2 := T.leaves_pos
    have h3 := T.depth_lt_leaves
    have h4 := arenaCount_le st
    exact ⟨T, hf.holds (st.root, T) (by simp), h2, by omega, by omega, by omega⟩
  noTree h := by rw [hv] at h; cases h

theorem Forest.arenaOk_noTree {st : State} {fs : List (NodeIdx × Tree)} (hf : Forest st fs)
    (hv : st.treeValid = false) (hr : st.root = Config.nil) : ArenaOk st where
  nodes := hf.nodes
  parent := hf.parent
  root h := by rw [hv] at h; cases h
  reached h := by rw [hv] at h; cases h
  tree h := by rw [hv] at h; cases h
  noTree _ := hr

end Sys2Proof.Machine
end

