-- ==== Sys2Proof/Laws/Load.lean ====
section
/-! SUPPORT. What TREE_LOAD's recursive procedure does: on the bits of a tree it makes that tree, and it makes nothing
else (R176, R178). -/

namespace Sys2Proof.Machine

/-- From `st` to `t` only stream 0 and the arena moved, the stream by reads and the arena by new slots of frequency 0. -/
structure LoadFrame (st t : State) : Prop where
  rest  : t = { st with bsTree := t.bsTree, arena := t.arena, arenaCount := t.arenaCount }
  mode  : t.bsTree.mode = st.bsTree.mode
  limit : t.bsTree.limit = st.bsTree.limit
  grows : Grows st t
  freq  : ∀ i : NodeIdx, st.arenaCount.val ≤ i.toNat → i.toNat < t.arenaCount.val → (t.slot i).freq = 0

theorem LoadFrame.refl (st : State) : LoadFrame st st where
  rest := rfl
  mode := rfl
  limit := rfl
  grows := .refl st
  freq i h1 h2 := by omega

theorem LoadFrame.trans {st t u : State} (h : LoadFrame st t) (h' : LoadFrame t u) : LoadFrame st u where
  rest := by rw [h'.rest]; conv_lhs => rw [h.rest]
  mode := h'.mode.trans h.mode
  limit := h'.limit.trans h.limit
  grows := h.grows.trans h'.grows
  freq i h1 h2 := by
    by_cases hi : i.toNat < t.arenaCount.val
    · rw [h'.grows.slots i hi]; exact h.freq i h1 hi
    · exact h'.freq i (by omega) h2

theorem LoadFrame.of_reader {st t : State} (h : ReaderFrame .tree st t) : LoadFrame st t := by
  have ha := OnlyStream.arena h.only
  refine ⟨?_, h.mode, h.limit, .of_arena ha, fun i h1 h2 => by rw [ha.2] at h2; omega⟩
  rw [h.rest]; rfl

theorem LoadFrame.of_alloc {n : Node} {i : NodeIdx} {st t : State} (h : Allocated n i st t) (hf : n.freq = 0) :
    LoadFrame st t := by
  refine ⟨?_, ?_, ?_, h.grows, fun j h1 h2 => ?_⟩
  · rw [h.rest]
  · rw [h.rest]
  · rw [h.rest]
  · have e : j = i := BitVec.eq_of_toNat_eq (by have := h.index; have := h.count; omega)
    subst e
    rw [h.new, hf]

theorem Allocated.reader {n : Node} {i : NodeIdx} {st t : State} (h : Allocated n i st t) (hr : ReaderOk st .tree) :
    ReaderOk t .tree ∧ t.unread .tree = st.unread .tree := by
  have e : t = { st with arena := t.arena, arenaCount := t.arenaCount } := h.rest
  constructor
  · rw [e]; exact ⟨hr.mode, hr.ok⟩
  · rw [e]; rfl

/-- A one-leaf tree's symbol read back from its 8 bits. -/
theorem symbol_of_bits (y : Symbol) :
    (BitVec.ofNat 64 (bitsToNat (fieldBits y 8))).extractLsb' 0 8 = y := by
  rw [bitsToNat_fieldBits]
  apply BitVec.eq_of_toNat_eq
  have := y.isLt
  simp only [BitVec.extractLsb'_toNat, BitVec.toNat_ofNat, Nat.shiftRight_zero]
  omega

theorem fieldBits_symbol (v : Word) {bs : List Bool} (h : bs.length = 8) (hv : v = BitVec.ofNat 64 (bitsToNat bs)) :
    fieldBits (v.extractLsb' 0 8 : Symbol) 8 = bs := by
  have h1 := bitsToNat_lt bs
  rw [h] at h1
  have e : (v.extractLsb' 0 8 : Symbol) = BitVec.ofNat 8 (bitsToNat bs) := by
    subst hv
    apply BitVec.eq_of_toNat_eq
    simp only [BitVec.extractLsb'_toNat, BitVec.toNat_ofNat, Nat.shiftRight_zero]
    omega
  rw [e, ← h]
  exact fieldBits_ofNat_bitsToNat bs (by omega)

/-- On the bits of a tree that still fits, `load()` makes the tree and stops right after its last bit. -/
theorem loadNode_tree {T : Tree} {fuel reserved : Nat} {st : State} {rest : List Bool} (hr : ReaderOk st .tree)
    (hu : st.unread .tree = T.bits ++ rest) (hf : 512 ≤ fuel + reserved) (hc : st.arenaCount.val ≤ reserved)
    (hs : reserved + T.size ≤ 511) :
    ∃ i t, loadNode fuel reserved st = .ok (i, reserved + T.size) t ∧ Holds t T i ∧
      i.toNat + 1 = t.arenaCount.val ∧ t.arenaCount.val = st.arenaCount.val + T.size ∧
      ReaderOk t .tree ∧ t.unread .tree = rest ∧ LoadFrame st t := by
  induction T generalizing fuel reserved st rest with
  | leaf y =>
    simp only [Tree.size] at hs
    cases fuel with
    | zero => omega
    | succ fuel =>
      obtain ⟨t1, e1, r1, u1, _, f1⟩ := readBit_of_unread hr hu
      have ha1 := OnlyStream.arena f1.only
      obtain ⟨t2, e2, r2, u2, _, f2⟩ := readBits_of_unread (fieldBits y 8) rest r1 u1
      rw [fieldBits_length] at e2
      have ha2 := OnlyStream.arena f2.only
      have hroom : t2.arenaCount.val < 511 := by rw [ha2.2, ha1.2]; omega
      obtain ⟨i, t3, e3, a3⟩ := allocNode_room (Node.mkLeaf y 0) hroom
      obtain ⟨r3, u3⟩ := a3.reader r2
      refine ⟨i, t3, ?_, ?_, ?_, ?_, r3, u3.trans u2, ?_⟩
      · rw [loadNode, e1, Result.andThen_ok, if_neg (by simp only [Config.arenaCap]; omega), if_pos rfl, e2,
          Result.andThen_ok, symbol_of_bits, e3]
        rfl
      · exact ⟨_, node?_eq_some.2 ⟨by rw [a3.index, a3.count]; omega, a3.new⟩, rfl, rfl⟩
      · rw [a3.index, a3.count]
      · rw [a3.count, ha2.2, ha1.2]; rfl
      · exact (LoadFrame.of_reader f1).trans ((LoadFrame.of_reader f2).trans (.of_alloc a3 rfl))
  | node a b iha ihb =>
    simp only [Tree.size] at hs
    have := a.size_pos
    have := b.size_pos
    cases fuel with
    | zero => omega
    | succ fuel =>
      simp only [Tree.bits, List.cons_append, List.append_assoc] at hu
      obtain ⟨t1, e1, r1, u1, _, f1⟩ := readBit_of_unread hr hu
      have ha1 := OnlyStream.arena f1.only
      obtain ⟨l, t2, e2, h2, i2, c2, r2, u2, f2⟩ :=
        iha (fuel := fuel) (reserved := reserved + 1) r1 u1 (by omega) (by rw [ha1.2]; omega) (by omega)
      obtain ⟨c, t3, e3, h3, i3, c3, r3, u3, f3⟩ :=
        ihb (fuel := fuel) (reserved := reserved + 1 + a.size) r2 u2 (by omega) (by rw [c2, ha1.2]; omega) (by omega)
      have hroom : t3.arenaCount.val < 511 := by rw [c3, c2, ha1.2]; omega
      obtain ⟨i, t4, e4, a4⟩ := allocNode_room (Node.mkInternal 0 l c) hroom
      obtain ⟨r4, u4⟩ := a4.reader r3
      refine ⟨i, t4, ?_, ?_, ?_, ?_, r4, u4.trans u3, ?_⟩
      · rw [loadNode, e1, Result.andThen_ok, if_neg (by simp only [Config.arenaCap]; omega), if_neg (by simp), e2,
          Result.andThen_ok]
        simp only
        rw [e3, Result.andThen_ok, e4]
        simp only [Result.andThen_ok, Tree.size]
        rw [show reserved + 1 + a.size + b.size = reserved + (1 + a.size + b.size) by omega]
      · have hi := a4.index
        refine ⟨_, l, c, node?_eq_some.2 ⟨by rw [a4.index, a4.count]; omega, a4.new⟩, rfl,
          child?_eq_some.2 ⟨?_, rfl⟩, child?_eq_some.2 ⟨?_, rfl⟩, (h2.grows f3.grows).grows a4.grows,
          h3.grows a4.grows⟩ <;> omega
      · rw [a4.index, a4.count]
      · rw [a4.count, c3, c2, ha1.2]; simp only [Tree.size]; omega
      · exact (LoadFrame.of_reader f1).trans (f2.trans (f3.trans (.of_alloc a4 rfl)))

/-- What a read does to a reader's bits and to the rest, if it succeeds. -/
theorem readBit_ok {st t : State} {b : Bool} (h : readBit .tree st = .ok b t) :
    (t.arena = st.arena ∧ t.arenaCount = st.arenaCount) ∧
      (ReaderOk st .tree → ReaderOk t .tree ∧ st.unread .tree = b :: t.unread .tree) := by
  have ho := onlyStream_readBit .tree st
  rw [h, Result.state_ok] at ho
  refine ⟨ho.arena, fun hr => ?_⟩
  cases hu : st.unread .tree with
  | nil => rw [readBit_of_unread_nil hr hu] at h; cases h
  | cons x xs =>
    obtain ⟨t', e, r, u, _⟩ := readBit_of_unread hr hu
    rw [e] at h
    injection h with h1 h2
    subst h1 h2
    exact ⟨r, by rw [u]⟩

theorem readBits_ok {st t : State} {n : Nat} {v : Word} (h : readBits .tree n st = .ok v t) :
    (t.arena = st.arena ∧ t.arenaCount = st.arenaCount) ∧
      (ReaderOk st .tree → ReaderOk t .tree ∧
        ∃ bs, bs.length = n ∧ st.unread .tree = bs ++ t.unread .tree ∧ v = BitVec.ofNat 64 (bitsToNat bs)) := by
  have ho := onlyStream_readBitsFrom .tree n 0 st
  rw [show readBitsFrom .tree n 0 st = .ok v t from h, Result.state_ok] at ho
  refine ⟨ho.arena, fun hr => ?_⟩
  by_cases hl : (st.unread .tree).length < n
  · obtain ⟨t', e, _⟩ := readBitsFrom_short n 0 hr hl
    rw [show readBits .tree n st = _ from e] at h
    cases h
  · have hs : st.unread .tree = (st.unread .tree).take n ++ (st.unread .tree).drop n := (List.take_append_drop ..).symm
    have hn : ((st.unread .tree).take n).length = n := by rw [List.length_take]; omega
    obtain ⟨t', e, r, u, _⟩ := readBits_of_unread _ _ hr hs
    rw [hn, h] at e
    injection e with e1 e2
    subst e2
    exact ⟨r, _, hn, by rw [u]; exact hs, e1⟩

theorem readBit_raised {st t : State} {s : StreamSel} {k : ErrorKind} (h : readBit s st = .raised k t) :
    k = .truncated ∧ t = st := by
  unfold readBit at h
  simp only at h
  split at h
  · injection h with h1 h2; exact ⟨h1.symm, h2.symm⟩
  · split at h <;> cases h

theorem readBitsFrom_raised {st t : State} {s : StreamSel} {n : Nat} {v : Word} {k : ErrorKind}
    (h : readBitsFrom s n v st = .raised k t) : k = .truncated := by
  induction n generalizing v st with
  | zero => cases h
  | succ n ih =>
    rw [readBitsFrom] at h
    cases hb : readBit s st with
    | ok b u => rw [hb] at h; exact ih h
    | raised k' u =>
      rw [hb, Result.andThen_raised] at h
      injection h with h1 _
      rw [← h1]; exact (readBit_raised hb).1

/-- What `load()` can do, from any forest: make one more tree, the one whose bits it read; or raise, leaving a
forest. -/
theorem loadNode_cases (fuel reserved : Nat) {st : State} {fs : List (NodeIdx × Tree)} (hf : Forest st fs) :
    (∃ i T t, loadNode fuel reserved st = .ok (i, reserved + T.size) t ∧ Forest t ((i, T) :: fs) ∧
        i.toNat + 1 = t.arenaCount.val ∧ reserved + T.size ≤ 511 ∧
        (ReaderOk st .tree → ReaderOk t .tree ∧ st.unread .tree = T.bits ++ t.unread .tree)) ∨
      ∃ k t gs, loadNode fuel reserved st = .raised k t ∧ (k = .truncated ∨ k = .capacityExceeded) ∧ Forest t gs := by
  induction fuel generalizing reserved st fs with
  | zero => exact .inr ⟨_, st, fs, rfl, .inr rfl, hf⟩
  | succ fuel ih =>
    rw [loadNode]
    cases h1 : readBit .tree st with
    | raised k t =>
      obtain ⟨rfl, rfl⟩ := readBit_raised h1
      exact .inr ⟨_, t, fs, rfl, .inl rfl, hf⟩
    | ok m t1 =>
      obtain ⟨a1, r1⟩ := readBit_ok h1
      have hf1 := hf.of_arena a1
      rw [Result.andThen_ok]
      by_cases hcap : Config.arenaCap < reserved + 1
      · rw [if_pos hcap]
        exact .inr ⟨_, t1, fs, rfl, .inr rfl, hf1⟩
      · rw [if_neg hcap]
        simp only [Config.arenaCap] at hcap
        cases m with
        | true =>
          rw [if_pos rfl]
          cases h2 : readBits .tree 8 t1 with
          | raised k t =>
            have ho := onlyStream_readBitsFrom .tree 8 0 t1
            rw [show readBitsFrom .tree 8 0 t1 = .raised k t from h2, Result.state_raised] at ho
            exact .inr ⟨k, t, fs, rfl, .inl (readBitsFrom_raised h2), hf1.of_arena ho.arena⟩
          | ok v t2 =>
            obtain ⟨a2, r2⟩ := readBits_ok h2
            have hf2 := hf1.of_arena a2
            rw [Result.andThen_ok]
            rcases allocNode_cases (Node.mkLeaf (v.extractLsb' 0 8) 0) t2 with ⟨i, t3, e3, _, a3⟩ | ⟨e3, _⟩
            · rw [e3, Result.andThen_ok]
              refine .inl ⟨i, .leaf (v.extractLsb' 0 8), t3, rfl, hf2.leaf a3, by rw [a3.index, a3.count],
                by simp only [Tree.size]; omega, fun hr => ?_⟩
              obtain ⟨k1, k2⟩ := r1 hr
              obtain ⟨k3, bs, hl, hu, hv⟩ := r2 k1
              obtain ⟨k4, k5⟩ := a3.reader k3
              refine ⟨k4, ?_⟩
              rw [k2, hu, k5, Tree.bits, fieldBits_symbol v hl hv]
              rfl
            · rw [e3]
              exact .inr ⟨_, t2, fs, rfl, .inr rfl, hf2⟩
        | false =>
          rw [if_neg (by simp)]
          rcases ih (reserved + 1) hf1 with ⟨l, A, t2, e2, f2, _, _, r2⟩ | ⟨k, t, gs, e2, hk, f2⟩
          · rw [e2, Result.andThen_ok]
            simp only
            rcases ih (reserved + 1 + A.size) f2 with ⟨c, B, t3, e3, f3, _, h3, r3⟩ | ⟨k, t, gs, e3, hk, f3⟩
            · rw [e3, Result.andThen_ok]
              rcases allocNode_cases (Node.mkInternal 0 l c) t3 with ⟨i, t4, e4, _, a4⟩ | ⟨e4, _⟩
              · rw [e4, Result.andThen_ok]
                refine .inl ⟨i, .node A B, t4, ?_, (f3.perm (List.Perm.swap ..)).join a4, by rw [a4.index, a4.count],
                  by simp only [Tree.size]; omega, fun hr => ?_⟩
                · simp only [Tree.size]
                  rw [show reserved + 1 + A.size + B.size = reserved + (1 + A.size + B.size) by omega]
                · obtain ⟨k1, k2⟩ := r1 hr
                  obtain ⟨k3, k4⟩ := r2 k1
                  obtain ⟨k5, k6⟩ := r3 k3
                  obtain ⟨k7, k8⟩ := a4.reader k5
                  refine ⟨k7, ?_⟩
                  rw [k2, k4, k6, k8]
                  simp [Tree.bits]
              · rw [e4]
                exact .inr ⟨_, t3, _, rfl, .inr rfl, f3⟩
            · rw [e3]
              exact .inr ⟨k, t, gs, rfl, hk, f3⟩
          · rw [e2]
            exact .inr ⟨k, t, gs, rfl, hk, f2⟩

/-! ## TREE_LOAD -/

/-- Only stream 0 and the arena. -/
def OnlyNodes (st t : State) : Prop :=
  t = { st with bsTree := t.bsTree, arena := t.arena, arenaCount := t.arenaCount }

theorem frame_onlyNodes : Frame OnlyNodes where
  refl _ := rfl
  trans h h' := by unfold OnlyNodes at *; rw [h']; conv_lhs => rw [h]

theorem onlyNodes_of_stream {st t : State} (h : OnlyStream .tree st t) : OnlyNodes st t := by
  unfold OnlyStream at h
  unfold OnlyNodes
  rw [h]; rfl

theorem onlyNodes_allocNode (n : Node) (st : State) : OnlyNodes st (allocNode n st).state := by
  unfold allocNode
  split <;> rfl

theorem onlyNodes_loadNode (fuel reserved : Nat) (st : State) : OnlyNodes st (loadNode fuel reserved st).state := by
  have hR := frame_onlyNodes
  induction fuel generalizing reserved st with
  | zero => exact hR.refl st
  | succ fuel ih =>
    unfold loadNode
    refine hR.andThen (onlyNodes_of_stream (onlyStream_readBit _ st)) fun m t => ?_
    split
    · exact hR.refl t
    · split
      · refine hR.andThen (onlyNodes_of_stream (onlyStream_readBitsFrom ..)) fun v u => ?_
        exact hR.andThen (onlyNodes_allocNode _ u) fun i w => hR.refl w
      · refine hR.andThen (ih _ t) fun l u => hR.andThen (ih _ u) fun r w => ?_
        exact hR.andThen (onlyNodes_allocNode _ w) fun i x => hR.refl x

/-- TREE_LOAD on the bits of a tree with at most 256 leaves. -/
theorem loadTree_tree {T : Tree} {st : State} {rest : List Bool} (hr : ReaderOk st .tree)
    (hu : st.unread .tree = T.bits ++ rest) (hs : T.leaves ≤ 256) :
    ∃ t, loadTree st = .ok (t.root.zeroExtend 64) t ∧ t.treeValid = true ∧ Holds t T t.root ∧
      t.root.toNat + 1 = t.arenaCount.val ∧ t.arenaCount.val = 2 * T.leaves - 1 ∧ t.heapSize.val = 0 ∧
      ReaderOk t .tree ∧ t.unread .tree = rest ∧
      (∀ i : NodeIdx, i.toNat < t.arenaCount.val → (t.slot i).freq = 0) ∧
      t.bsTree.mode = st.bsTree.mode ∧ t.bsTree.limit = st.bsTree.limit ∧ OnlyLoad st t := by
  have hz := T.size_eq
  have ho := onlyLoad_loadTree st
  obtain ⟨i, t, e, h1, h2, h3, h4, h5, h6⟩ :=
    loadNode_tree (T := T) (fuel := Config.arenaCap + 1) (reserved := 0) (st := st.arenaReset) (rest := rest)
      ⟨hr.mode, hr.ok⟩ hu (by simp only [Config.arenaCap]; omega) (by simp [State.arenaReset]) (by omega)
  have hc : st.arenaReset.arenaCount.val = 0 := rfl
  refine ⟨{ t with root := i, treeValid := true }, ?_, rfl, Holds.of_arena (st := t) (t := { t with root := i, treeValid := true }) ⟨rfl, rfl⟩ h1, h2, ?_, ?_, ⟨h4.mode, h4.ok⟩, h5, ?_, ?_, ?_, ?_⟩
  · unfold loadTree
    rw [e]
    rfl
  · show t.arenaCount.val = _
    omega
  · show t.heapSize.val = 0
    rw [h6.rest]; rfl
  · intro j hj
    exact h6.freq j (by rw [hc]; omega) hj
  · exact h6.mode
  · exact h6.limit
  · have e' : loadTree st = .ok (i.zeroExtend 64) { t with root := i, treeValid := true } := by
      unfold loadTree; rw [e]; rfl
    rw [e'] at ho
    exact ho

/-! ## A load that fails -/

@[simp] theorem Unfinished.bits_nil : Unfinished.bits [] = [] := rfl
@[simp] theorem Unfinished.bits_none (z : Unfinished) : Unfinished.bits (none :: z) = false :: z.bits := rfl
@[simp] theorem Unfinished.bits_some (l : Tree) (z : Unfinished) :
    Unfinished.bits (some l :: z) = false :: (l.bits ++ z.bits) := rfl
@[simp] theorem Unfinished.entered_nil : Unfinished.entered [] = 0 := rfl
@[simp] theorem Unfinished.entered_none (z : Unfinished) : Unfinished.entered (none :: z) = 1 + z.entered := by
  simp [Unfinished.entered]
@[simp] theorem Unfinished.entered_some (l : Tree) (z : Unfinished) :
    Unfinished.entered (some l :: z) = 2 * l.leaves + z.entered := by
  simp [Unfinished.entered]
@[simp] theorem Unfinished.complete_nil : Unfinished.complete [] = 0 := rfl
@[simp] theorem Unfinished.complete_none (z : Unfinished) : Unfinished.complete (none :: z) = z.complete := by
  simp [Unfinished.complete]
@[simp] theorem Unfinished.complete_some (l : Tree) (z : Unfinished) :
    Unfinished.complete (some l :: z) = (2 * l.leaves - 1) + z.complete := by
  simp [Unfinished.complete]

/-- What has been read, and made, when `load()` has raised inside the tree at `z`. -/
structure StoppedAt (z : Unfinished) (left : List Bool) (st t : State) : Prop where
  reader : ReaderOk t .tree
  unread : t.unread .tree = left
  count  : t.arenaCount.val = st.arenaCount.val + z.complete
  holds  : ∀ l, some l ∈ z → ∃ i, Holds t l i
  frame  : LoadFrame st t

/-- If `load()` raises at the node entered after those of `z`, it raises from the whole of `z`, its complete left children
made. -/
theorem loadNode_unfinished {z : Unfinished} {k : ErrorKind} {fuel reserved n : Nat} {st : State} {tail left : List Bool}
    (base : ∀ fuel st, 512 ≤ fuel + n → ReaderOk st .tree → st.unread .tree = tail →
      ∃ t, loadNode fuel n st = .raised k t ∧ StoppedAt [] left st t)
    (hz : reserved + z.entered = n) (hn : n ≤ 511) (hf : 512 ≤ fuel + reserved) (hc : st.arenaCount.val ≤ reserved)
    (hr : ReaderOk st .tree) (hu : st.unread .tree = z.bits ++ tail) :
    ∃ t, loadNode fuel reserved st = .raised k t ∧ StoppedAt z left st t := by
  induction z generalizing fuel reserved st with
  | nil =>
    simp only [Unfinished.entered_nil, Nat.add_zero] at hz
    exact hz ▸ base fuel st (hz ▸ hf) hr hu
  | cons x z ih =>
    have h1 : reserved + 1 ≤ 511 := by
      cases x with
      | none => simp only [Unfinished.entered_none] at hz; omega
      | some l => have := l.leaves_pos; simp only [Unfinished.entered_some] at hz; omega
    obtain ⟨fuel, rfl⟩ : ∃ f, fuel = f + 1 := ⟨fuel - 1, by omega⟩
    cases x with
    | none =>
      simp only [Unfinished.entered_none] at hz
      obtain ⟨t1, e1, r1, u1, _, f1⟩ := readBit_of_unread hr (by simpa using hu)
      have a1 := OnlyStream.arena f1.only
      obtain ⟨t2, e2, s2⟩ := ih (fuel := fuel) (reserved := reserved + 1) (by omega) (by omega) (by rw [a1.2]; omega) r1 u1
      refine ⟨t2, ?_, s2.reader, s2.unread, ?_, fun l hl => s2.holds l (by simpa using hl),
        (LoadFrame.of_reader f1).trans s2.frame⟩
      · rw [loadNode, e1, Result.andThen_ok, if_neg (by simp only [Config.arenaCap]; omega), if_neg (by simp), e2]
        rfl
      · rw [s2.count, a1.2, Unfinished.complete_none]
    | some l =>
      have hs := l.size_eq
      have := l.leaves_pos
      simp only [Unfinished.entered_some] at hz
      obtain ⟨t1, e1, r1, u1, _, f1⟩ := readBit_of_unread hr (by simpa using hu)
      have a1 := OnlyStream.arena f1.only
      obtain ⟨i, t2, e2, h2, _, c2, r2, u2, f2⟩ :=
        loadNode_tree (T := l) (fuel := fuel) (reserved := reserved + 1) r1 u1 (by omega) (by rw [a1.2]; omega) (by omega)
      obtain ⟨t3, e3, s3⟩ := ih (fuel := fuel) (reserved := reserved + 1 + l.size) (by omega) (by omega)
        (by rw [c2, a1.2]; omega) r2 u2
      refine ⟨t3, ?_, s3.reader, s3.unread, ?_, fun m hm => ?_, (LoadFrame.of_reader f1).trans (f2.trans s3.frame)⟩
      · rw [loadNode, e1, Result.andThen_ok, if_neg (by simp only [Config.arenaCap]; omega), if_neg (by simp), e2,
          Result.andThen_ok]
        simp only
        rw [e3]
        rfl
      · rw [s3.count, c2, a1.2, Unfinished.complete_some]; omega
      · rcases List.mem_cons.1 hm with e | hm
        · cases e; exact ⟨i, h2.grows s3.frame.grows⟩
        · exact s3.holds m hm

theorem StoppedAt.of_reader {left : List Bool} {st t : State} (hr : ReaderOk t .tree) (hu : t.unread .tree = left)
    (hf : ReaderFrame .tree st t) : StoppedAt [] left st t :=
  ⟨hr, hu, by rw [(OnlyStream.arena hf.only).2]; rfl, by simp, .of_reader hf⟩

/-- What `load()` does where `LoadStops` says that it stops: it raises that error with that many bits read. -/
theorem loadNode_stops {z : Unfinished} {k : ErrorKind} {n fuel : Nat} {st : State} (hf : 512 ≤ fuel)
    (hc : st.arenaCount.val = 0) (hr : ReaderOk st .tree) (h : LoadStops (st.unread .tree) z n k) :
    ∃ t, loadNode fuel 0 st = .raised k t ∧ StoppedAt z ((st.unread .tree).drop n) st t := by
  cases h with
  | @full m rest hu hz =>
    refine loadNode_unfinished (n := 511) (tail := m :: rest) (fun fuel st hf hr hu' => ?_) (by omega) (by omega) (by omega)
      (by omega) hr hu
    obtain ⟨fuel, rfl⟩ : ∃ f, fuel = f + 1 := ⟨fuel - 1, by omega⟩
    obtain ⟨t, e, r, u, _, f⟩ := readBit_of_unread hr hu'
    refine ⟨t, ?_, .of_reader r ?_ f⟩
    · rw [loadNode, e, Result.andThen_ok, if_pos (by decide)]
    · rw [u, hu, List.drop_append]; simp
  | noMarker hu hz =>
    refine loadNode_unfinished (n := z.entered) (tail := []) (fun fuel st hf hr hu' => ?_) (by omega) hz (by omega)
      (by omega) hr (by simpa using hu)
    obtain ⟨fuel, rfl⟩ : ∃ f, fuel = f + 1 := ⟨fuel - 1, by omega⟩
    refine ⟨st, ?_, .of_reader hr (by rw [hu']; simp) (.refl _ st)⟩
    rw [loadNode, readBit_of_unread_nil hr hu']
    rfl
  | @noSymbol part hu hp hz =>
    refine loadNode_unfinished (n := z.entered) (tail := true :: part) (fun fuel st hf hr hu' => ?_) (by omega) (by omega)
      (by omega) (by omega) hr hu
    obtain ⟨fuel, rfl⟩ : ∃ f, fuel = f + 1 := ⟨fuel - 1, by omega⟩
    obtain ⟨t, e, r, u, _, f⟩ := readBit_of_unread hr hu'
    obtain ⟨v, e', r', u', f'⟩ := readBitsFrom_short 8 0 r (by rw [u]; omega)
    refine ⟨v, ?_, .of_reader r' (by rw [u']; simp) (f.trans f')⟩
    rw [loadNode, e, Result.andThen_ok, if_neg (by simp only [Config.arenaCap]; omega), if_pos rfl,
      show readBits .tree 8 t = _ from e']
    rfl

/-- Every bit string begins with the bits of a tree that still fits, or a load of it stops (R178). -/
theorem tree_or_stops (n : Nat) (bits : List Bool) (hl : bits.length ≤ n) (reserved : Nat) (hr : reserved ≤ 511) :
    (∃ (T : Tree) (rest : List Bool), bits = T.bits ++ rest ∧ reserved + T.size ≤ 511) ∨
      ∃ z : Unfinished,
        (reserved + z.entered = 511 ∧ ∃ m rest, bits = z.bits ++ m :: rest) ∨
        (reserved + z.entered ≤ 511 ∧ bits = z.bits) ∨
        (reserved + z.entered ≤ 510 ∧ ∃ part, part.length < 8 ∧ bits = z.bits ++ true :: part) := by
  induction n generalizing bits reserved with
  | zero => exact .inr ⟨[], .inr (.inl ⟨hr, List.length_eq_zero_iff.1 (by omega)⟩)⟩
  | succ n ih =>
    cases bits with
    | nil => exact .inr ⟨[], .inr (.inl ⟨hr, rfl⟩)⟩
    | cons m bits =>
      simp only [List.length_cons] at hl
      by_cases h511 : reserved = 511
      · exact .inr ⟨[], .inl ⟨h511, m, bits, rfl⟩⟩
      cases m with
      | true =>
        by_cases h8 : bits.length < 8
        · exact .inr ⟨[], .inr (.inr ⟨by simp; omega, bits, h8, rfl⟩)⟩
        · refine .inl ⟨.leaf (BitVec.ofNat 8 (bitsToNat (bits.take 8))), bits.drop 8, ?_, by simp only [Tree.size]; omega⟩
          have e : (bits.take 8).length = 8 := by rw [List.length_take]; omega
          have := fieldBits_ofNat_bitsToNat (w := 8) (bits.take 8) (by omega)
          rw [e] at this
          rw [Tree.bits, this, List.cons_append, List.take_append_drop]
      | false =>
        rcases ih bits (by omega) (reserved + 1) (by omega) with ⟨L, rest, rfl, hs⟩ | ⟨z, h⟩
        · have hs' := L.size_eq
          have := L.leaves_pos
          rw [List.length_append] at hl
          rcases ih rest (by omega) (reserved + 1 + L.size) hs with ⟨R, rest', rfl, hs''⟩ | ⟨z, h⟩
          · exact .inl ⟨.node L R, rest', by simp [Tree.bits], by simp only [Tree.size]; omega⟩
          · refine .inr ⟨some L :: z, ?_⟩
            rcases h with ⟨hz, m, r, rfl⟩ | ⟨hz, rfl⟩ | ⟨hz, p, hp, rfl⟩
            · exact .inl ⟨by simp; omega, m, r, by simp⟩
            · exact .inr (.inl ⟨by simp; omega, by simp⟩)
            · exact .inr (.inr ⟨by simp; omega, p, hp, by simp⟩)
        · refine .inr ⟨none :: z, ?_⟩
          rcases h with ⟨hz, m, r, rfl⟩ | ⟨hz, rfl⟩ | ⟨hz, p, hp, rfl⟩
          · exact .inl ⟨by simp; omega, m, r, by simp⟩
          · exact .inr (.inl ⟨by simp; omega, by simp⟩)
          · exact .inr (.inr ⟨by simp; omega, p, hp, by simp⟩)

/-- Every bit string begins with the bits of a tree of at most 256 leaves, or a load of it stops. -/
theorem tree_or_loadStops (bits : List Bool) :
    (∃ (T : Tree) (rest : List Bool), bits = T.bits ++ rest ∧ T.leaves ≤ 256) ∨ ∃ z n k, LoadStops bits z n k := by
  rcases tree_or_stops bits.length bits (Nat.le_refl _) 0 (by omega) with ⟨T, rest, e, h⟩ | ⟨z, h⟩
  · have := T.size_eq
    exact .inl ⟨T, rest, e, by omega⟩
  · refine .inr ⟨z, ?_⟩
    rcases h with ⟨hz, m, r, e⟩ | ⟨hz, e⟩ | ⟨hz, p, hp, e⟩
    · exact ⟨_, _, .full e (by omega)⟩
    · exact ⟨_, _, .noMarker e (by omega)⟩
    · exact ⟨_, _, .noSymbol e hp (by omega)⟩

/-- What TREE_LOAD does where its load stops. -/
theorem loadTree_stops {st : State} {z : Unfinished} {n : Nat} {k : ErrorKind} (hr : ReaderOk st .tree)
    (h : LoadStops (st.unread .tree) z n k) :
    ∃ t, loadTree st = .raised k t ∧ LoadFailed z n st t := by
  have ho := onlyLoad_loadTree st
  obtain ⟨t, e, s⟩ := loadNode_stops (fuel := Config.arenaCap + 1) (st := st.arenaReset) (by decide) rfl
    ⟨hr.mode, hr.ok⟩ h
  have e' : loadTree st = .raised k t := by unfold loadTree; rw [e]; rfl
  rw [e'] at ho
  have hc : st.arenaReset.arenaCount.val = 0 := rfl
  have hlim : (t.bs .tree).limit = (st.bs .tree).limit := s.frame.limit
  refine ⟨t, e', ho, ?_, ?_, ?_, ?_, s.holds, fun i hi => s.frame.freq i (by rw [hc]; omega) hi, s.unread, ?_,
    s.reader.mode, hlim⟩
  · rw [s.frame.rest]; rfl
  · rw [s.frame.rest]; rfl
  · rw [s.frame.rest]; rfl
  · rw [s.count, hc, Nat.zero_add]
  · have hn : n ≤ (st.unread .tree).length := by
      cases h with
      | full hu => rw [hu]; simp
      | noMarker => exact Nat.le_refl _
      | noSymbol => exact Nat.le_refl _
    have e1 := State.unread_length st .tree
    have e2 := State.unread_length t .tree
    rw [s.unread, List.length_drop, hlim] at e2
    have k1 := s.reader.pos_le
    have k2 := hr.pos_le
    rw [hlim] at k1
    change t.bsTree.pos = st.bsTree.pos + n
    change (st.unread .tree).length - n = _ - t.bsTree.pos at e2
    change t.bsTree.pos ≤ _ at k1
    change st.bsTree.pos ≤ _ at k2
    change _ = _ - st.bsTree.pos at e1
    omega

/-- Everything TREE_LOAD can do, from any state. -/
theorem loadTree_cases (st : State) :
    (∃ T t, loadTree st = .ok (t.root.zeroExtend 64) t ∧ t.treeValid = true ∧ ArenaOk t ∧ Holds t T t.root ∧
        T.leaves ≤ 256 ∧ t.heapSize.val = 0 ∧
        (ReaderOk st .tree → ReaderOk t .tree ∧ st.unread .tree = T.bits ++ t.unread .tree)) ∨
      ∃ k t, loadTree st = .raised k t ∧ (k = .truncated ∨ k = .capacityExceeded) ∧ ArenaOk t ∧
        t.treeValid = false ∧ t.root = Config.nil ∧ t.heapSize.val = 0 := by
  have ho := onlyNodes_loadNode (Config.arenaCap + 1) 0 st.arenaReset
  rcases loadNode_cases (Config.arenaCap + 1) 0 (Forest.empty (st := st.arenaReset) rfl) with
    ⟨i, T, t, e, hf, hi, hs, hr⟩ | ⟨k, t, gs, e, hk, hf⟩
  · rw [e, Result.state_ok] at ho
    unfold OnlyNodes at ho
    have hz := T.size_eq
    refine .inl ⟨T, { t with root := i, treeValid := true }, ?_, rfl, ?_,
      Holds.of_arena (st := t) (t := { t with root := i, treeValid := true }) ⟨rfl, rfl⟩ (hf.holds (i, T) (by simp)), by omega, ?_, ?_⟩
    · unfold loadTree
      rw [e]; rfl
    · have hf' := Forest.of_arena (st := t) (t := { t with root := i, treeValid := true }) ⟨rfl, rfl⟩ hf
      exact Forest.arenaOk (st := { t with root := i, treeValid := true }) (T := T) hf' hi rfl
    · show t.heapSize.val = 0
      rw [ho]; rfl
    · intro hr0
      obtain ⟨k1, k2⟩ := hr ⟨hr0.mode, hr0.ok⟩
      exact ⟨⟨k1.mode, k1.ok⟩, k2⟩
  · rw [e, Result.state_raised] at ho
    unfold OnlyNodes at ho
    refine .inr ⟨k, t, ?_, hk, hf.arenaOk_noTree ?_ ?_, ?_, ?_, ?_⟩
    · unfold loadTree; rw [e]; rfl
    all_goals (rw [ho]; rfl)

end Sys2Proof.Machine
end

