-- ==== Sys2Proof/Laws/Heap.lean ====
section
/-! SUPPORT. The priority queue: a push adds its entry, a pop takes a minimum, and both keep the heap order of R126. -/

namespace Sys2Proof.Machine

/-! ## The array -/

/-- The first `n` entries. -/
def live (n : Nat) (h : HeapArray) : List NodeIdx := (List.range n).map (heapAt h)

/-- R126 for the first `n` entries. -/
def Ordered (key : NodeIdx → Word) (n : Nat) (h : HeapArray) : Prop :=
  ∀ p, 0 < p → p < n → key (heapAt h (parentPos p)) ≤ key (heapAt h p)

theorem State.liveHeap_eq (st : State) : st.liveHeap = live st.heapSize.val st.heap := rfl

theorem heapOrdered_iff (st : State) : HeapOrdered st ↔ Ordered st.nodeKey st.heapSize.val st.heap := Iff.rfl

theorem heapAt_setIfInBounds {h : HeapArray} {p : Nat} {v : NodeIdx} (hp : p < 256) (q : Nat) :
    heapAt (h.setIfInBounds p v) q = if q = p then v else heapAt h q := by
  unfold heapAt
  by_cases e : q = p
  · subst e; simp [hp]
  · rw [Vector.getElem?_setIfInBounds_ne (Ne.symm e), if_neg e]

theorem heapAt_set {h : HeapArray} {p : Nat} {v : NodeIdx} (hp : p < 256) (q : Nat) :
    heapAt (h.set p v hp) q = if q = p then v else heapAt h q := by
  unfold heapAt
  by_cases e : q = p
  · subst e; simp
  · rw [Vector.getElem?_set_ne _ (Ne.symm e), if_neg e]

theorem heapAt_swap {h : HeapArray} {p q : Nat} (hp : p < 256) (hq : q < 256) (r : Nat) :
    heapAt (heapSwap h p q) r = if r = q then heapAt h p else if r = p then heapAt h q else heapAt h r := by
  unfold heapSwap
  rw [heapAt_setIfInBounds hq, heapAt_setIfInBounds hp]

theorem live_swap {h : HeapArray} {p q n : Nat} (hn : n ≤ 256) (hp : p < n) (hq : q < n) :
    (live n (heapSwap h p q)).Perm (live n h) := by
  have e : live n (heapSwap h p q) = ((List.range n).map (Equiv.swap p q)).map (heapAt h) := by
    unfold live
    rw [List.map_map]
    apply List.map_congr_left
    intro r _
    rw [heapAt_swap (by omega) (by omega), Function.comp_apply, Equiv.swap_apply_def]
    by_cases h1 : r = p
    · by_cases h2 : r = q
      · rw [if_pos h2, if_pos h1, ← h1, ← h2]
      · rw [if_neg h2, if_pos h1, if_pos h1]
    · by_cases h2 : r = q
      · rw [if_pos h2, if_neg h1, if_pos h2]
      · rw [if_neg h2, if_neg h1, if_neg h1, if_neg h2]
  rw [e]
  refine List.Perm.map _ ((List.perm_ext_iff_of_nodup ?_ List.nodup_range).2 fun r => ?_)
  · exact (List.nodup_map_iff (Equiv.swap p q).injective).2 List.nodup_range
  · simp only [List.mem_map, List.mem_range]
    constructor
    · rintro ⟨s, hs, rfl⟩
      rw [Equiv.swap_apply_def]
      split
      · exact hq
      · split <;> assumption
    · intro hr
      refine ⟨Equiv.swap p q r, ?_, Equiv.swap_apply_self p q r⟩
      rw [Equiv.swap_apply_def]
      split
      · exact hq
      · split <;> assumption

/-! ## Sift-up -/

theorem parentPos_lt {p : Nat} (h : 0 < p) : parentPos p < p := by unfold parentPos; omega

theorem siftUp_live {key : NodeIdx → Word} {n : Nat} (hn : n ≤ 256) (fuel p : Nat) (h : HeapArray) (hp : p < n) :
    (live n (siftUp key fuel p h)).Perm (live n h) := by
  induction fuel generalizing p h with
  | zero => exact .refl _
  | succ fuel ih =>
    rw [siftUp]
    split
    · rename_i hc
      have := parentPos_lt hc.1
      exact (ih _ _ (by omega)).trans (live_swap hn hp (by omega))
    · exact .refl _

/-- Heap order but for the entry at `p`, which may be too small. -/
structure OrderedBelow (key : NodeIdx → Word) (n p : Nat) (h : HeapArray) : Prop where
  other : ∀ q, 0 < q → q < n → q ≠ p → key (heapAt h (parentPos q)) ≤ key (heapAt h q)
  skip  : 0 < p → ∀ q, 0 < q → q < n → parentPos q = p → key (heapAt h (parentPos p)) ≤ key (heapAt h q)

theorem siftUp_ordered {key : NodeIdx → Word} {n : Nat} (hn : n ≤ 256) (fuel p : Nat) (h : HeapArray) (hp : p < n)
    (hf : p ≤ fuel) (ho : OrderedBelow key n p h) : Ordered key n (siftUp key fuel p h) := by
  induction fuel generalizing p h with
  | zero =>
    intro q h0 hq
    exact ho.other q h0 hq (by omega)
  | succ fuel ih =>
    rw [siftUp]
    split
    · rename_i hc
      obtain ⟨h0, hlt⟩ := hc
      have hpp := parentPos_lt h0
      have hat := heapAt_swap (h := h) (p := p) (q := parentPos p) (by omega) (by omega)
      refine ih _ _ (by omega) (by omega) ⟨fun q q0 qn hq => ?_, fun r0 q q0 qn hq => ?_⟩
      · have hqq := parentPos_lt q0
        have hA := hat (parentPos q)
        have hB := hat q
        rw [if_neg hq] at hB
        by_cases e : q = p
        · subst e
          rw [if_pos rfl] at hB hA
          rw [hA, hB]
          exact BitVec.le_of_lt hlt
        · rw [if_neg e] at hB
          have ho' := ho.other q q0 qn e
          by_cases e1 : parentPos q = parentPos p
          · rw [if_pos e1] at hA
            rw [hA, hB]
            rw [e1] at ho'
            exact BitVec.le_trans (BitVec.le_of_lt hlt) ho'
          · by_cases e2 : parentPos q = p
            · rw [if_neg e1, if_pos e2] at hA
              rw [hA, hB]
              exact ho.skip h0 q q0 qn e2
            · rw [if_neg e1, if_neg e2] at hA
              rw [hA, hB]
              exact ho'
      · have hr := parentPos_lt r0
        have hA := hat (parentPos (parentPos p))
        rw [if_neg (by omega), if_neg (by omega)] at hA
        have hB := hat q
        have hqq := parentPos_lt q0
        rw [if_neg (by omega)] at hB
        have ho1 := ho.other (parentPos p) r0 (by omega) (by omega)
        rw [hA, hB]
        by_cases e : q = p
        · rw [if_pos e]; exact ho1
        · rw [if_neg e]
          have ho' := ho.other q q0 qn e
          rw [hq] at ho'
          exact BitVec.le_trans ho1 ho'
    · rename_i hc
      intro q q0 qn
      by_cases e : q = p
      · subst e
        by_contra hlt
        exact hc ⟨q0, BitVec.not_le.1 hlt⟩
      · exact ho.other q q0 qn e

/-! ### The path up -/

theorem parentPos_iterate_le (j q : Nat) : parentPos^[j] q ≤ q := by
  induction j generalizing q with
  | zero => exact Nat.le_refl _
  | succ j ih => exact (ih (parentPos q)).trans (by unfold parentPos; omega)

theorem parentPos_iterate_succ_lt {j q : Nat} (h : 0 < parentPos^[j] q) : parentPos^[j + 1] q < q := by
  have h1 := parentPos_iterate_le j q
  have h2 := parentPos_lt h
  rw [Function.iterate_succ_apply']
  omega

/-- Sift-up from `p` moves its entry up past every strictly greater one, each of which moves one step down (R127). -/
theorem siftUp_path {key : NodeIdx → Word} {n : NodeIdx} (fuel p : Nat) (h : HeapArray) (hp : p < 256) (hf : p ≤ fuel)
    (hn : heapAt h p = n) :
    ∃ k, (∀ j, j < k → 0 < parentPos^[j] p ∧ key n < key (heapAt h (parentPos^[j + 1] p))) ∧
      (parentPos^[k] p = 0 ∨ key (heapAt h (parentPos^[k + 1] p)) ≤ key n) ∧
      heapAt (siftUp key fuel p h) (parentPos^[k] p) = n ∧
      (∀ j, j < k → heapAt (siftUp key fuel p h) (parentPos^[j] p) = heapAt h (parentPos^[j + 1] p)) ∧
      ∀ q, (∀ j, j ≤ k → q ≠ parentPos^[j] p) → heapAt (siftUp key fuel p h) q = heapAt h q := by
  induction fuel generalizing p h with
  | zero =>
    exact ⟨0, fun j hj => absurd hj (by omega), .inl (show p = 0 by omega), hn, fun j hj => absurd hj (by omega), fun _ _ => rfl⟩
  | succ fuel ih =>
    rw [siftUp]
    split
    · rename_i hc
      obtain ⟨h0, hlt⟩ := hc
      rw [hn] at hlt
      have hpp := parentPos_lt h0
      have hat := heapAt_swap (h := h) (p := p) (q := parentPos p) hp (by omega)
      obtain ⟨k, a1, a2, a3, a4, a5⟩ := ih (parentPos p) (heapSwap h p (parentPos p)) (by omega) (by omega)
        (by rw [hat, if_pos rfl]; exact hn)
      have old : ∀ j, 0 < parentPos^[j] (parentPos p) →
          heapAt (heapSwap h p (parentPos p)) (parentPos^[j + 1] (parentPos p)) =
            heapAt h (parentPos^[j + 1] (parentPos p)) := by
        intro j hj
        have := parentPos_iterate_succ_lt hj
        rw [hat, if_neg (by omega), if_neg (by omega)]
      refine ⟨k + 1, fun j hj => ?_, ?_, a3, fun j hj => ?_, fun q hq => ?_⟩
      · cases j with
        | zero => exact ⟨h0, hlt⟩
        | succ j =>
          obtain ⟨b1, b2⟩ := a1 j (by omega)
          rw [old j b1] at b2
          exact ⟨b1, b2⟩
      · rcases a2 with e | e
        · exact .inl e
        · by_cases e0 : parentPos^[k] (parentPos p) = 0
          · exact .inl e0
          · rw [old k (by omega)] at e
            exact .inr e
      · cases j with
        | zero =>
          show heapAt _ p = _
          rw [a5 p fun j _ => by have := parentPos_iterate_le j (parentPos p); omega, hat, if_neg (by omega), if_pos rfl]
          rfl
        | succ j =>
          exact (a4 j (by omega)).trans (old j (a1 j (by omega)).1)
      · have h1 : q ≠ p := hq 0 (by omega)
        have h2 : q ≠ parentPos p := hq 1 (by omega)
        rw [a5 q fun j hj => hq (j + 1) (by omega), hat, if_neg h2, if_neg h1]
    · rename_i hc
      refine ⟨0, fun j hj => absurd hj (by omega), ?_, hn, fun j hj => absurd hj (by omega), fun _ _ => rfl⟩
      by_cases h0 : p = 0
      · exact .inl h0
      · right
        rw [← hn]
        exact BitVec.not_lt.1 fun hlt => hc ⟨by omega, hlt⟩

/-! ## Sift-down -/

/-- Where sift-down goes next: nowhere, when no child is smaller; else to a smallest child. -/
theorem smallest_spec (key : NodeIdx → Word) (n : Nat) (h : HeapArray) (p : Nat) :
    (smallest key n h p = p ∨
      (0 < smallest key n h p ∧ smallest key n h p < n ∧ parentPos (smallest key n h p) = p ∧
        key (heapAt h (smallest key n h p)) < key (heapAt h p))) ∧
    ∀ q, 0 < q → q < n → parentPos q = p → key (heapAt h (smallest key n h p)) ≤ key (heapAt h q) := by
  have hl : parentPos (leftPos p) = p := by unfold parentPos leftPos; omega
  have hr : parentPos (rightPos p) = p := by unfold parentPos rightPos; omega
  have hq : ∀ q, 0 < q → parentPos q = p → q = leftPos p ∨ q = rightPos p := by
    intro q h0 h1; unfold parentPos at h1; unfold leftPos rightPos; omega
  have l0 : 0 < leftPos p := by unfold leftPos; omega
  have r0 : 0 < rightPos p := by unfold rightPos; omega
  have tot : ∀ {a b : Word}, ¬ a < b → b ≤ a := fun h => BitVec.not_lt.1 h
  have irr : ∀ a : Word, a ≤ a := fun a => BitVec.le_refl a
  unfold smallest
  simp only
  by_cases hL : leftPos p < n ∧ key (heapAt h (leftPos p)) < key (heapAt h p)
  · rw [if_pos hL]
    by_cases hR : rightPos p < n ∧ key (heapAt h (rightPos p)) < key (heapAt h (leftPos p))
    · rw [if_pos hR]
      refine ⟨.inr ⟨r0, hR.1, hr, BitVec.lt_trans hR.2 hL.2⟩, fun q q0 qn hqp => ?_⟩
      rcases hq q q0 hqp with rfl | rfl
      · exact BitVec.le_of_lt hR.2
      · exact irr _
    · rw [if_neg hR]
      refine ⟨.inr ⟨l0, hL.1, hl, hL.2⟩, fun q q0 qn hqp => ?_⟩
      rcases hq q q0 hqp with rfl | rfl
      · exact irr _
      · exact tot fun hc => hR ⟨qn, hc⟩
  · rw [if_neg hL]
    by_cases hR : rightPos p < n ∧ key (heapAt h (rightPos p)) < key (heapAt h p)
    · rw [if_pos hR]
      refine ⟨.inr ⟨r0, hR.1, hr, hR.2⟩, fun q q0 qn hqp => ?_⟩
      rcases hq q q0 hqp with rfl | rfl
      · have : ¬ key (heapAt h (leftPos p)) < key (heapAt h p) := fun hc => hL ⟨qn, hc⟩
        have := tot this
        have := hR.2
        rw [BitVec.le_def, BitVec.lt_def] at *
        omega
      · exact irr _
    · rw [if_neg hR]
      refine ⟨.inl rfl, fun q q0 qn hqp => ?_⟩
      rcases hq q q0 hqp with rfl | rfl
      · exact tot fun hc => hL ⟨qn, hc⟩
      · exact tot fun hc => hR ⟨qn, hc⟩

theorem siftDown_live {key : NodeIdx → Word} {n : Nat} (hn : n ≤ 256) (fuel p : Nat) (h : HeapArray) :
    (live n (siftDown key n fuel p h)).Perm (live n h) := by
  induction fuel generalizing p h with
  | zero => exact .refl _
  | succ fuel ih =>
    rw [siftDown]
    split
    · exact .refl _
    · rename_i hne
      rcases (smallest_spec key n h p).1 with e | ⟨h0, h1, h2, _⟩
      · exact absurd e hne
      · have := parentPos_lt h0
        exact (ih _ _).trans (live_swap hn (by omega) h1)

/-- Heap order but for the children of `p`, whose entry may be too large. -/
structure OrderedAbove (key : NodeIdx → Word) (n p : Nat) (h : HeapArray) : Prop where
  other : ∀ q, 0 < q → q < n → parentPos q ≠ p → key (heapAt h (parentPos q)) ≤ key (heapAt h q)
  skip  : 0 < p → ∀ q, 0 < q → q < n → parentPos q = p → key (heapAt h (parentPos p)) ≤ key (heapAt h q)

theorem siftDown_ordered {key : NodeIdx → Word} {n : Nat} (hn : n ≤ 256) (fuel p : Nat) (h : HeapArray)
    (hf : n ≤ fuel + p) (ho : OrderedAbove key n p h) : Ordered key n (siftDown key n fuel p h) := by
  induction fuel generalizing p h with
  | zero =>
    intro q h0 hq
    have := parentPos_lt h0
    exact ho.other q h0 hq (by omega)
  | succ fuel ih =>
    rw [siftDown]
    obtain ⟨hs, hmin⟩ := smallest_spec key n h p
    generalize smallest key n h p = m at hs hmin
    split
    · rename_i e
      subst e
      intro q h0 hq
      by_cases e : parentPos q = m
      · rw [e]; exact hmin q h0 hq e
      · exact ho.other q h0 hq e
    · rename_i hne
      rcases hs with e | ⟨m0, mn, mp, mlt⟩
      · exact absurd e hne
      have hpm : p < m := by have := parentPos_lt m0; omega
      have hat := heapAt_swap (h := h) (p := p) (q := m) (by omega) (by omega)
      refine ih _ _ (by omega) ⟨fun q q0 qn hq => ?_, fun _ q q0 qn hq => ?_⟩
      · have hqq := parentPos_lt q0
        have hA := hat (parentPos q)
        have hB := hat q
        rw [if_neg hq] at hA
        by_cases e : parentPos q = p
        · rw [if_pos e] at hA
          rw [hA, hB]
          by_cases e1 : q = m
          · rw [if_pos e1]; exact BitVec.le_of_lt mlt
          · rw [if_neg e1, if_neg (by omega)]; exact hmin q q0 qn e
        · rw [if_neg e] at hA
          have hqm : q ≠ m := by rintro rfl; exact e mp
          rw [if_neg hqm] at hB
          rw [hA, hB]
          by_cases e2 : q = p
          · rw [if_pos e2, e2]
            exact ho.skip (by omega) m m0 mn mp
          · rw [if_neg e2]; exact ho.other q q0 qn e
      · have hqq := parentPos_lt q0
        have hA := hat (parentPos m)
        rw [mp, if_neg (by omega), if_pos rfl] at hA
        have hB := hat q
        rw [if_neg (by omega), if_neg (by omega)] at hB
        rw [mp, hA, hB, ← hq]
        exact ho.other q q0 qn (by omega)

/-! ### The path down -/

theorem lt_lighterChild (key : NodeIdx → Word) (n : Nat) (h : HeapArray) (p : Nat) : p < lighterChild key n h p := by
  unfold lighterChild leftPos rightPos
  split <;> omega

theorem le_lighterChild_iterate (key : NodeIdx → Word) (n : Nat) (h : HeapArray) (j p : Nat) :
    p ≤ (lighterChild key n h)^[j] p := by
  induction j generalizing p with
  | zero => exact Nat.le_refl _
  | succ j ih => exact (Nat.le_of_lt (lt_lighterChild ..)).trans (ih _)

/-- Sift-down moves to the lighter child, if that is strictly lighter than the entry (R128). -/
theorem smallest_eq (key : NodeIdx → Word) (n : Nat) (h : HeapArray) (p : Nat) :
    smallest key n h p =
      if lighterChild key n h p < n ∧ key (heapAt h (lighterChild key n h p)) < key (heapAt h p)
      then lighterChild key n h p else p := by
  have hlr : leftPos p < rightPos p := by unfold leftPos rightPos; omega
  unfold smallest lighterChild
  simp only [BitVec.lt_def]
  generalize leftPos p = l at hlr ⊢
  generalize rightPos p = r at hlr ⊢
  by_cases hL : l < n ∧ (key (heapAt h l)).toNat < (key (heapAt h p)).toNat
  · simp only [if_pos hL]
    by_cases hR : r < n ∧ (key (heapAt h r)).toNat < (key (heapAt h l)).toNat
    · simp only [if_pos hR]
      rw [if_pos ⟨hR.1, by omega⟩]
    · simp only [if_neg hR]
      rw [if_pos hL]
  · simp only [if_neg hL]
    by_cases hR : r < n ∧ (key (heapAt h r)).toNat < (key (heapAt h l)).toNat
    · simp only [if_pos hR]
    · simp only [if_neg hR]
      rw [if_neg hL, if_neg (by omega)]

/-- Which children are lighter depends on the entries above the position alone. -/
theorem lighterChild_congr {key : NodeIdx → Word} {n : Nat} {h h' : HeapArray} {p : Nat}
    (e : ∀ q, p < q → heapAt h' q = heapAt h q) : lighterChild key n h' p = lighterChild key n h p := by
  unfold lighterChild
  rw [e _ (by unfold rightPos; omega), e _ (by unfold leftPos; omega)]

theorem lighterChild_iterate_congr {key : NodeIdx → Word} {n : Nat} {h h' : HeapArray} {p : Nat}
    (e : ∀ q, p < q → heapAt h' q = heapAt h q) (j : Nat) :
    (lighterChild key n h')^[j] p = (lighterChild key n h)^[j] p := by
  induction j with
  | zero => rfl
  | succ j ih =>
    have := le_lighterChild_iterate key n h j p
    rw [Function.iterate_succ_apply', Function.iterate_succ_apply', ih, lighterChild_congr fun q hq => e q (by omega)]

/-- Sift-down from `p` moves its entry down past the lighter child of each place it comes to, as long as that is strictly
lighter; each of these moves one step up (R128). -/
theorem siftDown_path {key : NodeIdx → Word} {size : Nat} {n : NodeIdx} (hs : size ≤ 256) (fuel p : Nat) (h : HeapArray)
    (hf : size ≤ fuel + p) (hn : heapAt h p = n) :
    ∃ k, (∀ j, j < k → (lighterChild key size h)^[j + 1] p < size ∧
        key (heapAt h ((lighterChild key size h)^[j + 1] p)) < key n) ∧
      (size ≤ (lighterChild key size h)^[k + 1] p ∨ key n ≤ key (heapAt h ((lighterChild key size h)^[k + 1] p))) ∧
      heapAt (siftDown key size fuel p h) ((lighterChild key size h)^[k] p) = n ∧
      (∀ j, j < k → heapAt (siftDown key size fuel p h) ((lighterChild key size h)^[j] p) =
        heapAt h ((lighterChild key size h)^[j + 1] p)) ∧
      ∀ q, (∀ j, j ≤ k → q ≠ (lighterChild key size h)^[j] p) → heapAt (siftDown key size fuel p h) q = heapAt h q := by
  induction fuel generalizing p h with
  | zero =>
    have hl := lt_lighterChild key size h p
    exact ⟨0, fun j hj => absurd hj (by omega), .inl (show size ≤ lighterChild key size h p by omega), hn, fun j hj => absurd hj (by omega), fun _ _ => rfl⟩
  | succ fuel ih =>
    have hl := lt_lighterChild key size h p
    rw [siftDown]
    simp only [smallest_eq, hn]
    generalize hm : lighterChild key size h p = m at hl
    by_cases hc : m < size ∧ key (heapAt h m) < key n
    · rw [if_pos hc, if_neg (by omega)]
      have hat := heapAt_swap (h := h) (p := p) (q := m) (by omega) (by omega)
      have old : ∀ q, m < q → heapAt (heapSwap h p m) q = heapAt h q := by
        intro q hq
        rw [hat, if_neg (by omega), if_neg (by omega)]
      have path : ∀ j, (lighterChild key size (heapSwap h p m))^[j] m = (lighterChild key size h)^[j + 1] p := by
        intro j
        rw [lighterChild_iterate_congr old, Function.iterate_succ_apply, hm]
      have later : ∀ j, m < (lighterChild key size h)^[j + 1 + 1] p := by
        intro j
        rw [Function.iterate_succ_apply', Function.iterate_succ_apply, hm]
        exact Nat.lt_of_le_of_lt (le_lighterChild_iterate key size h j m) (lt_lighterChild ..)
      have up : ∀ j, m ≤ (lighterChild key size h)^[j + 1] p := by
        intro j
        rw [Function.iterate_succ_apply, hm]
        exact le_lighterChild_iterate key size h j m
      obtain ⟨k, a1, a2, a3, a4, a5⟩ := ih m (heapSwap h p m) (by omega) (by rw [hat, if_pos rfl]; exact hn)
      simp only [path] at a1 a2 a3 a4 a5
      refine ⟨k + 1, fun j hj => ?_, ?_, a3, fun j hj => ?_, fun q hq => ?_⟩
      · cases j with
        | zero => rw [Function.iterate_one, hm]; exact hc
        | succ j =>
          have := a1 j (by omega)
          rwa [old _ (later j)] at this
      · rwa [old _ (later k)] at a2
      · cases j with
        | zero =>
          rw [a5 _ fun j _ => by have := up j; simp only [Function.iterate_zero, id]; omega]
          rw [Function.iterate_zero, id, hat, if_neg (by omega), if_pos rfl, Function.iterate_succ_apply, hm]
          rfl
        | succ j => exact (a4 j (by omega)).trans (old _ (later j))
      · have h1 : q ≠ p := hq 0 (by omega)
        have h2 : q ≠ m := by rw [← hm]; exact hq 1 (by omega)
        rw [a5 q fun j hj => hq (j + 1) (by omega), hat, if_neg h2, if_neg h1]
    · rw [if_neg hc, if_pos rfl]
      refine ⟨0, fun j hj => absurd hj (by omega), ?_, hn, fun j hj => absurd hj (by omega), fun _ _ => rfl⟩
      rw [Function.iterate_one, hm]
      by_cases hlt : m < size
      · exact .inr (BitVec.not_lt.1 fun h => hc ⟨hlt, h⟩)
      · exact .inl (by omega)

/-! ## Push and pop -/

theorem live_succ (n : Nat) (h : HeapArray) : live (n + 1) h = live n h ++ [heapAt h n] := by
  simp [live, List.range_succ]

theorem live_congr {n : Nat} {h h' : HeapArray} (e : ∀ p, p < n → heapAt h' p = heapAt h p) : live n h' = live n h :=
  List.map_congr_left fun p hp => e p (List.mem_range.1 hp)

theorem mem_live {n : Nat} {h : HeapArray} {i : NodeIdx} : i ∈ live n h ↔ ∃ p, p < n ∧ heapAt h p = i := by
  simp [live]

/-- The heap's first entry is a minimum. -/
theorem Ordered.min {key : NodeIdx → Word} {n : Nat} {h : HeapArray} (ho : Ordered key n h) {i : NodeIdx}
    (hi : i ∈ live n h) : key (heapAt h 0) ≤ key i := by
  have all : ∀ p, p < n → key (heapAt h 0) ≤ key (heapAt h p) := by
    intro p
    induction p using Nat.strong_induction_on with
    | _ p ih =>
      intro hp
      by_cases h0 : p = 0
      · rw [h0]; exact BitVec.le_refl _
      · have := parentPos_lt (p := p) (by omega)
        exact BitVec.le_trans (ih (parentPos p) this (by omega)) (ho p (by omega) hp)
  obtain ⟨p, hp, rfl⟩ := mem_live.1 hi
  exact all p hp

/-- Only the heap. -/
def OnlyHeap (st t : State) : Prop := t = { st with heap := t.heap, heapSize := t.heapSize }

/-- A push's sift-up, told of the entries before the push. -/
theorem siftUp_rises {key : NodeIdx → Word} {n : NodeIdx} {fuel size : Nat} {h : HeapArray} (hf : size ≤ fuel)
    (hs : size < 256) : ∃ k, Rises key size n k h (siftUp key fuel size (h.set size n hs)) := by
  obtain ⟨k, a1, a2, a3, a4, a5⟩ :=
    siftUp_path (key := key) fuel size (h.set size n hs) hs hf (by rw [heapAt_set hs, if_pos rfl])
  have old : ∀ j, 0 < parentPos^[j] size →
      heapAt (h.set size n hs) (parentPos^[j + 1] size) = heapAt h (parentPos^[j + 1] size) := by
    intro j hj
    have := parentPos_iterate_succ_lt hj
    rw [heapAt_set hs, if_neg (by omega)]
  refine ⟨k, fun j hj => ?_, ?_, a3, fun j hj => (a4 j hj).trans (old j (a1 j hj).1), fun q hq hne => ?_⟩
  · have := a1 j hj
    rwa [old j this.1] at this
  · by_cases h0 : parentPos^[k] size = 0
    · exact .inl h0
    · rwa [old k (by omega)] at a2
  · rw [a5 q hne, heapAt_set hs, if_neg (by omega)]

/-- A pop's sift-down, told of the entries before the pop. -/
theorem siftDown_falls {key : NodeIdx → Word} {n : NodeIdx} {size : Nat} {h : HeapArray} (hs : size ≤ 256) :
    ∃ k, Falls key size n k h (siftDown key size size 0 (h.setIfInBounds 0 n)) := by
  have hat := heapAt_setIfInBounds (h := h) (p := 0) (v := n) (by omega)
  have old : ∀ q, 0 < q → heapAt (h.setIfInBounds 0 n) q = heapAt h q := fun q hq => by rw [hat, if_neg (by omega)]
  have path := lighterChild_iterate_congr (key := key) (n := size) old
  have pos : ∀ j, 0 < (lighterChild key size h)^[j + 1] 0 := by
    intro j
    rw [Function.iterate_succ_apply']
    exact Nat.lt_of_le_of_lt (Nat.zero_le _) (lt_lighterChild ..)
  obtain ⟨k, a1, a2, a3, a4, a5⟩ :=
    siftDown_path (key := key) hs size 0 (h.setIfInBounds 0 n) (by omega) (by rw [hat, if_pos rfl])
  simp only [path, old _ (pos _)] at a1 a2 a3 a4 a5
  refine ⟨k, a1, a2, a3, a4, fun q _ hne => ?_⟩
  rw [a5 q hne]
  exact old q (Nat.pos_of_ne_zero (hne 0 (Nat.zero_le _)))

/-- `heapPush` with room (R127). -/
theorem heapPush_room (n : NodeIdx) {st : State} (h : st.heapSize.val < 256) :
    ∃ t, heapPush n st = .ok () t ∧ t.heapSize.val = st.heapSize.val + 1 ∧ OnlyHeap st t ∧
      t.liveHeap.Perm (n :: st.liveHeap) ∧ (HeapOrdered st → HeapOrdered t) ∧
      ∃ k, Rises st.nodeKey st.heapSize.val n k st.heap t.heap := by
  have hcap : st.heapSize.val < Config.heapCap := h
  unfold heapPush
  rw [dif_pos hcap]
  refine ⟨_, rfl, rfl, rfl, ?_, ?_, siftUp_rises (Nat.le_refl _) hcap⟩
  · show (live (st.heapSize.val + 1) (siftUp st.nodeKey st.heapSize.val st.heapSize.val
      (st.heap.set st.heapSize.val n hcap))).Perm (n :: live st.heapSize.val st.heap)
    refine (siftUp_live (by omega) _ _ _ (by omega)).trans ?_
    rw [live_succ, heapAt_set hcap, if_pos rfl,
      live_congr (h := st.heap) fun p hp => by rw [heapAt_set hcap, if_neg (by omega)]]
    exact List.perm_append_singleton _ _
  · intro ho
    show Ordered st.nodeKey (st.heapSize.val + 1) (siftUp st.nodeKey st.heapSize.val st.heapSize.val
      (st.heap.set st.heapSize.val n hcap))
    refine siftUp_ordered (by omega) _ _ _ (by omega) (Nat.le_refl _) ⟨fun q q0 qn hq => ?_, fun _ q q0 qn hq => ?_⟩
    · have := parentPos_lt q0
      rw [heapAt_set hcap, heapAt_set hcap, if_neg (by omega), if_neg (by omega)]
      exact ho q q0 (by omega)
    · have := parentPos_lt q0
      omega

theorem heapPush_full (n : NodeIdx) {st : State} (h : st.heapSize.val = 256) :
    heapPush n st = .raised .capacityExceeded st := by
  unfold heapPush
  rw [dif_neg (by simp only [Config.heapCap]; omega)]

/-- `heapPop` on a heap that is not empty (R128). -/
theorem heapPop_some {st : State} (h : 0 < st.heapSize.val) :
    (heapPop st).1 = heapAt st.heap 0 ∧ (heapPop st).2.heapSize.val = st.heapSize.val - 1 ∧
      OnlyHeap st (heapPop st).2 ∧ ((heapPop st).1 :: (heapPop st).2.liveHeap).Perm st.liveHeap ∧
      (HeapOrdered st → HeapOrdered (heapPop st).2 ∧
        ∀ i ∈ st.liveHeap, st.nodeKey (heapPop st).1 ≤ st.nodeKey i) ∧
      (0 < st.heapSize.val - 1 → ∃ k, Falls st.nodeKey (st.heapSize.val - 1)
        (heapAt st.heap (st.heapSize.val - 1)) k st.heap (heapPop st).2.heap) := by
  have hsz : st.heapSize.val ≤ 256 := by have := st.heapSize.isLt; omega
  have h1 : live st.heapSize.val st.heap = live (st.heapSize.val - 1) st.heap ++ [heapAt st.heap (st.heapSize.val - 1)] := by
    rw [← live_succ]; congr 1; omega
  have hmoved := heapAt_setIfInBounds (h := st.heap) (p := 0) (v := heapAt st.heap (st.heapSize.val - 1)) (by omega)
  unfold heapPop
  rw [if_neg (by omega)]
  refine ⟨rfl, rfl, rfl, ?_, fun ho => ⟨?_, fun i hi => Ordered.min ho hi⟩, fun hs => ?_⟩
  · rw [State.liveHeap_eq, State.liveHeap_eq]
    by_cases hs : 0 < st.heapSize.val - 1
    · simp only [if_pos hs]
      refine ((siftDown_live (by omega) _ _ _).cons _).trans ?_
      rw [h1]
      obtain ⟨m, hm⟩ : ∃ m, st.heapSize.val - 1 = m + 1 := ⟨st.heapSize.val - 2, by omega⟩
      rw [hm] at hmoved ⊢
      have e : ∀ g : HeapArray, live (m + 1) g = heapAt g 0 :: (List.range m).map fun k => heapAt g (k + 1) := by
        intro g; simp [live, List.range_succ_eq_map, List.map_map, Function.comp_def]
      rw [e, e, hmoved, if_pos rfl, List.cons_append]
      refine List.Perm.cons _ ?_
      rw [List.map_congr_left (g := fun k => heapAt st.heap (k + 1)) fun k _ => by rw [hmoved, if_neg (by omega)]]
      exact (List.perm_append_singleton _ _).symm
    · simp only [if_neg hs]
      rw [h1]
      have e : st.heapSize.val - 1 = 0 := by omega
      rw [e]
      exact .refl _
  · rw [heapOrdered_iff] at *
    by_cases hs : 0 < st.heapSize.val - 1
    · simp only [if_pos hs]
      refine siftDown_ordered (by omega) _ _ _ (by omega) ⟨fun q q0 qn hq => ?_, fun h0 => absurd h0 (by omega)⟩
      rw [hmoved, hmoved, if_neg hq, if_neg (by omega)]
      exact ho q q0 (by omega)
    · intro q q0 qn
      simp only at qn
      omega
  · simp only [if_pos hs]
    exact siftDown_falls (by omega)

end Sys2Proof.Machine
end

