-- ==== Sys2Proof/Laws/Optimal.lean ====
section
/-! SUPPORT. Merging the two least weights first is optimal (R147), said of the list of a tree's leaves, each as its weight
and its depth. -/

namespace Sys2Proof.Machine

/-- The leaves of one tree, as weight and depth. -/
abbrev Leaves := List (Nat × Nat)

/-- The leaves of a subtree, one level further down. -/
def deeper (l : Leaves) : Leaves := l.map fun a => (a.1, a.2 + 1)

/-- Some full binary tree has these leaves. -/
inductive Realised : Leaves → Prop where
  | leaf (w : Nat) : Realised [(w, 0)]
  | node {l r : Leaves} : Realised l → Realised r → Realised (deeper l ++ deeper r)
  | perm {l r : Leaves} : Realised l → l.Perm r → Realised r

/-- The sum of weight times depth. -/
def leavesCost (l : Leaves) : Nat := (l.map fun a => a.1 * a.2).sum

theorem leavesCost_perm {l r : Leaves} (h : l.Perm r) : leavesCost l = leavesCost r := (h.map _).sum_eq

@[simp] theorem leavesCost_cons (a : Nat × Nat) (l : Leaves) : leavesCost (a :: l) = a.1 * a.2 + leavesCost l := by
  simp [leavesCost]

theorem Realised.ne_nil {l : Leaves} (h : Realised l) : l ≠ [] := by
  induction h with
  | leaf w => simp
  | node _ _ ihl _ => simp [deeper, ihl]
  | perm _ hp ih => intro e; subst e; exact ih hp.eq_nil

/-- The leaves of a tree of the model. -/
theorem Tree.realised (t : Tree) (f : Symbol → Word) : Realised (t.paths.map fun p => ((f p.1).toNat, p.2.length)) := by
  induction t with
  | leaf y => exact .leaf _
  | node l r ihl ihr =>
    have h := Realised.node ihl ihr
    simp only [deeper, List.map_map] at h
    simpa [Tree.paths, Function.comp_def] using h

theorem Tree.leavesCost_eq (t : Tree) (f : Symbol → Word) :
    leavesCost (t.paths.map fun p => ((f p.1).toNat, p.2.length)) = t.cost f := by
  unfold leavesCost Tree.cost
  rw [List.map_map]
  rfl

/-- A leaf may carry any weight. -/
theorem Realised.reweigh {l : Leaves} (h : Realised l) {x e : Nat} {rest : Leaves} (hp : l.Perm ((x, e) :: rest)) (z : Nat) :
    Realised ((z, e) :: rest) := by
  induction h generalizing x e rest with
  | leaf w =>
    have := hp.symm.eq_singleton
    injection this with h1 h2
    injection h1 with h1 h3
    subst h2 h3
    exact .leaf z
  | @node l r hl hr ihl ihr =>
    have hm : (x, e) ∈ deeper l ++ deeper r := hp.symm.subset (List.mem_cons_self ..)
    have half : ∀ {a b : Leaves}, Realised b →
        (∀ {x e : Nat} {rest : Leaves}, a.Perm ((x, e) :: rest) → Realised ((z, e) :: rest)) →
        (deeper a ++ deeper b).Perm ((x, e) :: rest) → (x, e) ∈ deeper a → Realised ((z, e) :: rest) := by
      intro a b hb ih hp hm
      obtain ⟨⟨y, d⟩, hy, he⟩ := List.mem_map.1 hm
      injection he with h1 h2
      subst h1 h2
      have ha := List.perm_cons_erase hy
      have := Realised.node (ih ha) hb
      refine this.perm ?_
      have ha' : (deeper a).Perm ((y, d + 1) :: deeper (a.erase (y, d))) := ha.map _
      have := (ha'.append_right (deeper b)).symm.trans hp
      rw [List.cons_append] at this
      exact (List.Perm.cons_inv this).cons _
    rcases List.mem_append.1 hm with hm | hm
    · exact half hr ihl hp hm
    · exact half hl ihr (List.perm_append_comm.trans hp) hm
  | perm _ hq ih => exact ih (hq.trans hp)

/-- A tree of two leaves or more has two leaves of greatest depth that are siblings; joined, they are one leaf. -/
theorem Realised.deepest {l : Leaves} (h : Realised l) :
    (∃ w, l = [(w, 0)]) ∨ ∃ p q d rest, l.Perm ((p, d + 1) :: (q, d + 1) :: rest) ∧ (∀ a ∈ l, a.2 ≤ d + 1) ∧
      ∀ s, Realised ((s, d) :: rest) := by
  induction h with
  | leaf w => exact .inl ⟨w, rfl⟩
  | @node l r hl hr ihl ihr =>
    right
    -- the side that holds the deepest pair
    have side : ∀ {a b : Leaves}, Realised b → ∀ {p q d rest},
        a.Perm ((p, d + 1) :: (q, d + 1) :: rest) → (∀ s, Realised ((s, d) :: rest)) →
        (deeper a ++ deeper b).Perm ((p, d + 1 + 1) :: (q, d + 1 + 1) :: (deeper rest ++ deeper b)) ∧
          ∀ s, Realised ((s, d + 1) :: (deeper rest ++ deeper b)) := by
      intro a b hb p q d rest hp hs
      exact ⟨(hp.map _).append_right _, fun s => Realised.node (hs s) hb⟩
    have low : ∀ {a : Leaves} {k : Nat}, (∀ x ∈ a, x.2 ≤ k) → ∀ x ∈ deeper a, x.2 ≤ k + 1 := by
      intro a k h x hx
      obtain ⟨y, hy, rfl⟩ := List.mem_map.1 hx
      exact Nat.succ_le_succ (h y hy)
    have both : ∀ {a b : Leaves} {k : Nat}, (∀ x ∈ a, x.2 ≤ k) → (∀ x ∈ b, x.2 ≤ k) →
        ∀ x ∈ deeper a ++ deeper b, x.2 ≤ k + 1 := by
      intro a b k ha hb x hx
      rcases List.mem_append.1 hx with h | h
      · exact low ha x h
      · exact low hb x h
    rcases ihl with ⟨w, rfl⟩ | ⟨p, q, d, rest, hp, hd, hs⟩
    · rcases ihr with ⟨v, rfl⟩ | ⟨p', q', d', rest', hp', hd', hs'⟩
      · exact ⟨w, v, 0, [], .refl _, by simp [deeper], fun s => .leaf s⟩
      · obtain ⟨h1, h2⟩ := side hl hp' hs'
        exact ⟨p', q', d' + 1, _, List.perm_append_comm.trans h1, both (by simp) hd', h2⟩
    · rcases ihr with ⟨v, rfl⟩ | ⟨p', q', d', rest', hp', hd', hs'⟩
      · obtain ⟨h1, h2⟩ := side hr hp hs
        exact ⟨p, q, d + 1, _, h1, both hd (by simp), h2⟩
      · rcases Nat.le_total d d' with hle | hle
        · obtain ⟨h1, h2⟩ := side hl hp' hs'
          exact ⟨p', q', d' + 1, _, List.perm_append_comm.trans h1,
            both (fun x hx => Nat.le_trans (hd x hx) (by omega)) hd', h2⟩
        · obtain ⟨h1, h2⟩ := side hr hp hs
          exact ⟨p, q, d + 1, _, h1, both hd (fun x hx => Nat.le_trans (hd' x hx) (by omega)), h2⟩
  | perm _ hq ih =>
    rcases ih with ⟨w, rfl⟩ | ⟨p, q, d, rest, hp, hd, hs⟩
    · exact .inl ⟨w, hq.symm.eq_singleton⟩
    · exact .inr ⟨p, q, d, rest, hq.symm.trans hp, fun a ha => hd a (hq.mem_iff.2 ha), hs⟩

/-- Exchange: moving the lighter weight down does not cost more. -/
theorem exchange {x p e d : Nat} (hx : x ≤ p) (he : e ≤ d) : x * d + p * e ≤ p * d + x * e := by
  obtain ⟨k, rfl⟩ := Nat.exists_eq_add_of_le hx
  obtain ⟨j, rfl⟩ := Nat.exists_eq_add_of_le he
  nlinarith [Nat.zero_le (k * j)]

theorem exists_leaf {l : Leaves} {x : Nat} (h : x ∈ l.map Prod.fst) : ∃ e rest, l.Perm ((x, e) :: rest) := by
  obtain ⟨a, ha, rfl⟩ := List.mem_map.1 h
  exact ⟨a.2, l.erase a, List.perm_cons_erase ha⟩

/-- Joining the two least weights loses nothing: for every tree there is one, no dearer by more than the joined weights,
over the weights with the two least joined. -/
theorem Realised.join_least {l : Leaves} (h : Realised l) {x y : Nat} {ws : List Nat}
    (hw : (l.map Prod.fst).Perm (x :: y :: ws)) (hxy : x ≤ y) (hy : ∀ z ∈ ws, y ≤ z) :
    ∃ l', Realised l' ∧ (l'.map Prod.fst).Perm ((x + y) :: ws) ∧ leavesCost l' + (x + y) ≤ leavesCost l := by
  rcases h.deepest with ⟨w, rfl⟩ | ⟨p, q, d, rest, hp, hd, hs⟩
  · have := hw.length_eq
    simp at this
  have hrest : ∀ a ∈ rest, a.2 ≤ d + 1 := fun a ha => hd a (hp.symm.subset (by simp [ha]))
  have hpq : (p :: q :: rest.map Prod.fst).Perm (x :: y :: ws) := by
    have := (hp.map Prod.fst).symm.trans hw
    simpa using this
  rw [leavesCost_perm hp]
  simp only [leavesCost_cons]
  -- one of the pair is `x`
  have one : ∀ {q : Nat}, (q :: rest.map Prod.fst).Perm (y :: ws) →
      ∃ l', Realised l' ∧ (l'.map Prod.fst).Perm ((x + y) :: ws) ∧
        leavesCost l' + (x + y) ≤ x * (d + 1) + (q * (d + 1) + leavesCost rest) := by
    intro q h
    rcases List.mem_cons.1 (h.symm.subset (List.mem_cons_self ..)) with rfl | hm
    · refine ⟨_, hs (x + y), by simpa using (List.Perm.cons_inv h), ?_⟩
      rw [leavesCost_cons]
      nlinarith
    · obtain ⟨e, rest', hr⟩ := exists_leaf hm
      have he : e ≤ d + 1 := hrest (y, e) (hr.symm.subset (List.mem_cons_self ..))
      have h' : (q :: rest'.map Prod.fst).Perm ws := by
        have := ((hr.map Prod.fst).cons q).symm.trans h
        exact List.Perm.cons_inv ((List.Perm.swap ..).trans this)
      have hq : y ≤ q := hy q (h'.subset (List.mem_cons_self ..))
      refine ⟨_, (hs (x + y)).reweigh ((hr.cons _).trans (List.Perm.swap ..)) q, ?_, ?_⟩
      · simpa using (List.Perm.swap ..).trans (h'.cons (x + y))
      · rw [leavesCost_perm hr]
        simp only [leavesCost_cons]
        have := exchange hq he
        nlinarith
  rcases List.mem_cons.1 (hpq.symm.subset (List.mem_cons_self ..)) with rfl | hm
  · exact one (List.Perm.cons_inv hpq)
  rcases List.mem_cons.1 hm with rfl | hm
  · obtain ⟨l', h1, h2, h3⟩ := one (List.Perm.cons_inv ((List.Perm.swap ..).trans hpq))
    exact ⟨l', h1, h2, by omega⟩
  -- `x` is elsewhere
  obtain ⟨e, rest₁, hr⟩ := exists_leaf hm
  have he : e ≤ d + 1 := hrest (x, e) (hr.symm.subset (List.mem_cons_self ..))
  have h₁ : (p :: q :: rest₁.map Prod.fst).Perm (y :: ws) := by
    have := (((hr.map Prod.fst).cons q).cons p).symm.trans hpq
    refine List.Perm.cons_inv (a := x) (.trans ?_ this)
    exact (List.Perm.swap ..).trans ((List.Perm.swap ..).cons p)
  have two : ∀ {q : Nat}, (q :: rest₁.map Prod.fst).Perm ws →
      ∃ l', Realised l' ∧ (l'.map Prod.fst).Perm ((x + y) :: ws) ∧
        leavesCost l' + (x + y) ≤ y * (d + 1) + (q * (d + 1) + (x * e + leavesCost rest₁)) := by
    intro q h
    have hq : x ≤ q := Nat.le_trans hxy (hy q (h.subset (List.mem_cons_self ..)))
    refine ⟨_, (hs (x + y)).reweigh ((hr.cons _).trans (List.Perm.swap ..)) q, ?_, ?_⟩
    · simpa using (List.Perm.swap ..).trans (h.cons (x + y))
    · simp only [leavesCost_cons]
      have := exchange hq he
      nlinarith
  rw [leavesCost_perm hr]
  simp only [leavesCost_cons]
  rcases List.mem_cons.1 (h₁.symm.subset (List.mem_cons_self ..)) with rfl | hm
  · exact two (List.Perm.cons_inv h₁)
  rcases List.mem_cons.1 hm with rfl | hm
  · obtain ⟨l', k1, k2, k3⟩ := two (List.Perm.cons_inv ((List.Perm.swap ..).trans h₁))
    exact ⟨l', k1, k2, by omega⟩
  -- and so is `y`
  obtain ⟨g, rest₂, hr₂⟩ := exists_leaf hm
  have hg : g ≤ d + 1 := hrest (y, g) (hr.symm.subset (List.mem_cons_of_mem _ (hr₂.symm.subset (List.mem_cons_self ..))))
  have h₂ : (p :: q :: rest₂.map Prod.fst).Perm ws := by
    have := (((hr₂.map Prod.fst).cons q).cons p).symm.trans h₁
    refine List.Perm.cons_inv (a := y) (.trans ?_ this)
    exact (List.Perm.swap ..).trans ((List.Perm.swap ..).cons p)
  have hp' : x ≤ p := Nat.le_trans hxy (hy p (h₂.subset (by simp)))
  have hq' : y ≤ q := hy q (h₂.subset (by simp))
  have r1 := (hs (x + y)).reweigh ((hr.cons _).trans (List.Perm.swap ..)) p
  have r2 := r1.reweigh (x := y) (e := g) (rest := (p, e) :: (x + y, d) :: rest₂)
    ((((hr₂.cons _).trans (List.Perm.swap ..)).cons _).trans (List.Perm.swap ..)) q
  refine ⟨_, r2, ?_, ?_⟩
  · have : (q :: p :: (x + y) :: rest₂.map Prod.fst).Perm ((x + y) :: p :: q :: rest₂.map Prod.fst) :=
      (List.Perm.swap ..).trans (((List.Perm.swap ..).cons p).trans (List.Perm.swap ..))
    simpa using this.trans (h₂.cons (x + y))
  · rw [leavesCost_perm hr₂]
    simp only [leavesCost_cons]
    have := exchange hp' he
    have := exchange hq' hg
    nlinarith

end Sys2Proof.Machine
end

