-- ==== Sys2Proof/Laws/Build.lean ====
section
/-! SUPPORT. What BUILD makes: the leaves in symbol order, then one merge after another, until one tree holds them all
(R143 to R147). -/

namespace Sys2Proof.Machine

/-! ## Trees with weights -/

/-- The symbols on the leaves, left to right. -/
def Tree.symbols : Tree → List Symbol
  | .leaf y   => [y]
  | .node l r => l.symbols ++ r.symbols

/-- The sum of the leaves' counts. -/
def Tree.weight (f : Symbol → Word) : Tree → Nat
  | .leaf y   => (f y).toNat
  | .node l r => l.weight f + r.weight f

/-- The larger weight of the two subtrees. -/
def Tree.top (f : Symbol → Word) : Tree → Nat
  | .leaf _   => 0
  | .node l r => max (l.weight f) (r.weight f)

/-- What the order of merging leaves true of a tree: no node is lighter than a child of its sibling. -/
def Tree.Grown (f : Symbol → Word) : Tree → Prop
  | .leaf y   => 1 ≤ (f y).toNat
  | .node l r => l.Grown f ∧ r.Grown f ∧ l.top f ≤ r.weight f ∧ r.top f ≤ l.weight f

theorem Tree.symbols_eq (t : Tree) : t.symbols = t.paths.map Prod.fst := by
  induction t with
  | leaf y => rfl
  | node l r ihl ihr => simp [Tree.symbols, Tree.paths, ihl, ihr, Function.comp_def]

theorem Tree.symbols_length (t : Tree) : t.symbols.length = t.leaves := by
  induction t with
  | leaf y => rfl
  | node l r ihl ihr => simp [Tree.symbols, Tree.leaves, ihl, ihr]

theorem Tree.weight_eq (f : Symbol → Word) (t : Tree) : t.weight f = (t.symbols.map fun y => (f y).toNat).sum := by
  induction t with
  | leaf y => simp [Tree.weight, Tree.symbols]
  | node l r ihl ihr => simp [Tree.weight, Tree.symbols, ihl, ihr]

theorem Tree.top_le_weight (f : Symbol → Word) (t : Tree) : t.top f ≤ t.weight f := by
  cases t with
  | leaf y => exact Nat.zero_le _
  | node l r => simp only [Tree.top, Tree.weight]; omega

/-- The deepest leaf of a grown tree costs Fibonacci weight (R198). -/
theorem Tree.Grown.fib_le {f : Symbol → Word} {t : Tree} (h : t.Grown f) :
    Nat.fib (t.depth + 2) ≤ t.weight f ∧ (1 ≤ t.depth → Nat.fib (t.depth + 1) ≤ t.top f) := by
  induction t with
  | leaf y => exact ⟨h, fun h0 => by simp [Tree.depth] at h0⟩
  | node l r ihl ihr =>
    obtain ⟨hl, hr, h1, h2⟩ := h
    obtain ⟨l1, l2⟩ := ihl hl
    obtain ⟨r1, r2⟩ := ihr hr
    have sib : ∀ {a b : Tree}, a.depth ≥ b.depth → Nat.fib (a.depth + 2) ≤ a.weight f →
        (1 ≤ a.depth → Nat.fib (a.depth + 1) ≤ a.top f) → a.top f ≤ b.weight f →
        Nat.fib (b.depth + 2) ≤ b.weight f → Nat.fib (a.depth + 1) ≤ b.weight f := by
      intro a b _ _ h3 h4 h5
      by_cases h0 : 1 ≤ a.depth
      · exact Nat.le_trans (h3 h0) h4
      · have e : a.depth = 0 := by omega
        rw [e]
        have : 0 < Nat.fib (b.depth + 2) := Nat.fib_pos.2 (by omega)
        simp
        omega
    simp only [Tree.depth, Tree.weight, Tree.top]
    have step : ∀ d, Nat.fib (1 + d + 2) = Nat.fib (d + 1) + Nat.fib (d + 2) := by
      intro d
      rw [show 1 + d + 2 = (d + 1) + 2 by omega, Nat.fib_add_two]
    rcases Nat.le_total l.depth r.depth with hd | hd
    · rw [Nat.max_eq_right hd]
      have := sib hd r1 r2 h2 l1
      refine ⟨by rw [step]; omega, fun _ => ?_⟩
      rw [show 1 + r.depth + 1 = r.depth + 2 by omega]
      omega
    · rw [Nat.max_eq_left hd]
      have := sib hd l1 l2 h1 r1
      refine ⟨by rw [step]; omega, fun _ => ?_⟩
      rw [show 1 + l.depth + 1 = l.depth + 2 by omega]
      omega

/-- A tree's cost from its two subtrees. -/
theorem Tree.cost_node (f : Symbol → Word) (l r : Tree) :
    (Tree.node l r).cost f = l.cost f + r.cost f + (l.weight f + r.weight f) := by
  have h : ∀ ps : List (Symbol × List Bool), (ps.map fun p => (f p.1).toNat * (p.2.length + 1)).sum =
      (ps.map fun p => (f p.1).toNat * p.2.length).sum + ((ps.map Prod.fst).map fun y => (f y).toNat).sum := by
    intro ps
    induction ps with
    | nil => rfl
    | cons p ps ih =>
      rw [List.map_cons, List.sum_cons, ih, Nat.mul_add]
      simp only [List.map_cons, List.sum_cons]
      omega
  have hl := h l.paths
  have hr := h r.paths
  rw [← Tree.symbols_eq, ← Tree.weight_eq] at hl hr
  simp only [Tree.cost, Tree.paths, List.map_append, List.map_map, List.sum_append, Function.comp_def, List.length_cons]
  rw [hl, hr]
  omega

/-- The trees `fs` made so far can still be completed to a tree no dearer than any over `syms` (R147). -/
def Best (f : Symbol → Word) (syms : List Symbol) (fs : List (NodeIdx × Tree)) : Prop :=
  ∀ l, Realised l → (l.map Prod.fst).Perm (syms.map fun y => (f y).toNat) →
    ∃ l', Realised l' ∧ (l'.map Prod.fst).Perm (fs.map fun p => p.2.weight f) ∧
      leavesCost l' + (fs.map fun p => p.2.cost f).sum ≤ leavesCost l

theorem Best.perm {f : Symbol → Word} {syms : List Symbol} {fs gs : List (NodeIdx × Tree)} (h : Best f syms fs)
    (hp : fs.Perm gs) : Best f syms gs := fun l hl hw => by
  obtain ⟨l', h1, h2, h3⟩ := h l hl hw
  exact ⟨l', h1, h2.trans (hp.map _), by rw [← (hp.map fun p => p.2.cost f).sum_eq]; exact h3⟩

/-- Leaves alone are the start. -/
theorem best_leaves {f : Symbol → Word} {syms : List Symbol} {fs : List (NodeIdx × Tree)}
    (h : ∀ p ∈ fs, ∃ y, p.2 = .leaf y) (hs : (fs.flatMap fun p => p.2.symbols).Perm syms) : Best f syms fs := by
  have key : (fs.map fun p => p.2.weight f) = (fs.flatMap fun p => p.2.symbols).map (fun y => (f y).toNat) ∧
      (fs.map fun p => p.2.cost f).sum = 0 := by
    clear hs
    induction fs with
    | nil => exact ⟨rfl, rfl⟩
    | cons p fs ih =>
      obtain ⟨h1, h2⟩ := ih fun q hq => h q (List.mem_cons_of_mem _ hq)
      obtain ⟨y, e⟩ := h p (List.mem_cons_self ..)
      refine ⟨?_, ?_⟩
      · rw [List.map_cons, List.flatMap_cons, List.map_append, h1, e]; rfl
      · rw [List.map_cons, List.sum_cons, h2, e]; simp [Tree.cost, Tree.paths]
  intro l hl hw
  exact ⟨l, hl, by rw [key.1]; exact hw.trans (hs.map _).symm, by rw [key.2]; exact Nat.le_refl _⟩

/-- Joining the two lightest keeps the promise. -/
theorem Best.join {f : Symbol → Word} {syms : List Symbol} {a b k : NodeIdx} {A B : Tree} {gs : List (NodeIdx × Tree)}
    (h : Best f syms ((a, A) :: (b, B) :: gs)) (hAB : A.weight f ≤ B.weight f)
    (hB : ∀ p ∈ gs, B.weight f ≤ p.2.weight f) : Best f syms ((k, .node A B) :: gs) := fun l hl hw => by
  obtain ⟨l', h1, h2, h3⟩ := h l hl hw
  obtain ⟨m, k1, k2, k3⟩ := h1.join_least h2 hAB fun z hz => by
    obtain ⟨p, hp, rfl⟩ := List.mem_map.1 hz
    exact hB p hp
  refine ⟨m, k1, k2, ?_⟩
  simp only [List.map_cons, List.sum_cons, Tree.cost_node] at *
  omega

/-! ## The state of a BUILD in progress -/

/-- BUILD has made leaves for `syms` and merged them into the trees `fs`, whose roots are in the heap. -/
structure Building (f : Symbol → Word) (syms : List Symbol) (st : State) (fs : List (NodeIdx × Tree)) : Prop where
  forest  : Forest st fs
  heap    : st.liveHeap.Perm (fs.map Prod.fst)
  ordered : HeapOrdered st
  weight  : ∀ p ∈ fs, (st.nodeKey p.1).toNat = p.2.weight f
  symbols : (fs.flatMap fun p => p.2.symbols).Perm syms
  leaves  : ∀ (i : NodeIdx) (h : i.toNat < syms.length), st.slot i = Node.mkLeaf syms[i.toNat] (f syms[i.toNat])
  inner   : ∀ i : NodeIdx, syms.length ≤ i.toNat → i.toNat < st.arenaCount.val →
              (st.slot i).kind = .internal ∧
              (st.slot i).freq.toNat = (st.nodeKey (st.slot i).left).toNat + (st.nodeKey (st.slot i).right).toNat
  grown   : ∀ p ∈ fs, p.2.Grown f
  tops    : ∀ p ∈ fs, ∀ q ∈ fs, p.2.top f ≤ q.2.weight f
  best    : Best f syms fs

theorem sum_size_leaves (fs : List (NodeIdx × Tree)) :
    (fs.map fun p => p.2.size).sum + fs.length = 2 * (fs.flatMap fun p => p.2.symbols).length ∧
      fs.length ≤ (fs.flatMap fun p => p.2.symbols).length := by
  induction fs with
  | nil => simp
  | cons p fs ih =>
    have h1 := p.2.size_eq
    have h2 := p.2.symbols_length
    have h3 := p.2.leaves_pos
    simp only [List.map_cons, List.sum_cons, List.length_cons, List.flatMap_cons, List.length_append]
    omega

theorem liveHeap_length (st : State) : st.liveHeap.length = st.heapSize.val := by simp [State.liveHeap]

variable {f : Symbol → Word} {syms : List Symbol}

/-- The counts of R146 while BUILD runs. -/
theorem Building.counts {st : State} {fs : List (NodeIdx × Tree)} (h : Building f syms st fs) :
    st.arenaCount.val + fs.length = 2 * syms.length ∧ fs.length ≤ syms.length ∧ st.heapSize.val = fs.length := by
  have h1 := sum_size_leaves fs
  have h2 := h.forest.size
  have h3 := h.symbols.length_eq
  have h4 := h.heap.length_eq
  rw [liveHeap_length, List.length_map] at h4
  omega

/-- All counts together. -/
theorem Building.total {st : State} {fs : List (NodeIdx × Tree)} (h : Building f syms st fs) :
    (fs.map fun p => p.2.weight f).sum = (syms.map fun y => (f y).toNat).sum := by
  rw [← (h.symbols.map fun y => (f y).toNat).sum_eq]
  have : ∀ fs : List (NodeIdx × Tree), (fs.map fun p => p.2.weight f).sum =
      ((fs.flatMap fun p => p.2.symbols).map fun y => (f y).toNat).sum := by
    intro fs
    induction fs with
    | nil => rfl
    | cons p fs ih =>
      rw [List.map_cons, List.sum_cons, ih, List.flatMap_cons, List.map_append, List.sum_append, ← Tree.weight_eq]
  exact this fs

theorem Building.perm {st : State} {fs gs : List (NodeIdx × Tree)} (hp : fs.Perm gs) (h : Building f syms st fs) :
    Building f syms st gs where
  forest := h.forest.perm hp
  heap := h.heap.trans (hp.map _)
  ordered := h.ordered
  weight p hm := h.weight p (hp.mem_iff.2 hm)
  symbols := (hp.flatMap_right _).symm.trans h.symbols
  leaves := h.leaves
  inner := h.inner
  grown p hm := h.grown p (hp.mem_iff.2 hm)
  tops p hm q hq := h.tops p (hp.mem_iff.2 hm) q (hp.mem_iff.2 hq)
  best := h.best.perm hp

theorem OnlyHeap.arena {st t : State} (h : OnlyHeap st t) : t.arena = st.arena ∧ t.arenaCount = st.arenaCount := by
  unfold OnlyHeap at h
  constructor <;> rw [h]

theorem nodeKey_of_arena {st t : State} (h : t.arena = st.arena) (i : NodeIdx) : t.nodeKey i = st.nodeKey i := by
  unfold State.nodeKey; rw [slot_of_arena h]

theorem exists_cons_perm {fs : List (NodeIdx × Tree)} {a : NodeIdx} (h : a ∈ fs.map Prod.fst) :
    ∃ A gs, fs.Perm ((a, A) :: gs) := by
  obtain ⟨p, hp, rfl⟩ := List.mem_map.1 h
  exact ⟨p.2, fs.erase p, List.perm_cons_erase hp⟩

/-- One pop, of a tree of least weight. -/
theorem heapPop_tree {st : State} {fs : List (NodeIdx × Tree)} (hh : st.liveHeap.Perm (fs.map Prod.fst))
    (ho : HeapOrdered st) (h0 : 0 < st.heapSize.val) :
    ∃ A gs, fs.Perm (((heapPop st).1, A) :: gs) ∧ (heapPop st).2.liveHeap.Perm (gs.map Prod.fst) ∧
      HeapOrdered (heapPop st).2 ∧ OnlyHeap st (heapPop st).2 ∧
      (∀ p ∈ gs, st.nodeKey (heapPop st).1 ≤ st.nodeKey p.1) ∧
      (heapPop st).2.heapSize.val = st.heapSize.val - 1 := by
  obtain ⟨_, h2, h3, h4, h5, -⟩ := heapPop_some h0
  obtain ⟨h6, h7⟩ := h5 ho
  have hm : (heapPop st).1 ∈ fs.map Prod.fst := hh.mem_iff.1 (h4.mem_iff.1 (List.mem_cons_self ..))
  obtain ⟨A, gs, hp⟩ := exists_cons_perm hm
  refine ⟨A, gs, hp, ?_, h6, h3, fun p hpm => ?_, h2⟩
  · have e := (h4.trans hh).trans (hp.map Prod.fst)
    rw [List.map_cons] at e
    exact List.Perm.cons_inv e
  · apply h7
    rw [hh.mem_iff, (hp.map Prod.fst).mem_iff]
    exact List.mem_cons_of_mem _ (List.mem_map_of_mem hpm)

/-! ## Merging -/

theorem Allocated.nodeKey {n : Node} {k : NodeIdx} {st t : State} (h : Allocated n k st t) {j : NodeIdx}
    (hj : j.toNat < st.arenaCount.val) : t.nodeKey j = st.nodeKey j := by
  unfold State.nodeKey; rw [h.old j (by omega)]

/-- The heap order is a matter of the heap and of its entries' keys. -/
theorem HeapOrdered.congr {st t : State} (h : HeapOrdered st) (hs : t.heapSize = st.heapSize) (hh : t.heap = st.heap)
    (hk : ∀ i ∈ st.liveHeap, t.nodeKey i = st.nodeKey i) : HeapOrdered t := by
  have mem : ∀ p, p < st.heapSize.val → heapAt st.heap p ∈ st.liveHeap := fun p hp =>
    mem_live.2 ⟨p, hp, rfl⟩
  intro p h0 hp
  rw [hs] at hp
  have := parentPos_lt h0
  rw [hh, hk _ (mem _ (by omega)), hk _ (mem _ hp)]
  exact h p h0 hp

/-- `mergeTwo` with its two pops named. -/
theorem mergeTwo_eq (st : State) :
    mergeTwo st =
      if 2 ^ 64 ≤ ((heapPop (heapPop st).2).2.slot (heapPop st).1).freq.toNat +
          ((heapPop (heapPop st).2).2.slot (heapPop (heapPop st).2).1).freq.toNat then
        .raised .capacityExceeded (heapPop (heapPop st).2).2
      else
        (allocNode (Node.mkInternal (BitVec.ofNat 64
          (((heapPop (heapPop st).2).2.slot (heapPop st).1).freq.toNat +
            ((heapPop (heapPop st).2).2.slot (heapPop (heapPop st).2).1).freq.toNat))
          (heapPop st).1 (heapPop (heapPop st).2).1) (heapPop (heapPop st).2).2).andThen
            fun n st => heapPush n st := rfl

/-- What one turn of BUILD's loop does: it joins two trees, or the sum does not fit and nothing is allocated. -/
theorem mergeTwo_cases {st : State} {fs : List (NodeIdx × Tree)} (h : Building f syms st fs)
    (h1 : 1 < st.heapSize.val) (hL : syms.length ≤ 256) :
    (∃ t gs, mergeTwo st = .ok () t ∧ Building f syms t gs ∧ t.heapSize.val = st.heapSize.val - 1) ∨
      (∃ t gs, mergeTwo st = .raised .capacityExceeded t ∧ Forest t gs ∧ HeapOk t ∧
        2 ^ 64 ≤ (syms.map fun y => (f y).toNat).sum) := by
  obtain ⟨c1, c2, c3⟩ := h.counts
  obtain ⟨A, g1, p1, l1, o1, oh1, m1, z1⟩ := heapPop_tree h.heap h.ordered (by omega)
  rw [mergeTwo_eq]
  generalize ea : (heapPop st).1 = a at *
  generalize es1 : (heapPop st).2 = s1 at *
  obtain ⟨B, gs, p2, l2, o2, oh2, m2, z2⟩ := heapPop_tree l1 o1 (by omega)
  generalize eb : (heapPop s1).1 = b at *
  generalize es2 : (heapPop s1).2 = s2 at *
  have hp : fs.Perm ((a, A) :: (b, B) :: gs) := p1.trans (p2.cons _)
  have hb := h.perm hp
  have ar2 : s2.arena = st.arena ∧ s2.arenaCount = st.arenaCount :=
    ⟨oh2.arena.1.trans oh1.arena.1, oh2.arena.2.trans oh1.arena.2⟩
  have key1 := nodeKey_of_arena oh1.arena.1
  have key2 := nodeKey_of_arena ar2.1
  have f2 : Forest s2 ((a, A) :: (b, B) :: gs) := hb.forest.of_arena ar2
  have wA : (s2.nodeKey a).toNat = A.weight f := by rw [key2]; exact hb.weight (a, A) (by simp)
  have wB : (s2.nodeKey b).toNat = B.weight f := by rw [key2]; exact hb.weight (b, B) (by simp)
  have hlive : ∀ i ∈ s2.liveHeap, i.toNat < s2.arenaCount.val := by
    intro i hi
    obtain ⟨p, hpm, rfl⟩ := List.mem_map.1 (l2.mem_iff.1 hi)
    exact (f2.holds p (by simp [hpm])).lt
  have hsum : (s2.slot a).freq.toNat + (s2.slot b).freq.toNat = A.weight f + B.weight f := by
    rw [← wA, ← wB]; rfl
  have htot := hb.total
  simp only [List.map_cons, List.sum_cons] at htot
  rw [hsum]
  by_cases hbig : 2 ^ 64 ≤ A.weight f + B.weight f
  · rw [if_pos hbig]
    exact .inr ⟨s2, _, rfl, f2, ⟨hlive, o2⟩, by omega⟩
  rw [if_neg hbig]
  have hlen : fs.length = gs.length + 2 := by rw [hp.length_eq]; rfl
  obtain ⟨k, t1, e1, al⟩ := allocNode_room (Node.mkInternal (BitVec.ofNat 64 (A.weight f + B.weight f)) a b)
    (st := s2) (by rw [ar2.2]; omega)
  have f3 : Forest t1 ((k, .node A B) :: gs) := f2.join al
  have lt2 : ∀ p ∈ (a, A) :: (b, B) :: gs, p.1.toNat < s2.arenaCount.val := fun p hpm => (f2.holds p hpm).lt
  have keyt : ∀ p ∈ (a, A) :: (b, B) :: gs, t1.nodeKey p.1 = st.nodeKey p.1 := fun p hpm => by
    rw [al.nodeKey (lt2 p hpm), key2]
  have hs1 : t1.heapSize = s2.heapSize := by rw [al.rest]
  have hh1 : t1.heap = s2.heap := by rw [al.rest]
  have ll1 : t1.liveHeap = s2.liveHeap := by rw [State.liveHeap_eq, State.liveHeap_eq, hs1, hh1]
  have o3 : HeapOrdered t1 := o2.congr hs1 hh1 fun i hi => al.nodeKey (hlive i hi)
  obtain ⟨t, e2, z3, oh3, l3, o4, -⟩ := heapPush_room k (st := t1) (by rw [hs1]; omega)
  have keyk : (t1.nodeKey k).toNat = A.weight f + B.weight f := by
    unfold State.nodeKey
    rw [al.new]
    show (BitVec.ofNat 64 _).toNat = _
    rw [BitVec.toNat_ofNat]; omega
  have key3 := nodeKey_of_arena oh3.arena.1
  have cnt : t.arenaCount.val = st.arenaCount.val + 1 := by rw [oh3.arena.2, al.count, ar2.2]
  have slotNew : t.slot k = Node.mkInternal (BitVec.ofNat 64 (A.weight f + B.weight f)) a b := by
    rw [slot_of_arena oh3.arena.1, al.new]
  have slotOld : ∀ j : NodeIdx, j.toNat < st.arenaCount.val → t.slot j = st.slot j := by
    intro j hj
    rw [slot_of_arena oh3.arena.1, al.old j (by rw [ar2.2]; omega), slot_of_arena ar2.1]
  have keyOld : ∀ j : NodeIdx, j.toNat < st.arenaCount.val → t.nodeKey j = st.nodeKey j := by
    intro j hj
    unfold State.nodeKey; rw [slotOld j hj]
  have idx : k.toNat = st.arenaCount.val := by rw [al.index, ar2.2]
  have ltA : a.toNat < st.arenaCount.val := (hb.forest.holds (a, A) (by simp)).lt
  have ltB : b.toNat < st.arenaCount.val := (hb.forest.holds (b, B) (by simp)).lt
  have mono : ∀ p ∈ (a, A) :: (b, B) :: gs, A.weight f ≤ p.2.weight f := by
    intro p hpm
    rcases List.mem_cons.1 hpm with rfl | hpm
    · exact Nat.le_refl _
    · have := m1 p (p2.mem_iff.2 hpm)
      rw [BitVec.le_def, hb.weight (a, A) (by simp), hb.weight p (List.mem_cons_of_mem _ hpm)] at this
      exact this
  have monoB : ∀ p ∈ gs, B.weight f ≤ p.2.weight f := by
    intro p hpm
    have := m2 p hpm
    rw [key1, key1, BitVec.le_def, hb.weight (b, B) (by simp), hb.weight p (by simp [hpm])] at this
    exact this
  refine .inl ⟨t, (k, .node A B) :: gs, by rw [e1, Result.andThen_ok, e2], ?_, by omega⟩
  constructor
  · exact f3.of_arena oh3.arena
  · refine l3.trans ?_
    rw [ll1, List.map_cons]
    exact l2.cons k
  · exact o4 o3
  · intro p hpm
    rw [key3]
    rcases List.mem_cons.1 hpm with rfl | hpm
    · exact keyk
    · rw [keyt p (by simp [hpm])]
      exact hb.weight p (by simp [hpm])
  · refine List.Perm.trans ?_ hb.symbols
    simp [Tree.symbols]
  · intro i hi
    rw [slotOld i (by omega)]
    exact h.leaves i hi
  · intro i h0 hi
    by_cases e : i.toNat = st.arenaCount.val
    · have e : i = k := BitVec.eq_of_toNat_eq (by omega)
      subst e
      rw [slotNew]
      refine ⟨rfl, ?_⟩
      show (BitVec.ofNat 64 _).toNat = (t.nodeKey a).toNat + (t.nodeKey b).toNat
      rw [keyOld a ltA, keyOld b ltB, hb.weight (a, A) (by simp), hb.weight (b, B) (by simp), BitVec.toNat_ofNat]
      simp only
      omega
    · have hi' : i.toNat < st.arenaCount.val := by omega
      obtain ⟨i1, i2⟩ := h.inner i h0 hi'
      obtain ⟨n1, n2, _⟩ := (h.forest.nodes i hi').internal i1
      rw [BitVec.lt_def] at n1 n2
      rw [slotOld i hi', keyOld _ (by omega), keyOld _ (by omega)]
      exact ⟨i1, i2⟩
  · intro p hpm
    rcases List.mem_cons.1 hpm with rfl | hpm
    · exact ⟨hb.grown (a, A) (by simp), hb.grown (b, B) (by simp), hb.tops (a, A) (by simp) (b, B) (by simp),
        hb.tops (b, B) (by simp) (a, A) (by simp)⟩
    · exact hb.grown p (by simp [hpm])
  · have hAB := mono (b, B) (by simp)
    intro p hpm q hqm
    rcases List.mem_cons.1 hpm with rfl | hpm <;> rcases List.mem_cons.1 hqm with rfl | hqm
    · exact Tree.top_le_weight _ _
    · have := monoB q hqm
      simp only [Tree.top] at *
      omega
    · have := hb.tops p (by simp [hpm]) (a, A) (by simp)
      simp only [Tree.weight] at *
      omega
    · exact hb.tops p (by simp [hpm]) q (by simp [hqm])
  · exact hb.best.join (mono (b, B) (by simp)) monoB

theorem mergeLoop_cases (fuel : Nat) {st : State} {fs : List (NodeIdx × Tree)} (h : Building f syms st fs)
    (h0 : 0 < st.heapSize.val) (hf : st.heapSize.val ≤ fuel + 1) (hL : syms.length ≤ 256) :
    (∃ t r T, mergeLoop fuel st = .ok () t ∧ Building f syms t [(r, T)] ∧ t.heapSize.val = 1) ∨
      (∃ t gs, mergeLoop fuel st = .raised .capacityExceeded t ∧ Forest t gs ∧ HeapOk t ∧
        2 ^ 64 ≤ (syms.map fun y => (f y).toNat).sum) := by
  have done : ∀ {st : State} {fs : List (NodeIdx × Tree)}, Building f syms st fs → st.heapSize.val = 1 →
      ∃ r T, Building f syms st [(r, T)] := by
    intro st fs h h1
    have hl := h.counts.2.2
    match fs, hl with
    | [p], _ => exact ⟨p.1, p.2, h⟩
    | [], hl => simp at hl; omega
    | _ :: _ :: _, hl => simp at hl; omega
  induction fuel generalizing st fs with
  | zero =>
    obtain ⟨r, T, h'⟩ := done h (by omega)
    exact .inl ⟨st, r, T, rfl, h', by omega⟩
  | succ fuel ih =>
    rw [mergeLoop]
    by_cases h1 : 1 < st.heapSize.val
    · rw [if_pos h1]
      rcases mergeTwo_cases h h1 hL with ⟨t, gs, e, hb, hz⟩ | ⟨t, gs, e, hb⟩
      · rw [e, Result.andThen_ok]
        exact ih hb (by omega) (by omega)
      · rw [e]
        exact .inr ⟨t, gs, rfl, hb⟩
    · rw [if_neg h1]
      obtain ⟨r, T, h'⟩ := done h (by omega)
      exact .inl ⟨st, r, T, rfl, h', by omega⟩

/-! ## Collecting the leaves -/

/-- The symbols below `n` with a count that is not zero, in ascending order. -/
def nonzero (f : Symbol → Word) (n : Nat) : List Symbol := ((List.range n).map symbolOf).filter fun y => f y ≠ 0

theorem nonzero_succ (f : Symbol → Word) (n : Nat) :
    nonzero f (n + 1) = nonzero f n ++ if f (symbolOf n) = 0 then [] else [symbolOf n] := by
  unfold nonzero
  rw [List.range_succ, List.map_append, List.filter_append]
  congr 1
  by_cases h : f (symbolOf n) = 0
  · rw [if_pos h]; exact List.filter_cons_of_neg (by simpa using h)
  · rw [if_neg h]; exact List.filter_cons_of_pos (by simpa using h)

theorem nonzero_length_le (f : Symbol → Word) (n : Nat) : (nonzero f n).length ≤ n := by
  unfold nonzero
  refine Nat.le_trans (List.length_filter_le ..) ?_
  simp

theorem symbolOf_toNat {n : Nat} (h : n < 256) : (symbolOf n).toNat = n := by
  unfold symbolOf; rw [BitVec.toNat_ofNat]; omega

theorem symbolOf_of_toNat (y : Symbol) : symbolOf y.toNat = y := by
  unfold symbolOf; exact BitVec.ofNat_toNat ..

theorem mem_nonzero {f : Symbol → Word} {y : Symbol} : y ∈ nonzero f 256 ↔ f y ≠ 0 := by
  unfold nonzero
  rw [List.mem_filter]
  constructor
  · rintro ⟨_, h⟩; simpa using h
  · intro h
    refine ⟨List.mem_map.2 ⟨y.toNat, List.mem_range.2 y.isLt, symbolOf_of_toNat y⟩, by simpa using h⟩

theorem nonzero_nodup (f : Symbol → Word) : (nonzero f 256).Nodup := by
  unfold nonzero
  refine List.Nodup.filter _ (List.Nodup.map_on ?_ List.nodup_range)
  intro a ha b hb e
  rw [← symbolOf_toNat (List.mem_range.1 ha), ← symbolOf_toNat (List.mem_range.1 hb), e]

/-- BUILD is collecting: one leaf for each symbol below `n` with a count, all in the heap. -/
structure Collecting (f : Symbol → Word) (n : Nat) (st : State) : Prop where
  freq   : ∀ y, st.freqAt y = f y
  forest : ∃ fs, Building f (nonzero f n) st fs ∧ fs.length = (nonzero f n).length ∧ ∀ p ∈ fs, ∃ y, p.2 = .leaf y

theorem collecting_start {st : State} (hf : ∀ y, st.freqAt y = f y) : Collecting f 0 st.arenaReset := by
  refine ⟨hf, [], ⟨.empty rfl, .nil, fun p _ hp => ?_, fun p hp => ?_, .nil, fun i hi => ?_, fun i _ hi => ?_,
    fun p hp => ?_, fun p hp => ?_, best_leaves (fun p hp => ?_) .nil⟩, rfl, fun p hp => ?_⟩
  · exact absurd hp (Nat.not_lt_zero p)
  · cases hp
  · exact absurd hi (Nat.not_lt_zero _)
  · exact absurd hi (Nat.not_lt_zero _)
  · cases hp
  · cases hp
  · cases hp
  · cases hp

theorem collectLeaf_spec {n : Nat} {st : State} (hn : n < 256) (h : Collecting f n st) :
    ∃ t, collectLeaf n st = .ok () t ∧ Collecting f (n + 1) t := by
  obtain ⟨hfreq, fs, hb, hlen, hleaf⟩ := h
  unfold collectLeaf
  simp only
  by_cases h0 : st.freqAt (symbolOf n) = 0
  · rw [if_pos h0]
    refine ⟨st, rfl, hfreq, fs, ?_⟩
    rw [nonzero_succ, if_pos (by rw [← hfreq]; exact h0), List.append_nil]
    exact ⟨hb, hlen, hleaf⟩
  rw [if_neg h0]
  have hy : f (symbolOf n) ≠ 0 := by rw [← hfreq]; exact h0
  have hle := nonzero_length_le f n
  obtain ⟨c1, _, c3⟩ := hb.counts
  have hcount : st.arenaCount.val = (nonzero f n).length := by omega
  obtain ⟨k, t1, e1, al⟩ := allocNode_room (Node.mkLeaf (symbolOf n) (st.freqAt (symbolOf n))) (st := st) (by omega)
  have hs1 : t1.heapSize = st.heapSize := by rw [al.rest]
  have hh1 : t1.heap = st.heap := by rw [al.rest]
  obtain ⟨t, e2, z3, oh3, l3, o4, -⟩ := heapPush_room k (st := t1) (by rw [hs1]; omega)
  refine ⟨t, by rw [e1, Result.andThen_ok, e2], ?_⟩
  have hlt : ∀ p ∈ fs, p.1.toNat < st.arenaCount.val := fun p hp => (hb.forest.holds p hp).lt
  have key3 := nodeKey_of_arena oh3.arena.1
  have idx := al.index
  have slotNew : t.slot k = Node.mkLeaf (symbolOf n) (f (symbolOf n)) := by
    rw [slot_of_arena oh3.arena.1, al.new, hfreq]
  have cnt : t.arenaCount.val = st.arenaCount.val + 1 := by rw [oh3.arena.2, al.count]
  have pos : 1 ≤ (f (symbolOf n)).toNat := by
    rcases Nat.eq_zero_or_pos (f (symbolOf n)).toNat with e | e
    · exact absurd (BitVec.eq_of_toNat_eq (by simpa using e)) hy
    · exact e
  have hfr : t.freq = st.freq := by rw [oh3, al.rest]
  refine ⟨fun y => by rw [← hfreq y]; unfold State.freqAt; rw [hfr], (k, .leaf (symbolOf n)) :: fs, ?_, ?_, ?_⟩
  · rw [nonzero_succ, if_neg hy]
    constructor
    · exact (hb.forest.leaf al).of_arena oh3.arena
    · refine l3.trans ?_
      rw [State.liveHeap_eq, hs1, hh1, List.map_cons]
      exact hb.heap.cons k
    · refine o4 (hb.ordered.congr hs1 hh1 fun i hi => al.nodeKey ?_)
      obtain ⟨p, hp, rfl⟩ := List.mem_map.1 (hb.heap.mem_iff.1 hi)
      exact hlt p hp
    · intro p hp
      rcases List.mem_cons.1 hp with rfl | hp
      · show (t.slot k).freq.toNat = _
        rw [slotNew]; rfl
      · rw [key3, al.nodeKey (hlt p hp)]
        exact hb.weight p hp
    · simp only [List.flatMap_cons, Tree.symbols]
      exact (List.perm_append_singleton _ _).symm.trans (hb.symbols.append_right _)
    · intro i hi
      simp only [List.length_append, List.length_singleton] at hi
      by_cases e : i.toNat = st.arenaCount.val
      · have e' : i = k := BitVec.eq_of_toNat_eq (by omega)
        subst e'
        rw [slotNew, List.getElem_append_right (by omega)]
        simp
      · rw [List.getElem_append_left (by omega), slot_of_arena oh3.arena.1, al.old i e]
        exact hb.leaves i (by omega)
    · intro i hi hi'
      simp only [List.length_append, List.length_singleton] at hi
      omega
    · intro p hp
      rcases List.mem_cons.1 hp with rfl | hp
      · exact pos
      · exact hb.grown p hp
    · intro p hp q _
      rcases List.mem_cons.1 hp with rfl | hp
      · exact Nat.zero_le _
      · obtain ⟨y, e⟩ := hleaf p hp
        rw [e]; exact Nat.zero_le _
    · refine best_leaves (fun p hp => ?_) ?_
      · rcases List.mem_cons.1 hp with rfl | hp
        · exact ⟨_, rfl⟩
        · exact hleaf p hp
      · simp only [List.flatMap_cons, Tree.symbols]
        exact (List.perm_append_singleton _ _).symm.trans (hb.symbols.append_right _)
  · rw [nonzero_succ, if_neg hy]
    simp [hlen]
  · intro p hp
    rcases List.mem_cons.1 hp with rfl | hp
    · exact ⟨_, rfl⟩
    · exact hleaf p hp

/-- A loop whose body always goes on keeps what the body keeps. -/
theorem forLoop_ok {P : Nat → State → Prop} {body : Nat → State → Result Unit} {N : Nat}
    (hb : ∀ i st, i < N → P i st → ∃ t, body i st = .ok () t ∧ P (i + 1) t) (n i : Nat) {st : State} (hn : i + n ≤ N)
    (h : P i st) : ∃ t, forLoop body n i st = .ok () t ∧ P (i + n) t := by
  induction n generalizing i st with
  | zero => exact ⟨st, rfl, h⟩
  | succ n ih =>
    obtain ⟨t, e, ht⟩ := hb i st (by omega) h
    obtain ⟨u, e', hu⟩ := ih (i + 1) (by omega) ht
    refine ⟨u, by rw [forLoop, e, Result.andThen_ok, e'], ?_⟩
    rw [show i + (n + 1) = i + 1 + n by omega]
    exact hu

/-! ## BUILD -/

theorem sum_nonzero (f : Symbol → Word) (n : Nat) :
    ((nonzero f n).map fun y => (f y).toNat).sum = ((List.range n).map fun i => (f (symbolOf i)).toNat).sum := by
  induction n with
  | zero => rfl
  | succ n ih =>
    rw [nonzero_succ, List.range_succ, List.map_append, List.map_append, List.sum_append, List.sum_append, ih]
    congr 1
    by_cases h : f (symbolOf n) = 0
    · rw [if_pos h]
      simp only [List.map_nil, List.sum_nil, List.map_cons, h]
      rfl
    · rw [if_neg h]; simp

/-- What BUILD leaves when it succeeds (R146). -/
structure Built (f : Symbol → Word) (st t : State) (T : Tree) : Prop where
  building : Building f (nonzero f 256) t [(t.root, T)]
  valid    : t.treeValid = true
  size     : t.heapSize.val = 1
  top      : heapAt t.heap 0 = t.root
  last     : t.root.toNat + 1 = t.arenaCount.val
  only     : OnlyTree st t

/-- In a forest of one tree the root is the last slot. -/
theorem Forest.last {st : State} {r : NodeIdx} {T : Tree} (hf : Forest st [(r, T)]) :
    r.toNat + 1 = st.arenaCount.val := by
  have hr : r.toNat < st.arenaCount.val := (hf.holds (r, T) (by simp)).lt
  have down : ∀ {i j : NodeIdx}, Reaches st i j → j.toNat ≤ i.toNat := by
    intro i j h
    induction h with
    | here i => exact Nat.le_refl _
    | down hc _ ih => have := hf.child_lt hc; omega
  have hle := arenaCount_le st
  obtain ⟨p, hp, h⟩ := hf.covered (BitVec.ofNat 10 (st.arenaCount.val - 1)) (by rw [BitVec.toNat_ofNat]; omega)
  obtain rfl := List.mem_singleton.1 hp
  have := down h
  rw [BitVec.toNat_ofNat] at this
  simp only at this
  omega

/-- `ROOT` and `TREE_VALID` stay. -/
def KeepsRoot (st t : State) : Prop := t.treeValid = st.treeValid ∧ t.root = st.root

theorem frame_keepsRoot : Frame KeepsRoot where
  refl _ := ⟨rfl, rfl⟩
  trans h h' := ⟨h'.1.trans h.1, h'.2.trans h.2⟩

theorem keepsRoot_allocNode (n : Node) (st : State) : KeepsRoot st (allocNode n st).state := by
  unfold allocNode
  split <;> exact ⟨rfl, rfl⟩

theorem keepsRoot_heapPush (n : NodeIdx) (st : State) : KeepsRoot st (heapPush n st).state := by
  unfold heapPush
  split <;> exact ⟨rfl, rfl⟩

theorem keepsRoot_heapPop (st : State) : KeepsRoot st (heapPop st).2 := by
  unfold heapPop
  split <;> exact ⟨rfl, rfl⟩

theorem keepsRoot_collectLeaf (i : Nat) (st : State) : KeepsRoot st (collectLeaf i st).state := by
  unfold collectLeaf
  simp only
  split
  · exact frame_keepsRoot.refl st
  · exact frame_keepsRoot.andThen (keepsRoot_allocNode _ st) fun n t => keepsRoot_heapPush n t

theorem keepsRoot_mergeLoop (fuel : Nat) (st : State) : KeepsRoot st (mergeLoop fuel st).state := by
  induction fuel generalizing st with
  | zero => exact frame_keepsRoot.refl st
  | succ fuel ih =>
    unfold mergeLoop
    split
    · refine frame_keepsRoot.andThen ?_ fun _ t => ih t
      have h2 := frame_keepsRoot.trans (keepsRoot_heapPop st) (keepsRoot_heapPop (heapPop st).2)
      rw [mergeTwo_eq]
      split
      · exact h2
      · exact frame_keepsRoot.trans h2
          (frame_keepsRoot.andThen (keepsRoot_allocNode _ _) fun n t => keepsRoot_heapPush n t)
    · exact frame_keepsRoot.refl st

theorem totalFreq_eq_zero {st : State} : st.totalFreq = 0 ↔ ∀ y, st.freqAt y = 0 := by
  unfold State.totalFreq
  rw [List.sum_eq_zero_iff]
  constructor
  · intro h y
    apply BitVec.eq_of_toNat_eq
    have := h _ (List.mem_map.2 ⟨y.toNat, List.mem_range.2 y.isLt, rfl⟩)
    rw [symbolOf_of_toNat] at this
    simpa using this
  · intro h x hx
    obtain ⟨i, _, rfl⟩ := List.mem_map.1 hx
    rw [h]; rfl

/-- Everything BUILD can do, from any state: it fails with `EMPTY_INPUT` on an empty table, with `CAPACITY_EXCEEDED` when
the counts sum to 2^64 or more, and otherwise it makes one tree. -/
theorem buildTree_cases (st : State) :
    (st.totalFreq = 0 ∧ buildTree st = .raised .emptyInput st.arenaReset) ∨
      (0 < st.totalFreq ∧ st.totalFreq < 2 ^ 64 ∧
        ∃ t T, buildTree st = .ok (t.root.zeroExtend 64) t ∧ Built st.freqAt st t T) ∨
      (2 ^ 64 ≤ st.totalFreq ∧ ∃ t gs, buildTree st = .raised .capacityExceeded t ∧ Forest t gs ∧ HeapOk t ∧
        OnlyTree st t ∧ t.treeValid = false ∧ t.root = Config.nil) := by
  have hF : ((nonzero st.freqAt 256).map fun y => (st.freqAt y).toNat).sum = st.totalFreq := sum_nonzero _ _
  obtain ⟨t1, e1, hc⟩ := forLoop_ok (P := Collecting st.freqAt) (N := 256) (fun i st hi h => collectLeaf_spec hi h)
    256 0 (by omega) (collecting_start (f := st.freqAt) fun y => rfl)
  obtain ⟨_, fs, hb, hlen, -⟩ := hc
  have hL := nonzero_length_le st.freqAt 256
  simp only [Nat.zero_add] at hb hlen
  obtain ⟨c1, c2, c3⟩ := hb.counts
  have hb0 : buildTree st = if t1.heapSize.val = 0 then .raised .emptyInput t1
      else (mergeLoop t1.heapSize.val t1).andThen fun _ st =>
        .ok ((heapAt st.heap 0).zeroExtend 64) { st with root := heapAt st.heap 0, treeValid := true } := by
    unfold buildTree
    rw [show Config.alphabet = 256 from rfl, e1]
    rfl
  have root1 : KeepsRoot st.arenaReset t1 := by
    have := frame_keepsRoot.forLoop keepsRoot_collectLeaf 256 0 st.arenaReset
    rw [e1] at this
    exact this
  have ho := onlyTree_buildTree st
  by_cases h0 : t1.heapSize.val = 0
  · left
    have hnil : nonzero st.freqAt 256 = [] := List.length_eq_zero_iff.1 (by omega)
    have htot : st.totalFreq = 0 := by rw [← hF, hnil]; rfl
    have hz := totalFreq_eq_zero.1 htot
    obtain ⟨t2, e2, rfl⟩ := forLoop_ok (P := fun _ t => t = st.arenaReset) (body := collectLeaf) (N := 256)
      (fun i s _ h => ⟨s, by
        subst h
        unfold collectLeaf
        rw [if_pos (show st.arenaReset.freqAt (symbolOf i) = 0 from hz _)], h⟩) 256 0 (by omega) rfl
    have e3 := (Result.ok.inj (e1.symm.trans e2)).2
    exact ⟨htot, by rw [hb0, if_pos h0, e3]⟩
  · right
    rw [if_neg h0] at hb0
    have hpos : 0 < st.totalFreq := by
      rcases Nat.eq_zero_or_pos st.totalFreq with h | h
      · have hz := totalFreq_eq_zero.1 h
        have : nonzero st.freqAt 256 = [] := by
          unfold nonzero
          rw [List.filter_eq_nil_iff]
          intro y _; simp [hz y]
        rw [this] at hlen
        simp at hlen
        simp [hlen] at c3
        omega
      · exact h
    rcases mergeLoop_cases t1.heapSize.val hb (by omega) (by omega) hL with
      ⟨t, r, T, e, hT, hsz⟩ | ⟨t, gs, e, hf, hh, hbig⟩
    · left
      have hr : heapAt t.heap 0 = r := by
        have h1 := hT.heap
        rw [State.liveHeap_eq, hsz] at h1
        have := List.perm_singleton.1 h1
        simpa [live] using this
      rw [e, Result.andThen_ok, hr] at hb0
      have hw := hT.weight (r, T) (by simp)
      have ht := hT.total
      simp only [List.map_cons, List.map_nil, List.sum_cons, List.sum_nil, Nat.add_zero] at ht
      have hlt := (t.nodeKey r).isLt
      refine ⟨hpos, by simp only at hw; omega, { t with root := r, treeValid := true }, T, hb0, ?_, rfl, hsz, hr,
        hT.forest.last, by rw [hb0] at ho; exact ho⟩
      have hf := Forest.of_arena (st := t) (t := { t with root := r, treeValid := true }) ⟨rfl, rfl⟩ hT.forest
      exact ⟨hf, hT.heap, hT.ordered, hT.weight, hT.symbols, hT.leaves, hT.inner, hT.grown, hT.tops, hT.best⟩
    · right
      rw [e, Result.andThen_raised] at hb0
      have k := keepsRoot_mergeLoop t1.heapSize.val t1
      rw [e, Result.state_raised] at k
      refine ⟨by omega, t, gs, hb0, hf, hh, by rw [hb0] at ho; exact ho, ?_, ?_⟩
      · rw [k.1, root1.1]; rfl
      · rw [k.2, root1.2]; rfl

end Sys2Proof.Machine
end

