-- ==== Sys2Proof/Laws/Payload.lean ====
section
/-! SUPPORT. What the loops of ENCODE and DECODE do (R190 to R199). -/

namespace Sys2Proof.Machine

theorem forLoop_add (body : Nat → State → Result Unit) (a b i : Nat) (st : State) :
    forLoop body (a + b) i st = (forLoop body a i st).andThen fun _ t => forLoop body b (i + a) t := by
  induction a generalizing i st with
  | zero => rw [Nat.zero_add]; rfl
  | succ a ih =>
    rw [show a + 1 + b = (a + b) + 1 by omega, forLoop, forLoop, Result.andThen_assoc]
    cases body i st with
    | raised k t => rfl
    | ok u t =>
      simp only [Result.andThen_ok]
      rw [ih, show i + 1 + a = i + (a + 1) by omega]

/-! ## ENCODE -/

/-- The bytes of RAW from address `i` on. -/
def State.rawFrom (st : State) (i n : Nat) : List Byte := (List.range n).map fun k => st.memRead .raw (i + k)

theorem State.rawFrom_zero (st : State) (n : Nat) : st.rawFrom 0 n = st.rawBytes n := by
  unfold State.rawFrom State.rawBytes; simp

theorem State.rawFrom_succ (st : State) (i n : Nat) :
    st.rawFrom i (n + 1) = st.memRead .raw i :: st.rawFrom (i + 1) n := by
  unfold State.rawFrom
  rw [List.range_succ_eq_map, List.map_cons, List.map_map]
  simp only [Nat.add_zero]
  congr 1
  apply List.map_congr_left
  intro k _
  simp only [Function.comp_apply, Nat.succ_eq_add_one]
  congr 1
  omega

theorem OnlyWriter.pay_reads {st t : State} (h : OnlyWriter .pay st t) :
    (∀ y, t.codeAt y = st.codeAt y) ∧ (∀ a, t.memRead .raw a = st.memRead .raw a) := by
  unfold OnlyWriter at h
  constructor
  · intro y; unfold State.codeAt; rw [h]; simp
  · intro a; rw [h]; rfl

theorem State.rawFrom_congr {st t : State} (h : ∀ a, t.memRead .raw a = st.memRead .raw a) (i n : Nat) :
    t.rawFrom i n = st.rawFrom i n := by
  unfold State.rawFrom; simp [h]

theorem State.codeBits_congr {st t : State} (h : ∀ y, t.codeAt y = st.codeAt y) (xs : List Byte) :
    t.codeBits xs = st.codeBits xs := by
  unfold State.codeBits; simp [h]

/-- While every byte has a code, ENCODE's loop writes the codes. -/
theorem encodeLoop_assigned (n i : Nat) (st : State) (h : ∀ x ∈ st.rawFrom i n, (st.codeAt x).len ≠ 0) :
    forLoop encodeByte n i st = writeList .pay (st.codeBits (st.rawFrom i n)) st := by
  induction n generalizing i st with
  | zero => rfl
  | succ n ih =>
    rw [State.rawFrom_succ] at h ⊢
    have hx := h _ (List.mem_cons_self ..)
    rw [forLoop, State.codeBits, List.flatMap_cons, writeList_append]
    have e : encodeByte i st = writeList .pay (st.codeAt (st.memRead .raw i)).bits st := by
      unfold encodeByte CodeEntry.bits
      simp only
      rw [if_neg hx, writeBits_eq_writeList]
    rw [e]
    have ho := onlyWriter_writeList .pay (st.codeAt (st.memRead .raw i)).bits st
    cases hw : writeList .pay (st.codeAt (st.memRead .raw i)).bits st with
    | raised k t => rfl
    | ok u t =>
      rw [hw, Result.state_ok] at ho
      obtain ⟨hc, hr⟩ := ho.pay_reads
      simp only [Result.andThen_ok]
      have hraw := State.rawFrom_congr hr (i + 1) n
      rw [ih (i + 1) t (by rw [hraw]; intro x hx; rw [hc]; exact h x (List.mem_cons_of_mem _ hx)), hraw,
        State.codeBits_congr hc]
      rfl

/-- At the first byte without a code ENCODE's loop stops, the codes before it written. -/
theorem encodeLoop_unassigned {n i j : Nat} (st : State) (hj : j < n)
    (h : ∀ x ∈ st.rawFrom i j, (st.codeAt x).len ≠ 0) (hx : (st.codeAt (st.memRead .raw (i + j))).len = 0) :
    forLoop encodeByte n i st =
      (writeList .pay (st.codeBits (st.rawFrom i j)) st).andThen fun _ t => .raised .unencodableSymbol t := by
  rw [show n = j + (1 + (n - j - 1)) by omega, forLoop_add, encodeLoop_assigned j i st h]
  have ho := onlyWriter_writeList .pay (st.codeBits (st.rawFrom i j)) st
  cases hw : writeList .pay (st.codeBits (st.rawFrom i j)) st with
  | raised k t => rfl
  | ok u t =>
    rw [hw, Result.state_ok] at ho
    obtain ⟨hc, hr⟩ := ho.pay_reads
    simp only [Result.andThen_ok]
    rw [Nat.add_comm 1, forLoop]
    have e : encodeByte (i + j) t = .raised .unencodableSymbol t := by
      unfold encodeByte
      simp only
      rw [hr, hc, if_pos hx]
    rw [e]
    rfl

/-! ## DECODE -/

/-- From `st` to `t` only stream 1 moved, by reads, and RAW, at addresses `lo` to `hi - 1`. -/
structure DecodeFrame (lo hi : Nat) (st t : State) : Prop where
  rest  : t = { st with bsPay := t.bsPay, rawBuf := t.rawBuf }
  mode  : t.bsPay.mode = st.bsPay.mode
  limit : t.bsPay.limit = st.bsPay.limit
  raw   : ∀ a, ¬ (lo ≤ a ∧ a < hi) → t.memRead .raw a = st.memRead .raw a
  ok    : BufferOk st.rawBuf (st.bufSize .raw) → BufferOk t.rawBuf (t.bufSize .raw)

theorem DecodeFrame.refl (k : Nat) (st : State) : DecodeFrame k k st st := ⟨rfl, rfl, rfl, fun _ _ => rfl, id⟩

theorem DecodeFrame.trans {a b c : Nat} {st t u : State} (hab : a ≤ b) (hbc : b ≤ c) (h : DecodeFrame a b st t)
    (h' : DecodeFrame b c t u) : DecodeFrame a c st u where
  rest := by rw [h'.rest]; conv_lhs => rw [h.rest]
  mode := h'.mode.trans h.mode
  limit := h'.limit.trans h.limit
  raw x hx := by rw [h'.raw x (by omega), h.raw x (by omega)]
  ok := h'.ok ∘ h.ok

theorem DecodeFrame.of_reader {st t : State} (k : Nat) (h : ReaderFrame .pay st t) : DecodeFrame k k st t := by
  refine ⟨by rw [h.rest]; rfl, h.mode, h.limit, fun a _ => h.memRead .raw a, fun hb => ?_⟩
  rw [h.rest]; exact hb

theorem DecodeFrame.arena {a b : Nat} {st t : State} (h : DecodeFrame a b st t) :
    t.arena = st.arena ∧ t.arenaCount = st.arenaCount := by
  constructor <;> rw [h.rest]

theorem DecodeFrame.root {a b : Nat} {st t : State} (h : DecodeFrame a b st t) : t.root = st.root := by rw [h.rest]

theorem DecodeFrame.rawSize {a b : Nat} {st t : State} (h : DecodeFrame a b st t) :
    t.bufSize .raw = st.bufSize .raw := by
  rw [h.rest]; rfl

theorem DecodeFrame.of_write {st : State} {k : Nat} (hk : k < st.bufSize .raw) (y : Byte) :
    DecodeFrame k (k + 1) st (st.memWrite .raw k y) := by
  have e : st.memWrite .raw k y = { st with rawBuf := Memory.write st.rawBuf k y } := by
    unfold State.memWrite; rw [if_pos hk]; rfl
  refine ⟨by rw [e], by rw [e], by rw [e], fun a ha => State.memRead_memWrite_ne (.inr (by omega)), fun hb => ?_⟩
  rw [e]; exact hb.write hk y

theorem ReaderOk.memWrite_raw {st : State} (h : ReaderOk st .pay) (k : Nat) (y : Byte) :
    ReaderOk (st.memWrite .raw k y) .pay ∧ (st.memWrite .raw k y).unread .pay = st.unread .pay := by
  unfold State.memWrite
  split
  · exact ⟨⟨h.mode, h.ok⟩, rfl⟩
  · exact ⟨h, rfl⟩

/-- One symbol of DECODE's loop. -/
theorem decodeSymbol_some {T : Tree} {st : State} {k : Nat} {y : Symbol} {rest : List Bool} (hT : Holds st T st.root)
    (hw : ReaderOk st .pay) (hb : BufferOk st.rawBuf (st.bufSize .raw)) (hk : k < st.bufSize .raw)
    (h : T.walk (st.unread .pay) = some (y, rest)) :
    ∃ t, decodeSymbol k st = .ok () t ∧ ReaderOk t .pay ∧ t.unread .pay = rest ∧ t.memRead .raw k = y ∧
      DecodeFrame k (k + 1) st t := by
  obtain ⟨u, e, r, hu, f⟩ := walk_some hT (Nat.lt_succ_self _) hw h
  have hs := f.bufSize .raw
  have fr := DecodeFrame.of_reader k f
  obtain ⟨r', hu'⟩ := r.memWrite_raw k y
  refine ⟨u.memWrite .raw k y, ?_, r', hu'.trans hu, ?_, fr.trans (Nat.le_refl _) (Nat.le_succ _)
    (.of_write (by rw [hs]; exact hk) y)⟩
  · unfold decodeSymbol
    rw [e, Result.andThen_ok, if_neg (by rw [hs]; omega)]
  · exact State.memRead_memWrite_same (fr.ok hb).1 (by rw [hs]; exact hk)

/-- DECODE's loop while the bits give symbols and RAW has room (R195). -/
theorem decodeLoop_some {T : Tree} (n k : Nat) {st : State} {ys : List Symbol} {rest : List Bool}
    (hT : Holds st T st.root) (hw : ReaderOk st .pay) (hb : BufferOk st.rawBuf (st.bufSize .raw))
    (hk : k + n ≤ st.bufSize .raw) (h : T.decodeMany n (st.unread .pay) = some (ys, rest)) :
    ∃ t, forLoop decodeSymbol n k st = .ok () t ∧ ReaderOk t .pay ∧ t.unread .pay = rest ∧
      t.rawFrom k n = ys ∧ DecodeFrame k (k + n) st t := by
  induction n generalizing k st ys with
  | zero =>
    simp only [Tree.decodeMany, Option.some.injEq, Prod.mk.injEq] at h
    exact ⟨st, rfl, hw, h.2, by rw [← h.1]; rfl, .refl k st⟩
  | succ n ih =>
    simp only [Tree.decodeMany] at h
    cases h1 : T.walk (st.unread .pay) with
    | none => rw [h1] at h; cases h
    | some p =>
      obtain ⟨y, bs⟩ := p
      rw [h1] at h
      simp only at h
      cases h2 : T.decodeMany n bs with
      | none => rw [h2] at h; cases h
      | some q =>
        obtain ⟨zs, r⟩ := q
        rw [h2] at h
        simp only [Option.some.injEq, Prod.mk.injEq] at h
        obtain ⟨rfl, rfl⟩ := h
        obtain ⟨t, e, w, u, m, f⟩ := decodeSymbol_some (k := k) hT hw hb (by omega) h1
        obtain ⟨t', e', w', u', m', f'⟩ := ih (k + 1) (st := t) (ys := zs)
          (by rw [f.root]; exact hT.of_arena f.arena) w (f.ok hb) (by rw [f.rawSize]; omega) (by rw [u]; exact h2)
        refine ⟨t', by rw [forLoop, e, Result.andThen_ok, e'], w', u', ?_, ?_⟩
        · rw [State.rawFrom_succ, m', f'.raw k (by omega), m]
        · rw [show k + (n + 1) = k + 1 + n by omega]
          exact f.trans (by omega) (by omega) f'

/-- DECODE's loop when the bits run out in the walk for symbol number `j` (R195, R196). -/
theorem decodeLoop_truncated {T : Tree} {n j : Nat} {st : State} {ys : List Symbol} {rest : List Bool}
    (hT : Holds st T st.root) (hw : ReaderOk st .pay) (hb : BufferOk st.rawBuf (st.bufSize .raw)) (hj : j < n)
    (hk : j ≤ st.bufSize .raw) (h : T.decodeMany j (st.unread .pay) = some (ys, rest)) (hn : T.walk rest = none) :
    ∃ t, forLoop decodeSymbol n 0 st = .raised .truncated t ∧ ReaderOk t .pay ∧ t.unread .pay = [] ∧
      t.rawBytes j = ys ∧ DecodeFrame 0 j st t := by
  obtain ⟨t, e, w, u, m, f⟩ := decodeLoop_some j 0 hT hw hb (by omega) h
  have hT' : Holds t T t.root := by rw [f.root]; exact hT.of_arena f.arena
  obtain ⟨v, e', w', u', f'⟩ := walk_none hT' (Nat.lt_succ_self _) w (by rw [u]; exact hn)
  have fr := DecodeFrame.of_reader j f'
  refine ⟨v, ?_, w', u', ?_, ?_⟩
  · rw [show n = j + (1 + (n - j - 1)) by omega, forLoop_add, e, Result.andThen_ok, Nat.add_comm 1, forLoop]
    unfold decodeSymbol
    rw [e']
    rfl
  · rw [← m, State.rawFrom_zero]
    unfold State.rawBytes
    exact List.map_congr_left fun i hi => fr.raw i (by have := List.mem_range.1 hi; omega)
  · have f0 : DecodeFrame 0 j st t := by rw [Nat.zero_add] at f; exact f
    exact f0.trans (Nat.zero_le _) (Nat.le_refl _) fr

/-- DECODE's loop when RAW has no room for symbol number `RAW_BUF_BYTES` (R195). -/
theorem decodeLoop_overflow {T : Tree} {n : Nat} {st : State} {ys : List Symbol} {rest bits : List Bool} {y : Symbol}
    (hT : Holds st T st.root) (hw : ReaderOk st .pay) (hb : BufferOk st.rawBuf (st.bufSize .raw))
    (hn : st.bufSize .raw < n) (h : T.decodeMany (st.bufSize .raw) (st.unread .pay) = some (ys, bits))
    (h1 : T.walk bits = some (y, rest)) :
    ∃ t, forLoop decodeSymbol n 0 st = .raised .overflow t ∧ ReaderOk t .pay ∧ t.unread .pay = rest ∧
      t.rawBytes (st.bufSize .raw) = ys ∧ DecodeFrame 0 (st.bufSize .raw) st t := by
  obtain ⟨t, e, w, u, m, f⟩ := decodeLoop_some (st.bufSize .raw) 0 hT hw hb (by omega) h
  have hT' : Holds t T t.root := by rw [f.root]; exact hT.of_arena f.arena
  obtain ⟨v, e', w', u', f'⟩ := walk_some hT' (Nat.lt_succ_self _) w (by rw [u]; exact h1)
  have fr := DecodeFrame.of_reader (st.bufSize .raw) f'
  have hs : v.bufSize .raw = st.bufSize .raw := by rw [fr.rawSize, f.rawSize]
  refine ⟨v, ?_, w', u', ?_, ?_⟩
  · rw [show n = st.bufSize .raw + (1 + (n - st.bufSize .raw - 1)) by omega, forLoop_add, e, Result.andThen_ok,
      Nat.add_comm 1, forLoop]
    unfold decodeSymbol
    rw [e', Result.andThen_ok, if_pos (by rw [hs]; omega)]
    rfl
  · rw [← m, State.rawFrom_zero]
    unfold State.rawBytes
    exact List.map_congr_left fun i hi => fr.raw i (by have := List.mem_range.1 hi; omega)
  · have f0 : DecodeFrame 0 (st.bufSize .raw) st t := by rw [Nat.zero_add] at f; exact f
    exact f0.trans (Nat.zero_le _) (Nat.le_refl _) fr

/-! ## Codes and walks -/

/-- With a tree that fits the depth bound and has two or more leaves, walking along the codes gives the symbols back. -/
theorem Tree.decodeMany_codes {T : Tree} (hd : T.depth < 64) (h2 : 2 ≤ T.leaves) {ys : List Symbol}
    (h : ∀ y ∈ ys, (T.codeOf y).len ≠ 0) (rest : List Bool) :
    T.decodeMany ys.length ((ys.flatMap fun y => (T.codeOf y).bits) ++ rest) = some (ys, rest) := by
  induction ys with
  | nil => rfl
  | cons y ys ih =>
    have hy := h y (List.mem_cons_self ..)
    rcases T.codeOf_spec y with ⟨e, _⟩ | ⟨p, hp, e⟩
    · rw [e] at hy; exact absurd rfl hy
    · have hl := Tree.length_path_le hp
      have hne : p ≠ [] := by
        rintro rfl
        rw [Tree.leaf_of_nil_path hp] at h2
        simp [Tree.leaves] at h2
      rw [List.length_cons, Tree.decodeMany, List.flatMap_cons, e, pathCode_bits (by omega), if_neg hne,
        List.append_assoc, Tree.walk_path hp]
      simp only
      rw [ih fun z hz => h z (List.mem_cons_of_mem _ hz)]

/-- A one-leaf tree gives its symbol without a bit (R197). -/
theorem Tree.decodeMany_leaf (y : Symbol) (n : Nat) (bs : List Bool) :
    (Tree.leaf y).decodeMany n bs = some (List.replicate n y, bs) := by
  induction n with
  | zero => rfl
  | succ n ih => rw [Tree.decodeMany]; simp only [Tree.walk]; rw [ih]; rfl

/-- Every leaf of a tree that fits the depth bound has a code of 1 to 63 bits (R163). -/
theorem Tree.codeOf_len {T : Tree} (hd : T.depth < 64) {y : Symbol} (h : y ∈ T.paths.map Prod.fst) :
    (T.codeOf y).len ≠ 0 ∧ (T.codeOf y).len.toNat ≤ 63 := by
  obtain ⟨⟨z, p⟩, hp, rfl⟩ := List.mem_map.1 h
  rcases T.codeOf_spec z with ⟨_, h'⟩ | ⟨q, hq, e⟩
  · exact absurd hp (h' p)
  · have hl := Tree.length_path_le hq
    have := pathCode_len (p := q) (by omega)
    rw [e]
    constructor
    · intro h0
      have : (pathCode q).len.toNat = 0 := by rw [h0]; rfl
      rename_i h1
      by_cases hq0 : q = []
      · rw [if_pos hq0] at h1; omega
      · rw [if_neg hq0, this] at h1
        exact hq0 (List.length_eq_zero_iff.1 h1.symm)
    · split at this <;> omega

/-- With distinct symbols every leaf's path is its code. -/
theorem Tree.codeOf_path {T : Tree} (hn : (T.paths.map Prod.fst).Nodup) {y : Symbol}
    {p : List Bool} (h : (y, p) ∈ T.paths) : T.codeOf y = pathCode p := by
  rcases T.codeOf_spec y with ⟨_, h'⟩ | ⟨q, hq, e⟩
  · exact absurd h (h' p)
  · have : ((y, p) : Symbol × List Bool) = (y, q) := List.inj_on_of_nodup_map hn h hq rfl
    rw [e, (Prod.mk.inj this).2]

/-- The lengths of a tree's paths fill the code space (R163). -/
theorem Tree.kraft (T : Tree) :
    ∀ k, T.depth ≤ k → (T.paths.map fun p => 2 ^ (k - p.2.length)).sum = 2 ^ k := by
  induction T with
  | leaf y => intro k _; simp [Tree.paths]
  | node l r ihl ihr =>
    intro k hk
    simp only [Tree.depth] at hk
    obtain ⟨j, rfl⟩ : ∃ j, k = j + 1 := ⟨k - 1, by omega⟩
    have := ihl j (by omega)
    have := ihr j (by omega)
    simp only [Tree.paths, List.map_append, List.map_map, List.sum_append, Function.comp_def,
      List.length_cons, Nat.add_sub_add_right]
    omega

/-- Whatever the number of leaves, walking along the codes gives the symbols back; what bits are left is not said. -/
theorem Tree.decodeMany_all {T : Tree} (hd : T.depth < 64) {ys : List Symbol}
    (h : ∀ y ∈ ys, y ∈ T.paths.map Prod.fst) (rest : List Bool) :
    ∃ r, T.decodeMany ys.length ((ys.flatMap fun y => (T.codeOf y).bits) ++ rest) = some (ys, r) := by
  by_cases h2 : 2 ≤ T.leaves
  · exact ⟨rest, Tree.decodeMany_codes hd h2 (fun y hy => (Tree.codeOf_len hd (h y hy)).1) rest⟩
  · cases T with
    | leaf y =>
      refine ⟨(ys.flatMap fun z => ((Tree.leaf y).codeOf z).bits) ++ rest,
        (Tree.decodeMany_leaf y _ _).trans ?_⟩
      rw [show ys = List.replicate ys.length y from
        List.eq_replicate_iff.2 ⟨rfl, fun z hz => by simpa [Tree.paths] using h z hz⟩]
      simp
    | node l r =>
      have := l.leaves_pos; have := r.leaves_pos
      simp only [Tree.leaves] at h2; omega

end Sys2Proof.Machine
end

