-- ==== Sys2Proof/Laws/Exec.lean ====
section
/-! SUPPORT. Every command is a body and the epilogue; what the bodies can touch, raise and store. -/

namespace Sys2Proof.Machine

/-- What a meaning gives `finish` is its command's body. -/
theorem exec_eq_body (i : Instr) (st : State) : exec i st = finish (body i st) := by
  cases i <;> rfl

theorem endsOk_of_body {i : Instr} {st t : State} {v : Word} (h : body i st = .ok v t) : EndsOk (exec i st) v t := by
  rw [exec_eq_body, h]; rfl

theorem endsIn_of_body {i : Instr} {st t : State} {k : ErrorKind} (h : body i st = .raised k t) :
    EndsIn (exec i st) k t := by
  rw [exec_eq_body, h]
  exact ⟨_, _, rfl⟩

/-- Every command ends with a next state; which one, by what its body did. -/
theorem exec_cases (i : Instr) (st : State) :
    (∃ v t, body i st = .ok v t ∧ exec i st = .next (t.endOk v)) ∨
      ∃ k t, body i st = .raised k t ∧ exec i st = .next (t.endError k) := by
  rw [exec_eq_body]
  cases h : body i st with
  | ok v t => exact .inl ⟨v, t, rfl, rfl⟩
  | raised k t => exact .inr ⟨k, t, rfl, rfl⟩

/-- The state a body leaves, seen through the epilogue: the fields the epilogue does not write. -/
theorem exec_next {i : Instr} {st t : State} (h : exec i st = .next t) :
    ∃ u, u = (body i st).state ∧
      ((t = u.endOk t.result ∧ (∃ v, body i st = .ok v u)) ∨ ∃ k, t = u.endError k ∧ body i st = .raised k u) := by
  rcases exec_cases i st with ⟨v, u, e, e'⟩ | ⟨k, u, e, e'⟩
  · rw [e'] at h
    injection h with h
    subst h
    exact ⟨u, by rw [e]; rfl, .inl ⟨rfl, v, e⟩⟩
  · rw [e'] at h
    injection h with h
    subst h
    exact ⟨u, by rw [e]; rfl, .inr ⟨k, rfl, e⟩⟩

/-! ## What no body touches -/

/-- The registers only the host and the epilogue write, and the model's own fields. -/
structure Kept (st t : State) : Prop where
  arg0    : t.arg0 = st.arg0
  result  : t.result = st.result
  status  : t.status = st.status
  errlog  : t.errlog = st.errlog
  params  : t.params = st.params
  host    : t.host = st.host
  reply   : t.reply = st.reply
  freeIdx : t.freeIdx = st.freeIdx

theorem Kept.refl (st : State) : Kept st st := ⟨rfl, rfl, rfl, rfl, rfl, rfl, rfl, rfl⟩

theorem OnlyWriter.kept {s : StreamSel} {st t : State} (h : OnlyWriter s st t) : Kept st t := by
  unfold OnlyWriter at h
  constructor <;> (rw [h]; cases s <;> rfl)

theorem OnlyStream.kept {s : StreamSel} {st t : State} (h : OnlyStream s st t) : Kept st t := h.writer.kept

theorem OnlyFreq.kept {st t : State} (h : OnlyFreq st t) : Kept st t := by
  unfold OnlyFreq at h
  constructor <;> rw [h]

theorem OnlyCode.kept {st t : State} (h : OnlyCode st t) : Kept st t := by
  unfold OnlyCode at h
  constructor <;> rw [h]

theorem OnlyTree.kept {st t : State} (h : OnlyTree st t) : Kept st t := by
  unfold OnlyTree at h
  constructor <;> rw [h]

theorem OnlyLoad.kept {st t : State} (h : OnlyLoad st t) : Kept st t := by
  unfold OnlyLoad at h
  constructor <;> rw [h]

theorem OnlyDecode.kept {st t : State} (h : OnlyDecode st t) : Kept st t := by
  unfold OnlyDecode at h
  constructor <;> rw [h]

@[simp] theorem Result.state_andThen_unit {α β : Type} (r : Result α) (f : α → β) :
    (r.andThen fun a t => .ok (f a) t).state = r.state := by
  cases r <;> rfl

theorem state_freqCount {r : Result Unit} :
    (r.andThen fun _ st => Result.ok (st.rawLen.zeroExtend 64 : Word) st).state = r.state := by
  cases r <;> rfl

theorem onlyStream_inMode {s : StreamSel} {m : StreamMode} {α : Type} {f : State → Result α}
    (hf : ∀ st, OnlyStream s st (f st).state) (st : State) : OnlyStream s st (inMode s m st f).state :=
  (frame_onlyStream s).inMode hf st

theorem onlyWriter_inMode {s : StreamSel} {m : StreamMode} {α : Type} {f : State → Result α}
    (hf : ∀ st, OnlyWriter s st (f st).state) (st : State) : OnlyWriter s st (inMode s m st f).state :=
  (frame_onlyWriter s).inMode hf st

/-- The relation that says what a command's body can touch. -/
def touches : Instr → State → State → Prop
  | .nop, st, t           => t = st
  | .ctxReset, st, t      => t = st.freshContext
  | .bsOpenW s, st, t     => OnlyStream s st t
  | .bsOpenR s, st, t     => OnlyStream s st t
  | .writeBit s, st, t    => OnlyWriter s st t
  | .writeBits s _, st, t => OnlyWriter s st t
  | .finalize s, st, t    => OnlyWriter s st t
  | .readBit s, st, t     => OnlyStream s st t
  | .readBits s _, st, t  => OnlyStream s st t
  | .freqClear, st, t     => OnlyFreq st t
  | .freqCount, st, t     => OnlyFreq st t
  | .build, st, t         => OnlyTree st t
  | .codegen, st, t       => OnlyCode st t
  | .treeSave, st, t      => OnlyWriter .tree st t
  | .treeLoad, st, t      => OnlyLoad st t
  | .encode, st, t        => OnlyWriter .pay st t
  | .decode, st, t        => OnlyDecode st t

/-- Every body touches only what its command may. -/
theorem body_touches (i : Instr) (st : State) : touches i st (body i st).state := by
  cases i with
  | nop => rfl
  | ctxReset => rfl
  | bsOpenW s => simp only [touches, body, Result.state_andThen_unit]; exact onlyStream_openStream ..
  | bsOpenR s => simp only [touches, body, Result.state_andThen_unit]; exact onlyStream_openStream ..
  | writeBit s =>
    simp only [touches, body, writeBitBody, Result.state_andThen_unit]
    exact onlyWriter_inMode (fun st => onlyWriter_writeBit ..) st
  | writeBits s n =>
    simp only [touches, body, writeBitsBody, Result.state_andThen_unit]
    exact onlyWriter_inMode (fun st => onlyWriter_writeBits ..) st
  | finalize s =>
    simp only [touches, body, finalizeBody]
    refine onlyWriter_inMode (fun st => ?_) st
    rw [Result.state_andThen_unit]; exact onlyWriter_finalize ..
  | readBit s =>
    simp only [touches, body, readBitBody]
    refine onlyStream_inMode (fun st => ?_) st
    rw [Result.state_andThen_unit]; exact onlyStream_readBit ..
  | readBits s n => exact onlyStream_inMode (fun st => onlyStream_readBitsFrom ..) st
  | freqClear => rfl
  | freqCount =>
    simp only [touches, body, freqCountBody]
    split
    · exact frame_onlyFreq.refl st
    · rw [state_freqCount]
      exact frame_onlyFreq.trans (t := st.clearFreq) rfl (frame_onlyFreq.forLoop onlyFreq_countByte _ _ _)
  | build => exact onlyTree_buildTree st
  | codegen => simp only [touches, body, Result.state_andThen_unit]; exact onlyCode_generateCodes st
  | treeSave =>
    simp only [touches, body, treeSaveBody, Result.state_andThen_unit]
    refine onlyWriter_inMode (fun st => ?_) st
    split
    · exact onlyWriter_saveNode ..
    · exact (frame_onlyWriter _).refl st
  | treeLoad => exact frame_onlyLoad.inMode (s := .tree) onlyLoad_loadTree st
  | encode =>
    simp only [touches, body, encodeBody, Result.state_andThen_unit]
    refine onlyWriter_inMode (fun st => ?_) st
    split
    · exact (frame_onlyWriter _).refl st
    · exact (frame_onlyWriter _).forLoop onlyWriter_encodeByte _ _ _
  | decode => exact frame_onlyDecode.inMode (s := .pay) onlyDecode_decodePayload st

theorem touches_kept {i : Instr} {st t : State} (h : touches i st t) : Kept st t := by
  cases i <;> simp only [touches] at h
  case nop => subst h; exact Kept.refl _
  case ctxReset => subst h; exact ⟨rfl, rfl, rfl, rfl, rfl, rfl, rfl, rfl⟩
  all_goals first
    | exact OnlyWriter.kept h
    | exact OnlyStream.kept h
    | exact OnlyFreq.kept h
    | exact OnlyCode.kept h
    | exact OnlyTree.kept h
    | exact OnlyLoad.kept h
    | exact OnlyDecode.kept h

theorem body_kept (i : Instr) (st : State) : Kept st (body i st).state := touches_kept (body_touches i st)

/-! ## What the bodies raise -/

theorem writeBit_raises {s : StreamSel} {b : Bool} {st t : State} {k : ErrorKind} (h : writeBit s b st = .raised k t) :
    k = .overflow := by
  unfold writeBit at h
  simp only at h
  split at h
  · cases h
  · split at h
    · injection h with h; exact h.symm
    · cases h

theorem Result.andThen_raised_cases {α β : Type} {r : Result α} {f : α → State → Result β} {k : ErrorKind} {t : State}
    (h : r.andThen f = .raised k t) : r = .raised k t ∨ ∃ a u, r = .ok a u ∧ f a u = .raised k t := by
  cases r with
  | ok a u => exact .inr ⟨a, u, rfl, h⟩
  | raised k' u => left; injection h with h1 h2; rw [h1, h2]

theorem writeList_raises {s : StreamSel} {bs : List Bool} {st t : State} {k : ErrorKind}
    (h : writeList s bs st = .raised k t) : k = .overflow := by
  induction bs generalizing st with
  | nil => cases h
  | cons b bs ih =>
    rcases Result.andThen_raised_cases h with h | ⟨_, u, _, h⟩
    · exact writeBit_raises h
    · exact ih h

theorem writeBits_raises {s : StreamSel} {v : Word} {n : Nat} {st t : State} {k : ErrorKind}
    (h : writeBits s v n st = .raised k t) : k = .overflow := by
  rw [writeBits_eq_writeList] at h
  exact writeList_raises h

theorem finalize_raises {s : StreamSel} {st t : State} {k : ErrorKind} (h : finalize s st = .raised k t) :
    k = .overflow := by
  unfold finalize at h
  simp only at h
  split at h
  · cases h
  · split at h
    · injection h with h; exact h.symm
    · cases h

theorem openStream_raises {s : StreamSel} {m : StreamMode} {st t : State} {k : ErrorKind}
    (h : openStream s m st = .raised k t) : k = .illegalCommand := by
  unfold openStream at h
  split at h
  · injection h with h; exact h.symm
  · split at h
    · injection h with h; exact h.symm
    · cases h

theorem inMode_raises {α : Type} {s : StreamSel} {m : StreamMode} {st t : State} {f : State → Result α} {k : ErrorKind}
    (h : inMode s m st f = .raised k t) : k = .illegalCommand ∨ f st = .raised k t := by
  unfold inMode at h
  split at h
  · exact .inr h
  · injection h with h; exact .inl h.symm

theorem forLoop_raises {body : Nat → State → Result Unit} {P : ErrorKind → Prop}
    (hb : ∀ i st t k, body i st = .raised k t → P k) {n i : Nat} {st t : State} {k : ErrorKind}
    (h : forLoop body n i st = .raised k t) : P k := by
  induction n generalizing i st with
  | zero => cases h
  | succ n ih =>
    rcases Result.andThen_raised_cases h with h | ⟨_, u, _, h⟩
    · exact hb _ _ _ _ h
    · exact ih h

theorem visit_raises {left : Nat} {i : NodeIdx} {pat : Word} {st t : State} {k : ErrorKind}
    (h : visit left i pat st = .raised k t) : k = .capacityExceeded ∨ k = .corruptTree := by
  induction left generalizing i pat st with
  | zero => injection h with h; exact .inl h.symm
  | succ left ih =>
    unfold visit at h
    split at h
    · injection h with h; exact .inr h.symm
    · split at h
      · cases h
      · split at h
        · injection h with h; exact .inr h.symm
        · rcases Result.andThen_raised_cases h with h | ⟨_, u, _, h⟩
          · exact ih h
          · split at h
            · injection h with h; exact .inr h.symm
            · exact ih h

theorem saveNode_raises {fuel : Nat} {i : NodeIdx} {st t : State} {k : ErrorKind}
    (h : saveNode fuel i st = .raised k t) : k = .overflow ∨ k = .corruptTree := by
  induction fuel generalizing i st with
  | zero => injection h with h; exact .inr h.symm
  | succ fuel ih =>
    unfold saveNode at h
    split at h
    · injection h with h; exact .inr h.symm
    · split at h
      · rcases Result.andThen_raised_cases h with h | ⟨_, u, _, h⟩
        · exact .inl (writeBit_raises h)
        · exact .inl (writeBits_raises h)
      · rcases Result.andThen_raised_cases h with h | ⟨_, u, _, h⟩
        · exact .inl (writeBit_raises h)
        · split at h
          · injection h with h; exact .inr h.symm
          · rcases Result.andThen_raised_cases h with h | ⟨_, v, _, h⟩
            · exact ih h
            · split at h
              · injection h with h; exact .inr h.symm
              · exact ih h

theorem encodeByte_raises {i : Nat} {st t : State} {k : ErrorKind} (h : encodeByte i st = .raised k t) :
    k = .unencodableSymbol ∨ k = .overflow := by
  unfold encodeByte at h
  simp only at h
  split at h
  · injection h with h; exact .inl h.symm
  · exact .inr (writeBits_raises h)

theorem walk_raises {fuel : Nat} {i : NodeIdx} {st t : State} {k : ErrorKind} (h : walk fuel i st = .raised k t) :
    k = .truncated ∨ k = .corruptTree := by
  induction fuel generalizing i st with
  | zero => injection h with h; exact .inr h.symm
  | succ fuel ih =>
    unfold walk at h
    split at h
    · injection h with h; exact .inr h.symm
    · split at h
      · cases h
      · rcases Result.andThen_raised_cases h with h | ⟨_, u, _, h⟩
        · exact .inl (readBit_raised h).1
        · split at h
          · injection h with h; exact .inr h.symm
          · exact ih h

theorem decodeSymbol_raises {i : Nat} {st t : State} {k : ErrorKind} (h : decodeSymbol i st = .raised k t) :
    k = .truncated ∨ k = .corruptTree ∨ k = .overflow := by
  rcases Result.andThen_raised_cases h with h | ⟨_, u, _, h⟩
  · rcases walk_raises h with h | h <;> simp [h]
  · split at h
    · injection h with h; exact .inr (.inr h.symm)
    · cases h

/-- The rows of R222. -/
theorem body_raises {i : Instr} {st t : State} {k : ErrorKind} (h : body i st = .raised k t) : k ∈ errorsOf i := by
  have unit : ∀ {r : Result Unit}, (r.andThen fun _ t => .ok (0 : Word) t) = .raised k t → r = .raised k t := by
    intro r h
    rcases Result.andThen_raised_cases h with h | ⟨_, u, _, h⟩
    · exact h
    · cases h
  cases i with
  | nop => cases h
  | ctxReset => cases h
  | bsOpenW s => simp [errorsOf, openStream_raises (unit h)]
  | bsOpenR s => simp [errorsOf, openStream_raises (unit h)]
  | writeBit s =>
    rcases inMode_raises (unit h) with h | h
    · simp [errorsOf, h]
    · simp [errorsOf, writeBit_raises h]
  | writeBits s n =>
    rcases inMode_raises (unit h) with h | h
    · simp [errorsOf, h]
    · simp [errorsOf, writeBits_raises h]
  | finalize s =>
    simp only [body, finalizeBody] at h
    rcases inMode_raises h with h | h
    · simp [errorsOf, h]
    · rcases Result.andThen_raised_cases h with h | ⟨_, u, _, h⟩
      · simp [errorsOf, finalize_raises h]
      · cases h
  | readBit s =>
    simp only [body, readBitBody] at h
    rcases inMode_raises h with h | h
    · simp [errorsOf, h]
    · rcases Result.andThen_raised_cases h with h | ⟨_, u, _, h⟩
      · simp [errorsOf, (readBit_raised h).1]
      · cases h
  | readBits s n =>
    simp only [body, readBitsBody] at h
    rcases inMode_raises h with h | h
    · simp [errorsOf, h]
    · simp [errorsOf, readBitsFrom_raised h]
  | freqClear => cases h
  | freqCount =>
    simp only [body, freqCountBody] at h
    split at h
    · injection h with h; simp [errorsOf, ← h]
    · rcases Result.andThen_raised_cases h with h | ⟨_, u, _, h⟩
      · exact absurd (forLoop_raises (body := countByte) (P := fun _ => False) (fun i st t k h => by cases h) h) id
      · cases h
  | build =>
    change buildTree st = _ at h
    rcases buildTree_cases st with ⟨_, e⟩ | ⟨_, _, u, T, e, _⟩ | ⟨_, u, gs, e, _⟩ <;> rw [e] at h
    · injection h with h; simp [errorsOf, ← h]
    · cases h
    · injection h with h; simp [errorsOf, ← h]
  | codegen =>
    have h := unit h
    unfold generateCodes at h
    simp only at h
    split at h
    · rcases visit_raises h with h | h <;> simp [errorsOf, h]
    · injection h with h; simp [errorsOf, ← h]
  | treeSave =>
    rcases inMode_raises (unit h) with h | h
    · simp [errorsOf, h]
    · split at h
      · rcases saveNode_raises h with h | h <;> simp [errorsOf, h]
      · injection h with h; simp [errorsOf, ← h]
  | treeLoad =>
    rcases inMode_raises h with h | h
    · simp [errorsOf, h]
    · rcases loadTree_cases st with ⟨T, u, e, _⟩ | ⟨k', u, e, hk, _⟩ <;> rw [e] at h
      · cases h
      · injection h with h; subst h
        rcases hk with rfl | rfl <;> simp [errorsOf]
  | encode =>
    rcases inMode_raises (unit h) with h | h
    · simp [errorsOf, h]
    · split at h
      · injection h with h; simp [errorsOf, ← h]
      · rcases forLoop_raises (P := fun k => k = .unencodableSymbol ∨ k = .overflow)
          (fun i st t k h => encodeByte_raises h) h with h | h <;> simp [errorsOf, h]
  | decode =>
    rcases inMode_raises h with h | h
    · simp [errorsOf, h]
    · unfold decodePayload at h
      split at h
      · injection h with h; simp [errorsOf, ← h]
      · split at h
        · rcases Result.andThen_raised_cases h with h | ⟨_, u, _, h⟩
          · rcases forLoop_raises (P := fun k => k = .truncated ∨ k = .corruptTree ∨ k = .overflow)
              (fun i st t k h => decodeSymbol_raises h) h with h | h | h <;> simp [errorsOf, h]
          · cases h
        · injection h with h; simp [errorsOf, ← h]

end Sys2Proof.Machine
end

