-- ==== Sys2Proof/Laws/Blind.lean ====
section
/-! SUPPORT. What the commands do not look at: the registers only the host and the epilogue write, and the model's own fields,
but for the operand in `ARG0` (R43, R82). -/

namespace Sys2Proof.Machine

/-- Values for the fields that no command's own rule changes, the parameters apart. -/
structure Side where
  arg0    : Word
  result  : Word
  status  : ResultCode
  errlog  : BitVec 8
  host    : List HostTxn
  reply   : Word
  freeIdx : Nat

/-- The state with those fields set. -/
def State.side (x : Side) (st : State) : State :=
  { st with arg0 := x.arg0, result := x.result, status := x.status, errlog := x.errlog, host := x.host,
            reply := x.reply, freeIdx := x.freeIdx }

/-- A procedure's outcome with those fields of its state set. -/
def Result.side {α : Type} (x : Side) : Result α → Result α
  | .ok a st     => .ok a (st.side x)
  | .raised k st => .raised k (st.side x)

variable {x : Side} {st : State}

@[simp] theorem Result.side_ok {α : Type} (a : α) (st : State) : (Result.ok a st).side x = .ok a (st.side x) := rfl

@[simp] theorem Result.side_raised {α : Type} (k : ErrorKind) (st : State) :
    (Result.raised k st : Result α).side x = .raised k (st.side x) := rfl

/-- Two procedures in a row, neither of which looks at the side fields. -/
theorem Result.side_andThen {α β : Type} {r r' : Result α} {f : α → State → Result β} (h : r' = r.side x)
    (hf : ∀ a t, f a (t.side x) = (f a t).side x) : r'.andThen f = (r.andThen f).side x := by
  subst h
  cases r with
  | ok a t     => exact hf a t
  | raised k t => rfl

theorem forLoop_side {body : Nat → State → Result Unit} (hb : ∀ i t, body i (t.side x) = (body i t).side x) (n i : Nat)
    (st : State) : forLoop body n i (st.side x) = (forLoop body n i st).side x := by
  induction n generalizing i st with
  | zero => rfl
  | succ n ih => exact Result.side_andThen (hb i st) fun _ t => ih (i + 1) t

/-! ## The parts of the state -/

@[simp] theorem State.bs_side (s : StreamSel) : (st.side x).bs s = st.bs s := by cases s <;> rfl

@[simp] theorem State.bufSize_side (sp : Space) : (st.side x).bufSize sp = st.bufSize sp := by cases sp <;> rfl

@[simp] theorem State.memRead_side (sp : Space) (a : Nat) : (st.side x).memRead sp a = st.memRead sp a := by
  cases sp <;> rfl

theorem State.setBs_side (s : StreamSel) (q : Stream) : (st.side x).setBs s q = (st.setBs s q).side x := by
  cases s <;> rfl

theorem State.memWrite_side (sp : Space) (a : Nat) (v : Byte) :
    (st.side x).memWrite sp a v = (st.memWrite sp a v).side x := by
  unfold State.memWrite
  rw [State.bufSize_side]
  split
  · cases sp <;> rfl
  · rfl

theorem inMode_side {α : Type} {s : StreamSel} {m : StreamMode} {f : State → Result α}
    (hf : f (st.side x) = (f st).side x) : inMode s m (st.side x) f = (inMode s m st f).side x := by
  unfold inMode
  rw [State.bs_side]
  split
  · exact hf
  · rfl

/-! ## Streams -/

theorem writeBit_side (s : StreamSel) (b : Bool) (st : State) : writeBit s b (st.side x) = (writeBit s b st).side x := by
  unfold writeBit
  simp only [State.bs_side, State.memWrite_side, State.setBs_side]
  split
  · rfl
  · split <;> rfl

theorem writeBits_side (s : StreamSel) (v : Word) (n : Nat) (st : State) :
    writeBits s v n (st.side x) = (writeBits s v n st).side x := by
  induction n generalizing st with
  | zero => rfl
  | succ n ih => exact Result.side_andThen (writeBit_side ..) fun _ t => ih t

/-- WRITE_BITS looks at the low `n` bits alone (R104). -/
theorem writeBits_congr (s : StreamSel) {v w : Word} {n : Nat} (h : ∀ j, j < n → v.getLsbD j = w.getLsbD j) (st : State) :
    writeBits s v n st = writeBits s w n st := by
  induction n generalizing st with
  | zero => rfl
  | succ n ih =>
    rw [writeBits, writeBits, h n (Nat.lt_succ_self n)]
    congr 1
    funext _ t
    exact ih (fun j hj => h j (Nat.lt_succ_of_lt hj)) t

theorem finalize_side (s : StreamSel) (st : State) : finalize s (st.side x) = (finalize s st).side x := by
  unfold finalize
  simp only [State.bs_side, State.memWrite_side, State.setBs_side]
  split
  · rfl
  · split <;> rfl

theorem readBit_side (s : StreamSel) (st : State) : readBit s (st.side x) = (readBit s st).side x := by
  unfold readBit latched
  simp only [State.bs_side, State.memRead_side, State.setBs_side]
  split
  · rfl
  · split <;> rfl

theorem readBitsFrom_side (s : StreamSel) (n : Nat) (v : Word) (st : State) :
    readBitsFrom s n v (st.side x) = (readBitsFrom s n v st).side x := by
  induction n generalizing v st with
  | zero => rfl
  | succ n ih => exact Result.side_andThen (readBit_side ..) fun _ t => ih _ t

/-! ## Arena, heap and tables -/

theorem allocNode_side (n : Node) (st : State) : allocNode n (st.side x) = (allocNode n st).side x := by
  unfold allocNode
  by_cases h : st.arenaCount.val < Config.arenaCap
  · rw [dif_pos h, dif_pos (show (st.side x).arenaCount.val < Config.arenaCap from h)]; rfl
  · rw [dif_neg h, dif_neg (show ¬ (st.side x).arenaCount.val < Config.arenaCap from h)]; rfl

theorem heapPush_side (n : NodeIdx) (st : State) : heapPush n (st.side x) = (heapPush n st).side x := by
  unfold heapPush
  by_cases h : st.heapSize.val < Config.heapCap
  · rw [dif_pos h, dif_pos (show (st.side x).heapSize.val < Config.heapCap from h)]; rfl
  · rw [dif_neg h, dif_neg (show ¬ (st.side x).heapSize.val < Config.heapCap from h)]; rfl

theorem heapPop_side (st : State) : heapPop (st.side x) = ((heapPop st).1, (heapPop st).2.side x) := by
  unfold heapPop
  by_cases h : st.heapSize.val = 0
  · rw [if_pos h, if_pos (show (st.side x).heapSize.val = 0 from h)]
  · rw [if_neg h, if_neg (show ¬ (st.side x).heapSize.val = 0 from h)]; rfl

theorem countByte_side (i : Nat) (st : State) : countByte i (st.side x) = (countByte i st).side x := by
  unfold countByte
  rw [State.memRead_side]
  rfl

theorem collectLeaf_side (i : Nat) (st : State) : collectLeaf i (st.side x) = (collectLeaf i st).side x := by
  unfold collectLeaf
  simp only [show (st.side x).freqAt (symbolOf i) = st.freqAt (symbolOf i) from rfl]
  split
  · rfl
  · exact Result.side_andThen (allocNode_side ..) fun n t => heapPush_side n t

theorem mergeTwo_side (st : State) : mergeTwo (st.side x) = (mergeTwo st).side x := by
  unfold mergeTwo
  simp only [heapPop_side, show ∀ (u : State) i, (u.side x).slot i = u.slot i from fun _ _ => rfl]
  split
  · rfl
  · exact Result.side_andThen (allocNode_side ..) fun n t => heapPush_side n t

theorem mergeLoop_side (fuel : Nat) (st : State) : mergeLoop fuel (st.side x) = (mergeLoop fuel st).side x := by
  induction fuel generalizing st with
  | zero => rfl
  | succ fuel ih =>
    unfold mergeLoop
    simp only [show (st.side x).heapSize = st.heapSize from rfl]
    split
    · exact Result.side_andThen (mergeTwo_side st) fun _ t => ih t
    · rfl

theorem buildTree_side (st : State) : buildTree (st.side x) = (buildTree st).side x := by
  unfold buildTree
  refine Result.side_andThen (forLoop_side collectLeaf_side _ _ st.arenaReset) fun _ t => ?_
  simp only [show (t.side x).heapSize = t.heapSize from rfl]
  split
  · rfl
  · exact Result.side_andThen (mergeLoop_side ..) fun _ u => rfl

theorem visit_side (left : Nat) (i : NodeIdx) (pat : Word) (st : State) :
    visit left i pat (st.side x) = (visit left i pat st).side x := by
  induction left generalizing i pat st with
  | zero => rfl
  | succ left ih =>
    unfold visit
    rw [show (st.side x).node? i = st.node? i from rfl]
    split
    · rfl
    · split
      · rfl
      · split
        · rfl
        · refine Result.side_andThen (ih ..) fun _ t => ?_
          split
          · rfl
          · exact ih ..

theorem generateCodes_side (st : State) : generateCodes (st.side x) = (generateCodes st).side x := by
  unfold generateCodes
  simp only [show (st.side x).clearCode = st.clearCode.side x from rfl,
    show (st.clearCode.side x).treeValid = st.clearCode.treeValid from rfl]
  split
  · exact visit_side ..
  · rfl

/-! ## The codecs -/

theorem saveNode_side (fuel : Nat) (i : NodeIdx) (st : State) :
    saveNode fuel i (st.side x) = (saveNode fuel i st).side x := by
  induction fuel generalizing i st with
  | zero => rfl
  | succ fuel ih =>
    unfold saveNode
    rw [show (st.side x).node? i = st.node? i from rfl]
    split
    · rfl
    · split
      · exact Result.side_andThen (writeBit_side ..) fun _ t => writeBits_side ..
      · refine Result.side_andThen (writeBit_side ..) fun _ t => ?_
        split
        · rfl
        · refine Result.side_andThen (ih ..) fun _ u => ?_
          split
          · rfl
          · exact ih ..

theorem loadNode_side (fuel reserved : Nat) (st : State) :
    loadNode fuel reserved (st.side x) = (loadNode fuel reserved st).side x := by
  induction fuel generalizing reserved st with
  | zero => rfl
  | succ fuel ih =>
    unfold loadNode
    refine Result.side_andThen (readBit_side ..) fun m t => ?_
    split
    · rfl
    · split
      · refine Result.side_andThen (readBitsFrom_side ..) fun v u => ?_
        exact Result.side_andThen (allocNode_side ..) fun i w => rfl
      · refine Result.side_andThen (ih ..) fun l u => Result.side_andThen (ih ..) fun r w => ?_
        exact Result.side_andThen (allocNode_side ..) fun i y => rfl

theorem loadTree_side (st : State) : loadTree (st.side x) = (loadTree st).side x := by
  unfold loadTree
  exact Result.side_andThen (loadNode_side _ _ st.arenaReset) fun r t => rfl

theorem encodeByte_side (i : Nat) (st : State) : encodeByte i (st.side x) = (encodeByte i st).side x := by
  unfold encodeByte
  simp only [State.memRead_side, show ∀ y, (st.side x).codeAt y = st.codeAt y from fun _ => rfl]
  split
  · rfl
  · exact writeBits_side ..

theorem walk_side (fuel : Nat) (i : NodeIdx) (st : State) : walk fuel i (st.side x) = (walk fuel i st).side x := by
  induction fuel generalizing i st with
  | zero => rfl
  | succ fuel ih =>
    unfold walk
    rw [show (st.side x).node? i = st.node? i from rfl]
    split
    · rfl
    · split
      · rfl
      · refine Result.side_andThen (readBit_side ..) fun b t => ?_
        split
        · rfl
        · exact ih ..

theorem decodeSymbol_side (k : Nat) (st : State) : decodeSymbol k (st.side x) = (decodeSymbol k st).side x := by
  unfold decodeSymbol
  refine Result.side_andThen (walk_side ..) fun y t => ?_
  rw [State.bufSize_side, State.memWrite_side]
  split <;> rfl

/-! ## The commands -/

theorem openStream_side (s : StreamSel) (m : StreamMode) (h : x.arg0 = st.arg0) :
    openStream s m (st.side x) = (openStream s m st).side x := by
  unfold openStream
  rw [show lengthOperand (st.side x) = lengthOperand st by unfold lengthOperand State.side; rw [h]]
  split
  · rfl
  · rw [State.bufSize_side, State.setBs_side]
    split <;> rfl

theorem decodePayload_side (h : x.arg0 = st.arg0) : decodePayload (st.side x) = (decodePayload st).side x := by
  unfold decodePayload
  rw [show lengthOperand (st.side x) = lengthOperand st by unfold lengthOperand State.side; rw [h]]
  split
  · rfl
  · rw [show (st.side x).treeValid = st.treeValid from rfl]
    split
    · exact Result.side_andThen (forLoop_side decodeSymbol_side _ _ { st with rawLen := 0 }) fun _ t => rfl
    · rfl

/-- No command's own rule looks at the side fields, but for its operand in `ARG0`. -/
theorem body_side {i : Instr} (h : sameOperand i x.arg0 st.arg0) : body i (st.side x) = (body i st).side x := by
  cases i with
  | nop => rfl
  | ctxReset => rfl
  | bsOpenW s => exact Result.side_andThen (openStream_side s _ h) fun _ t => rfl
  | bsOpenR s => exact Result.side_andThen (openStream_side s _ h) fun _ t => rfl
  | writeBit s =>
    refine Result.side_andThen (inMode_side ?_) fun _ t => rfl
    rw [show bitOperand (st.side x) = bitOperand st from h]
    exact writeBit_side ..
  | writeBits s n =>
    refine Result.side_andThen (inMode_side ?_) fun _ t => rfl
    rw [writeBits_side]
    exact congrArg _ (writeBits_congr s h st)
  | finalize s =>
    simp only [body, finalizeBody]
    exact inMode_side (by exact Result.side_andThen (finalize_side s st) fun _ t => rfl)
  | readBit s =>
    simp only [body, readBitBody]
    exact inMode_side (by exact Result.side_andThen (readBit_side s st) fun _ t => rfl)
  | readBits s n => exact inMode_side (readBitsFrom_side ..)
  | freqClear => rfl
  | freqCount =>
    simp only [body, freqCountBody, State.bufSize_side, show (st.side x).rawLen = st.rawLen from rfl]
    split
    · rfl
    · exact Result.side_andThen (forLoop_side countByte_side _ _ st.clearFreq) fun _ t => rfl
  | build => exact buildTree_side st
  | codegen => exact Result.side_andThen (generateCodes_side st) fun _ t => rfl
  | treeSave =>
    refine Result.side_andThen (inMode_side ?_) fun _ t => rfl
    simp only [show (st.side x).treeValid = st.treeValid from rfl]
    split
    · exact saveNode_side ..
    · rfl
  | treeLoad => exact inMode_side (loadTree_side st)
  | encode =>
    refine Result.side_andThen (inMode_side ?_) fun _ t => rfl
    simp only [State.bufSize_side, show (st.side x).rawLen = st.rawLen from rfl]
    split
    · rfl
    · exact forLoop_side encodeByte_side _ _ st
  | decode => exact inMode_side (decodePayload_side h)

end Sys2Proof.Machine
end

