-- ==== Sys2Proof/Laws/BuildAgree.lean ====
section
/-! SUPPORT. What BUILD depends on: two machines with the same counts build the same tree, whatever their arenas and heaps
held before (R147). -/

namespace Sys2Proof.Machine

/-- Two heap arrays agree on their first `n` entries, which are all below `C`. -/
structure HeapAgree (n C : Nat) (h h' : HeapArray) : Prop where
  same : ∀ q, q < n → heapAt h' q = heapAt h q
  live : ∀ q, q < n → (heapAt h q).toNat < C

theorem HeapAgree.swap {n C : Nat} {h h' : HeapArray} (hn : n ≤ 256) (a : HeapAgree n C h h') {p q : Nat} (hp : p < n)
    (hq : q < n) : HeapAgree n C (heapSwap h p q) (heapSwap h' p q) where
  same r hr := by
    rw [heapAt_swap (by omega) (by omega), heapAt_swap (by omega) (by omega), a.same p hp, a.same q hq, a.same r hr]
  live r hr := by
    rw [heapAt_swap (by omega) (by omega)]
    split
    · exact a.live p hp
    · split
      · exact a.live q hq
      · exact a.live r hr

variable {key key' : NodeIdx → Word} {n C : Nat}

theorem siftUp_agree (hn : n ≤ 256) (hk : ∀ i : NodeIdx, i.toNat < C → key' i = key i) (fuel p : Nat)
    {h h' : HeapArray} (hp : p < n) (a : HeapAgree n C h h') :
    HeapAgree n C (siftUp key fuel p h) (siftUp key' fuel p h') := by
  induction fuel generalizing p h h' with
  | zero => exact a
  | succ fuel ih =>
    have hpp : parentPos p < n := by unfold parentPos; omega
    unfold siftUp
    rw [a.same p hp, a.same _ hpp, hk _ (a.live p hp), hk _ (a.live _ hpp)]
    split
    · exact ih _ hpp (a.swap hn hp hpp)
    · exact a

theorem smallest_agree (hk : ∀ i : NodeIdx, i.toNat < C → key' i = key i) {h h' : HeapArray} (a : HeapAgree n C h h')
    {p : Nat} (hp : p < n) : smallest key' n h' p = smallest key n h p := by
  have e : ∀ q, q < n → key' (heapAt h' q) = key (heapAt h q) := fun q hq => by rw [a.same q hq, hk _ (a.live q hq)]
  have c1 : (leftPos p < n ∧ key' (heapAt h' (leftPos p)) < key' (heapAt h' p)) ↔
      (leftPos p < n ∧ key (heapAt h (leftPos p)) < key (heapAt h p)) := by
    constructor <;> rintro ⟨h1, h2⟩
    · rw [e _ h1, e _ hp] at h2; exact ⟨h1, h2⟩
    · rw [← e _ h1, ← e _ hp] at h2; exact ⟨h1, h2⟩
  unfold smallest
  simp only [c1]
  generalize hm : (if leftPos p < n ∧ key (heapAt h (leftPos p)) < key (heapAt h p) then leftPos p else p) = m
  have hmn : m < n := by
    rw [← hm]; split
    · rename_i h; exact h.1
    · exact hp
  have c2 : (rightPos p < n ∧ key' (heapAt h' (rightPos p)) < key' (heapAt h' m)) ↔
      (rightPos p < n ∧ key (heapAt h (rightPos p)) < key (heapAt h m)) := by
    constructor <;> rintro ⟨h1, h2⟩
    · rw [e _ h1, e _ hmn] at h2; exact ⟨h1, h2⟩
    · rw [← e _ h1, ← e _ hmn] at h2; exact ⟨h1, h2⟩
  simp only [c2]

theorem siftDown_agree (hn : n ≤ 256) (hk : ∀ i : NodeIdx, i.toNat < C → key' i = key i) (fuel p : Nat)
    {h h' : HeapArray} (hp : p < n) (a : HeapAgree n C h h') :
    HeapAgree n C (siftDown key n fuel p h) (siftDown key' n fuel p h') := by
  induction fuel generalizing p h h' with
  | zero => exact a
  | succ fuel ih =>
    have hm : smallest key n h p < n := by
      rcases (smallest_spec key n h p).1 with e | e
      · rw [e]; exact hp
      · exact e.2.1
    unfold siftDown
    simp only [smallest_agree hk a hp]
    split
    · exact a
    · exact ih _ hm (a.swap hn hp hm)

/-- Two states that agree on the counts table, the arena slots in use and the live heap. -/
structure Agree (st st' : State) : Prop where
  freq  : ∀ y, st'.freqAt y = st.freqAt y
  count : st'.arenaCount = st.arenaCount
  size  : st'.heapSize = st.heapSize
  slots : ∀ i : NodeIdx, i.toNat < st.arenaCount.val → st'.slot i = st.slot i
  heap  : HeapAgree st.heapSize.val st.arenaCount.val st.heap st'.heap
  root  : st'.root = st.root
  valid : st'.treeValid = st.treeValid

/-- Two outcomes that agree. -/
inductive ResultAgree {α : Type} : Result α → Result α → Prop where
  | ok {a : α} {st st' : State} : Agree st st' → ResultAgree (.ok a st) (.ok a st')
  | raised {k : ErrorKind} {st st' : State} : Agree st st' → ResultAgree (.raised k st) (.raised k st')

theorem ResultAgree.andThen {α β : Type} {r r' : Result α} {f : α → State → Result β} (h : ResultAgree r r')
    (hf : ∀ a t t', r = .ok a t → Agree t t' → ResultAgree (f a t) (f a t')) : ResultAgree (r.andThen f) (r'.andThen f) := by
  cases h with
  | ok h => exact hf _ _ _ rfl h
  | raised h => exact .raised h

theorem Agree.nodeKey_eq {st st' : State} (h : Agree st st') (i : NodeIdx) (hi : i.toNat < st.arenaCount.val) :
    st'.nodeKey i = st.nodeKey i := by
  unfold State.nodeKey; rw [h.slots i hi]

theorem agree_allocNode (n : Node) {st st' : State} (h : Agree st st') :
    ResultAgree (allocNode n st) (allocNode n st') := by
  unfold allocNode
  by_cases hc : st.arenaCount.val < Config.arenaCap
  · have hc' : st'.arenaCount.val < Config.arenaCap := by rw [h.count]; exact hc
    rw [dif_pos hc, dif_pos hc', show BitVec.ofNat 10 st'.arenaCount.val = BitVec.ofNat 10 st.arenaCount.val by rw [h.count]]
    refine .ok ⟨h.freq, ?_, h.size, fun i hi => ?_, ⟨h.heap.same, fun q hq => ?_⟩, h.root, h.valid⟩
    · apply Fin.ext
      show st'.arenaCount.val + 1 = _
      rw [h.count]
    · have hi' : i.toNat < st.arenaCount.val + 1 := hi
      unfold State.slot
      simp only [h.count]
      by_cases e : i.toNat = st.arenaCount.val
      · simp [e]
      · have := h.slots i (by omega)
        unfold State.slot at this
        rw [Vector.getElem?_set_ne _ (Ne.symm e), Vector.getElem?_set_ne _ (Ne.symm e)]
        exact this
    · exact Nat.lt_succ_of_lt (h.heap.live q hq)
  · have hc' : ¬ st'.arenaCount.val < Config.arenaCap := by rw [h.count]; exact hc
    rw [dif_neg hc, dif_neg hc']
    exact .raised h

theorem agree_heapPush (n : NodeIdx) {st st' : State} (h : Agree st st') (hn : n.toNat < st.arenaCount.val) :
    ResultAgree (heapPush n st) (heapPush n st') := by
  unfold heapPush
  by_cases hc : st.heapSize.val < Config.heapCap
  · have hc' : st'.heapSize.val < Config.heapCap := by rw [h.size]; exact hc
    have hcap : st.heapSize.val < 256 := hc
    rw [dif_pos hc, dif_pos hc']
    refine .ok ⟨h.freq, h.count, ?_, h.slots, ?_, h.root, h.valid⟩
    · apply Fin.ext
      show st'.heapSize.val + 1 = _
      rw [h.size]
    · have e : st'.heap.set st'.heapSize.val n hc' = st'.heap.set st.heapSize.val n hc := by
        simp only [h.size]
      have e2 : st'.heapSize.val = st.heapSize.val := by rw [h.size]
      show HeapAgree (st.heapSize.val + 1) st.arenaCount.val _
        (siftUp st'.nodeKey st'.heapSize.val st'.heapSize.val (st'.heap.set st'.heapSize.val n hc'))
      rw [e, e2]
      refine siftUp_agree (by omega) h.nodeKey_eq _ _ (by omega) ⟨fun q hq => ?_, fun q hq => ?_⟩
      · rw [heapAt_set, heapAt_set]
        split
        · rfl
        · exact h.heap.same q (by omega)
      · rw [heapAt_set]
        split
        · exact hn
        · exact h.heap.live q (by omega)
  · have hc' : ¬ st'.heapSize.val < Config.heapCap := by rw [h.size]; exact hc
    rw [dif_neg hc, dif_neg hc']
    exact .raised h

theorem agree_heapPop {st st' : State} (h : Agree st st') (h0 : 0 < st.heapSize.val) :
    (heapPop st').1 = (heapPop st).1 ∧ (heapPop st).1.toNat < st.arenaCount.val ∧
      (heapPop st).2.arenaCount = st.arenaCount ∧
      Agree (heapPop st).2 (heapPop st').2 := by
  have hn : ¬ st.heapSize.val = 0 := by omega
  have hn' : ¬ st'.heapSize.val = 0 := by rw [h.size]; omega
  have e2 : st'.heapSize.val = st.heapSize.val := by rw [h.size]
  have hle : st.heapSize.val ≤ 256 := by have := st.heapSize.isLt; omega
  unfold heapPop
  rw [if_neg hn, if_neg hn']
  refine ⟨h.heap.same 0 h0, h.heap.live 0 h0, rfl, h.freq, h.count, ?_, h.slots, ?_, h.root, h.valid⟩
  · apply Fin.ext
    show st'.heapSize.val - 1 = _
    rw [h.size]
  · show HeapAgree (st.heapSize.val - 1) st.arenaCount.val _ _
    simp only [e2]
    have base : HeapAgree (st.heapSize.val - 1) st.arenaCount.val st.heap st'.heap :=
      ⟨fun q hq => h.heap.same q (by omega), fun q hq => h.heap.live q (by omega)⟩
    split
    · rename_i hs
      refine siftDown_agree (by omega) h.nodeKey_eq _ _ (by omega) ⟨fun q hq => ?_, fun q hq => ?_⟩
      · rw [heapAt_setIfInBounds (by omega), heapAt_setIfInBounds (by omega)]
        split
        · exact h.heap.same _ (by omega)
        · exact h.heap.same q (by omega)
      · rw [heapAt_setIfInBounds (by omega)]
        split
        · exact h.heap.live _ (by omega)
        · exact h.heap.live q (by omega)
    · exact base

theorem allocNode_index {n : Node} {st t : State} {i : NodeIdx} (h : allocNode n st = .ok i t) :
    i.toNat < t.arenaCount.val := by
  unfold allocNode at h
  split at h
  · rename_i hc
    injection h with h1 h2
    subst h1 h2
    have : st.arenaCount.val < 511 := hc
    show (BitVec.ofNat 10 st.arenaCount.val).toNat < st.arenaCount.val + 1
    rw [BitVec.toNat_ofNat]; omega
  · cases h

theorem agree_collectLeaf (i : Nat) {st st' : State} (h : Agree st st') :
    ResultAgree (collectLeaf i st) (collectLeaf i st') := by
  unfold collectLeaf
  simp only [h.freq]
  split
  · exact .ok h
  · exact (agree_allocNode _ h).andThen fun n t t' e ha => agree_heapPush n ha (allocNode_index e)

theorem agree_forLoop {body : Nat → State → Result Unit}
    (hb : ∀ i st st', Agree st st' → ResultAgree (body i st) (body i st')) (n i : Nat) {st st' : State} (h : Agree st st') :
    ResultAgree (forLoop body n i st) (forLoop body n i st') := by
  induction n generalizing i st st' with
  | zero => exact .ok h
  | succ n ih => exact (hb i _ _ h).andThen fun _ t t' _ ha => ih (i + 1) ha

theorem agree_mergeTwo {st st' : State} (h : Agree st st') (h1 : 1 < st.heapSize.val) :
    ResultAgree (mergeTwo st) (mergeTwo st') := by
  obtain ⟨a1, a2, a3, ha⟩ := agree_heapPop h (by omega)
  have hs : 0 < (heapPop st).2.heapSize.val := by
    rw [(heapPop_some (st := st) (by omega)).2.1]; omega
  obtain ⟨b1, b2, b3, hb⟩ := agree_heapPop ha hs
  rw [mergeTwo_eq, mergeTwo_eq, a1, b1, hb.slots _ (by rw [b3, a3]; exact a2), hb.slots _ (by rw [b3]; exact b2)]
  split
  · exact .raised hb
  · exact (agree_allocNode _ hb).andThen fun n t t' e ht => agree_heapPush n ht (allocNode_index e)

theorem agree_mergeLoop (fuel : Nat) {st st' : State} (h : Agree st st') :
    ResultAgree (mergeLoop fuel st) (mergeLoop fuel st') := by
  induction fuel generalizing st st' with
  | zero => exact .ok h
  | succ fuel ih =>
    unfold mergeLoop
    simp only [h.size]
    split
    · rename_i h1
      exact (agree_mergeTwo h h1).andThen fun _ t t' _ ha => ih ha
    · exact .ok h

theorem heapPush_pos {n : NodeIdx} {st t : State} {v : Unit} (e : heapPush n st = .ok v t) : 0 < t.heapSize.val := by
  unfold heapPush at e
  split at e
  · injection e with _ e
    subst e
    exact Nat.succ_pos _
  · cases e

/-- Merging never empties the heap. -/
theorem mergeLoop_pos (fuel : Nat) {st t : State} {v : Unit} (h : 0 < st.heapSize.val) (e : mergeLoop fuel st = .ok v t) :
    0 < t.heapSize.val := by
  induction fuel generalizing st with
  | zero => injection e with _ e; subst e; exact h
  | succ fuel ih =>
    unfold mergeLoop at e
    split at e
    · generalize hm : mergeTwo st = r at e
      cases r with
      | ok a u =>
        refine ih ?_ e
        rw [mergeTwo_eq] at hm
        split at hm
        · cases hm
        · generalize allocNode _ _ = q at hm
          cases q with
          | ok n w => exact heapPush_pos hm
          | raised k w => cases hm
      | raised k u => cases e
    · injection e with _ e; subst e; exact h

/-- BUILD reads `FREQ` alone (R147). -/
theorem agree_buildTree {st st' : State} (h : ∀ y, st'.freqAt y = st.freqAt y) :
    ∃ v k t t', (buildTree st = .ok v t ∧ buildTree st' = .ok v t' ∨
      buildTree st = .raised k t ∧ buildTree st' = .raised k t') ∧ Agree t t' := by
  have h0 : Agree st.arenaReset st'.arenaReset :=
    ⟨h, rfl, rfl, fun i hi => absurd hi (Nat.not_lt_zero _), ⟨fun q hq => absurd hq (Nat.not_lt_zero _),
      fun q hq => absurd hq (Nat.not_lt_zero _)⟩, rfl, rfl⟩
  have key : ResultAgree (buildTree st) (buildTree st') := by
    unfold buildTree
    refine (agree_forLoop (fun i _ _ h => agree_collectLeaf i h) _ _ h0).andThen fun _ t t' _ ha => ?_
    simp only [ha.size]
    by_cases hz : t.heapSize.val = 0
    · rw [if_pos hz, if_pos hz]; exact .raised ha
    · rw [if_neg hz, if_neg hz]
      refine (agree_mergeLoop _ ha).andThen fun _ u u' e hu => ?_
      have hpos : 0 < u.heapSize.val := mergeLoop_pos _ (by omega) e
      simp only [hu.heap.same 0 hpos]
      exact .ok ⟨hu.freq, hu.count, hu.size, hu.slots, hu.heap, rfl, rfl⟩
  generalize buildTree st = r, buildTree st' = r' at key
  cases key with
  | ok h => exact ⟨_, .overflow, _, _, .inl ⟨rfl, rfl⟩, h⟩
  | raised h => exact ⟨0, _, _, _, .inr ⟨rfl, rfl⟩, h⟩

end Sys2Proof.Machine
end

