-- ==== Sys2Proof/Laws/Count.lean ====
section
/-! SUPPORT. What FREQ_COUNT's loop counts (R141, R142). -/

namespace Sys2Proof.Machine

theorem freqAt_setFreq (st : State) (y z : Symbol) (v : Word) :
    (st.setFreq y v).freqAt z = if z = y then v else st.freqAt z := by
  simp only [State.setFreq, State.freqAt]
  rw [Vector.getElem_set]
  by_cases hz : z = y
  · subst hz; simp
  · have : ¬ y.toNat = z.toNat := fun h => hz (BitVec.eq_of_toNat_eq h).symm
    simp [this, hz]

/-- The loop adds to every count how often its symbol occurs, as long as no count wraps. -/
theorem countLoop (n i : Nat) (st : State) (hb : ∀ y, (st.freqAt y).toNat + n < 2 ^ 64) :
    ∃ t, forLoop countByte n i st = .ok () t ∧ OnlyFreq st t ∧
      ∀ y, (t.freqAt y).toNat = (st.freqAt y).toNat + (st.rawFrom i n).count y := by
  induction n generalizing i st with
  | zero => exact ⟨st, rfl, frame_onlyFreq.refl st, fun y => by simp [State.rawFrom]⟩
  | succ n ih =>
    let u := st.setFreq (st.memRead .raw i) (st.freqAt (st.memRead .raw i) + 1)
    have hu : ∀ y, (u.freqAt y).toNat = (st.freqAt y).toNat + (if y = st.memRead .raw i then 1 else 0) := by
      intro y
      show ((st.setFreq _ _).freqAt y).toNat = _
      rw [freqAt_setFreq]
      split
      · rename_i e; rw [e]
        have := hb (st.memRead .raw i)
        rw [BitVec.toNat_add]; simp; omega
      · rfl
    have hr : ∀ a, u.memRead .raw a = st.memRead .raw a := fun a => rfl
    obtain ⟨t, e, o, h⟩ := ih (i + 1) u (fun y => by have := hb y; rw [hu]; split <;> omega)
    refine ⟨t, ?_, frame_onlyFreq.trans (t := u) rfl o, fun y => ?_⟩
    · rw [forLoop]; exact e
    · rw [h, hu, State.rawFrom_succ, State.rawFrom_congr hr, List.count_cons]
      by_cases hy : y = st.memRead .raw i
      · simp [hy]; omega
      · have : ¬ (st.memRead .raw i == y) = true := by simpa using fun h => hy h.symm
        simp [hy, this]

theorem sum_count_range (xs : List Byte) (N : Nat) (hN : N = 256) :
    ((List.range N).map fun i => xs.count (symbolOf i)).sum = xs.length := by
  induction xs with
  | nil => exact List.sum_eq_zero (by intro x hx; obtain ⟨i, _, rfl⟩ := List.mem_map.1 hx; rfl)
  | cons x xs ih =>
    have : ((List.range N).map fun i => (x :: xs).count (symbolOf i)) =
        (List.range N).map fun i => xs.count (symbolOf i) + if i = x.toNat then 1 else 0 := by
      apply List.map_congr_left
      intro i hi
      have hi := List.mem_range.1 hi
      rw [List.count_cons]
      congr 1
      by_cases h : i = x.toNat
      · subst h; rw [symbolOf_of_toNat]; simp
      · have : ¬ x = symbolOf i := fun e => h (by rw [e, symbolOf_toNat (hN ▸ hi)])
        simp [h, this]
    refine (congrArg List.sum this).trans ?_
    have hs : ∀ (l : List Nat) (f g : Nat → Nat),
        (l.map fun i => f i + g i).sum = (l.map f).sum + (l.map g).sum := by
      intro l f g; induction l with
      | nil => rfl
      | cons a l ih => simp [ih]; omega
    rw [hs, ih]
    have : ∀ n k, ((List.range n).map fun i => if i = k then 1 else 0).sum = if k < n then 1 else 0 := by
      intro n k; induction n with
      | zero => rfl
      | succ n ih =>
        rw [List.range_succ, List.map_append, List.sum_append, ih]; simp
        by_cases h1 : n = k
        · subst h1; simp
        · by_cases h2 : k < n <;> simp [h1, h2] <;> omega
    rw [this, if_pos (by rw [hN]; exact x.isLt), List.length_cons]

/-- All counts together are the length. -/
theorem sum_count (xs : List Byte) : ((List.range 256).map fun i => xs.count (symbolOf i)).sum = xs.length :=
  sum_count_range xs 256 rfl

end Sys2Proof.Machine
end

