-- ==== Sys2Proof/Laws/Decode.lean ====
section
/-! SUPPORT. The fields of a command word, and what the opcode of a word says of its shape (R80, R83, R85). -/

namespace Sys2Proof

/-- A command word whose zero fields are zero is the packing of its fields. -/
theorem packWord_fields (w : BitVec 32) (h1 : fieldZeroLow w = 0) (h2 : fieldZeroHigh w = 0) :
    w = packWord (fieldOPC w) (fieldS w) (fieldN w) := by
  apply BitVec.eq_of_getLsbD_eq
  intro i hi
  have hl : ∀ j, (fieldZeroLow w).getLsbD j = false := by intro j; rw [h1]; simp
  have hh : ∀ j, (fieldZeroHigh w).getLsbD j = false := by intro j; rw [h2]; simp
  simp only [fieldZeroLow, fieldZeroHigh, BitVec.getLsbD_extractLsb'] at hl hh
  have e : fieldS w = w.getLsbD 8 := rfl
  have a := hl (i - 9)
  have b := hh (i - 23)
  simp only [packWord, fieldOPC, e, fieldN]
  simp only [BitVec.getLsbD_append, BitVec.getLsbD_extractLsb', BitVec.getLsbD_ofBool, BitVec.getLsbD_zero]
  interval_cases i <;> simp_all

/-- A value whose upper half is zero is its own lower half, widened. -/
theorem word_of_upper_zero {v : Word} (h : v.extractLsb' 32 32 = 0) : v = (v.extractLsb' 0 32).zeroExtend 64 := by
  apply BitVec.eq_of_getLsbD_eq
  intro i hi
  have a : (v.extractLsb' 32 32).getLsbD (i - 32) = false := by rw [h]; simp
  simp only [BitVec.getLsbD_extractLsb'] at a
  simp only [BitVec.getLsbD_setWidth, BitVec.zeroExtend, BitVec.getLsbD_extractLsb']
  by_cases h32 : i < 32
  · simp [hi, h32]
  · have e : 32 + (i - 32) = i := by omega
    rw [e] at a
    have : i - 32 < 32 := by omega
    simp_all

theorem lower_of_zeroExtend (w : BitVec 32) : (w.zeroExtend 64).extractLsb' 0 32 = w := by
  apply BitVec.eq_of_getLsbD_eq
  intro j hj
  simp [BitVec.getLsbD_setWidth, hj]
  omega

theorem upper_of_zeroExtend (w : BitVec 32) : (w.zeroExtend 64).extractLsb' 32 32 = 0 := by
  apply BitVec.eq_of_getLsbD_eq
  intro j hj
  simp [BitVec.getLsbD_setWidth, hj]

@[simp] theorem StreamSel.toBit_ofBit (b : Bool) : (StreamSel.ofBit b).toBit = b := by cases b <;> rfl

@[simp] theorem StreamSel.ofBit_toBit (s : StreamSel) : StreamSel.ofBit s.toBit = s := by cases s <;> rfl

/-- An opcode has no shape exactly when it is none of the 17. -/
theorem shapeOf_eq_none {opc : BitVec 8} : shapeOf opc = none ↔ opc.toNat ∉ Machine.opcodes := by
  have all : ∀ n : Fin 256, ((match shapeOf (BitVec.ofNat 8 n.val) with
      | none => true
      | some _ => false) = true ↔ n.val ∉ Machine.opcodes) := by decide +kernel
  have h := all ⟨opc.toNat, opc.isLt⟩
  simp only [BitVec.ofNat_toNat, BitVec.setWidth_eq] at h
  rw [← h]
  cases shapeOf opc <;> simp

/-- A plain shape's opcode uses neither variable field. -/
theorem shapeOf_plain {opc : BitVec 8} {i : Instr} (h : shapeOf opc = some (.plain i)) :
    opc.toNat ∈ Machine.opcodes ∧ opc.toNat ∉ Machine.streamOpcodes ∧ opc.toNat ∉ Machine.countOpcodes ∧
      i.wf = true ∧ encode i = packWord opc false 0 := by
  have e := BitVec.ofNat_toNat 8 opc
  rw [BitVec.setWidth_eq] at e
  unfold shapeOf at h
  split at h <;> first
    | (cases h; done)
    | (injection h with h; injection h with h; subst h; rename_i k; rw [k] at e; subst e; decide)

/-- A stream shape's opcode uses `S` and not `N`. -/
theorem shapeOf_stream {opc : BitVec 8} {mk : StreamSel → Instr} (h : shapeOf opc = some (.stream mk)) :
    opc.toNat ∈ Machine.opcodes ∧ opc.toNat ∈ Machine.streamOpcodes ∧ opc.toNat ∉ Machine.countOpcodes ∧
      ∀ s, (mk s).wf = true ∧ encode (mk s) = packWord opc s.toBit 0 := by
  have e := BitVec.ofNat_toNat 8 opc
  rw [BitVec.setWidth_eq] at e
  unfold shapeOf at h
  split at h <;> first
    | (cases h; done)
    | (injection h with h; injection h with h; subst h; rename_i k; rw [k] at e; subst e
       exact ⟨by decide, by decide, by decide, fun s => ⟨rfl, rfl⟩⟩)

/-- A counted shape's opcode uses both. -/
theorem shapeOf_counted {opc : BitVec 8} {mk : StreamSel → BitVec 7 → Instr}
    (h : shapeOf opc = some (.counted mk)) :
    opc.toNat ∈ Machine.opcodes ∧ opc.toNat ∈ Machine.streamOpcodes ∧ opc.toNat ∈ Machine.countOpcodes ∧
      ∀ s n, (mk s n).wf = countOk n ∧ encode (mk s n) = packWord opc s.toBit n := by
  have e := BitVec.ofNat_toNat 8 opc
  rw [BitVec.setWidth_eq] at e
  unfold shapeOf at h
  split at h <;> first
    | (cases h; done)
    | (injection h with h; injection h with h; subst h; rename_i k; rw [k] at e; subst e
       exact ⟨by decide, by decide, by decide, fun s n => ⟨rfl, rfl⟩⟩)

end Sys2Proof
end

