-- ==== Sys2Proof/Laws/Keep.lean ====
section
/-! SUPPORT. What every command keeps, from any state: R36 of the stream it works on, the bytes it has no business with,
the form of the buffers, the code table's bounds, the heap and the arena. -/

namespace Sys2Proof.Machine

/-! ## Writers -/

/-- What a procedure on writer `s` does: if the stream is a writer that meets R36, it still is one, its cursor has only
moved up, and the bytes of its buffer that the cursor did not pass are as before. -/
def WriterKeeps (s : StreamSel) (st t : State) : Prop :=
  (st.bs s).mode = .writer → (st.bs s).Ok (st.bufSize (streamSpace s)) →
    WriterFrame s st t ∧ (t.bs s).Ok (t.bufSize (streamSpace s))

theorem frame_writerKeeps (s : StreamSel) : Frame (WriterKeeps s) where
  refl st := fun _ h => ⟨.refl s st, h⟩
  trans h h' := fun m o =>
    have a := h m o
    have b := h' (a.1.mode.trans m) a.2
    ⟨a.1.trans b.1, b.2⟩

/-- Committing a byte at the cursor, below the limit. -/
theorem writerKeeps_commit {s : StreamSel} {st : State} (hl : ¬ (st.bs s).limit ≤ (st.bs s).byte) (v : Byte) :
    WriterKeeps s st ((st.memWrite (streamSpace s) (st.bs s).byte.toNat v).setBs s
      { st.bs s with byte := (st.bs s).byte + 1, bit := 0, hold := 0 }) := by
  intro hm ho
  have hlt : (st.bs s).byte.toNat < (st.bs s).limit.toNat := by simpa [BitVec.le_def] using hl
  have hb := byte_succ_toNat hlt
  constructor
  · refine ⟨rest_of_commit .., ?_, ?_, ?_, ?_⟩
    · rw [State.bs_setBs_same]
    · rw [State.bs_setBs_same]
    · intro a ha
      rw [State.bs_setBs_same] at ha
      rw [State.memRead_setBs, State.memRead_memWrite_ne (.inr ?_)]
      simp only at ha
      omega
    · rw [State.bs_setBs_same]
      simp only
      omega
  · rw [State.bs_setBs_same]
    refine ⟨by simp only; omega, by simpa using ho.limit_le, fun _ j _ => by simp, fun h => ?_⟩
    simp only at h
    rw [hm] at h
    cases h

theorem writerKeeps_writeBit (s : StreamSel) (b : Bool) (st : State) : WriterKeeps s st (writeBit s b st).state := by
  by_cases h7 : (st.bs s).bit.toNat < 7
  · rw [writeBit_pending h7]
    intro hm ho
    have hb := bit_succ_toNat h7
    constructor
    · refine ⟨(onlyStream_setBs s st _).writer, ?_, ?_, ?_, ?_⟩
      · rw [Result.state_ok, State.bs_setBs_same]
      · rw [Result.state_ok, State.bs_setBs_same]
      · intro a _
        rw [Result.state_ok, State.memRead_setBs]
      · rw [Result.state_ok, State.bs_setBs_same]
    · rw [Result.state_ok, State.bs_setBs_same]
      refine ⟨ho.byte_le, by simpa using ho.limit_le, fun _ j hj => ?_, fun h => ?_⟩
      · simp only at hj ⊢
        rw [hb] at hj
        rw [BitVec.getLsbD_or, bitAt_getLsbD, ho.padded hm j (by omega), decide_eq_false (by omega)]
        rfl
      · simp only at h
        rw [hm] at h
        cases h
  · by_cases hl : (st.bs s).limit ≤ (st.bs s).byte
    · rw [writeBit_overflow h7 hl]; exact (frame_writerKeeps s).refl st
    · rw [writeBit_commit h7 hl]; exact writerKeeps_commit hl _

theorem writerKeeps_writeList (s : StreamSel) (bs : List Bool) (st : State) :
    WriterKeeps s st (writeList s bs st).state := by
  induction bs generalizing st with
  | nil => exact (frame_writerKeeps s).refl st
  | cons b bs ih => exact (frame_writerKeeps s).andThen (writerKeeps_writeBit s b st) fun _ t => ih t

theorem writerKeeps_writeBits (s : StreamSel) (v : Word) (n : Nat) (st : State) :
    WriterKeeps s st (writeBits s v n st).state := by
  rw [writeBits_eq_writeList]; exact writerKeeps_writeList _ _ _

theorem writerKeeps_finalize (s : StreamSel) (st : State) : WriterKeeps s st (finalize s st).state := by
  by_cases h : (st.bs s).bit = 0
  · rw [finalize_idle h]; exact (frame_writerKeeps s).refl st
  · by_cases hl : (st.bs s).limit ≤ (st.bs s).byte
    · rw [finalize_overflow h hl]; exact (frame_writerKeeps s).refl st
    · rw [finalize_commit h hl]; exact writerKeeps_commit hl _

theorem writerKeeps_saveNode (fuel : Nat) (i : NodeIdx) (st : State) :
    WriterKeeps .tree st (saveNode fuel i st).state := by
  have F := frame_writerKeeps .tree
  induction fuel generalizing i st with
  | zero => exact F.refl st
  | succ fuel ih =>
    unfold saveNode
    split
    · exact F.refl st
    · split
      · exact F.andThen (writerKeeps_writeBit _ _ _) fun _ t => writerKeeps_writeBits _ _ _ _
      · refine F.andThen (writerKeeps_writeBit _ _ _) fun _ t => ?_
        split
        · exact F.refl t
        · refine F.andThen (ih _ _) fun _ u => ?_
          split
          · exact F.refl u
          · exact ih _ _

theorem writerKeeps_encodeByte (i : Nat) (st : State) : WriterKeeps .pay st (encodeByte i st).state := by
  unfold encodeByte
  simp only
  split
  · exact (frame_writerKeeps .pay).refl st
  · exact writerKeeps_writeBits _ _ _ _

/-! ## Readers -/

/-- What a procedure that reads stream `s` does to it. -/
def ReaderKeeps (s : StreamSel) (st t : State) : Prop :=
  (st.bs s).mode = .reader → (st.bs s).Ok (st.bufSize (streamSpace s)) →
    (t.bs s).mode = .reader ∧ (t.bs s).Ok (t.bufSize (streamSpace s))

theorem frame_readerKeeps (s : StreamSel) : Frame (ReaderKeeps s) where
  refl _ := fun m o => ⟨m, o⟩
  trans h h' := fun m o => h' (h m o).1 (h m o).2

theorem readerKeeps_of_same {s : StreamSel} {st t : State} (hb : t.bs s = st.bs s) (hp : t.params = st.params) :
    ReaderKeeps s st t := by
  intro m o
  rw [hb]
  refine ⟨m, ?_⟩
  unfold State.bufSize at *
  rw [hp]
  exact o

theorem readerKeeps_readBit (s : StreamSel) (st : State) : ReaderKeeps s st (readBit s st).state := by
  intro hm ho
  have hw : ReaderOk st s := ⟨hm, ho⟩
  by_cases h : (st.bs s).pos < 8 * (st.bs s).limit.toNat
  · obtain ⟨b, t, e, hr, -⟩ := readBit_more hw h
    rw [e]; exact ⟨hr.mode, hr.ok⟩
  · rw [readBit_end hw (by omega)]; exact ⟨hm, ho⟩

theorem readerKeeps_readBitsFrom (s : StreamSel) (n : Nat) (v : Word) (st : State) :
    ReaderKeeps s st (readBitsFrom s n v st).state := by
  induction n generalizing v st with
  | zero => exact (frame_readerKeeps s).refl st
  | succ n ih => exact (frame_readerKeeps s).andThen (readerKeeps_readBit s st) fun b t => ih _ t

theorem readerKeeps_loadNode (fuel reserved : Nat) (st : State) :
    ReaderKeeps .tree st (loadNode fuel reserved st).state := by
  have F := frame_readerKeeps .tree
  have alloc : ∀ n st, ReaderKeeps .tree st (allocNode n st).state := by
    intro n st
    unfold allocNode
    split
    · exact readerKeeps_of_same rfl rfl
    · exact F.refl st
  induction fuel generalizing reserved st with
  | zero => exact F.refl st
  | succ fuel ih =>
    unfold loadNode
    refine F.andThen (readerKeeps_readBit _ _) fun m t => ?_
    split
    · exact F.refl t
    · split
      · refine F.andThen (readerKeeps_readBitsFrom _ _ _ _) fun v u => ?_
        exact F.andThen (alloc _ _) fun i w => F.refl w
      · refine F.andThen (ih _ _) fun l u => F.andThen (ih _ _) fun r w => ?_
        exact F.andThen (alloc _ _) fun i x => F.refl x

theorem readerKeeps_walk (fuel : Nat) (i : NodeIdx) (st : State) : ReaderKeeps .pay st (walk fuel i st).state := by
  have F := frame_readerKeeps .pay
  induction fuel generalizing i st with
  | zero => exact F.refl st
  | succ fuel ih =>
    unfold walk
    split
    · exact F.refl st
    · split
      · exact F.refl st
      · refine F.andThen (readerKeeps_readBit _ _) fun b t => ?_
        split
        · exact F.refl t
        · exact ih _ _

theorem readerKeeps_decodeSymbol (k : Nat) (st : State) : ReaderKeeps .pay st (decodeSymbol k st).state := by
  refine (frame_readerKeeps .pay).andThen (readerKeeps_walk _ _ _) fun y t => ?_
  split
  · exact (frame_readerKeeps .pay).refl t
  · exact readerKeeps_of_same (State.bs_memWrite ..) (by unfold State.memWrite; split <;> rfl)

/-! ## R36 -/

theorem inMode_keeps {α : Type} {s : StreamSel} {m : StreamMode} {P : State → State → Prop} (hP : ∀ st, P st st)
    {f : State → Result α} {st : State} (hf : (st.bs s).mode = m → P st (f st).state) :
    P st (inMode s m st f).state := by
  unfold inMode
  split
  · rename_i h
    exact hf h
  · exact hP st

/-- R36 of the one stream a body can touch. -/
theorem body_keeps_stream (i : Instr) (st : State) (h : StreamsOk st) (s : StreamSel) :
    ((body i st).state.bs s).Ok ((body i st).state.bufSize (streamSpace s)) := by
  have hk := body_kept i st
  have hsize : (body i st).state.bufSize (streamSpace s) = st.bufSize (streamSpace s) := by
    unfold State.bufSize; rw [hk.params]
  rw [hsize]
  have same : ∀ t : State, t.bs s = st.bs s → (t.bs s).Ok (st.bufSize (streamSpace s)) := fun t e => by rw [e]; exact h s
  have writer : ∀ (r : StreamSel) {α : Type} (f : State → Result α), (∀ st, WriterKeeps r st (f st).state) →
      OnlyWriter r st (inMode r .writer st f).state →
      ((inMode r .writer st f).state.bs s).Ok (st.bufSize (streamSpace s)) := by
    intro r α f hf ho
    by_cases hs : s = r
    · subst hs
      have hp : (inMode s .writer st f).state.bufSize (streamSpace s) = st.bufSize (streamSpace s) := by
        unfold State.bufSize; rw [ho.kept.params]
      refine inMode_keeps (P := fun st t => (st.bs s).Ok (st.bufSize (streamSpace s)) →
        t.bufSize (streamSpace s) = st.bufSize (streamSpace s) → (t.bs s).Ok (st.bufSize (streamSpace s)))
        (fun _ h _ => h) (fun m h hp => ?_) (h s) hp
      rw [← hp]
      exact (hf st m h).2
    · apply same
      unfold OnlyWriter at ho
      rw [ho]
      cases s <;> cases r <;> first | rfl | exact absurd rfl hs
  have reader : ∀ (r : StreamSel) {α : Type} (f : State → Result α), (∀ st, ReaderKeeps r st (f st).state) →
      (inMode r .reader st f).state.params = st.params →
      (s ≠ r → (inMode r .reader st f).state.bs s = st.bs s) →
      ((inMode r .reader st f).state.bs s).Ok (st.bufSize (streamSpace s)) := by
    intro r α f hf hpar ho
    by_cases hs : s = r
    · subst hs
      have hp : (inMode s .reader st f).state.bufSize (streamSpace s) = st.bufSize (streamSpace s) := by
        unfold State.bufSize; rw [hpar]
      refine inMode_keeps (P := fun st t => (st.bs s).Ok (st.bufSize (streamSpace s)) →
        t.bufSize (streamSpace s) = st.bufSize (streamSpace s) → (t.bs s).Ok (st.bufSize (streamSpace s)))
        (fun _ h _ => h) (fun m h hp => ?_) (h s) hp
      rw [← hp]
      exact (hf st m h).2
    · exact same _ (ho hs)
  have open_ : ∀ r m, ((openStream r m st).state.bs s).Ok (st.bufSize (streamSpace s)) := by
    intro r m
    unfold openStream
    split
    · exact h s
    · rename_i limit _
      split
      · exact h s
      · rename_i hle
        rw [Result.state_ok, State.bs_setBs]
        split
        · rename_i e
          subst e
          exact ⟨Nat.zero_le _, by simp only at hle ⊢; omega, fun _ j _ => by simp, fun _ h => absurd rfl h⟩
        · exact h s
  have only := body_touches i st
  cases i with
  | nop => exact h s
  | ctxReset =>
    have : (body .ctxReset st).state.bs s = Stream.closed := by cases s <;> rfl
    rw [this]
    exact ⟨Nat.zero_le _, Nat.zero_le _, fun h => (nomatch h), fun h => (nomatch h)⟩
  | bsOpenW r => simp only [body, Result.state_andThen_unit]; exact open_ r .writer
  | bsOpenR r => simp only [body, Result.state_andThen_unit]; exact open_ r .reader
  | writeBit r =>
    simp only [body, writeBitBody, touches, Result.state_andThen_unit] at only ⊢
    exact writer r _ (fun st => writerKeeps_writeBit _ _ _) only
  | writeBits r n =>
    simp only [body, writeBitsBody, touches, Result.state_andThen_unit] at only ⊢
    exact writer r _ (fun st => writerKeeps_writeBits _ _ _ _) only
  | finalize r =>
    simp only [body, finalizeBody, touches] at only ⊢
    exact writer r _ (fun st => by rw [Result.state_andThen_unit]; exact writerKeeps_finalize _ _) only
  | readBit r =>
    simp only [body, readBitBody, touches] at only ⊢
    refine reader r _ (fun st => by rw [Result.state_andThen_unit]; exact readerKeeps_readBit _ _) only.kept.params
      fun hs => ?_
    unfold OnlyStream at only
    rw [only, State.bs_setBs_ne _ _ hs]
  | readBits r n =>
    simp only [body, readBitsBody, touches] at only ⊢
    refine reader r _ (fun st => readerKeeps_readBitsFrom _ _ _ _) only.kept.params fun hs => ?_
    unfold OnlyStream at only
    rw [only, State.bs_setBs_ne _ _ hs]
  | freqClear => exact h s
  | freqCount =>
    refine same _ ?_
    simp only [touches] at only
    unfold OnlyFreq at only
    rw [only]; cases s <;> rfl
  | build =>
    refine same _ ?_
    simp only [touches] at only
    unfold OnlyTree at only
    rw [only]; cases s <;> rfl
  | codegen =>
    refine same _ ?_
    simp only [touches] at only
    unfold OnlyCode at only
    rw [only]; cases s <;> rfl
  | treeSave =>
    simp only [body, treeSaveBody, touches, Result.state_andThen_unit] at only ⊢
    refine writer .tree _ (fun st => ?_) only
    split
    · exact writerKeeps_saveNode _ _ _
    · exact (frame_writerKeeps _).refl st
  | treeLoad =>
    simp only [body, treeLoadBody, touches] at only ⊢
    refine reader .tree _ (fun st => ?_) only.kept.params fun hs => ?_
    · have F := frame_readerKeeps .tree
      exact F.trans (t := st.arenaReset) (readerKeeps_of_same rfl rfl)
        (F.andThen (readerKeeps_loadNode _ _ _) fun r t => readerKeeps_of_same rfl rfl)
    · unfold OnlyLoad at only
      rw [only]
      cases s
      · exact absurd rfl hs
      · rfl
  | encode =>
    simp only [body, encodeBody, touches, Result.state_andThen_unit] at only ⊢
    refine writer .pay _ (fun st => ?_) only
    split
    · exact (frame_writerKeeps _).refl st
    · exact (frame_writerKeeps _).forLoop writerKeeps_encodeByte _ _ _
  | decode =>
    simp only [body, decodeBody, touches] at only ⊢
    refine reader .pay _ (fun st => ?_) only.kept.params fun hs => ?_
    · have F := frame_readerKeeps .pay
      unfold decodePayload
      split
      · exact F.refl st
      · split
        · exact F.trans (readerKeeps_of_same (t := { st with rawLen := 0 }) rfl rfl)
            (F.andThen (F.forLoop readerKeeps_decodeSymbol _ _ _) fun r t => readerKeeps_of_same rfl rfl)
        · exact F.refl st
    · unfold OnlyDecode at only
      rw [only]
      cases s
      · rfl
      · exact absurd rfl hs

/-! ## The buffers -/

/-- The buffers stay in canonical form and below their sizes. -/
def BuffersKeep (st t : State) : Prop := t.params = st.params ∧ (BuffersOk st → BuffersOk t)

theorem frame_buffersKeep : Frame BuffersKeep where
  refl _ := ⟨rfl, id⟩
  trans h h' := ⟨h'.1.trans h.1, fun o => h'.2 (h.2 o)⟩

theorem buffersKeep_of_same {st t : State} (hb : ∀ sp, t.buf sp = st.buf sp) (hp : t.params = st.params) :
    BuffersKeep st t := ⟨hp, fun h => h.congr hb hp⟩

theorem params_memWrite (sp : Space) (a : Nat) (v : Byte) (st : State) : (st.memWrite sp a v).params = st.params := by
  unfold State.memWrite State.setBuf
  split
  · cases sp <;> rfl
  · rfl

theorem params_setBs (s : StreamSel) (q : Stream) (st : State) : (st.setBs s q).params = st.params := by
  cases s <;> rfl

theorem buffersKeep_memWrite (sp : Space) (a : Nat) (v : Byte) (st : State) : BuffersKeep st (st.memWrite sp a v) :=
  ⟨params_memWrite sp a v st, fun h => h.memWrite sp a v⟩

theorem buffersKeep_setBs (s : StreamSel) (q : Stream) (st : State) : BuffersKeep st (st.setBs s q) :=
  buffersKeep_of_same (fun sp => State.buf_setBs _ sp s q) (params_setBs s q st)

theorem OnlyStream.buffers {s : StreamSel} {st t : State} (h : OnlyStream s st t) : BuffersKeep st t := by
  unfold OnlyStream at h
  rw [h]; exact buffersKeep_setBs s _ st

theorem buffersKeep_writeBit (s : StreamSel) (b : Bool) (st : State) : BuffersKeep st (writeBit s b st).state := by
  by_cases h7 : (st.bs s).bit.toNat < 7
  · rw [writeBit_pending h7]; exact buffersKeep_setBs s _ st
  · by_cases hl : (st.bs s).limit ≤ (st.bs s).byte
    · rw [writeBit_overflow h7 hl]; exact frame_buffersKeep.refl st
    · rw [writeBit_commit h7 hl]
      exact frame_buffersKeep.trans (buffersKeep_memWrite _ _ _ st) (buffersKeep_setBs s _ _)

theorem buffersKeep_writeBits (s : StreamSel) (v : Word) (n : Nat) (st : State) :
    BuffersKeep st (writeBits s v n st).state := by
  rw [writeBits_eq_writeList]
  generalize fieldBits v n = bs
  induction bs generalizing st with
  | nil => exact frame_buffersKeep.refl st
  | cons b bs ih => exact frame_buffersKeep.andThen (buffersKeep_writeBit s b st) fun _ t => ih t

theorem buffersKeep_finalize (s : StreamSel) (st : State) : BuffersKeep st (finalize s st).state := by
  by_cases h : (st.bs s).bit = 0
  · rw [finalize_idle h]; exact frame_buffersKeep.refl st
  · by_cases hl : (st.bs s).limit ≤ (st.bs s).byte
    · rw [finalize_overflow h hl]; exact frame_buffersKeep.refl st
    · rw [finalize_commit h hl]
      exact frame_buffersKeep.trans (buffersKeep_memWrite _ _ _ st) (buffersKeep_setBs s _ _)

theorem buffersKeep_saveNode (fuel : Nat) (i : NodeIdx) (st : State) : BuffersKeep st (saveNode fuel i st).state := by
  have F := frame_buffersKeep
  induction fuel generalizing i st with
  | zero => exact F.refl st
  | succ fuel ih =>
    unfold saveNode
    split
    · exact F.refl st
    · split
      · exact F.andThen (buffersKeep_writeBit _ _ _) fun _ t => buffersKeep_writeBits _ _ _ t
      · refine F.andThen (buffersKeep_writeBit _ _ _) fun _ t => ?_
        split
        · exact F.refl t
        · refine F.andThen (ih _ _) fun _ u => ?_
          split
          · exact F.refl u
          · exact ih _ _

theorem buffersKeep_decodeSymbol (k : Nat) (st : State) : BuffersKeep st (decodeSymbol k st).state := by
  refine frame_buffersKeep.andThen (onlyStream_walk ..).buffers fun y t => ?_
  split
  · exact frame_buffersKeep.refl t
  · exact buffersKeep_memWrite _ _ _ t

/-- Every body keeps the form of the buffers. -/
theorem body_keeps_buffers (i : Instr) (st : State) (h : BuffersOk st) : BuffersOk (body i st).state := by
  have F := frame_buffersKeep
  have only := body_touches i st
  suffices BuffersKeep st (body i st).state from this.2 h
  cases i with
  | nop => exact F.refl st
  | ctxReset => exact buffersKeep_of_same (fun sp => by cases sp <;> rfl) rfl
  | bsOpenW r => exact OnlyStream.buffers only
  | bsOpenR r => exact OnlyStream.buffers only
  | writeBit r =>
    simp only [body, writeBitBody, Result.state_andThen_unit]
    exact F.inMode (fun st => buffersKeep_writeBit _ _ st) st
  | writeBits r n =>
    simp only [body, writeBitsBody, Result.state_andThen_unit]
    exact F.inMode (fun st => buffersKeep_writeBits _ _ _ st) st
  | finalize r =>
    simp only [body, finalizeBody]
    exact F.inMode (fun st => by rw [Result.state_andThen_unit]; exact buffersKeep_finalize _ st) st
  | readBit r => exact OnlyStream.buffers only
  | readBits r n => exact OnlyStream.buffers only
  | freqClear => exact buffersKeep_of_same (fun sp => by cases sp <;> rfl) rfl
  | freqCount =>
    simp only [touches] at only
    unfold OnlyFreq at only
    exact buffersKeep_of_same (fun sp => by rw [only]; cases sp <;> rfl) (by rw [only])
  | build =>
    simp only [touches] at only
    unfold OnlyTree at only
    exact buffersKeep_of_same (fun sp => by rw [only]; cases sp <;> rfl) (by rw [only])
  | codegen =>
    simp only [touches] at only
    unfold OnlyCode at only
    exact buffersKeep_of_same (fun sp => by rw [only]; cases sp <;> rfl) (by rw [only])
  | treeSave =>
    simp only [body, treeSaveBody, Result.state_andThen_unit]
    refine F.inMode (fun st => ?_) st
    split
    · exact buffersKeep_saveNode _ _ st
    · exact F.refl st
  | treeLoad =>
    simp only [touches] at only
    unfold OnlyLoad at only
    exact buffersKeep_of_same (fun sp => by rw [only]; cases sp <;> rfl) (by rw [only])
  | encode =>
    simp only [body, encodeBody, Result.state_andThen_unit]
    refine F.inMode (fun st => ?_) st
    split
    · exact F.refl st
    · refine F.forLoop (fun k st => ?_) _ _ _
      unfold encodeByte
      simp only
      split
      · exact F.refl st
      · exact buffersKeep_writeBits _ _ _ st
  | decode =>
    simp only [body, decodeBody]
    refine F.inMode (fun st => ?_) st
    unfold decodePayload
    split
    · exact F.refl st
    · split
      · exact F.trans (buffersKeep_of_same (t := { st with rawLen := 0 }) (fun sp => by cases sp <;> rfl) rfl)
          (F.andThen (F.forLoop buffersKeep_decodeSymbol _ _ _) fun r t =>
            buffersKeep_of_same (fun sp => by cases sp <;> rfl) rfl)
      · exact F.refl st

/-! ## The bytes stored (R61, R69) -/

theorem OnlyStream.memRead {s : StreamSel} {st t : State} (h : OnlyStream s st t) (x : Space) (a : Nat) :
    t.memRead x a = st.memRead x a := by
  unfold OnlyStream at h
  rw [h, State.memRead_setBs]

/-- A command that writes through stream `s` stores in that stream's buffer only. -/
theorem OnlyWriter.memRead_ne {s : StreamSel} {st t : State} (h : OnlyWriter s st t) {x : Space}
    (hx : x ≠ streamSpace s) (a : Nat) : t.memRead x a = st.memRead x a := by
  unfold OnlyWriter at h
  rw [h]
  refine State.memRead_congr x a ?_ ?_
  · rw [State.buf_setBuf_ne _ _ hx, State.buf_setBs]
  · cases s <;> rfl

/-- DECODE's loop stores in RAW only, from its first index to its last. -/
theorem decodeLoop_stores (n k : Nat) (st : State) : BytesKept .raw k (k + n) st (forLoop decodeSymbol n k st).state := by
  induction n generalizing k st with
  | zero => exact fun _ _ _ => rfl
  | succ n ih =>
    have one : ∀ x a, ¬ (x = .raw ∧ a = k) → (decodeSymbol k st).state.memRead x a = st.memRead x a := by
      intro x a hx
      unfold decodeSymbol
      have hw := (onlyStream_walk (st.root.toNat + 1) st.root st).memRead x a
      revert hw
      cases walk (st.root.toNat + 1) st.root st with
      | raised e t => exact id
      | ok y t =>
        intro hw
        simp only [Result.andThen_ok]
        split
        · exact hw
        · rw [Result.state_ok, State.memRead_memWrite_ne ?_]
          · exact hw
          by_cases hr : x = .raw
          · exact .inr fun e => hx ⟨hr, e⟩
          · exact .inl hr
    intro x a hx
    unfold forLoop
    have h1 := one x a fun e => hx ⟨e.1, by omega, by omega⟩
    revert h1
    cases decodeSymbol k st with
    | raised e t => exact id
    | ok u t =>
      intro h1
      rw [Result.andThen_ok, ih (k + 1) t x a fun e => hx ⟨e.1, by omega, by omega⟩]
      exact h1

/-! ## The tables -/

/-- The frequency and code tables, the tree with its heap, and `RAW_LEN` are as before. -/
structure TablesKept (st t : State) : Prop where
  freq       : t.freq = st.freq
  code       : t.code = st.code
  arena      : t.arena = st.arena
  arenaCount : t.arenaCount = st.arenaCount
  heap       : t.heap = st.heap
  heapSize   : t.heapSize = st.heapSize
  root       : t.root = st.root
  treeValid  : t.treeValid = st.treeValid
  rawLen     : t.rawLen = st.rawLen

theorem OnlyWriter.tables {s : StreamSel} {st t : State} (h : OnlyWriter s st t) : TablesKept st t := by
  unfold OnlyWriter at h
  constructor <;> (rw [h]; cases s <;> rfl)

theorem OnlyStream.tables {s : StreamSel} {st t : State} (h : OnlyStream s st t) : TablesKept st t := h.writer.tables

/-! ## The code table (R9, R31) -/

theorem CodesOk.congr {st t : State} (h : CodesOk st) (e : t.code = st.code) : CodesOk t := by
  intro y
  have := h y
  unfold State.codeAt at *
  rwa [e]

theorem CodesOk.cleared {st : State} (h : ∀ y, st.codeAt y = CodeEntry.unassigned) : CodesOk st := by
  intro y
  rw [h y]
  decide

theorem CodesOk.setCode {st : State} (h : CodesOk st) (y : Symbol) {e : CodeEntry} (h1 : e.len.toNat ≤ 63)
    (h2 : e.pat.toNat < 2 ^ e.len.toNat) : CodesOk (st.setCode y e) := by
  intro z
  rw [State.codeAt_setCode]
  split
  · exact ⟨h1, h2⟩
  · exact h z

theorem shiftIn_lt {pat : Word} {d : Nat} (hd : d < 64) (hp : pat.toNat < 2 ^ d) :
    (pat <<< 1).toNat < 2 ^ (d + 1) ∧ ((pat <<< 1) ||| 1).toNat < 2 ^ (d + 1) := by
  have e : (pat <<< 1).toNat < 2 ^ (d + 1) := by
    rw [BitVec.toNat_shiftLeft, Nat.shiftLeft_eq]
    refine Nat.lt_of_le_of_lt (Nat.mod_le _ _) ?_
    rw [Nat.pow_succ]
    omega
  refine ⟨e, ?_⟩
  rw [BitVec.toNat_or]
  refine Nat.or_lt_two_pow e ?_
  exact Nat.one_lt_two_pow (by omega)

theorem visit_keeps_codes (left : Nat) (i : NodeIdx) (pat : Word) (st : State) (h : CodesOk st) (hl : left ≤ 64)
    (hp : pat.toNat < 2 ^ (64 - left)) : CodesOk (visit left i pat st).state := by
  induction left generalizing i pat st with
  | zero => exact h
  | succ left ih =>
    unfold visit
    split
    · exact h
    · split
      · rw [Result.state_ok]
        have e : Config.depthBound - (left + 1) = 64 - (left + 1) := rfl
        simp only [e]
        split
        · rename_i h0
          refine h.setCode _ (Nat.le_of_ble_eq_true rfl) ?_
          rw [h0] at hp
          simp only at hp ⊢
          have : pat.toNat = 0 := by omega
          rw [this]; decide
        · refine h.setCode _ ?_ ?_
          · simp
            omega
          · have : (BitVec.ofNat 7 (64 - (left + 1))).toNat = 64 - (left + 1) := by simp; omega
            simp only [this]
            exact hp
      · split
        · exact h
        · have hs := shiftIn_lt (d := 64 - (left + 1)) (by omega) hp
          have e : 64 - (left + 1) + 1 = 64 - left := by omega
          rw [e] at hs
          have h1 := ih (i := by assumption) (pat <<< 1) st h (by omega) hs.1
          revert h1
          cases visit left _ (pat <<< 1) st with
          | raised k t => exact id
          | ok u t =>
            intro h1
            rw [Result.andThen_ok]
            split
            · exact h1
            · exact ih _ _ _ h1 (by omega) hs.2

/-- Every body keeps the bounds of the code table. -/
theorem body_keeps_codes (i : Instr) (st : State) (h : CodesOk st) : CodesOk (body i st).state := by
  have only := body_touches i st
  cases i
  case ctxReset => exact CodesOk.cleared fun y => State.codeAt_clearCode st.arenaReset.clearFreq y
  case codegen =>
    simp only [body, Result.state_andThen_unit]
    have h0 : CodesOk st.clearCode := CodesOk.cleared fun y => State.codeAt_clearCode st y
    unfold generateCodes
    simp only
    split
    · exact visit_keeps_codes _ _ _ _ h0 (Nat.le_refl _) (by decide)
    · exact h0
  all_goals
    refine h.congr ?_
    simp only [touches] at only
    first
      | rw [only]; done
      | exact (OnlyWriter.tables only).code
      | exact (OnlyStream.tables only).code

/-! ## The heap and the arena (R33, R126) -/

theorem HeapOk.congr {st t : State} (h : HeapOk st) (ha : t.arena = st.arena) (hc : t.arenaCount = st.arenaCount)
    (hh : t.heap = st.heap) (hs : t.heapSize = st.heapSize) : HeapOk t where
  live i hi := by
    rw [hc]
    refine h.live i ?_
    rw [State.liveHeap_eq] at *
    rwa [hh, hs] at hi
  ordered := h.ordered.congr hs hh fun i _ => nodeKey_of_arena ha i

theorem HeapOk.empty {st : State} (h : st.heapSize.val = 0) : HeapOk st where
  live i hi := by
    rw [State.liveHeap_eq, h] at hi
    cases hi
  ordered := fun p _ hp => by omega

theorem ArenaOk.congr {st t : State} (h : ArenaOk st) (ha : t.arena = st.arena) (hc : t.arenaCount = st.arenaCount)
    (hr : t.root = st.root) (hv : t.treeValid = st.treeValid) : ArenaOk t where
  nodes i hi := by
    rw [State.slot_congr i ha]
    exact h.nodes i (by rwa [hc] at hi)
  parent c i j hi hj := h.parent c i j (hi.of_arena ⟨ha, hc⟩) (hj.of_arena ⟨ha, hc⟩)
  root hv' := by rw [hr, hc]; exact h.root (by rwa [hv] at hv')
  reached hv' j hj := by
    rw [hr]
    exact (h.reached (by rwa [hv] at hv') j (by rwa [hc] at hj)).of_arena ⟨ha, hc⟩
  tree hv' := by
    obtain ⟨T, h1, h2⟩ := h.tree (by rwa [hv] at hv')
    rw [hc, hr]
    exact ⟨T, h1.of_arena ⟨ha, hc⟩, h2⟩
  noTree hv' := by rw [hr]; exact h.noTree (by rwa [hv] at hv')

theorem arenaOk_reset (st : State) : ArenaOk st.arenaReset :=
  (Forest.empty (st := st.arenaReset) rfl).arenaOk_noTree rfl rfl

theorem Built.heapOk {f : Symbol → Word} {st t : State} {T : Tree} (h : Built f st t T) : HeapOk t where
  live i hi := by
    have := h.building.heap.mem_iff.1 hi
    simp only [List.map_cons, List.map_nil, List.mem_singleton] at this
    rw [this, ← h.last]
    omega
  ordered := h.building.ordered

theorem Built.arenaOk {f : Symbol → Word} {st t : State} {T : Tree} (h : Built f st t T) : ArenaOk t :=
  h.building.forest.arenaOk h.last h.valid

/-- Every body keeps the heap in use and in heap order. -/
theorem body_keeps_heap (i : Instr) (st : State) (h : HeapOk st) : HeapOk (body i st).state := by
  have only := body_touches i st
  have kept : ∀ {t : State}, TablesKept st t → HeapOk t := fun k => h.congr k.arena k.arenaCount k.heap k.heapSize
  cases i
  case ctxReset => exact HeapOk.empty rfl
  case build =>
    show HeapOk (buildTree st).state
    rcases buildTree_cases st with ⟨_, e⟩ | ⟨_, _, t, T, e, hb⟩ | ⟨_, t, gs, e, _, ho, _⟩ <;> rw [e]
    · exact HeapOk.empty rfl
    · exact hb.heapOk
    · exact ho
  case treeLoad =>
    simp only [body]
    refine inMode_keeps (P := fun st t => HeapOk st → HeapOk t) (fun _ => id) (fun _ _ => ?_) h
    rcases loadTree_cases st with ⟨T, t, e, _, _, _, _, h0, _⟩ | ⟨k, t, e, _, _, _, _, h0⟩ <;> rw [e]
    · exact HeapOk.empty h0
    · exact HeapOk.empty h0
  all_goals
    simp only [touches] at only
    first
      | (rw [only]; exact h)
      | exact kept (OnlyWriter.tables only)
      | exact kept (OnlyStream.tables only)
      | (unfold OnlyFreq at only; rw [only]; exact h.congr rfl rfl rfl rfl)
      | (unfold OnlyCode at only; rw [only]; exact h.congr rfl rfl rfl rfl)
      | (unfold OnlyDecode at only; rw [only]; exact h.congr rfl rfl rfl rfl)

/-- Every body keeps the arena invariants. -/
theorem body_keeps_arena (i : Instr) (st : State) (h : ArenaOk st) : ArenaOk (body i st).state := by
  have only := body_touches i st
  have kept : ∀ {t : State}, TablesKept st t → ArenaOk t := fun k => h.congr k.arena k.arenaCount k.root k.treeValid
  cases i
  case ctxReset => exact (arenaOk_reset st).congr rfl rfl rfl rfl
  case build =>
    show ArenaOk (buildTree st).state
    rcases buildTree_cases st with ⟨_, e⟩ | ⟨_, _, t, T, e, hb⟩ | ⟨_, t, gs, e, hf, _, _, hv, hr⟩ <;> rw [e]
    · exact arenaOk_reset st
    · exact hb.arenaOk
    · exact hf.arenaOk_noTree hv hr
  case treeLoad =>
    simp only [body]
    refine inMode_keeps (P := fun st t => ArenaOk st → ArenaOk t) (fun _ => id) (fun _ _ => ?_) h
    rcases loadTree_cases st with ⟨T, t, e, _, ha, _⟩ | ⟨k, t, e, _, ha, _⟩ <;> rw [e]
    · exact ha
    · exact ha
  all_goals
    simp only [touches] at only
    first
      | (rw [only]; exact h)
      | exact kept (OnlyWriter.tables only)
      | exact kept (OnlyStream.tables only)
      | (unfold OnlyFreq at only; rw [only]; exact h.congr rfl rfl rfl rfl)
      | (unfold OnlyCode at only; rw [only]; exact h.congr rfl rfl rfl rfl)
      | (unfold OnlyDecode at only; rw [only]; exact h.congr rfl rfl rfl rfl)

end Sys2Proof.Machine
end

