-- ==== Sys2Proof/Laws/Latch.lean ====
section
/-! SUPPORT. What reading does to an open reader, however the reading command ends: the cursor only moves on, and the latch
holds the byte entered last (R37). -/

namespace Sys2Proof.Machine

/-- From `st` to `t` the reader of stream `s` stayed open, its cursor did not go back, and its latch followed it; the bytes of
its buffer did not change. -/
structure Latched (s : StreamSel) (st t : State) : Prop where
  reader : ReaderOk t s
  limit  : (t.bs s).limit = (st.bs s).limit
  bytes  : ∀ a, t.memRead (streamSpace s) a = st.memRead (streamSpace s) a
  pos    : (st.bs s).pos ≤ (t.bs s).pos
  hold   : (t.bs s).hold = st.latchAt s (t.bs s).pos

theorem Latched.refl {s : StreamSel} {st : State} (h : ReaderOk st s) : Latched s st st :=
  ⟨h, rfl, fun _ => rfl, Nat.le_refl _, by unfold State.latchAt; rw [if_pos (.inl rfl)]⟩

theorem Stream.bit_ne_zero (q : Stream) : q.bit ≠ 0 ↔ 0 < q.bit.toNat := by
  rw [Ne, ← BitVec.toNat_inj]
  exact Nat.pos_iff_ne_zero.symm

/-- Following the latch to `p` by way of an earlier place (R37). -/
theorem State.latchAt_trans {s : StreamSel} {st t : State} {p : Nat}
    (hb : ∀ a, t.memRead (streamSpace s) a = st.memRead (streamSpace s) a) (h1 : (st.bs s).pos ≤ (t.bs s).pos)
    (h2 : (t.bs s).pos ≤ p) (hh : (t.bs s).hold = st.latchAt s (t.bs s).pos) : t.latchAt s p = st.latchAt s p := by
  have b1 := (st.bs s).bit_lt
  have b2 := (t.bs s).bit_lt
  unfold State.latchAt at hh ⊢
  simp only [Stream.bit_ne_zero, hb, hh, Stream.pos] at *
  generalize (st.bs s).byte.toNat = A at *
  generalize (st.bs s).bit.toNat = a at *
  generalize (t.bs s).byte.toNat = B at *
  generalize (t.bs s).bit.toNat = b at *
  by_cases hp : p = 8 * B + b
  · rw [if_pos (.inl hp), hp]
  · by_cases hq : (p - 1) / 8 = B ∧ 0 < b
    · rw [if_pos (.inr hq)]
      by_cases hc : 8 * B + b = 8 * A + a ∨ (8 * B + b - 1) / 8 = A ∧ 0 < a
      · rw [if_pos hc, if_pos (by omega)]
      · rw [if_neg hc, if_neg (by omega), show (8 * B + b - 1) / 8 = (p - 1) / 8 by omega]
    · rw [if_neg (by omega), if_neg (by omega)]

/-- As `Latched`, for a stream that is an open reader. -/
def ReadOn (s : StreamSel) (st t : State) : Prop := ReaderOk st s → Latched s st t

theorem frame_readOn (s : StreamSel) : Frame (ReadOn s) where
  refl _ hr := .refl hr
  trans h h' hr := by
    have k := h hr
    have k' := h' k.reader
    exact ⟨k'.reader, k'.limit.trans k.limit, fun a => (k'.bytes a).trans (k.bytes a), k.pos.trans k'.pos,
      k'.hold.trans (State.latchAt_trans k.bytes k.pos k'.pos k.hold)⟩

/-- A change that leaves stream `s` and its buffer alone. -/
theorem readOn_of_same {s : StreamSel} {st t : State} (hq : t.bs s = st.bs s)
    (hs : t.bufSize (streamSpace s) = st.bufSize (streamSpace s))
    (hb : ∀ a, t.memRead (streamSpace s) a = st.memRead (streamSpace s) a) : ReadOn s st t := by
  intro hr
  refine ⟨⟨by rw [hq]; exact hr.mode, by rw [hq, hs]; exact hr.ok⟩, by rw [hq], hb, by rw [hq], ?_⟩
  rw [hq]; unfold State.latchAt; rw [if_pos (.inl rfl)]

theorem readBit_hold {s : StreamSel} {b : Bool} {st t : State} (h : readBit s st = .ok b t) :
    (t.bs s).hold = latched s st := by
  unfold readBit at h
  simp only at h
  split at h
  · cases h
  · split at h
    all_goals
      injection h with _ h2
      rw [← h2, State.bs_setBs_same]

theorem readOn_readBit (s : StreamSel) (st : State) : ReadOn s st (readBit s st).state := by
  intro hr
  by_cases h : (st.bs s).pos < 8 * (st.bs s).limit.toNat
  · obtain ⟨b, t, e, r, _, p, f⟩ := readBit_more hr h
    rw [e, Result.state_ok]
    refine ⟨r, f.limit, fun a => f.memRead _ a, by omega, ?_⟩
    rw [readBit_hold e, p]
    unfold latched State.latchAt
    have hd : ((st.bs s).pos + 1 - 1) / 8 = (st.bs s).byte.toNat := Stream.pos_div _
    rw [hd]
    by_cases hb : (st.bs s).bit = 0
    · rw [if_pos hb, if_neg (by rintro (h | h); · omega
                                · exact h.2 hb)]
    · rw [if_neg hb, if_pos (.inr ⟨rfl, hb⟩)]
  · rw [readBit_end hr (by omega), Result.state_raised]
    exact .refl hr

theorem readOn_readBitsFrom (s : StreamSel) (n : Nat) (v : Word) (st : State) :
    ReadOn s st (readBitsFrom s n v st).state := by
  induction n generalizing v st with
  | zero => exact (frame_readOn s).refl st
  | succ n ih => exact (frame_readOn s).andThen (readOn_readBit s st) fun _ t => ih _ t

theorem readOn_allocNode (s : StreamSel) (n : Node) (st : State) : ReadOn s st (allocNode n st).state := by
  unfold allocNode
  split
  · exact readOn_of_same (by cases s <;> rfl) rfl fun _ => rfl
  · exact (frame_readOn s).refl st

theorem readOn_loadNode (fuel reserved : Nat) (st : State) : ReadOn .tree st (loadNode fuel reserved st).state := by
  have hR := frame_readOn .tree
  induction fuel generalizing reserved st with
  | zero => exact hR.refl st
  | succ fuel ih =>
    unfold loadNode
    refine hR.andThen (readOn_readBit _ st) fun m t => ?_
    split
    · exact hR.refl t
    · split
      · refine hR.andThen (readOn_readBitsFrom _ 8 0 t) fun v u => ?_
        exact hR.andThen (readOn_allocNode _ _ u) fun i w => hR.refl w
      · refine hR.andThen (ih _ t) fun l u => hR.andThen (ih _ u) fun r w => ?_
        exact hR.andThen (readOn_allocNode _ _ w) fun i x => hR.refl x

theorem readOn_loadTree (st : State) : ReadOn .tree st (loadTree st).state := by
  have hR := frame_readOn .tree
  unfold loadTree
  exact hR.andThen (hR.trans (readOn_of_same (t := st.arenaReset) rfl rfl fun _ => rfl) (readOn_loadNode _ _ _))
    fun _ t => readOn_of_same rfl rfl fun _ => rfl

theorem readOn_walk (fuel : Nat) (i : NodeIdx) (st : State) : ReadOn .pay st (walk fuel i st).state := by
  have hR := frame_readOn .pay
  induction fuel generalizing i st with
  | zero => exact hR.refl st
  | succ fuel ih =>
    unfold walk
    split
    · exact hR.refl st
    · split
      · exact hR.refl st
      · refine hR.andThen (readOn_readBit _ st) fun b t => ?_
        split
        · exact hR.refl t
        · exact ih _ t

theorem readOn_decodeSymbol (k : Nat) (st : State) : ReadOn .pay st (decodeSymbol k st).state := by
  have hR := frame_readOn .pay
  unfold decodeSymbol
  refine hR.andThen (readOn_walk _ _ _) fun y t => ?_
  split
  · exact hR.refl t
  · unfold State.memWrite
    rw [if_pos (by omega)]
    exact readOn_of_same rfl rfl fun _ => rfl

theorem readOn_decodePayload (st : State) : ReadOn .pay st (decodePayload st).state := by
  have hR := frame_readOn .pay
  unfold decodePayload
  split
  · exact hR.refl st
  · split
    · refine hR.andThen (hR.trans (t := { st with rawLen := 0 }) (readOn_of_same rfl rfl fun _ => rfl)
        (hR.forLoop readOn_decodeSymbol _ _ _)) fun _ t => ?_
      exact readOn_of_same rfl rfl fun _ => rfl
    · exact hR.refl st

/-- Every reading command, on the reader it reads. -/
theorem body_readOn {i : Instr} {s : StreamSel} (h : readsStream i s = true) (st : State) :
    ReadOn s st (body i st).state := by
  have hR := frame_readOn s
  cases i <;> simp only [readsStream, Bool.false_eq_true, decide_eq_true_eq] at h
  case readBit r =>
    subst h
    refine hR.inMode (s := r) (m := .reader) (f := fun st => (readBit r st).andThen fun b st =>
      .ok ((BitVec.ofBool b).zeroExtend 64) st) (fun st => ?_) st
    rw [Result.state_andThen_unit]
    exact readOn_readBit _ _
  case readBits r n => subst h; exact hR.inMode (fun st => readOn_readBitsFrom _ _ _ st) st
  case treeLoad => subst h; exact hR.inMode readOn_loadTree st
  case decode => subst h; exact hR.inMode readOn_decodePayload st

end Sys2Proof.Machine
end

