-- ==== Sys2Proof/Laws/PerInstr.lean ====
section
/-! SUPPORT. A family of facts with one lemma per constructor of `Instr`: the word the encoder makes for a command lies in
its own row of the opcode map of R83, which is written there independently of the encoder. -/

namespace Sys2Proof.Laws.OpcodeMatch

/-- The word of `i` matches, under its mask, the row of the opcode map that carries the mnemonic of `i`. -/
def Statement (i : Instr) : Prop :=
  ∃ r ∈ opRows, r.mnemonic = i.mnemonic ∧ r.hits (Sys2Proof.encode i) = true

/-- Only the variable fields `S` and `N` of WRITE_BITS are free under its mask. -/
theorem masked_writeBits (s : StreamSel) (n : BitVec 7) : Sys2Proof.encode (.writeBits s n) &&& 0xFF80FEFF#32 = 0x13#32 := by
  cases s <;> revert n <;> decide +kernel

/-- Only the variable fields `S` and `N` of READ_BITS are free under its mask. -/
theorem masked_readBits (s : StreamSel) (n : BitVec 7) : Sys2Proof.encode (.readBits s n) &&& 0xFF80FEFF#32 = 0x16#32 := by
  cases s <;> revert n <;> decide +kernel

theorem nop : Statement .nop := ⟨opRows[0], by decide, rfl, by decide⟩
theorem ctxReset : Statement .ctxReset := ⟨opRows[1], by decide, rfl, by decide⟩
theorem bsOpenW (s : StreamSel) : Statement (.bsOpenW s) := ⟨opRows[2], by decide, rfl, by cases s <;> decide⟩
theorem bsOpenR (s : StreamSel) : Statement (.bsOpenR s) := ⟨opRows[3], by decide, rfl, by cases s <;> decide⟩
theorem writeBit (s : StreamSel) : Statement (.writeBit s) := ⟨opRows[4], by decide, rfl, by cases s <;> decide⟩
theorem writeBits (s : StreamSel) (n : BitVec 7) : Statement (.writeBits s n) :=
  ⟨opRows[5], by decide, rfl, beq_iff_eq.mpr (masked_writeBits s n)⟩
theorem finalize (s : StreamSel) : Statement (.finalize s) := ⟨opRows[6], by decide, rfl, by cases s <;> decide⟩
theorem readBit (s : StreamSel) : Statement (.readBit s) := ⟨opRows[7], by decide, rfl, by cases s <;> decide⟩
theorem readBits (s : StreamSel) (n : BitVec 7) : Statement (.readBits s n) :=
  ⟨opRows[8], by decide, rfl, beq_iff_eq.mpr (masked_readBits s n)⟩
theorem freqClear : Statement .freqClear := ⟨opRows[9], by decide, rfl, by decide⟩
theorem freqCount : Statement .freqCount := ⟨opRows[10], by decide, rfl, by decide⟩
theorem build : Statement .build := ⟨opRows[11], by decide, rfl, by decide⟩
theorem codegen : Statement .codegen := ⟨opRows[12], by decide, rfl, by decide⟩
theorem treeSave : Statement .treeSave := ⟨opRows[13], by decide, rfl, by decide⟩
theorem treeLoad : Statement .treeLoad := ⟨opRows[14], by decide, rfl, by decide⟩
theorem encode : Statement .encode := ⟨opRows[15], by decide, rfl, by decide⟩
theorem decode : Statement .decode := ⟨opRows[16], by decide, rfl, by decide⟩

end Sys2Proof.Laws.OpcodeMatch
end

