-- ==== Sys2Proof/Laws/Ports.lean ====
section
/-! SUPPORT. The ports: what one step does with the transaction it takes, where an index of the register map leads, and
the packings of the words a read returns (R22, R25, R26, R39, R60). -/

namespace Sys2Proof.Machine

/-- A step takes the first pending transaction. -/
theorem step_cons {st : State} {t : HostTxn} {ts : List HostTxn} (h : st.host = t :: ts) :
    step st = transact t { st with host := ts } := by
  unfold step nextTransaction; rw [h]

theorem step_nil {st : State} (h : st.host = []) : step st = .next st := by
  unfold step nextTransaction; rw [h]

/-- The states a step can lead to. -/
inductive StepCase (st : State) : State → Prop where
  | idle (h : st.host = []) : StepCase st st
  | read {l : RegLoc} {ts : List HostTxn} : StepCase st (readLoc l { st with host := ts })
  | write {l : RegLoc} {v : Word} {ts : List HostTxn} : StepCase st (writeLoc l v { st with host := ts })
  | command {i : Instr} {ts : List HostTxn} {t : State} (h : exec i { st with host := ts } = .next t) : StepCase st t
  | illegal {ts : List HostTxn} : StepCase st (State.endError { st with host := ts } .illegalCommand)
  | bufRead {sp : BitVec 2} {a : BitVec 32} {ts : List HostTxn} : StepCase st (bufRead sp a { st with host := ts })
  | bufWrite {sp : BitVec 2} {a : BitVec 32} {v : Byte} {ts : List HostTxn} :
      StepCase st (bufWrite sp a v { st with host := ts })
  | reset {ts : List HostTxn} : StepCase st (State.resetInput { st with host := ts })

/-- Every step is one of these. -/
theorem step_cases {st t : State} (h : step st = .next t) : StepCase st t := by
  cases hh : st.host with
  | nil =>
    rw [step_nil hh] at h
    injection h with h
    subst h
    exact .idle hh
  | cons x ts =>
    rw [step_cons hh] at h
    cases x with
    | regRead idx => injection h with h; subst h; exact .read
    | regWrite idx v =>
      unfold transact at h
      dsimp only at h
      split at h
      · unfold issue at h
        split at h
        · exact .command h
        · injection h with h; subst h; exact .illegal
      · injection h with h; subst h; exact .write
    | bufRead sp a => injection h with h; subst h; exact .bufRead
    | bufWrite sp a v => injection h with h; subst h; exact .bufWrite
    | reset => injection h with h; subst h; exact .reset

/-- A register read changes nothing of the block. -/
theorem readLoc_rest (l : RegLoc) (st : State) :
    readLoc l st = { st with reply := (readLoc l st).reply, freeIdx := (readLoc l st).freeIdx } := by
  cases l <;> simp only [readLoc, State.answer, State.readFree, State.dropFree] <;> split <;> rfl

/-- A write lands in one of four registers, or nowhere. -/
theorem writeLoc_other {l : RegLoc} (v : Word) (st : State) (h1 : l ≠ .errlog) (h2 : l ≠ .arg0) (h3 : l ≠ .rawLen)
    (h4 : ∀ y, l ≠ .freq y) : writeLoc l v st = st := by
  cases l <;> simp_all [writeLoc]

theorem transact_regWrite {idx : BitVec 12} {v : Word} {st : State} (h : regLoc idx ≠ .cmd) :
    transact (.regWrite idx v) st = .next (writeLoc (regLoc idx) v st) := by
  unfold transact
  dsimp only
  split
  · rename_i e
    exact absurd e h
  · rfl

/-! ## Where an index leads -/

theorem regLoc_block (idx : BitVec 12) : (idx.extractLsb' 8 4).toNat = idx.toNat / 256 := by
  simp [Nat.shiftRight_eq_div_pow]
  have := idx.isLt
  omega

theorem regLoc_low {idx : BitVec 12} (h : idx.toNat < 256) : regLoc idx = lowLoc idx.toNat := by
  have e : (idx.extractLsb' 8 4).toNat = 0 := by rw [regLoc_block]; omega
  unfold regLoc; rw [e]; rfl

theorem regLoc_symbol {idx : BitVec 12} {k : Nat} {y : Symbol} (h : idx.toNat = 256 * k + y.toNat) :
    idx.extractLsb' 0 8 = y := by
  apply BitVec.eq_of_toNat_eq
  have := y.isLt
  simp
  omega

theorem regLoc_freq {idx : BitVec 12} {y : Symbol} (h : idx.toNat = 0x100 + y.toNat) : regLoc idx = .freq y := by
  have := y.isLt
  have e : (idx.extractLsb' 8 4).toNat = 1 := by rw [regLoc_block]; omega
  unfold regLoc; rw [e]; simp only; rw [regLoc_symbol (k := 1) (y := y) (by omega)]

theorem regLoc_codePat {idx : BitVec 12} {y : Symbol} (h : idx.toNat = 0x200 + y.toNat) : regLoc idx = .codePat y := by
  have := y.isLt
  have e : (idx.extractLsb' 8 4).toNat = 2 := by rw [regLoc_block]; omega
  unfold regLoc; rw [e]; simp only; rw [regLoc_symbol (k := 2) (y := y) (by omega)]

theorem regLoc_codeLen {idx : BitVec 12} {y : Symbol} (h : idx.toNat = 0x300 + y.toNat) : regLoc idx = .codeLen y := by
  have := y.isLt
  have e : (idx.extractLsb' 8 4).toNat = 3 := by rw [regLoc_block]; omega
  unfold regLoc; rw [e]; simp only; rw [regLoc_symbol (k := 3) (y := y) (by omega)]

theorem regLoc_nodeFreq {idx : BitVec 12} {i : NodeIdx} (hi : i.toNat < 512) (h : idx.toNat = 0x400 + i.toNat) :
    regLoc idx = .nodeFreq (idx.extractLsb' 0 9) ∧ (idx.extractLsb' 0 9).zeroExtend 10 = i := by
  have e : (idx.extractLsb' 8 4).toNat = 4 ∨ (idx.extractLsb' 8 4).toNat = 5 := by rw [regLoc_block]; omega
  constructor
  · rcases e with e | e <;> (unfold regLoc; rw [e]; rfl)
  · apply BitVec.eq_of_toNat_eq
    simp
    omega

theorem regLoc_nodeInfo {idx : BitVec 12} {i : NodeIdx} (hi : i.toNat < 512) (h : idx.toNat = 0x600 + i.toNat) :
    regLoc idx = .nodeInfo (idx.extractLsb' 0 9) ∧ (idx.extractLsb' 0 9).zeroExtend 10 = i := by
  have e : (idx.extractLsb' 8 4).toNat = 6 ∨ (idx.extractLsb' 8 4).toNat = 7 := by rw [regLoc_block]; omega
  constructor
  · rcases e with e | e <;> (unfold regLoc; rw [e]; rfl)
  · apply BitVec.eq_of_toNat_eq
    simp
    omega

theorem regLoc_heapEnt {idx : BitVec 12} {p : Nat} (hp : p < 256) (h : idx.toNat = 0x800 + p) :
    regLoc idx = .heapEnt (idx.extractLsb' 0 8) ∧ (idx.extractLsb' 0 8).toNat = p := by
  have e : (idx.extractLsb' 8 4).toNat = 8 := by rw [regLoc_block]; omega
  constructor
  · unfold regLoc; rw [e]; rfl
  · simp
    omega

/-- The read windows lie at 0x400 to 0x8FF. -/
theorem regLoc_window {idx : BitVec 12} (h1 : 0x400 ≤ idx.toNat) (h2 : idx.toNat < 0x900) :
    (∃ i, regLoc idx = .nodeFreq i) ∨ (∃ i, regLoc idx = .nodeInfo i) ∨ ∃ i, regLoc idx = .heapEnt i := by
  have e : (idx.extractLsb' 8 4).toNat = 4 ∨ (idx.extractLsb' 8 4).toNat = 5 ∨ (idx.extractLsb' 8 4).toNat = 6 ∨
      (idx.extractLsb' 8 4).toNat = 7 ∨ (idx.extractLsb' 8 4).toNat = 8 := by rw [regLoc_block]; omega
  rcases e with e | e | e | e | e <;> (unfold regLoc; rw [e]; simp)

/-- Nothing lies above 0x8FF. -/
theorem regLoc_above {idx : BitVec 12} (h : 0x900 ≤ idx.toNat) : regLoc idx = .unmapped := by
  have := idx.isLt
  have e : ∃ k, (idx.extractLsb' 8 4).toNat = k + 9 := ⟨idx.toNat / 256 - 9, by rw [regLoc_block]; omega⟩
  obtain ⟨k, e⟩ := e
  unfold regLoc; rw [e]; rfl

/-! ## The words a read returns -/

theorem statusWord_fields (c : ResultCode) (b : Bool) :
    (statusWord c b).extractLsb' 0 4 = c.code ∧ (statusWord c b).extractLsb' 4 4 = 0 ∧
      (statusWord c b).getLsbD 8 = b ∧ (statusWord c b).extractLsb' 9 55 = 0 := by
  cases c with
  | ok => cases b <;> decide
  | error k => cases k <;> cases b <;> decide

theorem errlogWord_fields (l : BitVec 8) :
    (∀ k, 1 ≤ k → k ≤ 7 → (errlogWord l).getLsbD k = l.getLsbD k) ∧
      (errlogWord l).getLsbD 0 = false ∧ (errlogWord l).extractLsb' 8 56 = 0 := by
  have all : ∀ l : BitVec 8, (∀ k : Fin 8, 1 ≤ k.val → (errlogWord l).getLsbD k.val = l.getLsbD k.val) ∧
      (errlogWord l).getLsbD 0 = false ∧ (errlogWord l).extractLsb' 8 56 = 0 := by decide +kernel
  exact ⟨fun k h1 h2 => (all l).1 ⟨k, by omega⟩ h1, (all l).2⟩

theorem Node.info_fields (r : Node) : r.info.getLsbD 0 = decide (r.kind = .leaf) ∧
      r.info.extractLsb' 8 8 = r.sym ∧
      r.info.extractLsb' 16 10 = r.left ∧
      r.info.extractLsb' 32 10 = r.right ∧
      r.info.extractLsb' 1 7 = 0 ∧ r.info.extractLsb' 26 6 = 0 ∧ r.info.extractLsb' 42 22 = 0 := by
  have k0 : ∀ j, r.kind.bits.getLsbD j = (decide (j = 0) && decide (r.kind = .leaf)) := by
    intro j; cases r.kind <;> simp [NodeKind.bits]
  refine ⟨?_, ?_, ?_, ?_, ?_, ?_, ?_⟩
  · simp [Node.info]
    cases r.kind <;> simp [NodeKind.bits]
  all_goals
    apply BitVec.eq_of_getLsbD_eq
    intro j hj
    simp only [Node.info, BitVec.getLsbD_extractLsb', BitVec.getLsbD_or, BitVec.getLsbD_shiftLeft,
      BitVec.zeroExtend, BitVec.getLsbD_setWidth, k0]
    interval_cases j <;> simp [BitVec.getLsbD_of_ge]

end Sys2Proof.Machine
end

