-- ==== Sys2Proof/Laws/RoundTrip.lean ====
section
/-! SUPPORT. From a writer to a reader of the same bytes (R114), and how a list of transactions runs: what the round
trips of the spec are put together from. -/

namespace Sys2Proof.Machine

/-- A reader just opened still has every bit below its limit to deliver. -/
theorem unread_opened (w : State) (s : StreamSel) (c : Length) :
    (w.setBs s (Stream.opened .reader c)).unread s =
      (List.range (8 * c.toNat)).map fun n => w.bufBit (streamSpace s) n := by
  unfold State.unread State.readerBit
  rw [State.bs_setBs_same]
  have e : ∀ n, (w.setBs s (Stream.opened .reader c)).bufBit (streamSpace s) n = w.bufBit (streamSpace s) n := by
    intro n; unfold State.bufBit; rw [State.memRead_setBs]
  simp only [e]
  simp [Stream.opened, Stream.pos]

/-- A writer with nothing pending has all its bits in the buffer. -/
theorem written_flushed {st : State} {s : StreamSel} (h : (st.bs s).bit = 0) :
    st.written s = (List.range (8 * (st.bs s).byte.toNat)).map fun n => st.bufBit (streamSpace s) n := by
  unfold State.written
  rw [h]
  simp

theorem written_opened (w : State) (s : StreamSel) (c : Length) :
    (w.setBs s (Stream.opened .writer c)).written s = [] := by
  unfold State.written
  rw [State.bs_setBs_same]
  simp [Stream.opened]

/-- What the bytes of one buffer say does not depend on the machine they are in. -/
theorem bufBits_congr {u w : State} {x : Space} {c : Nat} (h : ∀ a, a < c → w.memRead x a = u.memRead x a) :
    ((List.range (8 * c)).map fun n => w.bufBit x n) = (List.range (8 * c)).map fun n => u.bufBit x n := by
  apply List.map_congr_left
  intro n hn
  have := List.mem_range.1 hn
  unfold State.bufBit
  rw [h _ (by omega)]

theorem writerOk_opened {w : State} {s : StreamSel} {c : Length} (hb : BuffersOk w)
    (hc : c.toNat ≤ w.bufSize (streamSpace s)) : WriterOk (w.setBs s (Stream.opened .writer c)) s where
  mode := by rw [State.bs_setBs_same]; rfl
  ok := by
    rw [State.bs_setBs_same, State.bufSize_setBs]
    exact ⟨Nat.zero_le _, hc, fun _ j _ => by simp [Stream.opened], fun h => (nomatch h)⟩
  mem := by rw [State.buf_setBs]; exact (hb _).1

theorem readerOk_opened {w : State} {s : StreamSel} {c : Length} (hc : c.toNat ≤ w.bufSize (streamSpace s)) :
    ReaderOk (w.setBs s (Stream.opened .reader c)) s where
  mode := by rw [State.bs_setBs_same]; rfl
  ok := by
    rw [State.bs_setBs_same, State.bufSize_setBs]
    exact ⟨Nat.zero_le _, hc, fun h => (nomatch h), fun _ h => absurd rfl h⟩

/-- Writing a bit string to a fresh writer and finalizing: the bytes of the bit string and its padding are in the buffer,
and `count` says how many there are. -/
theorem write_finalize {w : State} {s : StreamSel} {cap : Length} (bs : List Bool) (hb : BuffersOk w)
    (hc : cap.toNat ≤ w.bufSize (streamSpace s)) (hl : bs.length ≤ 8 * cap.toNat) :
    ∃ t u, writeList s bs (w.setBs s (Stream.opened .writer cap)) = .ok () t ∧
      WriterOk t s ∧ OnlyWriter s w t ∧ finalize s t = .ok (u.bs s).byte u ∧ OnlyWriter s w u ∧ (u.bs s).bit = 0 ∧
      (u.bs s).mode = .writer ∧ (u.bs s).byte.toNat = (bs.length + 7) / 8 ∧ (u.bs s).byte.toNat ≤ cap.toNat ∧
      ((List.range (8 * (u.bs s).byte.toNat)).map fun n => u.bufBit (streamSpace s) n) =
        bs ++ List.replicate (8 * (u.bs s).byte.toNat - bs.length) false := by
  have hw := writerOk_opened (s := s) hb hc
  have hp : ((w.setBs s (Stream.opened .writer cap)).bs s).pos = 0 := by
    rw [State.bs_setBs_same]; rfl
  have hlim : ((w.setBs s (Stream.opened .writer cap)).bs s).limit = cap := by
    rw [State.bs_setBs_same]; rfl
  obtain ⟨t, e1, hw1, hwr, hpos, hf⟩ := writeList_room bs hw (by unfold Stream.hasRoom; rw [hp, hlim]; omega)
  rw [written_opened, List.nil_append] at hwr
  rw [hp, Nat.zero_add] at hpos
  have hlt : (t.bs s).limit = cap := hf.limit.trans hlim
  have h8 := (t.bs s).bit_lt
  have hroom : (t.bs s).hasRoom (t.bs s).padding := by
    unfold Stream.hasRoom
    rw [hlt]
    unfold Stream.padding Stream.pos at *
    omega
  obtain ⟨u, e2, hw2, hwr2, hb0, hf2⟩ := finalize_room hw1 hroom
  have only0 : OnlyWriter s w (w.setBs s (Stream.opened .writer cap)) := (onlyStream_setBs s w _).writer
  have hlen := State.written_length u s
  rw [hwr2, hwr, List.length_append, List.length_replicate] at hlen
  have hbits := written_flushed hb0
  rw [hwr2, hwr] at hbits
  have hb0' : (u.bs s).bit.toNat = 0 := by rw [hb0]; rfl
  unfold Stream.padding at hlen hbits
  unfold Stream.pos at hlen hpos
  have hle := hw2.ok.byte_le
  rw [hf2.limit, hlt] at hle
  refine ⟨t, u, e1, hw1, (frame_onlyWriter s).trans only0 hf.rest, e2,
    (frame_onlyWriter s).trans ((frame_onlyWriter s).trans only0 hf.rest) hf2.rest, hb0, hw2.mode, by omega, hle, ?_⟩
  rw [← hbits]
  congr 2
  omega

/-- Reading a given number of bits that are still to come. -/
theorem readList_of_unread {st : State} {s : StreamSel} (bs rest : List Bool) (hw : ReaderOk st s)
    (h : st.unread s = bs ++ rest) :
    ∃ t, readList s bs.length st = .ok bs t ∧ ReaderOk t s ∧ t.unread s = rest := by
  induction bs generalizing st with
  | nil => exact ⟨st, rfl, hw, h⟩
  | cons b bs ih =>
    obtain ⟨t, e1, hw1, hu1, -⟩ := readBit_of_unread hw h
    obtain ⟨u, e2, hw2, hu2⟩ := ih hw1 hu1
    refine ⟨u, ?_, hw2, hu2⟩
    rw [List.length_cons, readList, e1, Result.andThen_ok, e2]
    rfl

end Sys2Proof.Machine
end

