-- ==== Sys2Proof/Laws/Script.lean ====
section
/-! SUPPORT. How a list of transactions runs (R88, R89): the state is written as a machine with the fields no command looks
at set aside, so that the commands' own rules chain one after another. -/

namespace Sys2Proof.Machine

/-- The fields set aside, as a state holds them. -/
def State.aside (st : State) : Side :=
  { arg0 := st.arg0, result := st.result, status := st.status, errlog := st.errlog, host := st.host, reply := st.reply,
    freeIdx := st.freeIdx }

theorem State.side_aside (st : State) : st.side st.aside = st := rfl

theorem State.holds_side {st : State} {x : Side} {T : Tree} {i : NodeIdx} (h : Holds st T i) : Holds (st.side x) T i :=
  Holds.of_arena (st := st) (t := st.side x) ⟨rfl, rfl⟩ h

theorem inMode_eq {α : Type} {s : StreamSel} {m : StreamMode} {st : State} {f : State → Result α}
    (h : (st.bs s).mode = m) : inMode s m st f = f st := by
  unfold inMode; rw [if_pos h]

/-- A value of 32 bits read from `ARG0` (R82). -/
theorem lengthOperand_eq {st : State} {c : Length} (h : st.arg0 = c.zeroExtend 64) : lengthOperand st = some c := by
  have hc := c.isLt
  have e1 : st.arg0.extractLsb' 32 32 = 0 := by
    rw [h]; apply BitVec.eq_of_toNat_eq
    simp [BitVec.extractLsb'_toNat, Nat.shiftRight_eq_div_pow]; omega
  have e2 : st.arg0.extractLsb' 0 32 = c := by
    rw [h]; apply BitVec.eq_of_toNat_eq
    simp [BitVec.extractLsb'_toNat]; omega
  unfold lengthOperand
  rw [if_neg (by simpa using e1), e2]

variable {n : Nat} {b b' : State} {x : Side} {ts : List HostTxn}

theorem coreRun_next (M : Host.Core) {s t : M.State} (e : M.step s = .next t) (n : Nat) :
    M.run (n + 1) s = M.run n t := by
  rw [Host.Core.run, e]

theorem run_next {st t : State} (e : step st = .next t) :
    Host.Core.run Sys2Proof.core (n + 1) st = Host.Core.run Sys2Proof.core n t :=
  coreRun_next Sys2Proof.core e n

/-- A command line that succeeds. -/
theorem run_command {i : Instr} {v : Word} (hx : x.host = .regWrite 0x000 (commandValue i) :: ts)
    (hd : decode (commandValue i) = .command i) (ho : sameOperand i x.arg0 b.arg0) (hb : body i b = .ok v b') :
    Host.Core.run Sys2Proof.core (n + 1) (b.side x) =
      Host.Core.run Sys2Proof.core n (b'.side { x with result := v, status := .ok, host := ts }) := by
  have e : step (b.side x) = .next (b'.side { x with result := v, status := .ok, host := ts }) := by
    rw [step_cons (st := b.side x) hx]
    show issue _ _ = _
    unfold issue
    rw [hd]
    show exec i (b.side { x with host := ts }) = _
    rw [exec_eq_body, body_side (x := { x with host := ts }) ho, hb]
    rfl
  exact run_next e

/-- A line that writes `ARG0`. -/
theorem run_arg0 {v : Word} (hx : x.host = .regWrite 0x004 v :: ts) :
    Host.Core.run Sys2Proof.core (n + 1) (b.side x) =
      Host.Core.run Sys2Proof.core n (b.side { x with arg0 := v, host := ts }) := by
  have e : step (b.side x) = .next (b.side { x with arg0 := v, host := ts }) := by
    rw [step_cons (st := b.side x) hx]; rfl
  exact run_next e

/-- `OPENW` with a capacity the buffer has. -/
theorem run_openW {s : StreamSel} {c : Length}
    (hx : x.host = .regWrite 0x004 (c.zeroExtend 64) :: .regWrite 0x000 (commandValue (.bsOpenW s)) :: ts)
    (hc : c.toNat ≤ b.bufSize (streamSpace s)) :
    Host.Core.run Sys2Proof.core (n + 1 + 1) (b.side x) =
      Host.Core.run Sys2Proof.core n ((b.setBs s (Stream.opened .writer c)).side
        { x with arg0 := c.zeroExtend 64, result := 0, status := .ok, host := ts }) := by
  rw [run_arg0 hx]
  have e : body (.bsOpenW s) { b with arg0 := c.zeroExtend 64 } =
      .ok 0 ((State.setBs { b with arg0 := c.zeroExtend 64 } s (Stream.opened .writer c))) := by
    have h : ¬ State.bufSize { b with arg0 := c.zeroExtend 64 } (streamSpace s) < c.toNat := Nat.not_lt.2 hc
    simp only [body]
    unfold openStream
    rw [lengthOperand_eq rfl]
    simp only
    rw [if_neg h]
    rfl
  refine (run_command (b := { b with arg0 := c.zeroExtend 64 })
    (x := { x with arg0 := c.zeroExtend 64, host := .regWrite 0x000 (commandValue (.bsOpenW s)) :: ts })
    rfl (by cases s <;> decide) rfl e).trans ?_
  cases s <;> rfl

/-- `OPENR` with a limit the buffer has. -/
theorem run_openR {s : StreamSel} {c : Length}
    (hx : x.host = .regWrite 0x004 (c.zeroExtend 64) :: .regWrite 0x000 (commandValue (.bsOpenR s)) :: ts)
    (hc : c.toNat ≤ b.bufSize (streamSpace s)) :
    Host.Core.run Sys2Proof.core (n + 1 + 1) (b.side x) =
      Host.Core.run Sys2Proof.core n ((b.setBs s (Stream.opened .reader c)).side
        { x with arg0 := c.zeroExtend 64, result := 0, status := .ok, host := ts }) := by
  rw [run_arg0 hx]
  have e : body (.bsOpenR s) { b with arg0 := c.zeroExtend 64 } =
      .ok 0 ((State.setBs { b with arg0 := c.zeroExtend 64 } s (Stream.opened .reader c))) := by
    have h : ¬ State.bufSize { b with arg0 := c.zeroExtend 64 } (streamSpace s) < c.toNat := Nat.not_lt.2 hc
    simp only [body]
    unfold openStream
    rw [lengthOperand_eq rfl]
    simp only
    rw [if_neg h]
    rfl
  refine (run_command (b := { b with arg0 := c.zeroExtend 64 })
    (x := { x with arg0 := c.zeroExtend 64, host := .regWrite 0x000 (commandValue (.bsOpenR s)) :: ts })
    rfl (by cases s <;> decide) rfl e).trans ?_
  cases s <;> rfl

/-- `DEC` of a valid tree: the loop of R195. -/
theorem run_dec {c : Length}
    (hx : x.host = .regWrite 0x004 (c.zeroExtend 64) :: .regWrite 0x000 (commandValue .decode) :: ts)
    (hm : (b.bs .pay).mode = .reader) (hv : b.treeValid = true)
    (hl : forLoop decodeSymbol c.toNat 0 { b with rawLen := 0 } = .ok () b') :
    Host.Core.run Sys2Proof.core (n + 1 + 1) (b.side x) =
      Host.Core.run Sys2Proof.core n (State.side
        { x with arg0 := c.zeroExtend 64, result := c.zeroExtend 64, status := .ok, host := ts }
        { b' with rawLen := c }) := by
  rw [run_arg0 hx]
  let y : Side := { b.aside with arg0 := c.zeroExtend 64 }
  have e : body .decode (b.side y) = .ok (c.zeroExtend 64) (State.side y { b' with rawLen := c }) := by
    simp only [body, decodeBody]
    rw [inMode_eq (by rw [State.bs_side]; exact hm)]
    unfold decodePayload
    rw [lengthOperand_eq rfl]
    simp only
    rw [if_pos (show (b.side y).treeValid = true from hv)]
    have := forLoop_side (x := y) (body := decodeSymbol) decodeSymbol_side c.toNat 0 { b with rawLen := 0 }
    rw [show State.side y { b with rawLen := 0 } = { b.side y with rawLen := 0 } from rfl] at this
    rw [this, hl]
    rfl
  exact run_command (b := b.side y) (b' := State.side y { b' with rawLen := c })
    (x := { x with arg0 := c.zeroExtend 64, host := .regWrite 0x000 (commandValue .decode) :: ts })
    rfl (by decide) rfl e

/-- OPENW, a command that writes a bit string, FINALIZE. -/
theorem run_write_finalize {s : StreamSel} {c : Length} {i : Instr} {bs : List Bool}
    (hx : x.host = .regWrite 0x004 (c.zeroExtend 64) :: .regWrite 0x000 (commandValue (.bsOpenW s)) ::
      .regWrite 0x000 (commandValue i) :: .regWrite 0x000 (commandValue (.finalize s)) :: ts)
    (hb : BuffersOk b) (hc : c.toNat ≤ b.bufSize (streamSpace s)) (hl : bs.length ≤ 8 * c.toNat)
    (hd : decode (commandValue i) = .command i) (ho : ∀ v w, sameOperand i v w)
    (hw : body i (b.setBs s (Stream.opened .writer c)) =
      (writeList s bs (b.setBs s (Stream.opened .writer c))).andThen fun _ t => .ok 0 t) :
    ∃ u, Host.Core.run Sys2Proof.core (n + 1 + 1 + 1 + 1) (b.side x) =
        Host.Core.run Sys2Proof.core n (u.side
          { x with arg0 := c.zeroExtend 64, result := (u.bs s).byte.zeroExtend 64, status := .ok, host := ts }) ∧
      OnlyWriter s b u ∧ BuffersOk u ∧ (u.bs s).byte.toNat = (bs.length + 7) / 8 ∧
      (u.bs s).byte.toNat ≤ c.toNat ∧
      ((List.range (8 * (u.bs s).byte.toNat)).map fun n => u.bufBit (streamSpace s) n) =
        bs ++ List.replicate (8 * (u.bs s).byte.toNat - bs.length) false := by
  obtain ⟨t, u, e1, w1, -, e2, o2, -, -, h1, h2, h3⟩ := write_finalize (s := s) bs hb hc hl
  rw [e1, Result.andThen_ok] at hw
  have ef : body (.finalize s) t = .ok ((u.bs s).byte.zeroExtend 64) u := by
    simp only [body, finalizeBody]
    rw [inMode_eq w1.mode, e2]
    rfl
  have hb0 : BuffersOk (b.setBs s (Stream.opened .writer c)) := (buffersKeep_setBs s _ b).2 hb
  have hb1 : BuffersOk t := by
    have := body_keeps_buffers i _ hb0
    rwa [hw] at this
  have hb2 : BuffersOk u := by
    have := body_keeps_buffers (.finalize s) _ hb1
    rwa [ef] at this
  refine ⟨u, ?_, o2, hb2, h1, h2, h3⟩
  rw [run_openW hx hc, run_command (i := i) rfl hd (ho _ _) hw,
    run_command (i := .finalize s) rfl (by cases s <;> decide) trivial ef]

/-! ## Commands on a known tree -/

theorem body_treeSave {st : State} {T : Tree} (hm : (st.bs .tree).mode = .writer) (hv : st.treeValid = true)
    (hT : Holds st T st.root) :
    body .treeSave st = (writeList .tree T.bits st).andThen fun _ t => .ok 0 t := by
  simp only [body, treeSaveBody]
  rw [inMode_eq hm, if_pos hv, saveNode_eq hT (by omega)]

theorem mode_opened (b : State) (s : StreamSel) (m : StreamMode) (c : Length) :
    ((b.setBs s (Stream.opened m c)).bs s).mode = m := by
  rw [State.bs_setBs_same]; rfl

/-- TREE_LOAD from a buffer that holds a saved tree. -/
theorem load_saved {w : State} {T : Tree} {c : Length} {pad : List Bool}
    (hc : c.toNat ≤ w.bufSize .tree) (hL : T.leaves ≤ 256)
    (hbits : ((List.range (8 * c.toNat)).map fun n => w.bufBit .tree n) = T.bits ++ pad) :
    ∃ t, body .treeLoad (w.setBs .tree (Stream.opened .reader c)) = .ok (t.root.zeroExtend 64) t ∧
      t.treeValid = true ∧ Holds t T t.root ∧ OnlyLoad w t := by
  have hr := readerOk_opened (w := w) (s := .tree) hc
  have hu := (unread_opened w .tree c).trans hbits
  obtain ⟨t, e, hv, hT, _, _, _, _, _, _, _, _, ho⟩ := loadTree_tree hr hu hL
  refine ⟨t, ?_, hv, hT, ?_⟩
  · simp only [body, treeLoadBody]
    rw [inMode_eq (mode_opened ..), e]
  · exact frame_onlyLoad.trans (onlyLoad_of_onlyStream (onlyStream_setBs _ _ _)) ho

/-- What the first three commands of HUF_ENCODE make. -/
theorem count_build_codes (st : State) (h1 : 1 ≤ st.rawLen.toNat) (h2 : st.rawLen.toNat ≤ st.bufSize .raw) :
    ∃ b1 b2 b3 T v2, body .freqCount st = .ok (st.rawLen.zeroExtend 64) b1 ∧ body .build b1 = .ok v2 b2 ∧
      body .codegen b2 = .ok 0 b3 ∧ T.depth < 64 ∧ T.leaves ≤ 256 ∧ Holds b3 T b3.root ∧ b3.treeValid = true ∧
      (∀ y, b3.codeAt y = T.codeOf y) ∧ (∀ y, y ∈ T.paths.map Prod.fst ↔ y ∈ st.rawBytes st.rawLen.toNat) ∧
      b3.bs .pay = st.bs .pay ∧ b3.rawLen = st.rawLen ∧ (∀ sp a, b3.memRead sp a = st.memRead sp a) ∧
      b3.params = st.params := by
  obtain ⟨b1, e, o, hc⟩ := countLoop st.rawLen.toNat 0 st.clearFreq (fun y => by
      have := st.rawLen.isLt; simp [State.clearFreq, State.freqAt]; omega)
  have ho : OnlyFreq st b1 := frame_onlyFreq.trans (t := st.clearFreq) rfl o
  have hc' : ∀ y, (b1.freqAt y).toNat = (st.rawBytes st.rawLen.toNat).count y := by
    intro y; rw [hc, State.rawFrom_zero]; simp [State.clearFreq, State.freqAt]; rfl
  have htot : b1.totalFreq = st.rawLen.toNat := by
    unfold State.totalFreq
    simp only [hc']
    rw [sum_count]; simp [State.rawBytes]
  have hlt := st.rawLen.isLt
  have hl : b1.rawLen = st.rawLen := by unfold OnlyFreq at ho; rw [ho]
  have eb1 : body .freqCount st = .ok (st.rawLen.zeroExtend 64) b1 := by
    simp only [body, freqCountBody]; rw [if_neg (by omega), e]; simp [hl]
  rcases buildTree_cases b1 with ⟨h, _⟩ | ⟨_, _, b2, T, e2, hb⟩ | ⟨h, _⟩
  · omega
  · have hd : T.depth < 64 := by
      have g := (hb.building.grown (b2.root, T) (by simp)).fib_le.1
      have hsy : (T.symbols).Perm (nonzero b1.freqAt 256) := by simpa using hb.building.symbols
      have hw : T.weight b1.freqAt = b1.totalFreq := by
        rw [T.weight_eq, (hsy.map _).sum_eq]; exact sum_nonzero _ _
      simp only [hw] at g
      by_contra hc
      have : Nat.fib 66 ≤ Nat.fib (T.depth + 2) := Nat.fib_mono (by omega)
      have : Nat.fib 66 = 27777890035288 := by norm_num
      omega
    have hsy : (T.symbols).Perm (nonzero b1.freqAt 256) := by simpa using hb.building.symbols
    have hT : Holds b2 T b2.root := hb.building.forest.holds (b2.root, T) (by simp)
    obtain ⟨b3, e3, o3, hcode⟩ := generateCodes_fits hb.valid hT hd
    have h3 : b3.root = b2.root ∧ b3.treeValid = b2.treeValid := by unfold OnlyCode at o3; rw [o3]; exact ⟨rfl, rfl⟩
    have hall := o3; unfold OnlyCode at hall
    have hall2 := hb.only; unfold OnlyTree at hall2
    unfold OnlyFreq at ho
    refine ⟨b1, b2, b3, T, _, eb1, e2, by simp only [body]; rw [e3]; rfl, hd, ?_,
      by rw [h3.1]; exact hT.of_arena o3.arena, h3.2.trans hb.valid, hcode, ?_, ?_, ?_, ?_, ?_⟩
    · rw [← T.symbols_length, hsy.length_eq]; exact nonzero_length_le _ _
    · intro y
      rw [← T.symbols_eq, hsy.mem_iff, mem_nonzero, ← List.count_pos_iff, ← hc']
      constructor
      · intro h; rcases Nat.eq_zero_or_pos (b1.freqAt y).toNat with e | e
        · exact absurd (BitVec.eq_of_toNat_eq (by simpa using e)) h
        · exact e
      · intro h e; rw [e] at h; simp at h
    · rw [hall, hall2, ho]; rfl
    · rw [hall, hall2, ho]
    · intro sp a; rw [hall, hall2, ho]; cases sp <;> rfl
    · rw [hall, hall2, ho]
  · omega

end Sys2Proof.Machine
end

