-- ==== Sys2Proof/Tests/Slice0.lean ====
section
/-! SUPPORT. The model's own tests: the WellFormed smoke, words written out from the encodings of spec/30_encoding.md, and
one step of every command on a small state, with the values of spec/95_test_vectors.md. The witnesses that the hypotheses
of the statements can be met are in Tests/Witness.lean. -/

namespace Sys2Proof.Tests

set_option Elab.async false

open Sys2Proof Sys2Proof.Machine

/-! ## Small states -/

/-- The step goes on, and the state it leaves passes `p`. -/
def gives (o : Host.Outcome State Fault Refusal) (p : State → Bool) : Bool :=
  match o with
  | .next t    => p t
  | .fault _   => false
  | .refused _ => false

/-- The command ended with error `k` and logged it, from an `ERRLOG` of 0. -/
def failed (k : ErrorKind) (t : State) : Bool := t.status == .error k && t.errlog == k.logBit

/-- The bytes `bs` at address 0 of a buffer. -/
def withBytes (sp : Space) (bs : List Byte) (st : State) : State :=
  (bs.foldl (fun (p : Nat × State) b => (p.1 + 1, p.2.memWrite sp p.1 b)) (0, st)).2

/-- The counts of some symbols. -/
def withFreqs (fs : List (Symbol × Word)) (st : State) : State := fs.foldl (fun s p => s.setFreq p.1 p.2) st

/-- The codes of some symbols: symbol, pattern, length. -/
def withCodes (cs : List (Symbol × Word × BitVec 7)) (st : State) : State :=
  cs.foldl (fun s p => s.setCode p.1 { pat := p.2.1, len := p.2.2 }) st

/-- A tree whose records are `ns`, the last of them the root. -/
def withTree (ns : List Node) (st : State) : State :=
  let t := ns.foldl (fun s n => match allocNode n s with
    | .ok _ t => t
    | .raised _ t => t) st
  { t with treeValid := true, root := BitVec.ofNat 10 (ns.length - 1) }

/-- `BS[s]` in the spec's notation (mode, byte, bit, hold, limit). -/
def withStream (s : StreamSel) (m : StreamMode) (byte : Length) (bit : BitVec 3) (hold : Byte) (limit : Length)
    (st : State) : State :=
  st.setBs s { mode := m, byte := byte, bit := bit, hold := hold, limit := limit }

/-- The first `n` bytes of a buffer. -/
def bytes (st : State) (sp : Space) (n : Nat) : List Byte := (List.range n).map fun a => st.memRead sp a

/-- The tree ((A, B), C) of vector V2. -/
def treeABC : List Node :=
  [ Node.mkLeaf 0x41 1, Node.mkLeaf 0x42 1, Node.mkLeaf 0x43 3, Node.mkInternal 2 0 1, Node.mkInternal 5 3 2 ]

/-- The codes of vector V2: A 00, B 01, C 1. -/
def codesABC : List (Symbol × Word × BitVec 7) := [(0x41, 0, 2), (0x42, 1, 2), (0x43, 1, 1)]

/-! ## WellFormed smoke: the one check, and what it refuses (R81) -/

theorem test_wf_refuses_count_65 :
    (Instr.writeBits .tree 65).wf = false ∧ (Instr.readBits .pay 65).wf = false ∧
    (Instr.writeBits .pay 127).wf = false ∧ (Instr.readBits .tree 127).wf = false := by decide

theorem test_wf_accepts_count_64 :
    (Instr.writeBits .tree 64).wf = true ∧ (Instr.readBits .pay 0).wf = true := by decide

/-! ## Decoding (R80, R83, R84; vector V3): fields written `[31:23] N [15:9] S OPC` -/

theorem test_decode_system :
    decode 0b000000000_0000000_0000000_0_00000000 = .command .nop ∧
    decode 0b000000000_0000000_0000000_0_00000001 = .command .ctxReset := by decide

theorem test_decode_stream :
    decode 0b000000000_0000000_0000000_1_00010000 = .command (.bsOpenW .pay) ∧
    decode 0b000000000_0000000_0000000_0_00010001 = .command (.bsOpenR .tree) ∧
    decode 0b000000000_0000000_0000000_1_00010010 = .command (.writeBit .pay) ∧
    decode 0b000000000_0001001_0000000_1_00010011 = .command (.writeBits .pay 9) ∧
    decode 0b000000000_0000000_0000000_0_00010100 = .command (.finalize .tree) ∧
    decode 0b000000000_0000000_0000000_1_00010101 = .command (.readBit .pay) ∧
    decode 0b000000000_1000000_0000000_0_00010110 = .command (.readBits .tree 64) := by decide

theorem test_decode_frequency_and_tree :
    decode 0b000000000_0000000_0000000_0_01000000 = .command .freqClear ∧
    decode 0b000000000_0000000_0000000_0_01000001 = .command .freqCount ∧
    decode 0b000000000_0000000_0000000_0_01010000 = .command .build ∧
    decode 0b000000000_0000000_0000000_0_01010001 = .command .codegen ∧
    decode 0b000000000_0000000_0000000_0_01010010 = .command .treeSave ∧
    decode 0b000000000_0000000_0000000_0_01010011 = .command .treeLoad := by decide

theorem test_decode_payload :
    decode 0b000000000_0000000_0000000_0_01100000 = .command .encode ∧
    decode 0b000000000_0000000_0000000_0_01100001 = .command .decode := by decide

theorem test_decode_refuses :
    decode 0x0000000100000000 = .illegal .upperHalf ∧ decode 0x02 = .illegal .reservedOpcode ∧
    decode 0xFF = .illegal .reservedOpcode ∧ decode 0x212 = .illegal .reservedBits ∧
    decode 0x800013 = .illegal .reservedBits ∧ decode 0x150 = .illegal .strayS ∧
    decode 0x10050 = .illegal .strayN ∧ decode 0x30012 = .illegal .strayN ∧
    decode 0x410013 = .illegal .countTooLarge ∧ decode 0x7F0016 = .illegal .countTooLarge := by decide

/-- R88: the words of V3 are those the encoder gives. -/
theorem test_encode_words :
    encode (.bsOpenR .pay) = 0x00000111 ∧ encode (.writeBits .tree 3) = 0x00030013 ∧
    encode (.readBits .pay 64) = 0x00400116 ∧ encode (.finalize .pay) = 0x00000114 := by decide

/-! ## The ports and reset (R22, R26, R39, R40, R60, R250; vectors V21 and V23) -/

theorem test_regRead_status_and_window :
    gives (step { withTree treeABC State.reset with host := [.regRead 0x001] }) (fun t => t.reply == 0x100) = true ∧
    gives (step { withTree treeABC State.reset with host := [.regRead 0x600] })
      (fun t => t.reply == 0x000003FF03FF4101) = true ∧
    gives (step { withTree treeABC State.reset with host := [.regRead 0x604] })
      (fun t => t.reply == 0x0000000200030000) = true := by decide +kernel

theorem test_regWrite_errlog_clears_ones :
    gives (step { State.reset with errlog := 0xC2, host := [.regWrite 0x003 0x80] }) (fun t => t.errlog == 0x42) = true ∧
    gives (step { State.reset with errlog := 0xC2, host := [.regWrite 0x003 0x01] }) (fun t => t.errlog == 0xC2) = true := by
  decide +kernel

theorem test_bufWrite_edge :
    gives (step { State.reset with host := [.bufWrite 0 511 7] }) (fun t => t.memRead .tree 511 == 7) = true ∧
    gives (step { State.reset with host := [.bufWrite 0 512 7] }) (fun t => t.treeBuf == []) = true := by decide +kernel

theorem test_illegal_word_logs_bit_7 :
    gives (step { State.reset with host := [.regWrite 0x000 0x410013] }) (failed .illegalCommand) = true := by
  decide +kernel

/-! ## BitStream (vectors V4, V5, V6 and V9) -/

theorem test_bsOpenW_limit_is_the_buffer_size :
    gives (exec (.bsOpenW .tree) { State.reset with arg0 := 512 }) (fun t => t.bsTree.limit == 512) = true ∧
    gives (exec (.bsOpenW .tree) { State.reset with arg0 := 513 }) (failed .illegalCommand) = true := by decide +kernel

theorem test_bsOpenR_refuses_upper_half :
    gives (exec (.bsOpenR .pay) { State.reset with arg0 := 0x100000000 }) (failed .illegalCommand) = true := by
  decide +kernel

/-- V4: `WBIT 1, 3` after the bits `01010`: only bit 0 of the operand counts. -/
theorem test_writeBit_uses_bit_0 :
    gives (exec (.writeBit .pay) (withStream .pay .writer 0 5 0x50 2 { State.reset with arg0 := 3 }))
      (fun t => t.bsPay == { mode := .writer, byte := 0, bit := 6, hold := 0x54, limit := 2 }) = true := by decide +kernel

theorem test_writeBit_overflow :
    gives (exec (.writeBit .tree) (withStream .tree .writer 0 7 0xFE 0 { State.reset with arg0 := 1 }))
      (fun t => failed .overflow t && t.bsTree == { mode := .writer, byte := 0, bit := 7, hold := 0xFE, limit := 0 })
      = true := by decide +kernel

theorem test_writeBits_commits_a_byte :
    gives (exec (.writeBits .tree 9) (withStream .tree .writer 0 3 0xA0 2 { State.reset with arg0 := 0x1F3 }))
      (fun t => t.bsTree == { mode := .writer, byte := 1, bit := 4, hold := 0x30, limit := 2 } && t.memRead .tree 0 == 0xBF)
      = true := by decide +kernel

theorem test_writeBits_overflow_keeps_seven_bits :
    gives (exec (.writeBits .tree 8) (withStream .tree .writer 2 0 0 2 { State.reset with arg0 := 0xFF }))
      (fun t => failed .overflow t && t.bsTree == { mode := .writer, byte := 2, bit := 7, hold := 0xFE, limit := 2 } &&
        t.memRead .tree 2 == 0) = true := by decide +kernel

theorem test_finalize_pads :
    gives (exec (.finalize .tree) (withStream .tree .writer 1 4 0x30 2 State.reset))
      (fun t => t.result == 2 && t.memRead .tree 1 == 0x30 &&
        t.bsTree == { mode := .writer, byte := 2, bit := 0, hold := 0, limit := 2 }) = true := by decide +kernel

theorem test_finalize_overflow :
    gives (exec (.finalize .tree) (withStream .tree .writer 2 7 0xFE 2 State.reset))
      (fun t => failed .overflow t && t.bsTree.hold == 0xFE) = true := by decide +kernel

theorem test_readBit_truncated_at_limit :
    gives (exec (.readBit .tree) (withStream .tree .reader 2 0 0x3C 2 State.reset))
      (fun t => failed .truncated t && t.bsTree.hold == 0x3C) = true := by decide +kernel

/-- V5: the byte latched on entry still gives its bits after the host cleared the buffer. -/
theorem test_readBit_reads_the_latch :
    gives (exec (.readBit .tree) (withStream .tree .reader 0 4 0xFF 1 State.reset))
      (fun t => t.result == 1 && t.bsTree.bit == 5) = true := by decide +kernel

theorem test_readBits_crosses_a_byte :
    gives (exec (.readBits .tree 9) (withStream .tree .reader 0 3 0xA5 2 (withBytes .tree [0xA5, 0x3C] State.reset)))
      (fun t => t.result == 0x53 && t.bsTree == { mode := .reader, byte := 1, bit := 4, hold := 0x3C, limit := 2 })
      = true := by decide +kernel

theorem test_readBits_consumes_what_there_is :
    gives (exec (.readBits .tree 17) (withStream .tree .reader 0 0 0 2 (withBytes .tree [0xA5, 0x3C] State.reset)))
      (fun t => failed .truncated t && t.bsTree == { mode := .reader, byte := 2, bit := 0, hold := 0x3C, limit := 2 })
      = true := by decide +kernel

/-! ## The heap (R130, V7): the second trace, frequencies 5, 3, 8, 1, 3 in slots 0 to 4 -/

/-- Five leaves with the frequencies of R130's second trace, and nothing on the heap. -/
def traceLeaves : State :=
  withTree [Node.mkLeaf 0 5, Node.mkLeaf 1 3, Node.mkLeaf 2 8, Node.mkLeaf 3 1, Node.mkLeaf 4 3] State.reset

/-- The live entries after pushing `ns` in order. -/
def pushed (ns : List NodeIdx) : State :=
  ns.foldl (fun s n => match heapPush n s with
    | .ok _ t => t
    | .raised _ t => t) traceLeaves

theorem test_heapPush_trace : (pushed [0, 1, 2, 3, 4]).liveHeap = [3, 1, 2, 0, 4] := by decide +kernel

theorem test_heapPop_trace :
    (heapPop (pushed [0, 1, 2, 3, 4])).1 = 3 ∧ (heapPop (pushed [0, 1, 2, 3, 4])).2.liveHeap = [4, 1, 2, 0] ∧
    (heapPop (heapPop (pushed [0, 1, 2, 3, 4])).2).1 = 4 ∧
    (heapPop (heapPop (pushed [0, 1, 2, 3, 4])).2).2.liveHeap = [1, 0, 2] := by decide +kernel

/-! ## Frequencies, BUILD and CODEGEN (vectors V8, V10, V15, V2, V9) -/

theorem test_freqClear :
    gives (exec .freqClear (withFreqs [(0x10, 99), (0xFF, 1)] State.reset))
      (fun t => t.freqAt 0x10 == 0 && t.freqAt 0xFF == 0 && t.result == 0) = true := by decide +kernel

theorem test_freqCount :
    gives (exec .freqCount (withFreqs [(0x10, 99)] (withBytes .raw [0x00, 0xFF, 0x00, 0xFF] { State.reset with rawLen := 4 })))
      (fun t => t.freqAt 0x00 == 2 && t.freqAt 0xFF == 2 && t.freqAt 0x10 == 0 && t.result == 4) = true := by decide +kernel

theorem test_freqCount_rawLen_1025 :
    gives (exec .freqCount (withFreqs [(0x10, 99)] { State.reset with rawLen := 1025 }))
      (fun t => failed .illegalCommand t && t.freqAt 0x10 == 99) = true := by decide +kernel

/-- V10: the tie-break of R129 shows in the records (r, pushed last, is merged before b). -/
theorem test_build_abracadabra :
    gives (exec .build (withFreqs [(0x61, 5), (0x62, 2), (0x63, 1), (0x64, 1), (0x72, 2)] State.reset))
      (fun t => t.result == 8 && t.root == 8 && t.arenaCount == 9 && t.slot 4 == Node.mkLeaf 0x72 2 &&
        t.slot 5 == Node.mkInternal 2 2 3 && t.slot 6 == Node.mkInternal 4 4 5 && t.slot 7 == Node.mkInternal 6 1 6 &&
        t.slot 8 == Node.mkInternal 11 0 7) = true := by decide +kernel

/-- V15: a sum of exactly 2^64. -/
theorem test_build_sum_overflow :
    gives (exec .build (withFreqs [(0, 0x8000000000000000), (1, 0x8000000000000000)] State.reset))
      (fun t => failed .capacityExceeded t && t.arenaCount == 2 && t.heapSize == 0 && !t.treeValid && t.root == 0x3FF)
      = true := by decide +kernel

theorem test_codegen_ABC :
    gives (exec .codegen (withTree treeABC (withCodes [(0x44, 5, 3)] State.reset)))
      (fun t => t.codeAt 0x41 == { pat := 0, len := 2 } && t.codeAt 0x42 == { pat := 1, len := 2 } &&
        t.codeAt 0x43 == { pat := 1, len := 1 } && t.codeAt 0x44 == { pat := 0, len := 0 }) = true := by decide +kernel

theorem test_codegen_one_leaf :
    gives (exec .codegen (withTree [Node.mkLeaf 0x41 4] State.reset)) (fun t => t.codeAt 0x41 == { pat := 0, len := 1 })
      = true := by decide +kernel

/-! ## The codecs (vectors V2, V9, V16, V18, V19, V20) -/

theorem test_treeSave_ABC :
    gives (exec .treeSave (withTree treeABC (withStream .tree .writer 0 0 0 16 State.reset)))
      (fun t => bytes t .tree 4 == [0x28, 0x34, 0x2A, 0x00] &&
        t.bsTree == { mode := .writer, byte := 3, bit := 5, hold := 0x18, limit := 16 }) = true := by decide +kernel

theorem test_treeSave_checks_mode_then_tree :
    gives (exec .treeSave State.reset) (failed .illegalCommand) = true ∧
    gives (exec .treeSave (withStream .tree .writer 0 0 0 4 State.reset)) (failed .corruptTree) = true := by decide +kernel

theorem test_treeLoad_ABC :
    gives (exec .treeLoad (withStream .tree .reader 0 0 0 4 (withBytes .tree [0x28, 0x34, 0x2A, 0x18] State.reset)))
      (fun t => t.result == 4 && t.arenaCount == 5 && t.slot 2 == Node.mkInternal 0 0 1 && t.slot 3 == Node.mkLeaf 0x43 0 &&
        t.slot 4 == Node.mkInternal 0 2 3 &&
        t.bsTree == { mode := .reader, byte := 3, bit := 5, hold := 0x18, limit := 4 }) = true := by decide +kernel

/-- V16: 64 zero bytes; the count test fails on the 512th marker. -/
theorem test_treeLoad_capacity :
    gives (exec .treeLoad (withStream .tree .reader 0 0 0 64 State.reset))
      (fun t => failed .capacityExceeded t && t.arenaCount == 0 && !t.treeValid &&
        t.bsTree == { mode := .reader, byte := 64, bit := 0, hold := 0, limit := 64 }) = true := by decide +kernel

theorem test_encode_ABCCC :
    gives (exec .encode (withCodes codesABC (withStream .pay .writer 0 0 0 16
        (withBytes .raw [0x41, 0x42, 0x43, 0x43, 0x43] { State.reset with rawLen := 5 }))))
      (fun t => t.bsPay == { mode := .writer, byte := 0, bit := 7, hold := 0x1E, limit := 16 } && t.result == 0)
      = true := by decide +kernel

/-- V19: the codes of the symbols before the one without a code stay written. -/
theorem test_encode_unencodable :
    gives (exec .encode (withCodes [(0x61, 0, 1), (0x62, 2, 2)] (withStream .pay .writer 0 0 0 8
        (withBytes .raw [0x61, 0x62, 0x7A] { State.reset with rawLen := 3 }))))
      (fun t => failed .unencodableSymbol t && t.bsPay == { mode := .writer, byte := 0, bit := 3, hold := 0x40, limit := 8 })
      = true := by decide +kernel

theorem test_decode_ABCCC :
    gives (exec .decode (withTree treeABC (withStream .pay .reader 0 0 0 1 (withBytes .pay [0x1E] { State.reset with arg0 := 5 }))))
      (fun t => bytes t .raw 6 == [0x41, 0x42, 0x43, 0x43, 0x43, 0x00] && t.rawLen == 5 && t.result == 5 &&
        t.bsPay == { mode := .reader, byte := 0, bit := 7, hold := 0x1E, limit := 1 }) = true := by decide +kernel

/-- A walk cut off by the limit: `RAW_LEN` is 0 and the symbols before it are stored (R196). -/
theorem test_decode_truncated :
    gives (exec .decode (withTree treeABC (withStream .pay .reader 0 0 0 1
        (withBytes .pay [0x1E] { State.reset with arg0 := 7, rawLen := 9 }))))
      (fun t => failed .truncated t && t.rawLen == 0 && bytes t .raw 6 == [0x41, 0x42, 0x43, 0x43, 0x43, 0x00] &&
        t.bsPay == { mode := .reader, byte := 1, bit := 0, hold := 0x1E, limit := 1 }) = true := by decide +kernel

/-! ## System (vector V22) -/

theorem test_nop_clears_only_the_code :
    gives (exec .nop { State.reset with status := .error .overflow, errlog := 0x08, result := 9 })
      (fun t => t.status == .ok && t.errlog == 0x08 && t.result == 0) = true := by decide +kernel

theorem test_ctxReset_keeps_errlog_arg0_and_buffers :
    gives (exec .ctxReset (withTree treeABC (withStream .tree .writer 0 3 0xE0 4
        (withBytes .raw [0x41, 0x42] { State.reset with arg0 := 7, errlog := 0x80, rawLen := 2 }))))
      (fun t => t.root == 0x3FF && t.arenaCount == 0 && !t.treeValid && t.rawLen == 0 && t.bsTree == Stream.closed &&
        t.errlog == 0x80 && t.arg0 == 7 && bytes t .raw 2 == [0x41, 0x42]) = true := by decide +kernel

/-! ## The host's two questions -/

theorem test_fetch_word_runs_first :
    decodeTableWord 32 0x00000050 = some .build ∧ decodeTableWord 32 0x00410013 = none ∧
    gives (step (State.reset.withFetchWord 32 0x00000050)) (failed .emptyInput) = true := by decide +kernel

end Sys2Proof.Tests
end

