-- ==== Sys2Proof/Tests/Witness.lean ====
section
/-! SUPPORT. Witnesses: for every statement with hypotheses, concrete states and operands that meet all of them together,
clause by clause and at the ends of the ranges. `witness_<Name>` belongs to `Obligations.<Name>`. -/

namespace Sys2Proof.Tests

set_option Elab.async false

open Sys2Proof Sys2Proof.Machine

/-! ## Checks of the invariants that can be evaluated -/

/-- `Stream.Ok` and `BufferOk` of every stream and buffer, as a Bool. -/
def fits (st : State) : Bool :=
  ([StreamSel.tree, .pay].all fun s =>
    let q := st.bs s
    decide (q.byte.toNat ≤ q.limit.toNat) && decide (q.limit.toNat ≤ st.bufSize (streamSpace s)) &&
    (q.mode != .writer || (List.range (8 - q.bit.toNat)).all fun j => !q.hold.getLsbD j) &&
    (q.mode != .reader || q.bit == 0 || decide (q.byte.toNat < q.limit.toNat))) &&
  [Space.tree, .pay, .raw].all fun sp =>
    (st.buf sp).wf && (st.buf sp).all fun c => decide (c.1 < st.bufSize sp)

theorem streamsOk_of_fits {st : State} (h : fits st = true) : StreamsOk st := by
  intro s
  simp only [fits, Bool.and_eq_true, List.all_eq_true] at h
  obtain ⟨⟨⟨h1, h2⟩, h3⟩, h4⟩ := h.1 s (by cases s <;> simp)
  refine ⟨of_decide_eq_true h1, of_decide_eq_true h2, fun hm j hj => ?_, fun hm hb => ?_⟩
  · simp only [hm, bne_self_eq_false, Bool.false_or, List.all_eq_true, List.mem_range] at h3
    simpa using h3 j hj
  · simp only [hm, bne_self_eq_false, Bool.false_or, Bool.or_eq_true, beq_iff_eq, decide_eq_true_eq] at h4
    exact h4.resolve_left hb

theorem buffersOk_of_fits {st : State} (h : fits st = true) : BuffersOk st := by
  intro sp
  simp only [fits, Bool.and_eq_true, List.all_eq_true] at h
  obtain ⟨h1, h2⟩ := h.2 sp (by cases sp <;> simp)
  exact ⟨h1, fun c hc => of_decide_eq_true (h2 c hc)⟩

/-- `Holds` as a Bool. -/
def holdsAt (st : State) : Tree → NodeIdx → Bool
  | .leaf y, i =>
    match st.node? i with
    | some r => r.kind == .leaf && r.sym == y
    | none   => false
  | .node a b, i =>
    match st.node? i with
    | some r =>
      r.kind == .internal &&
      (match child? i r false with
       | some l => holdsAt st a l
       | none   => false) &&
      match child? i r true with
      | some c => holdsAt st b c
      | none   => false
    | none => false

theorem holds_of_holdsAt {st : State} {T : Tree} {i : NodeIdx} (h : holdsAt st T i = true) : Holds st T i := by
  induction T generalizing i with
  | leaf y =>
    simp only [holdsAt] at h
    cases hn : st.node? i with
    | none => simp [hn] at h
    | some r => exact ⟨r, hn, by simpa [hn] using h⟩
  | node a b iha ihb =>
    simp only [holdsAt] at h
    cases hn : st.node? i with
    | none => simp [hn] at h
    | some r =>
      simp only [hn, Bool.and_eq_true, beq_iff_eq] at h
      cases hl : child? i r false with
      | none => simp [hl] at h
      | some l =>
        cases hc : child? i r true with
        | none => simp [hc] at h
        | some c =>
          simp only [hl, hc] at h
          exact ⟨r, l, c, hn, h.1.1, hl, hc, iha h.1.2, ihb h.2⟩

/-- A step that gives something has a next state of that kind. -/
theorem next_of_gives {o : Host.Outcome State Fault Refusal} {p : State → Bool} (h : gives o p = true) :
    ∃ t, o = .next t ∧ p t = true := by
  cases o with
  | next t => exact ⟨t, rfl, h⟩
  | fault _ => simp [gives] at h
  | refused _ => simp [gives] at h

/-! ## The states of the witnesses -/

/-- `State.reset` with transactions to make. -/
def hosted (ts : List HostTxn) : State := { State.reset with host := ts }

/-- `State.reset` with an operand. -/
def operand (v : Word) : State := { State.reset with arg0 := v }

/-- The tree of `treeABC`. -/
def shapeABC : Tree := .node (.node (.leaf 0x41) (.leaf 0x42)) (.leaf 0x43)

/-- The records of a right chain with `n + 1` leaves of symbol 0, leaves first. -/
def chainNodes (n : Nat) : List Node :=
  (List.range (n + 1)).map (fun _ => Node.mkLeaf 0 0) ++
    (List.range n).map fun k =>
      Node.mkInternal 0 (BitVec.ofNat 10 k) (BitVec.ofNat 10 (if k = 0 then n else n + k))

/-- The shape of that chain. -/
def chainShape : Nat → Tree
  | 0 => .leaf 0
  | n + 1 => .node (.leaf 0) (chainShape n)

/-- A machine whose RAW buffer is one byte long. -/
def oneByteRaw : State := State.resetWith { Config.defaultParams with rawBufBytes := 1 }

/-- The table with one count, 1, for symbol 0. -/
def oneCount : State := withFreqs [(0, 1)] State.reset

/-! ## spec/30_encoding.md -/

theorem witness_DecodeOfEncode : (Instr.readBits .pay 64).wf = true ∧ (Instr.writeBits .tree 0).wf = true := by decide

theorem witness_DecodedCommandEncodes : decode 0x00400116 = .command (.readBits .pay 64) := by decide

theorem witness_DecodeAgreesWithOpcodeMap :
    (∃ i : Instr, decode ((0x00400116 : BitVec 32).zeroExtend 64) = .command i ∧ i.mnemonic = "READ_BITS") ∧
    ∃ r ∈ opRows, r.mnemonic = "READ_BITS" ∧ r.hits 0x00400116 = true ∧
      (r.usesN = true → ((0x00400116 : BitVec 32).extractLsb' 16 7).toNat ≤ 64) :=
  ⟨⟨.readBits .pay 64, by decide⟩, opRows[8], by decide⟩

theorem witness_DecodeFirstFailingTest :
    firstFailing 0x100000000 = some .upperHalf ∧ firstFailing 0x02 = some .reservedOpcode ∧
    firstFailing 0x212 = some .reservedBits ∧ firstFailing 0x800013 = some .reservedBits ∧
    firstFailing 0x150 = some .strayS ∧ firstFailing 0x30012 = some .strayN ∧
    firstFailing 0x410013 = some .countTooLarge ∧ firstFailing 0x400116 = none ∧
    (hosted [.regWrite 0x000 0x02]).host = [.regWrite 0x000 0x02] := by decide +kernel

/-! ## spec/10_state.md -/

theorem witness_StepRunsDecodedCommand :
    (hosted [.regWrite 0x000 0x50]).host = [.regWrite 0x000 0x50] ∧ decode 0x50 = .command .build ∧
    (hosted [.regWrite 0x000 0x100000000]).host = [.regWrite 0x000 0x100000000] ∧
    (0x100000000 : Word).extractLsb' 32 32 ≠ 0 ∧
    (hosted [.regRead 0x000]).host = [.regRead 0x000] ∧ (Instr.writeBits .pay 64).wf = true := by decide +kernel

theorem witness_EveryStepCompletes : State.reset.host = [] := rfl

/-- Every index is some state's next read; the two ends of the stream registers and of each table. -/
theorem witness_RegisterReads :
    (∀ idx : BitVec 12, (hosted [.regRead idx]).host = .regRead idx :: []) ∧
    (0x010 : BitVec 12).toNat = 0x010 + 8 * StreamSel.tree.toBit.toNat ∧
    (0x01C : BitVec 12).toNat = 0x014 + 8 * StreamSel.pay.toBit.toNat ∧
    (0x100 : BitVec 12).toNat = 0x100 + (0x00 : Symbol).toNat ∧ (0x1FF : BitVec 12).toNat = 0x100 + (0xFF : Symbol).toNat ∧
    (0x2FF : BitVec 12).toNat = 0x200 + (0xFF : Symbol).toNat ∧ (0x3FF : BitVec 12).toNat = 0x300 + (0xFF : Symbol).toNat :=
  ⟨fun _ => rfl, by decide⟩

/-- The last slot of a full arena and the last entry of a full heap. -/
theorem witness_ReadWindows :
    (∀ idx : BitVec 12, ({ hosted [.regRead idx] with arenaCount := 511, heapSize := 256 } : State).host = [.regRead idx]) ∧
    (∀ (idx : BitVec 12) (v : Word), (hosted [.regWrite idx v]).host = [.regWrite idx v]) ∧
    (510 : NodeIdx).toNat < ({ State.reset with arenaCount := 511 } : State).arenaCount.val ∧
    (0x5FE : BitVec 12).toNat = 0x400 + (510 : NodeIdx).toNat ∧ (0x7FE : BitVec 12).toNat = 0x600 + (510 : NodeIdx).toNat ∧
    255 < ({ State.reset with heapSize := 256 } : State).heapSize.val ∧ (0x8FF : BitVec 12).toNat = 0x800 + 255 :=
  ⟨fun _ => rfl, fun _ _ => rfl, by decide, by decide, by decide, by decide, by decide⟩

theorem witness_RegisterWrites :
    (∀ (idx : BitVec 12) (v : Word), (hosted [.regWrite idx v]).host = [.regWrite idx v]) ∧
    (0x100 : BitVec 12).toNat = 0x100 + (0x00 : Symbol).toNat ∧ (0x1FF : BitVec 12).toNat = 0x100 + (0xFF : Symbol).toNat :=
  ⟨fun _ _ => rfl, by decide⟩

theorem witness_ErrlogBits :
    (∃ t, exec .codegen State.reset = .next t) ∧ (hosted [.regRead 0x003]).host = [.regRead 0x003] ∧
    (hosted [.regWrite 0x003 0x80]).host = [.regWrite 0x003 0x80] := by
  refine ⟨?_, rfl, rfl⟩
  obtain ⟨t, h, -⟩ := next_of_gives (o := exec .codegen State.reset) (p := failed .corruptTree) (by decide +kernel)
  exact ⟨t, h⟩

theorem witness_OddAccesses :
    (∀ (idx : BitVec 12) (v : Word), (hosted [.regWrite idx v]).host = [.regWrite idx v]) ∧
    (∀ idx : BitVec 12, (hosted [.regRead idx]).host = [.regRead idx]) ∧
    (0x001 : BitVec 12).toNat = 0x001 ∧ (0x008 : BitVec 12).toNat ≤ 0x008 ∧ (0x01F : BitVec 12).toNat ≤ 0x01F ∧
    0x200 ≤ (0x8FF : BitVec 12).toNat ∧ (0x8FF : BitVec 12).toNat ≤ 0x8FF ∧ 0x009 ≤ (0x009 : BitVec 12).toNat ∧
    (0x017 : BitVec 12).toNat ≤ 0x017 ∧ 0x01D ≤ (0x01D : BitVec 12).toNat ∧ (0x0FF : BitVec 12).toNat ≤ 0x0FF ∧
    0x900 ≤ (0x900 : BitVec 12).toNat ∧ (0xFFF : BitVec 12).toNat ≤ 0xFFF :=
  ⟨fun _ _ => rfl, fun _ => rfl, by decide⟩

/-- A reader that has entered byte 0, and the two ends of the buffer the host writes. -/
theorem witness_ReaderLatch :
    ∀ a : BitVec 32, ∀ v : Byte,
      let st := withStream .tree .reader 0 4 0xFF 512 (hosted [.bufWrite (Script.spaceSel (streamSpace .tree)) a v])
      BuffersOk st ∧ (st.bs .tree).mode = .reader ∧
      st.host = [.bufWrite (Script.spaceSel (streamSpace .tree)) a v] ∧
      (0 : BitVec 32).toNat < st.bufSize (streamSpace .tree) ∧ (511 : BitVec 32).toNat < st.bufSize (streamSpace .tree) :=
  fun _ _ => ⟨buffersOk_of_fits (by rfl), rfl, rfl, (by decide : (0 : Nat) < 512), (by decide : (511 : Nat) < 512)⟩

/-- A READ_BITS from a latched byte on into the next, and one that ends with `TRUNCATED`. -/
theorem witness_LatchedByte :
    ∃ st, StreamsOk st ∧ (st.bs .tree).mode = .reader ∧ readsStream (.readBits .tree 9) .tree = true ∧
      (∃ t, exec (.readBits .tree 9) st = .next t ∧ t.status = .ok) ∧
      ∃ t, exec (.readBits .tree 64) st = .next t ∧ t.status = .error .truncated := by
  let st := withStream .tree .reader 0 3 0xA5 2 (withBytes .tree [0xA5, 0x3C] State.reset)
  obtain ⟨t, h, ht⟩ := next_of_gives (o := exec (.readBits .tree 9) st) (p := fun t => t.status == .ok) (by decide +kernel)
  obtain ⟨u, k, hu⟩ := next_of_gives (o := exec (.readBits .tree 64) st) (p := fun t => t.status == .error .truncated)
    (by decide +kernel)
  exact ⟨st, streamsOk_of_fits (by decide +kernel), rfl, rfl, ⟨t, h, beq_iff_eq.mp ht⟩, ⟨u, k, beq_iff_eq.mp hu⟩⟩

/-! ## spec/20_memory.md -/

theorem witness_BufferPort :
    BuffersOk (hosted [.bufRead 2 1023]) ∧ BuffersOk (hosted [.bufWrite 2 1023 5]) ∧
    (2 : BitVec 2) = Script.spaceSel .raw ∧ (1023 : BitVec 32).toNat < (hosted []).bufSize .raw ∧
    (∀ x : Space, (3 : BitVec 2) = Script.spaceSel x → (hosted []).bufSize x ≤ (0 : BitVec 32).toNat) ∧
    ∀ x : Space, (2 : BitVec 2) = Script.spaceSel x → (hosted []).bufSize x ≤ (1024 : BitVec 32).toNat :=
  ⟨buffersOk_of_fits (by decide +kernel), buffersOk_of_fits (by decide +kernel), by decide, by decide,
   fun x => by cases x <;> decide, fun x => by cases x <;> decide⟩

/-- A WRITE_BIT that completes a byte, and a DECODE of one symbol. -/
theorem witness_CommandStores :
    (∃ st t, StreamsOk st ∧ exec (.writeBit .tree) st = .next t ∧ t.memRead .tree 0 ≠ st.memRead .tree 0) ∧
    ∃ st t, StreamsOk st ∧ exec .decode st = .next t ∧ t.memRead .raw 0 ≠ st.memRead .raw 0 := by
  constructor
  · let st := withStream .tree .writer 0 7 0xFE 1 State.reset
    obtain ⟨t, h, ht⟩ := next_of_gives (o := exec (.writeBit .tree) st) (p := fun t => t.memRead .tree 0 == 0xFE)
      (by decide +kernel)
    exact ⟨st, t, streamsOk_of_fits (by decide +kernel), h, by rw [beq_iff_eq.mp ht]; decide⟩
  · let st := withTree [Node.mkLeaf 0x41 0] (withStream .pay .reader 0 0 0 0 (operand 1))
    obtain ⟨t, h, ht⟩ := next_of_gives (o := exec .decode st) (p := fun t => t.memRead .raw 0 == 0x41) (by decide +kernel)
    exact ⟨st, t, streamsOk_of_fits (by decide +kernel), h, by rw [beq_iff_eq.mp ht]; decide⟩

theorem witness_StepKeepsBuffers :
    BuffersOk (hosted [.regWrite 0x000 0]) ∧ ∃ t, step (hosted [.regWrite 0x000 0]) = .next t := by
  refine ⟨buffersOk_of_fits (by decide +kernel), ?_⟩
  obtain ⟨t, h, -⟩ := next_of_gives (o := step (hosted [.regWrite 0x000 0])) (p := fun _ => true) (by decide +kernel)
  exact ⟨t, h⟩

/-! ## spec/40_bitstream.md -/

/-- Both ways an operand is out of range, and the largest limit that is in range. -/
theorem witness_OpenStream :
    (operand 0x100000000).arg0.extractLsb' 32 32 ≠ 0 ∧
    (operand 513).bufSize (streamSpace .tree) < ((operand 513).arg0.extractLsb' 0 32).toNat ∧
    (operand 512).arg0.extractLsb' 32 32 = 0 ∧
    ((operand 512).arg0.extractLsb' 0 32).toNat ≤ (operand 512).bufSize (streamSpace .tree) := by decide +kernel

theorem witness_WrongModeIsIllegal :
    (∀ s, (State.reset.bs s).mode ≠ .writer) ∧ ∀ s, (State.reset.bs s).mode ≠ .reader :=
  ⟨fun s => by cases s <;> decide, fun s => by cases s <;> decide⟩

/-- A closed stream; a writer at bit 6; at bit 7 with one byte of room; at bit 7 with none. -/
theorem witness_WriteBitEffect :
    (BuffersOk State.reset ∧ StreamsOk State.reset ∧ (State.reset.bs .tree).mode ≠ .writer) ∧
    (∃ st, BuffersOk st ∧ StreamsOk st ∧ (st.bs .tree).mode = .writer ∧ (st.bs .tree).bit.toNat = 6) ∧
    (∃ st, BuffersOk st ∧ StreamsOk st ∧ (st.bs .pay).mode = .writer ∧ (st.bs .pay).bit.toNat = 7 ∧
      (st.bs .pay).byte.toNat < (st.bs .pay).limit.toNat) ∧
    ∃ st, BuffersOk st ∧ StreamsOk st ∧ (st.bs .pay).mode = .writer ∧ (st.bs .pay).bit.toNat = 7 ∧
      (st.bs .pay).limit.toNat ≤ (st.bs .pay).byte.toNat := by
  have h0 : fits State.reset = true := by decide +kernel
  have h1 : fits (withStream .tree .writer 0 6 0xFC 1 State.reset) = true := by decide +kernel
  have h2 : fits (withStream .pay .writer 1023 7 0xFE 1024 State.reset) = true := by decide +kernel
  have h3 : fits (withStream .pay .writer 1024 7 0xFE 1024 State.reset) = true := by decide +kernel
  exact ⟨⟨buffersOk_of_fits h0, streamsOk_of_fits h0, by decide⟩,
    ⟨_, buffersOk_of_fits h1, streamsOk_of_fits h1, rfl, rfl⟩,
    ⟨_, buffersOk_of_fits h2, streamsOk_of_fits h2, rfl, rfl, by decide⟩,
    ⟨_, buffersOk_of_fits h3, streamsOk_of_fits h3, rfl, rfl, by decide⟩⟩

/-- 64 bits into a writer with exactly room for them, and into one a byte shorter. -/
theorem witness_WriteBitsEffect :
    (64 : BitVec 7).toNat ≤ 64 ∧
    (BuffersOk State.reset ∧ StreamsOk State.reset ∧ (State.reset.bs .tree).mode ≠ .writer) ∧
    (∃ st, BuffersOk st ∧ StreamsOk st ∧ (st.bs .tree).mode = .writer ∧ (st.bs .tree).hasRoom (64 : BitVec 7).toNat) ∧
    ∃ st, BuffersOk st ∧ StreamsOk st ∧ (st.bs .tree).mode = .writer ∧ ¬ (st.bs .tree).hasRoom (64 : BitVec 7).toNat := by
  have h0 : fits State.reset = true := by decide +kernel
  have h1 : fits (withStream .tree .writer 0 7 0xFE 8 State.reset) = true := by decide +kernel
  have h2 : fits (withStream .tree .writer 0 0 0 7 State.reset) = true := by decide +kernel
  exact ⟨by decide, ⟨buffersOk_of_fits h0, streamsOk_of_fits h0, by decide⟩,
    ⟨_, buffersOk_of_fits h1, streamsOk_of_fits h1, rfl, by unfold Stream.hasRoom; decide⟩,
    ⟨_, buffersOk_of_fits h2, streamsOk_of_fits h2, rfl, by unfold Stream.hasRoom; decide⟩⟩

theorem witness_FinalizeEffect :
    (BuffersOk State.reset ∧ StreamsOk State.reset ∧ (State.reset.bs .tree).mode ≠ .writer) ∧
    (∃ st, BuffersOk st ∧ StreamsOk st ∧ (st.bs .tree).mode = .writer ∧ (st.bs .tree).bit = 0) ∧
    (∃ st, BuffersOk st ∧ StreamsOk st ∧ (st.bs .tree).mode = .writer ∧ (st.bs .tree).bit ≠ 0 ∧
      (st.bs .tree).byte.toNat < (st.bs .tree).limit.toNat) ∧
    ∃ st, BuffersOk st ∧ StreamsOk st ∧ (st.bs .tree).mode = .writer ∧ (st.bs .tree).bit ≠ 0 ∧
      (st.bs .tree).limit.toNat ≤ (st.bs .tree).byte.toNat := by
  have h0 : fits State.reset = true := by decide +kernel
  have h1 : fits (withStream .tree .writer 2 0 0 2 State.reset) = true := by decide +kernel
  have h2 : fits (withStream .tree .writer 511 1 0x80 512 State.reset) = true := by decide +kernel
  have h3 : fits (withStream .tree .writer 512 7 0xFE 512 State.reset) = true := by decide +kernel
  exact ⟨⟨buffersOk_of_fits h0, streamsOk_of_fits h0, by decide⟩,
    ⟨_, buffersOk_of_fits h1, streamsOk_of_fits h1, rfl, rfl⟩,
    ⟨_, buffersOk_of_fits h2, streamsOk_of_fits h2, rfl, by decide, by decide⟩,
    ⟨_, buffersOk_of_fits h3, streamsOk_of_fits h3, rfl, by decide, by decide⟩⟩

/-- A closed stream; a reader at its limit; one about to enter its last byte; one inside that byte. -/
theorem witness_ReadBitEffect :
    (State.reset.bs .tree).mode ≠ .reader ∧
    (∃ st : State, (st.bs .tree).mode = .reader ∧ (st.bs .tree).bit = 0 ∧
      (st.bs .tree).limit.toNat ≤ (st.bs .tree).byte.toNat) ∧
    (∃ st : State, (st.bs .tree).mode = .reader ∧ (st.bs .tree).bit = 0 ∧
      ((st.bs .tree).bit = 0 → (st.bs .tree).byte.toNat < (st.bs .tree).limit.toNat)) ∧
    ∃ st : State, (st.bs .tree).mode = .reader ∧ (st.bs .tree).bit.toNat = 7 ∧
      ((st.bs .tree).bit = 0 → (st.bs .tree).byte.toNat < (st.bs .tree).limit.toNat) :=
  ⟨by decide, ⟨withStream .tree .reader 2 0 0 2 State.reset, by decide⟩,
    ⟨withStream .tree .reader 1 0 0 2 State.reset, by decide⟩,
    ⟨withStream .tree .reader 1 7 0x3C 2 State.reset, by decide⟩⟩

/-- 64 bits from a reader with exactly 64 left, and from one with 63. -/
theorem witness_ReadBitsEffect :
    (64 : BitVec 7).toNat ≤ 64 ∧ (StreamsOk State.reset ∧ (State.reset.bs .tree).mode ≠ .reader) ∧
    (∃ st, StreamsOk st ∧ (st.bs .tree).mode = .reader ∧ (64 : BitVec 7).toNat ≤ (st.unread .tree).length) ∧
    ∃ st, StreamsOk st ∧ (st.bs .tree).mode = .reader ∧ (st.unread .tree).length < (64 : BitVec 7).toNat := by
  have h0 : fits State.reset = true := by decide +kernel
  have h1 : fits (withStream .tree .reader 1 0 0 9 State.reset) = true := by decide +kernel
  have h2 : fits (withStream .tree .reader 0 1 0 8 State.reset) = true := by decide +kernel
  exact ⟨by decide, ⟨streamsOk_of_fits h0, by decide⟩, ⟨_, streamsOk_of_fits h1, rfl, by decide +kernel⟩,
    ⟨_, streamsOk_of_fits h2, rfl, by decide +kernel⟩⟩

/-- Exactly as many bits as the limit takes. -/
theorem witness_StreamRoundTrip :
    BuffersOk State.reset ∧ (512 : Length).toNat ≤ State.reset.bufSize (streamSpace .tree) ∧
    (List.replicate 4096 true).length ≤ 8 * (512 : Length).toNat :=
  ⟨buffersOk_of_fits (by decide +kernel), by decide, by rw [List.length_replicate]; decide⟩

theorem witness_StepKeepsStreams :
    StreamsOk (hosted [.regWrite 0x000 0]) ∧ ∃ t, step (hosted [.regWrite 0x000 0]) = .next t := by
  refine ⟨streamsOk_of_fits (by decide +kernel), ?_⟩
  obtain ⟨t, h, -⟩ := next_of_gives (o := step (hosted [.regWrite 0x000 0])) (p := fun _ => true) (by decide +kernel)
  exact ⟨t, h⟩

/-! ## spec/41_arena_heap.md -/

theorem witness_AllocateNode :
    ({ State.reset with arenaCount := 510 } : State).arenaCount.val < 511 ∧
    511 ≤ ({ State.reset with arenaCount := 511 } : State).arenaCount.val := by decide

/-- A heap of any size whose entries are all the same node. -/
theorem heapOrdered_reset (n : Fin 257) : HeapOrdered { State.reset with heapSize := n } := by
  intro p hp hn
  have key : ∀ q, q < 256 → heapAt State.reset.heap q = 0 := by decide +kernel
  have hlt : p < 256 := Nat.lt_of_lt_of_le hn (Nat.lt_succ_iff.mp n.isLt)
  have hpar : parentPos p < 256 := by unfold parentPos; omega
  show State.nodeKey _ (heapAt State.reset.heap (parentPos p)) ≤ State.nodeKey _ (heapAt State.reset.heap p)
  rw [key p hlt, key _ hpar]
  exact BitVec.le_refl _

/-- One entry short of a full heap, a full heap, a heap with one entry and one with two. -/
theorem witness_HeapOperations :
    (∃ st, HeapOrdered st ∧ st.heapSize.val = 255) ∧ (∃ st, HeapOrdered st ∧ 256 ≤ st.heapSize.val) ∧
    (∃ st, HeapOrdered st ∧ st.heapSize.val = 1) ∧ ∃ st, HeapOrdered st ∧ st.heapSize.val = 2 :=
  ⟨⟨_, heapOrdered_reset 255, rfl⟩, ⟨_, heapOrdered_reset 256, Nat.le_refl 256⟩, ⟨_, heapOrdered_reset 1, rfl⟩,
    ⟨_, heapOrdered_reset 2, rfl⟩⟩

theorem witness_StepKeepsHeap :
    HeapOk (hosted [.regWrite 0x000 0]) ∧ ∃ t, step (hosted [.regWrite 0x000 0]) = .next t := by
  refine ⟨⟨fun i hi => by simp [hosted, State.liveHeap, State.reset, State.resetWith] at hi,
    fun p _ hp => absurd hp (Nat.not_lt_zero p)⟩, ?_⟩
  obtain ⟨t, h, -⟩ := next_of_gives (o := step (hosted [.regWrite 0x000 0])) (p := fun _ => true) (by decide +kernel)
  exact ⟨t, h⟩

theorem witness_StepKeepsArena :
    ArenaOk (hosted [.regWrite 0x000 0]) ∧ ∃ t, step (hosted [.regWrite 0x000 0]) = .next t := by
  refine ⟨(arenaOk_reset State.reset).congr rfl rfl rfl rfl, ?_⟩
  obtain ⟨t, h, -⟩ := next_of_gives (o := step (hosted [.regWrite 0x000 0])) (p := fun _ => true) (by decide +kernel)
  exact ⟨t, h⟩

/-! ## spec/42_tree_builder.md -/

theorem witness_FreqCountEffect :
    ({ State.reset with rawLen := 1025 } : State).bufSize .raw < (1025 : Length).toNat ∧
    (1024 : Length).toNat ≤ ({ State.reset with rawLen := 1024 } : State).bufSize .raw := by decide

/-- No count; two counts of 2^63; and BUILDs that end with each error. -/
theorem witness_BuildFailures :
    (∀ y : Symbol, State.reset.freqAt y = 0) ∧
    2 ^ 64 ≤ (withFreqs [(0, 0x8000000000000000), (1, 0x8000000000000000)] State.reset).totalFreq ∧
    (∃ t, exec .build State.reset = .next t ∧ t.status = .error .emptyInput) ∧
    ∃ st t, exec .build st = .next t ∧ t.status = .error .capacityExceeded := by
  refine ⟨by decide +kernel, by decide +kernel, ?_, ?_⟩
  · obtain ⟨t, h, ht⟩ := next_of_gives (o := exec .build State.reset) (p := fun t => t.status == .error .emptyInput)
      (by decide +kernel)
    exact ⟨t, h, beq_iff_eq.mp ht⟩
  · obtain ⟨t, h, ht⟩ := next_of_gives (p := fun t => t.status == .error .capacityExceeded)
      (o := exec .build (withFreqs [(0, 0x8000000000000000), (1, 0x8000000000000000)] State.reset)) (by decide +kernel)
    exact ⟨_, t, h, beq_iff_eq.mp ht⟩

/-- The least and the greatest sum BUILD succeeds on. -/
theorem witness_BuildResult :
    (0 < oneCount.totalFreq ∧ oneCount.totalFreq < 2 ^ 64) ∧
    0 < (withFreqs [(0, 0xFFFFFFFFFFFFFFFF)] State.reset).totalFreq ∧
    (withFreqs [(0, 0xFFFFFFFFFFFFFFFF)] State.reset).totalFreq < 2 ^ 64 := by decide +kernel

/-- A BUILD that succeeds, and its tree. -/
theorem build_oneCount : ∃ t, exec .build oneCount = .next t ∧ t.status = .ok ∧ Holds t (.leaf 0) t.root := by
  obtain ⟨t, h, ht⟩ := next_of_gives (o := exec .build oneCount)
    (p := fun t => t.status == .ok && holdsAt t (.leaf 0) t.root) (by decide +kernel)
  rw [Bool.and_eq_true] at ht
  exact ⟨t, h, beq_iff_eq.mp ht.1, holds_of_holdsAt ht.2⟩

theorem witness_BuildIsOptimal :
    ∃ (t : State) (T U : Tree), exec .build oneCount = .next t ∧ t.status = .ok ∧ Holds t T t.root ∧
      (U.paths.map Prod.fst).Perm oneCount.usedSymbols := by
  obtain ⟨t, h, hs, hT⟩ := build_oneCount
  have hu : oneCount.usedSymbols = [0] := by decide +kernel
  exact ⟨t, _, .leaf 0, h, hs, hT, by rw [hu]; exact List.Perm.refl _⟩

theorem witness_BuildDepthBound :
    (∃ t T, exec .build oneCount = .next t ∧ t.status = .ok ∧ Holds t T t.root) ∧
    oneCount.totalFreq < 27777890035288 := by
  obtain ⟨t, h, hs, hT⟩ := build_oneCount
  exact ⟨⟨t, _, h, hs, hT⟩, by decide +kernel⟩

theorem witness_BuildDependsOnFreqOnly : (operand 1).freq = State.reset.freq ∧ operand 1 ≠ State.reset :=
  ⟨rfl, fun h => absurd (congrArg State.arg0 h) (by decide)⟩

/-! ## spec/43_codegen.md -/

theorem witness_CodegenFillsTable :
    (∃ st : State, st.treeValid = true ∧ Holds st (.leaf 0x41) st.root ∧ (Tree.leaf 0x41).depth < 64) ∧
    ∃ (st : State), st.treeValid = true ∧ Holds st (chainShape 63) st.root ∧ (chainShape 63).depth = 63 :=
  ⟨⟨withTree [Node.mkLeaf 0x41 4] State.reset, rfl, holds_of_holdsAt (by decide +kernel), by decide⟩,
    ⟨withTree (chainNodes 63) State.reset, rfl, holds_of_holdsAt (by decide +kernel), by decide +kernel⟩⟩

theorem witness_CodegenFailures :
    (∃ st : State, st.treeValid = true ∧ Holds st (chainShape 64) st.root ∧ 64 ≤ (chainShape 64).depth) ∧
    State.reset.treeValid = false :=
  ⟨⟨withTree (chainNodes 64) State.reset, rfl, holds_of_holdsAt (by decide +kernel), by decide +kernel⟩, rfl⟩

theorem witness_CodegenCodes :
    (∃ (st : State) (T : Tree), st.treeValid = true ∧ Holds st T st.root ∧ T.depth < 64 ∧ (T.paths.map Prod.fst).Nodup ∧
      2 ≤ T.leaves ∧ (0x43 : Symbol) ∈ T.paths.map Prod.fst) ∧
    (∃ (st : State) (T : Tree), st.treeValid = true ∧ Holds st T st.root ∧ T.depth < 64 ∧ (T.paths.map Prod.fst).Nodup ∧
      T = .leaf 0x41) ∧
    ∃ st t, exec .build st = .next t ∧ t.status = .ok := by
  obtain ⟨t, h, hs, -⟩ := build_oneCount
  exact ⟨⟨withTree treeABC State.reset, shapeABC, rfl, holds_of_holdsAt (by decide +kernel), by decide⟩,
    ⟨withTree [Node.mkLeaf 0x41 4] State.reset, .leaf 0x41, rfl, holds_of_holdsAt (by decide +kernel), by decide⟩,
    ⟨_, t, h, hs⟩⟩

theorem witness_StepKeepsTables :
    CodesOk (hosted [.regWrite 0x000 0]) ∧ RegistersOk (hosted [.regWrite 0x000 0]) ∧
    ∃ t, step (hosted [.regWrite 0x000 0]) = .next t := by
  refine ⟨fun y => ?_, ⟨by decide, by decide⟩, ?_⟩
  · revert y; decide +kernel
  · obtain ⟨t, h, -⟩ := next_of_gives (o := step (hosted [.regWrite 0x000 0])) (p := fun _ => true) (by decide +kernel)
    exact ⟨t, h⟩

/-! ## spec/44_tree_codec.md -/

/-- A closed stream; a writer and no tree; a one-leaf tree with exactly room for its nine bits, and with room for none that
completes a byte. -/
theorem witness_TreeSaveEffect :
    (BuffersOk State.reset ∧ StreamsOk State.reset ∧ (State.reset.bs .tree).mode ≠ .writer) ∧
    (∃ st, BuffersOk st ∧ StreamsOk st ∧ (st.bs .tree).mode = .writer ∧ st.treeValid = false) ∧
    (∃ (st : State) (T : Tree), BuffersOk st ∧ StreamsOk st ∧ (st.bs .tree).mode = .writer ∧ st.treeValid = true ∧
      Holds st T st.root ∧ (st.bs .tree).hasRoom T.bits.length) ∧
    ∃ (st : State) (T : Tree), BuffersOk st ∧ StreamsOk st ∧ (st.bs .tree).mode = .writer ∧ st.treeValid = true ∧
      Holds st T st.root ∧ ¬ (st.bs .tree).hasRoom T.bits.length := by
  have h0 : fits State.reset = true := by decide +kernel
  have h1 : fits (withStream .tree .writer 0 0 0 4 State.reset) = true := by decide +kernel
  have h2 : fits (withTree [Node.mkLeaf 0x41 4] (withStream .tree .writer 0 0 0 1 State.reset)) = true := by decide +kernel
  have h3 : fits (withTree [Node.mkLeaf 0x41 4] (withStream .tree .writer 0 0 0 0 State.reset)) = true := by decide +kernel
  exact ⟨⟨buffersOk_of_fits h0, streamsOk_of_fits h0, by decide⟩,
    ⟨_, buffersOk_of_fits h1, streamsOk_of_fits h1, rfl, rfl⟩,
    ⟨_, .leaf 0x41, buffersOk_of_fits h2, streamsOk_of_fits h2, rfl, rfl, holds_of_holdsAt (by decide +kernel),
      by unfold Stream.hasRoom; decide +kernel⟩,
    ⟨_, .leaf 0x41, buffersOk_of_fits h3, streamsOk_of_fits h3, rfl, rfl, holds_of_holdsAt (by decide +kernel),
      by unfold Stream.hasRoom; decide +kernel⟩⟩

/-- Vector V16: the nine bits of a one-leaf tree and seven bits of padding. -/
theorem witness_TreeLoadEffect :
    ∃ (st : State) (T : Tree) (rest : List Bool), StreamsOk st ∧ (st.bs .tree).mode = .reader ∧
      st.unread .tree = T.bits ++ rest ∧ T.leaves ≤ 256 :=
  ⟨withStream .tree .reader 0 0 0 2 (withBytes .tree [0xA0, 0x80] State.reset), .leaf 0x41, List.replicate 7 false,
    streamsOk_of_fits (by decide +kernel), rfl, by decide +kernel, by decide⟩

theorem witness_TreeLoadAcceptsExactly :
    ∃ st, StreamsOk st ∧ (st.bs .tree).mode = .reader :=
  ⟨withStream .tree .reader 0 0 0 512 State.reset, streamsOk_of_fits (by decide +kernel), rfl⟩

/-- Vector V16: an empty stream; one byte A0, a leaf's marker and seven bits; 64 zero bytes, so 512 markers. And the two ways
to run out of bits with as many nodes entered as may be: 511 zero bits, and 510 with a leaf's marker. Failing loads. -/
theorem witness_TreeLoadFailure :
    (∃ st, StreamsOk st ∧ (st.bs .tree).mode = .reader ∧ LoadStops (st.unread .tree) [] 0 .truncated) ∧
    (∃ st, StreamsOk st ∧ (st.bs .tree).mode = .reader ∧ LoadStops (st.unread .tree) [] 8 .truncated) ∧
    (∃ st n, StreamsOk st ∧ (st.bs .tree).mode = .reader ∧
      LoadStops (st.unread .tree) (List.replicate 511 none) n .capacityExceeded) ∧
    (∃ st n, StreamsOk st ∧ (st.bs .tree).mode = .reader ∧
      LoadStops (st.unread .tree) (List.replicate 511 none) n .truncated) ∧
    (∃ st n, StreamsOk st ∧ (st.bs .tree).mode = .reader ∧
      LoadStops (st.unread .tree) (List.replicate 510 none) n .truncated) ∧
    ∃ st t, StreamsOk st ∧ (st.bs .tree).mode = .reader ∧ exec .treeLoad st = .next t ∧ t.status = .error .truncated := by
  refine ⟨⟨withStream .tree .reader 0 0 0 0 State.reset, streamsOk_of_fits (by decide +kernel), rfl,
      .noMarker (by decide +kernel) (by decide)⟩,
    ⟨withStream .tree .reader 0 0 0 1 (withBytes .tree [0xA0] State.reset), streamsOk_of_fits (by decide +kernel), rfl,
      .noSymbol (part := [false, true, false, false, false, false, false]) (by decide +kernel) (by decide) (by decide)⟩,
    ⟨withStream .tree .reader 0 0 0 64 State.reset, _, streamsOk_of_fits (by decide +kernel), rfl,
      .full (z := List.replicate 511 none) (m := false) (rest := []) (by decide +kernel) (by decide +kernel)⟩,
    ⟨withStream .tree .reader 0 1 0 64 State.reset, _, streamsOk_of_fits (by decide +kernel), rfl,
      .noMarker (z := List.replicate 511 none) (by decide +kernel) (by decide +kernel)⟩,
    ⟨withStream .tree .reader 0 1 0 64 (withBytes .tree (List.replicate 63 0 ++ [1]) State.reset), _,
      streamsOk_of_fits (by decide +kernel), rfl,
      .noSymbol (z := List.replicate 510 none) (part := []) (by decide +kernel) (by decide) (by decide +kernel)⟩, ?_⟩
  let st := withStream .tree .reader 0 0 0 0 State.reset
  obtain ⟨t, h, ht⟩ := next_of_gives (o := exec .treeLoad st) (p := fun t => t.status == .error .truncated)
    (by decide +kernel)
  exact ⟨st, t, streamsOk_of_fits (by decide +kernel), rfl, h, beq_iff_eq.mp ht⟩

/-- A one-leaf tree and exactly the two bytes it takes. -/
theorem witness_TreeRoundTrip :
    ∃ (st : State) (T : Tree), BuffersOk st ∧ st.treeValid = true ∧ Holds st T st.root ∧ T.leaves ≤ 256 ∧
      (2 : Length).toNat ≤ st.bufSize .tree ∧ 10 * T.leaves - 1 ≤ 8 * (2 : Length).toNat :=
  ⟨withTree [Node.mkLeaf 0x41 4] State.reset, .leaf 0x41, buffersOk_of_fits (by decide +kernel), rfl,
    holds_of_holdsAt (by decide +kernel), by decide, by decide, by decide⟩

/-! ## spec/45_payload_codec.md -/

/-- One byte in RAW, whose code has `len` zero bits, and a writer of `limit` bytes. -/
def encodeState (len : BitVec 7) (limit : Length) : State :=
  withCodes [(0x41, 0, len)] (withStream .pay .writer 0 0 0 limit (withBytes .raw [0x41] { State.reset with rawLen := 1 }))

/-- A closed stream; `RAW_LEN` too large; a code that just fits; a byte without a code; a code that does not fit. -/
theorem witness_EncodeEffect :
    (BuffersOk State.reset ∧ StreamsOk State.reset ∧ (State.reset.bs .pay).mode ≠ .writer) ∧
    ({ State.reset with rawLen := 1025 } : State).bufSize .raw < (1025 : Length).toNat ∧
    (∃ st, BuffersOk st ∧ StreamsOk st ∧ (st.bs .pay).mode = .writer ∧ st.rawLen.toNat ≤ st.bufSize .raw ∧
      (∀ x ∈ st.rawBytes st.rawLen.toNat, (st.codeAt x).len ≠ 0) ∧
      (st.bs .pay).hasRoom (st.codeBits (st.rawBytes st.rawLen.toNat)).length) ∧
    (∃ st, BuffersOk st ∧ StreamsOk st ∧ (st.bs .pay).mode = .writer ∧ st.rawLen.toNat ≤ st.bufSize .raw ∧
      0 < st.rawLen.toNat ∧ (∀ x ∈ st.rawBytes 0, (st.codeAt x).len ≠ 0) ∧ (st.codeAt (st.memRead .raw 0)).len = 0 ∧
      (st.bs .pay).hasRoom (st.codeBits (st.rawBytes 0)).length) ∧
    ∃ st, BuffersOk st ∧ StreamsOk st ∧ (st.bs .pay).mode = .writer ∧ st.rawLen.toNat ≤ st.bufSize .raw ∧
      1 ≤ st.rawLen.toNat ∧ (∀ x ∈ st.rawBytes 1, (st.codeAt x).len ≠ 0) ∧
      ¬ (st.bs .pay).hasRoom (st.codeBits (st.rawBytes 1)).length := by
  have h0 : fits State.reset = true := by decide +kernel
  have h1 : fits (encodeState 8 1) = true := by decide +kernel
  have h2 : fits (encodeState 0 0) = true := by decide +kernel
  have h3 : fits (encodeState 8 0) = true := by decide +kernel
  exact ⟨⟨buffersOk_of_fits h0, streamsOk_of_fits h0, by decide⟩, by decide,
    ⟨_, buffersOk_of_fits h1, streamsOk_of_fits h1, rfl, by decide, by decide +kernel, by unfold Stream.hasRoom; decide +kernel⟩,
    ⟨_, buffersOk_of_fits h2, streamsOk_of_fits h2, rfl, by decide, by decide, by decide, by decide +kernel,
      by unfold Stream.hasRoom; decide +kernel⟩,
    ⟨_, buffersOk_of_fits h3, streamsOk_of_fits h3, rfl, by decide, by decide, by decide +kernel,
      by unfold Stream.hasRoom; decide +kernel⟩⟩

/-- Vector V2: the payload 1E under the tree ((A, B), C). -/
theorem witness_DecodeEffect :
    ∃ (st : State) (T : Tree) (ys : List Symbol) (rest : List Bool), BuffersOk st ∧ StreamsOk st ∧
      (st.bs .pay).mode = .reader ∧ st.arg0 = (5 : Length).zeroExtend 64 ∧ st.treeValid = true ∧ Holds st T st.root ∧
      (5 : Length).toNat ≤ st.bufSize .raw ∧ T.decodeMany (5 : Length).toNat (st.unread .pay) = some (ys, rest) := by
  let st := withTree treeABC (withStream .pay .reader 0 0 0 1 (withBytes .pay [0x1E] (operand 5)))
  have h : fits st = true := by decide +kernel
  exact ⟨st, shapeABC, [0x41, 0x42, 0x43, 0x43, 0x43], [false], buffersOk_of_fits h, streamsOk_of_fits h, rfl, by decide,
    rfl, holds_of_holdsAt (by decide +kernel), by decide, by decide +kernel⟩

/-- A closed stream; an operand above 32 bits; no tree; bits that run out at once; a RAW buffer of one byte asked for two
symbols. -/
theorem witness_DecodeFailures :
    (BuffersOk State.reset ∧ StreamsOk State.reset ∧ (State.reset.bs .pay).mode ≠ .reader) ∧
    (operand 0x100000005).arg0.extractLsb' 32 32 ≠ 0 ∧
    (∃ st, BuffersOk st ∧ StreamsOk st ∧ (st.bs .pay).mode = .reader ∧ st.arg0.extractLsb' 32 32 = 0 ∧
      st.treeValid = false) ∧
    (∃ (st : State) (T : Tree) (ys : List Symbol) (bits : List Bool), BuffersOk st ∧ StreamsOk st ∧
      (st.bs .pay).mode = .reader ∧ st.arg0 = (1 : Length).zeroExtend 64 ∧ st.treeValid = true ∧ Holds st T st.root ∧
      0 < (1 : Length).toNat ∧ T.decodeMany 0 (st.unread .pay) = some (ys, bits) ∧ 0 ≤ st.bufSize .raw ∧
      T.walk bits = none) ∧
    ∃ (st : State) (T : Tree) (ys : List Symbol) (bits : List Bool), BuffersOk st ∧ StreamsOk st ∧
      (st.bs .pay).mode = .reader ∧ st.arg0 = (2 : Length).zeroExtend 64 ∧ st.treeValid = true ∧ Holds st T st.root ∧
      1 < (2 : Length).toNat ∧ T.decodeMany 1 (st.unread .pay) = some (ys, bits) ∧ 1 = st.bufSize .raw ∧
      ∃ y rest, T.walk bits = some (y, rest) := by
  let s1 := withStream .pay .reader 0 0 0 0 State.reset
  let s2 := withTree treeABC (withStream .pay .reader 0 0 0 0 (operand 1))
  let s3 := withTree [Node.mkLeaf 0x41 4] (withStream .pay .reader 0 0 0 0 { oneByteRaw with arg0 := 2 })
  have h0 : fits State.reset = true := by decide +kernel
  have h1 : fits s1 = true := by decide +kernel
  have h2 : fits s2 = true := by decide +kernel
  have h3 : fits s3 = true := by decide +kernel
  exact ⟨⟨buffersOk_of_fits h0, streamsOk_of_fits h0, by decide⟩, by decide,
    ⟨s1, buffersOk_of_fits h1, streamsOk_of_fits h1, rfl, by decide, rfl⟩,
    ⟨s2, shapeABC, [], [], buffersOk_of_fits h2, streamsOk_of_fits h2, rfl, by decide, rfl,
      holds_of_holdsAt (by decide +kernel), by decide, by decide +kernel, by decide, by decide⟩,
    ⟨s3, .leaf 0x41, [0x41], [], buffersOk_of_fits h3, streamsOk_of_fits h3, rfl, by decide, rfl,
      holds_of_holdsAt (by decide +kernel), by decide, by decide +kernel, by decide, 0x41, [], by decide⟩⟩

/-- As many symbols as RAW has bytes, and a DECODE that goes on to its end. -/
theorem witness_DecodeOneLeaf :
    (∃ st, BuffersOk st ∧ (st.bs .pay).mode = .reader ∧ st.arg0 = (1024 : Length).zeroExtend 64 ∧ st.treeValid = true ∧
      Holds st (.leaf 0x41) st.root ∧ (1024 : Length).toNat ≤ st.bufSize .raw) ∧
    ∃ st t, BuffersOk st ∧ (st.bs .pay).mode = .reader ∧ st.arg0 = (1 : Length).zeroExtend 64 ∧ st.treeValid = true ∧
      Holds st (.leaf 0x41) st.root ∧ exec .decode st = .next t := by
  let s1 := withTree [Node.mkLeaf 0x41 4] (withStream .pay .reader 0 0 0 0 (operand 1024))
  let s2 := withTree [Node.mkLeaf 0x41 4] (withStream .pay .reader 0 0 0 0 (operand 1))
  obtain ⟨t, h, -⟩ := next_of_gives (o := exec .decode s2) (p := fun _ => true) (by decide +kernel)
  exact ⟨⟨s1, buffersOk_of_fits (by decide +kernel), rfl, by decide, rfl, holds_of_holdsAt (by decide +kernel), by decide⟩,
    ⟨s2, t, buffersOk_of_fits (by decide +kernel), rfl, by decide, rfl, holds_of_holdsAt (by decide +kernel), h⟩⟩

/-- One byte, the least capacities, and a decoding instance that is the encoding one. -/
theorem witness_PayloadRoundTrip :
    ∃ st u, BuffersOk st ∧ 1 ≤ st.rawLen.toNat ∧ st.rawLen.toNat ≤ st.bufSize .raw ∧ 320 ≤ (320 : Length).toNat ∧
      (320 : Length).toNat ≤ st.bufSize .tree ∧ 63 * st.rawLen.toNat ≤ 8 * (8 : Length).toNat ∧
      (8 : Length).toNat ≤ st.bufSize .pay ∧
      runLines (Script.hufEncode ((320 : Length).zeroExtend 64) ((8 : Length).zeroExtend 64)) st = .next u ∧
      BuffersOk u ∧ u.bsTree.byte.toNat ≤ u.bufSize .tree ∧ u.bsPay.byte.toNat ≤ u.bufSize .pay ∧
      st.rawLen.toNat ≤ u.bufSize .raw := by
  let st := withBytes .raw [0x41] { State.reset with rawLen := 1 }
  obtain ⟨u, h, hu⟩ := next_of_gives (p := fun u => fits u && decide (1 ≤ u.bufSize .raw))
    (o := runLines (Script.hufEncode ((320 : Length).zeroExtend 64) ((8 : Length).zeroExtend 64)) st) (by decide +kernel)
  rw [Bool.and_eq_true] at hu
  have hs := streamsOk_of_fits hu.1
  exact ⟨st, u, buffersOk_of_fits (by decide +kernel), by decide, by decide, by decide, by decide, by decide, by decide, h,
    buffersOk_of_fits hu.1, (hs .tree).byte_le.trans (hs .tree).limit_le, (hs .pay).byte_le.trans (hs .pay).limit_le,
    of_decide_eq_true hu.2⟩

/-! ## spec/60_exceptions.md and spec/70_reset_and_hazards.md -/

theorem witness_CommandErrorCodes :
    ∃ t, exec .build State.reset = .next t ∧ t.status = .error .emptyInput := witness_BuildFailures.2.2.1

theorem witness_CommandFootprint : ∃ t, exec .build oneCount = .next t :=
  let ⟨t, h, _⟩ := build_oneCount
  ⟨t, h⟩

/-- Three bits of `ARG0`, and operands that differ in all the others. -/
theorem witness_OperandIndependence :
    sameOperand (.writeBits .tree 3) 0xFFFFFFFFFFFFFFFD (operand 5).arg0 ∧ sameOperand .build 7 (operand 5).arg0 ∧
    sameOperand (.writeBit .tree) 0xFF (operand 1).arg0 := by
  refine ⟨?_, trivial, ?_⟩
  · show ∀ j, j < 3 → _
    decide
  · show BitVec.getLsbD _ _ = BitVec.getLsbD _ _
    decide

theorem witness_ResetState : (hosted [.reset]).host = .reset :: [] := rfl

end Sys2Proof.Tests
end

section
/-! PROOFS. What every step keeps, from what its parts keep; the bounds of the code table, `ERRLOG` bit 0 and the buffer
sizes (spec/00_scope.md R9 and R10, spec/10_state.md R26 and R31). -/

namespace Sys2Proof.Machine

/-! ## Invariants, part by part -/

/-- A buffer read changes nothing but the host's latest reply. -/
theorem bufRead_rest (sp : BitVec 2) (a : BitVec 32) (st : State) :
    bufRead sp a st = { st with reply := (bufRead sp a st).reply } := by
  unfold bufRead
  split <;> rfl

/-- A buffer write is a write to one of the three spaces, or nothing. -/
theorem bufWrite_cases (sp : BitVec 2) (a : BitVec 32) (v : Byte) (st : State) :
    (∃ x, bufWrite sp a v st = st.memWrite x a.toNat v) ∨ bufWrite sp a v st = st := by
  unfold bufWrite
  split
  · exact .inl ⟨_, rfl⟩
  · exact .inr rfl

/-- `P` does not look at the host, and each part that steps are made of keeps it: a command's body, the two epilogues, a
write on either port, the reset input. -/
structure PartsKeep (P : State → Prop) : Prop where
  host     : ∀ {st : State} (ts : List HostTxn) (r : Word) (n : Nat), P st →
    P { st with host := ts, reply := r, freeIdx := n }
  body     : ∀ {st : State} (i : Instr), P st → P (body i st).state
  endOk    : ∀ {st : State} (v : Word), P st → P (st.endOk v)
  endError : ∀ {st : State} (k : ErrorKind), P st → P (st.endError k)
  writeLoc : ∀ {st : State} (l : RegLoc) (v : Word), P st → P (writeLoc l v st)
  memWrite : ∀ {st : State} (x : Space) (a : Nat) (v : Byte), P st → P (st.memWrite x a v)
  reset    : ∀ {st : State}, P st → P st.resetInput

theorem PartsKeep.exec {P : State → Prop} (hP : PartsKeep P) {i : Instr} {st t : State} (h : exec i st = .next t)
    (hst : P st) : P t := by
  obtain ⟨u, hu, ⟨ht, -⟩ | ⟨k, ht, -⟩⟩ := exec_next h
  · rw [ht, hu]
    exact hP.endOk _ (hP.body i hst)
  · rw [ht, hu]
    exact hP.endError k (hP.body i hst)

/-- What all parts keep, every step keeps. -/
theorem PartsKeep.step {P : State → Prop} (hP : PartsKeep P) {st t : State} (h : step st = .next t) (hst : P st) :
    P t := by
  have pending : ∀ ts, P { st with host := ts } := fun ts => hP.host ts st.reply st.freeIdx hst
  cases step_cases h with
  | idle _ => exact hst
  | read =>
    rw [readLoc_rest]
    exact hP.host _ _ _ (pending _)
  | write => exact hP.writeLoc _ _ (pending _)
  | command h => exact hP.exec h (pending _)
  | illegal => exact hP.endError _ (pending _)
  | bufRead =>
    rw [bufRead_rest]
    exact hP.host _ _ _ (pending _)
  | @bufWrite sp a v ts =>
    obtain ⟨x, e⟩ | e := bufWrite_cases sp a v { st with host := ts }
    · rw [e]
      exact hP.memWrite x _ v (pending ts)
    · rw [e]
      exact pending ts
  | reset => exact hP.reset (pending _)

/-! ## The code table (R9, R31) -/

/-- The host cannot write the code table (R31). -/
@[simp] theorem writeLoc_code (l : RegLoc) (v : Word) (st : State) : (writeLoc l v st).code = st.code := by
  cases l <;> rfl

theorem codesOk_partsKeep : PartsKeep CodesOk where
  host _ _ _ h := h.congr rfl
  body i h := body_keeps_codes i _ h
  endOk v h := h.congr (State.endOk_code _ v)
  endError k h := h.congr (State.endError_code _ k)
  writeLoc l v h := h.congr (writeLoc_code l v _)
  memWrite x a v h := h.congr (State.memWrite_code _ x a v)
  reset _ := CodesOk.cleared fun y => State.codeAt_clearCode (State.resetInput _) y

/-! ## `ERRLOG` bit 0 and the buffer sizes (R10, R26) -/

/-- Logging an error leaves bit 0 alone: error codes start at 1 (R26). -/
@[simp] theorem logError_bit0 (log : BitVec 8) (k : ErrorKind) : (logError log k).getLsbD 0 = log.getLsbD 0 := by
  have hk : k.logBit.getLsbD 0 = false := by cases k <;> decide
  rw [logError, BitVec.getLsbD_or, hk, Bool.or_false]

/-- The host clears bits of `ERRLOG` and sets none (R26). -/
theorem clearErrors_bit0 {log : BitVec 8} (v : Word) (h : log.getLsbD 0 = false) :
    (clearErrors log v).getLsbD 0 = false := by
  rw [clearErrors, BitVec.getLsbD_and, h, Bool.false_and]

theorem RegistersOk.congr {st t : State} (h : RegistersOk st) (he : t.errlog = st.errlog) (hp : t.params = st.params) :
    RegistersOk t where
  errlog := by rw [he]; exact h.errlog
  params := by rw [hp]; exact h.params

theorem RegistersOk.endError {st : State} (h : RegistersOk st) (k : ErrorKind) : RegistersOk (st.endError k) where
  errlog := by rw [State.endError_errlog, logError_bit0]; exact h.errlog
  params := h.params

theorem RegistersOk.writeLoc {st : State} (h : RegistersOk st) (l : RegLoc) (v : Word) :
    RegistersOk (writeLoc l v st) := by
  cases l
  case errlog => exact ⟨clearErrors_bit0 v h.errlog, h.params⟩
  all_goals exact h.congr rfl rfl

theorem RegistersOk.resetInput {st : State} (h : RegistersOk st) : RegistersOk st.resetInput where
  errlog := show (0#8).getLsbD 0 = false from rfl
  params := h.params

theorem registersOk_partsKeep : PartsKeep RegistersOk where
  host _ _ _ h := h.congr rfl rfl
  body i h := h.congr (body_kept i _).errlog (body_kept i _).params
  endOk v h := h.congr (State.endOk_errlog _ v) (State.endOk_params _ v)
  endError k h := h.endError k
  writeLoc l v h := h.writeLoc l v
  memWrite x a v h := h.congr (State.memWrite_errlog _ x a v) (State.memWrite_params _ x a v)
  reset h := h.resetInput

/-- Settles O41: CODEGEN alone stores codes, each within the bounds, and error codes start at 1. -/
theorem stepKeepsTables : Obligations.StepKeepsTables :=
  fun _ _ h => ⟨codesOk_partsKeep.step h, registersOk_partsKeep.step h⟩

end Sys2Proof.Machine
end

section
/-! PROOFS. The reset state of R42 and the invariants of R33, R36 and R126: reset meets them, and every step keeps them. -/

namespace Sys2Proof.Machine

/-! ## Reset (R42, R250) -/

theorem resetValues_resetWith (p : Config.Params) : ResetValues (State.resetWith p) where
  arg0 := rfl
  result := rfl
  status := rfl
  treeValid := rfl
  root := rfl
  errlog := rfl
  rawLen := rfl
  arenaCount := rfl
  heapSize := rfl
  streams s := by cases s <;> rfl
  freq y := by simp [State.freqAt, State.resetWith]
  code y := State.codeAt_clearCode (State.resetWith p) y

/-- The reset input keeps only the host's side, of which R42 says nothing. -/
theorem resetValues_resetInput (st : State) : ResetValues st.resetInput :=
  { resetValues_resetWith st.params with streams := fun s => by cases s <;> rfl }

/-- Settles O59: both resets are `State.resetWith`, which is the table of R42. -/
theorem resetState : Obligations.ResetState :=
  ⟨resetValues_resetWith _, resetValues_resetWith,
    fun _ _ h => ⟨_, step_cons h, resetValues_resetInput _, rfl, rfl⟩⟩

/-- A closed stream meets R36 on a buffer of any size. -/
theorem Stream.closed_ok (size : Nat) : Stream.closed.Ok size where
  byte_le := Nat.zero_le _
  limit_le := Nat.zero_le _
  padded h := nomatch h
  entered h := nomatch h

theorem ResetValues.streamsOk {st : State} (h : ResetValues st) : StreamsOk st := fun s => by
  rw [h.streams s]
  exact Stream.closed_ok _

/-- An empty arena without a tree. -/
theorem ResetValues.arenaOk {st : State} (h : ResetValues st) : ArenaOk st :=
  (Forest.empty (congrArg Fin.val h.arenaCount)).arenaOk_noTree h.treeValid h.root

theorem ResetValues.heapOk {st : State} (h : ResetValues st) : HeapOk st :=
  HeapOk.empty (congrArg Fin.val h.heapSize)

theorem ResetValues.codesOk {st : State} (h : ResetValues st) : CodesOk st := CodesOk.cleared h.code

/-- Settles O60: R42 empties all that the invariants speak of. -/
theorem resetMeetsInvariants : Obligations.ResetMeetsInvariants :=
  have h : ResetValues State.reset := resetValues_resetWith _
  ⟨h.streamsOk, BuffersOk.resetWith _, h.arenaOk, h.heapOk, h.codesOk, ⟨by rw [h.errlog]; rfl, by decide⟩⟩

/-! ## The streams (R36) -/

theorem State.bufSize_congr {st t : State} (h : t.params = st.params) (sp : Space) : t.bufSize sp = st.bufSize sp := by
  unfold State.bufSize
  rw [h]

theorem StreamsOk.congr {st t : State} (h : StreamsOk st) (hb : ∀ s, t.bs s = st.bs s) (hp : t.params = st.params) :
    StreamsOk t := fun s => by
  rw [hb s, State.bufSize_congr hp]
  exact h s

/-- The host cannot write the stream registers (R22, R40). -/
@[simp] theorem bs_writeLoc (l : RegLoc) (v : Word) (st : State) (s : StreamSel) :
    (writeLoc l v st).bs s = st.bs s := by
  cases l <;> cases s <;> rfl

@[simp] theorem writeLoc_params (l : RegLoc) (v : Word) (st : State) : (writeLoc l v st).params = st.params := by
  cases l <;> rfl

@[simp] theorem State.bs_endOk (st : State) (v : Word) (s : StreamSel) : (st.endOk v).bs s = st.bs s :=
  State.bs_congr s (State.endOk_bsTree _ v) (State.endOk_bsPay _ v)

@[simp] theorem State.bs_endError (st : State) (k : ErrorKind) (s : StreamSel) : (st.endError k).bs s = st.bs s :=
  State.bs_congr s (State.endError_bsTree _ k) (State.endError_bsPay _ k)

theorem streamsOk_partsKeep : PartsKeep StreamsOk where
  host _ _ _ h := h.congr (fun s => State.bs_congr s rfl rfl) rfl
  body i h := body_keeps_stream i _ h
  endOk v h := h.congr (State.bs_endOk _ v) (State.endOk_params _ v)
  endError k h := h.congr (State.bs_endError _ k) (State.endError_params _ k)
  writeLoc l v h := h.congr (bs_writeLoc l v _) (writeLoc_params l v _)
  memWrite x a v h := h.congr (fun s => State.bs_memWrite _ s x a v) (State.memWrite_params _ x a v)
  reset _ := (resetValues_resetInput _).streamsOk

/-- Settles O26: only commands move the stream registers, and each command keeps R36 of both streams. -/
theorem stepKeepsStreams : Obligations.StepKeepsStreams := fun _ _ h hs => streamsOk_partsKeep.step hs h

/-! ## The tree and the heap (R33, R126) -/

/-- The arena, the heap, `ROOT` and `TREE_VALID` are as before. -/
structure TreeKept (st t : State) : Prop where
  arena      : t.arena = st.arena
  arenaCount : t.arenaCount = st.arenaCount
  heap       : t.heap = st.heap
  heapSize   : t.heapSize = st.heapSize
  root       : t.root = st.root
  treeValid  : t.treeValid = st.treeValid

theorem TreeKept.arenaOk {st t : State} (k : TreeKept st t) (h : ArenaOk st) : ArenaOk t :=
  h.congr k.arena k.arenaCount k.root k.treeValid

theorem TreeKept.heapOk {st t : State} (k : TreeKept st t) (h : HeapOk st) : HeapOk t :=
  h.congr k.arena k.arenaCount k.heap k.heapSize

/-- The host cannot write any of them (R39, R40). -/
theorem treeKept_writeLoc (l : RegLoc) (v : Word) (st : State) : TreeKept st (writeLoc l v st) := by
  cases l <;> exact ⟨rfl, rfl, rfl, rfl, rfl, rfl⟩

theorem treeKept_memWrite (x : Space) (a : Nat) (v : Byte) (st : State) : TreeKept st (st.memWrite x a v) := by
  constructor <;> simp

/-- An invariant of the tree and the heap alone is kept by every part but the commands' bodies. -/
theorem partsKeep_of_treeKept {P : State → Prop} (same : ∀ {st t : State}, TreeKept st t → P st → P t)
    (commands : ∀ (i : Instr) (st : State), P st → P (body i st).state)
    (start : ∀ {st : State}, ResetValues st → P st) : PartsKeep P where
  host _ _ _ := same ⟨rfl, rfl, rfl, rfl, rfl, rfl⟩
  body i := commands i _
  endOk _ := same ⟨rfl, rfl, rfl, rfl, rfl, rfl⟩
  endError _ := same ⟨rfl, rfl, rfl, rfl, rfl, rfl⟩
  writeLoc l v := same (treeKept_writeLoc l v _)
  memWrite x a v := same (treeKept_memWrite x a v _)
  reset _ := start (resetValues_resetInput _)

/-- Settles O30: CTX_RESET, BUILD and TREE_LOAD alone write the arena, and each leaves a forest or one tree. -/
theorem stepKeepsArena : Obligations.StepKeepsArena := fun _ _ h hs =>
  (partsKeep_of_treeKept TreeKept.arenaOk body_keeps_arena ResetValues.arenaOk).step hs h

/-- Settles O29: BUILD's pushes and pops keep the heap in order, CTX_RESET and TREE_LOAD leave it empty. -/
theorem stepKeepsHeap : Obligations.StepKeepsHeap := fun _ _ h hs =>
  (partsKeep_of_treeKept TreeKept.heapOk body_keeps_heap ResetValues.heapOk).step hs h

end Sys2Proof.Machine
end

section
/-! PROOFS. The register port: what a read returns and what a write does, index by index (spec/10_state.md R22 to R40). -/

namespace Sys2Proof.Machine

variable {st : State} {ts : List HostTxn} {idx : BitVec 12}

/-! ## Reads -/

theorem step_regRead (h : st.host = .regRead idx :: ts) :
    step st = .next (readLoc (regLoc idx) { st with host := ts }) := step_cons h

theorem regLoc_eq_lowLoc {n : Nat} (h : idx.toNat = n) (hn : n < 256) : regLoc idx = lowLoc n := by
  rw [regLoc_low (by omega), h]

theorem lowLoc_stream (s : StreamSel) :
    lowLoc (0x010 + 8 * s.toBit.toNat) = .bsMode s ∧ lowLoc (0x011 + 8 * s.toBit.toNat) = .bsByte s ∧
      lowLoc (0x012 + 8 * s.toBit.toNat) = .bsBit s ∧ lowLoc (0x013 + 8 * s.toBit.toNat) = .bsHold s ∧
      lowLoc (0x014 + 8 * s.toBit.toNat) = .bsLimit s := by
  cases s <;> exact ⟨rfl, rfl, rfl, rfl, rfl⟩

/-- The five registers of a stream (R22, R35). -/
theorem regLoc_stream (s : StreamSel) :
    (idx.toNat = 0x010 + 8 * s.toBit.toNat → regLoc idx = .bsMode s) ∧
      (idx.toNat = 0x011 + 8 * s.toBit.toNat → regLoc idx = .bsByte s) ∧
      (idx.toNat = 0x012 + 8 * s.toBit.toNat → regLoc idx = .bsBit s) ∧
      (idx.toNat = 0x013 + 8 * s.toBit.toNat → regLoc idx = .bsHold s) ∧
      (idx.toNat = 0x014 + 8 * s.toBit.toNat → regLoc idx = .bsLimit s) := by
  have hs : s.toBit.toNat ≤ 1 := Bool.toNat_le _
  obtain ⟨hmode, hbyte, hbit, hhold, hlimit⟩ := lowLoc_stream s
  refine ⟨fun e => ?_, fun e => ?_, fun e => ?_, fun e => ?_, fun e => ?_⟩ <;>
    rw [regLoc_eq_lowLoc e (by omega)] <;> assumption

/-- A register narrower than a word reads as its value. -/
theorem toNat_zeroExtend_word {w : Nat} (x : BitVec w) (hw : w ≤ 64) : (x.zeroExtend 64 : Word).toNat = x.toNat :=
  BitVec.toNat_setWidth_of_le hw

theorem toNat_ofNat_word {n : Nat} (h : n < 512) : (BitVec.ofNat 64 n).toNat = n := by
  rw [BitVec.toNat_ofNat, Nat.mod_eq_of_lt (by omega)]

/-- Settles O8: the index leads to its location, whose arm of `readLoc` gives the word. -/
theorem registerReads : Obligations.RegisterReads := by
  intro st ts idx h
  refine ⟨_, step_regRead h, readLoc_rest .., fun e => ?cmd, fun e => ?status, fun e => ?result, fun e => ?errlog,
    fun e => ?arg0, fun e => ?rawLen, fun e => ?root, fun e => ?arenaCount, fun e => ?heapSize, fun s => ?stream,
    fun y => ⟨fun e => ?freq, fun e => ?codePat, fun e => ?codeLen⟩⟩
  case stream =>
    obtain ⟨hmode, hbyte, hbit, hhold, hlimit⟩ := regLoc_stream (idx := idx) s
    refine ⟨fun e => ?_, fun e => ?_, fun e => ?_, fun e => ?_, fun e => ?_⟩
    · rw [hmode e]
      show (st.bs s).mode.bits.zeroExtend 64 = _
      cases (st.bs s).mode <;> rfl
    · rw [hbyte e]
      exact toNat_zeroExtend_word (st.bs s).byte (by decide)
    · rw [hbit e]
      exact toNat_zeroExtend_word (st.bs s).bit (by decide)
    · rw [hhold e]
      exact toNat_zeroExtend_word (st.bs s).hold (by decide)
    · rw [hlimit e]
      exact toNat_zeroExtend_word (st.bs s).limit (by decide)
  case freq => rw [regLoc_freq e]; rfl
  case codePat => rw [regLoc_codePat e]; rfl
  case codeLen => rw [regLoc_codeLen e]; exact toNat_zeroExtend_word (st.codeAt y).len (by decide)
  all_goals rw [regLoc_eq_lowLoc e (by decide)]
  case cmd | result | arg0 => rfl
  case status => exact statusWord_fields ..
  case errlog => exact errlogWord_fields _
  case rawLen => exact toNat_zeroExtend_word st.rawLen (by decide)
  case root => exact toNat_zeroExtend_word st.root (by decide)
  case arenaCount => exact toNat_ofNat_word st.arenaCount.isLt
  case heapSize => exact toNat_ofNat_word (Nat.lt_trans st.heapSize.isLt (by decide))

/-! ## Writes -/

theorem step_regWrite {v : Word} (h : st.host = .regWrite idx v :: ts) (hl : regLoc idx ≠ .cmd) :
    step st = .next (writeLoc (regLoc idx) v { st with host := ts }) := by
  rw [step_cons h, transact_regWrite hl]

/-- A mapped location that a write leaves as it is, or no location at all (R40). -/
def RegLoc.ignoresWrites : RegLoc → Bool
  | .cmd | .errlog | .arg0 | .rawLen | .freq _ => false
  | _ => true

/-- A write there changes nothing but the list of the host's transactions. -/
theorem step_regWrite_ignored {v : Word} (h : st.host = .regWrite idx v :: ts)
    (hl : (regLoc idx).ignoresWrites = true) : step st = .next { st with host := ts } := by
  have other : ∀ l : RegLoc, l.ignoresWrites = false → regLoc idx ≠ l := fun l hf e => by
    rw [e, hf] at hl
    cases hl
  rw [step_regWrite h (other _ rfl), writeLoc_other v _ (other _ rfl) (other _ rfl) (other _ rfl) fun y => other _ rfl]

/-- The registers below 0x100 that the host cannot write, and the indices there that name none (R22, R40). -/
theorem lowLoc_ignoresWrites {n : Nat} (hn : n < 0x100) (h : n = 0x001 ∨ n = 0x002 ∨ 0x006 ≤ n) :
    (lowLoc n).ignoresWrites = true := by
  have all : ∀ n : Fin 0x100, n.val = 0x001 ∨ n.val = 0x002 ∨ 0x006 ≤ n.val → (lowLoc n.val).ignoresWrites = true := by
    decide +kernel
  exact all ⟨n, hn⟩ h

theorem lowLoc_unmapped {n : Nat} (hn : n < 0x100)
    (h : (0x009 ≤ n ∧ n ≤ 0x00F) ∨ (0x015 ≤ n ∧ n ≤ 0x017) ∨ 0x01D ≤ n) : lowLoc n = .unmapped := by
  have all : ∀ n : Fin 0x100, (0x009 ≤ n.val ∧ n.val ≤ 0x00F) ∨ (0x015 ≤ n.val ∧ n.val ≤ 0x017) ∨ 0x01D ≤ n.val →
      lowLoc n.val = .unmapped := by decide +kernel
  exact all ⟨n, hn⟩ h

/-- From 0x200 on the host writes nothing: the code table, the windows, and nothing (R31, R39, R40). -/
theorem regLoc_ignoresWrites_high (h : 0x200 ≤ idx.toNat) : (regLoc idx).ignoresWrites = true := by
  have hb := regLoc_block idx
  unfold regLoc
  split
  · omega
  · omega
  all_goals rfl

theorem regLoc_ignoresWrites
    (h : idx.toNat = 0x001 ∨ idx.toNat = 0x002 ∨ (0x006 ≤ idx.toNat ∧ idx.toNat < 0x100) ∨ 0x200 ≤ idx.toNat) :
    (regLoc idx).ignoresWrites = true := by
  by_cases hh : 0x200 ≤ idx.toNat
  · exact regLoc_ignoresWrites_high hh
  · rw [regLoc_low (by omega)]
    exact lowLoc_ignoresWrites (by omega) (by omega)

theorem regLoc_unmapped (h : (0x009 ≤ idx.toNat ∧ idx.toNat ≤ 0x00F) ∨ (0x015 ≤ idx.toNat ∧ idx.toNat ≤ 0x017) ∨
    (0x01D ≤ idx.toNat ∧ idx.toNat ≤ 0x0FF) ∨ 0x900 ≤ idx.toNat) : regLoc idx = .unmapped := by
  by_cases hh : 0x900 ≤ idx.toNat
  · exact regLoc_above hh
  · rw [regLoc_low (by omega)]
    exact lowLoc_unmapped (by omega) (by omega)

/-- Settles O12: none of these indices leads to a location that a write changes, and the unlisted ones lead to none. -/
theorem oddAccesses : Obligations.OddAccesses := by
  intro st ts idx v
  refine ⟨fun hi h => step_regWrite_ignored h (regLoc_ignoresWrites (by omega)), fun hi => ⟨fun h => ?_, fun h => ?_⟩⟩
  · rw [step_regRead h, regLoc_unmapped (by omega)]
    rfl
  · exact step_regWrite_ignored h (by rw [regLoc_unmapped (by omega)]; rfl)

/-- Write one to clear, bit by bit (R26). -/
theorem getLsbD_clearErrors (log : BitVec 8) (v : Word) {k : Nat} (h1 : 1 ≤ k) (h7 : k ≤ 7) :
    (clearErrors log v).getLsbD k = (log.getLsbD k && !v.getLsbD k) := by
  have hmask : ∀ j : Fin 8, 1 ≤ j.val → errlogMask.getLsbD j.val = true := by decide
  have hk : k < 8 := by omega
  rw [clearErrors, BitVec.getLsbD_and, BitVec.getLsbD_not, BitVec.getLsbD_and, BitVec.getLsbD_extractLsb',
    hmask ⟨k, hk⟩ h1, Nat.zero_add]
  simp [hk]

theorem step_write_errlog {v : Word} (h : st.host = .regWrite 0x003 v :: ts) :
    step st = .next { st with host := ts, errlog := clearErrors st.errlog v } := step_regWrite h (by decide)

/-- Settles O10: each of the four writable locations has its own arm of `writeLoc`. -/
theorem registerWrites : Obligations.RegisterWrites := by
  refine fun st ts v => ⟨fun h => ?errlog, fun h => ?arg0, fun h => ?rawLen, fun y idx e h => ?freq⟩
  case errlog => exact ⟨_, step_write_errlog h, rfl, fun k h1 h7 => getLsbD_clearErrors _ v h1 h7⟩
  case arg0 | rawLen => exact step_regWrite h (by decide)
  case freq =>
    have hl := regLoc_freq e
    refine ⟨_, step_regWrite h (by rw [hl]; exact nofun), ?_, fun z => ?_⟩
    · rw [hl]; rfl
    · rw [hl]; exact freqAt_setFreq _ y z v

/-! ## The read windows (R39) -/

/-- A 9-bit window offset is a slot index. -/
theorem toNat_lt_of_zeroExtend {j : BitVec 9} {i : NodeIdx} {n : Nat} (e : j.zeroExtend 10 = i) (h : i.toNat < n) :
    j.toNat < n := by
  rwa [← e, BitVec.zeroExtend, BitVec.toNat_setWidth_of_le (by decide)] at h

theorem reply_nodeFreq_live {i : NodeIdx} (hi : i.toNat < st.arenaCount.val) (h : idx.toNat = 0x400 + i.toNat) :
    (readLoc (regLoc idx) st).reply = (st.slot i).freq := by
  obtain ⟨hl, hj⟩ := regLoc_nodeFreq (Nat.lt_trans hi st.arenaCount.isLt) h
  rw [hl, readLoc, if_pos (toNat_lt_of_zeroExtend hj hi), hj]
  rfl

theorem reply_nodeInfo_live {i : NodeIdx} (hi : i.toNat < st.arenaCount.val) (h : idx.toNat = 0x600 + i.toNat) :
    (readLoc (regLoc idx) st).reply = (st.slot i).info := by
  obtain ⟨hl, hj⟩ := regLoc_nodeInfo (Nat.lt_trans hi st.arenaCount.isLt) h
  rw [hl, readLoc, if_pos (toNat_lt_of_zeroExtend hj hi), hj]
  rfl

theorem reply_heapEnt_live {p : Nat} (hp : p < st.heapSize.val) (h : idx.toNat = 0x800 + p) :
    (readLoc (regLoc idx) st).reply = (heapAt st.heap p).zeroExtend 64 := by
  obtain ⟨hl, hj⟩ := regLoc_heapEnt (by omega) h
  rw [hl, readLoc, hj, if_pos hp]
  rfl

/-- Settles O9: a window index leads to its slot or entry, and no window takes writes. -/
theorem readWindows : Obligations.ReadWindows := by
  intro st ts idx hlo hhi
  refine ⟨fun h => ⟨_, step_regRead h, readLoc_rest .., fun i hi => ⟨fun e => ?freq, fun e => ?info⟩, fun p hp e => ?heap⟩,
    fun v h => step_regWrite_ignored h (regLoc_ignoresWrites_high (by omega))⟩
  case freq => exact reply_nodeFreq_live (st := { st with host := ts }) hi e
  case info =>
    rw [reply_nodeInfo_live (st := { st with host := ts }) hi e]
    exact Node.info_fields _
  case heap => exact reply_heapEnt_live (st := { st with host := ts }) hp e

/-! ## `ERRLOG` (R26) -/

theorem getLsbD_logError (log : BitVec 8) (k : ErrorKind) {j : Nat} (hj : j ≤ 7) :
    (logError log k).getLsbD j = (log.getLsbD j || decide (k.code.toNat = j)) := by
  have hbit : ∀ i : Fin 8, k.logBit.getLsbD i.val = decide (k.code.toNat = i.val) := by cases k <;> decide
  rw [logError, BitVec.getLsbD_or, hbit ⟨j, by omega⟩]

/-- The epilogue alone writes `ERRLOG`: it sets the bit of a non-zero code (R224). -/
theorem exec_errlog {i : Instr} {t : State} (h : exec i st = .next t) {j : Nat} (h1 : 1 ≤ j) (h7 : j ≤ 7) :
    t.errlog.getLsbD j = (st.errlog.getLsbD j || decide (t.status.code.toNat = j)) := by
  obtain ⟨u, hu, ⟨ht, -⟩ | ⟨k, ht, -⟩⟩ := exec_next h
  all_goals
    have kept : u.errlog = st.errlog := by rw [hu]; exact (body_kept i st).errlog
    rw [ht]
  · have hz : ResultCode.ok.code.toNat ≠ j := fun e => absurd (e ▸ h1) (by decide)
    rw [State.endOk_errlog, State.endOk_status, kept, decide_eq_false hz, Bool.or_false]
  · rw [State.endError_errlog, State.endError_status, kept]
    exact getLsbD_logError _ k h7

/-- Settles O11: the epilogue sets, the host's write clears, the read masks bit 0 and the upper bits. -/
theorem errlogBits : Obligations.ErrlogBits := by
  refine ⟨fun i st t h k h1 h7 => exec_errlog h h1 h7, fun st ts h => ?read, fun st ts v h => ?write, fun k _ _ => ?reset⟩
  case read =>
    obtain ⟨hbits, hzero, hhigh⟩ := errlogWord_fields st.errlog
    exact ⟨_, step_regRead h, hzero, hhigh, hbits⟩
  case write => exact ⟨_, step_write_errlog h, fun k h1 h7 => getLsbD_clearErrors _ v h1 h7⟩
  case reset => exact BitVec.getLsbD_zero

end Sys2Proof.Machine
end

section
/-! PROOFS. A write to `CMD`: the encoder's word reaches the decoder whole, and its command runs in the one step
(spec/10_state.md R20 and R23, spec/30_encoding.md R80 to R85). -/

namespace Sys2Proof

/-! ## The encoder's words -/

theorem getLsbD_packWord (opc : BitVec 8) (s : Bool) (n : BitVec 7) (j : Nat) :
    (packWord opc s n).getLsbD j =
      if j < 8 then opc.getLsbD j else if j = 8 then s else if j < 16 then false else n.getLsbD (j - 16) := by
  simp only [packWord, BitVec.getLsbD_append, BitVec.getLsbD_ofBool, BitVec.getLsbD_zero]
  split_ifs <;> grind

@[simp] theorem fieldOPC_packWord (opc : BitVec 8) (s : Bool) (n : BitVec 7) : fieldOPC (packWord opc s n) = opc := by
  apply BitVec.eq_of_getLsbD_eq
  intro j hj
  simp [fieldOPC, getLsbD_packWord, hj]

@[simp] theorem fieldS_packWord (opc : BitVec 8) (s : Bool) (n : BitVec 7) : fieldS (packWord opc s n) = s :=
  getLsbD_packWord opc s n 8

@[simp] theorem fieldN_packWord (opc : BitVec 8) (s : Bool) (n : BitVec 7) : fieldN (packWord opc s n) = n := by
  apply BitVec.eq_of_getLsbD_eq
  intro j hj
  rw [fieldN, BitVec.getLsbD_extractLsb', getLsbD_packWord, if_neg (by omega), if_neg (by omega), if_neg (by omega),
    Nat.add_sub_cancel_left, decide_eq_true hj, Bool.true_and]

@[simp] theorem fieldZeroLow_packWord (opc : BitVec 8) (s : Bool) (n : BitVec 7) :
    fieldZeroLow (packWord opc s n) = 0 := by
  apply BitVec.eq_of_getLsbD_eq
  intro j hj
  rw [fieldZeroLow, BitVec.getLsbD_extractLsb', getLsbD_packWord, if_neg (by omega), if_neg (by omega),
    if_pos (by omega), Bool.and_false]
  exact BitVec.getLsbD_zero.symm

@[simp] theorem fieldZeroHigh_packWord (opc : BitVec 8) (s : Bool) (n : BitVec 7) :
    fieldZeroHigh (packWord opc s n) = 0 := by
  apply BitVec.eq_of_getLsbD_eq
  intro j hj
  rw [fieldZeroHigh, BitVec.getLsbD_extractLsb', getLsbD_packWord, if_neg (by omega), if_neg (by omega),
    if_neg (by omega), BitVec.getLsbD_of_ge _ _ (by omega), Bool.and_false]
  exact BitVec.getLsbD_zero.symm

/-- Steps 2 and 3 of R85 pass a packed word whose opcode is in use. -/
theorem decodeWord_packWord {opc : BitVec 8} {sh : Shape} (h : shapeOf opc = some sh) (s : Bool) (n : BitVec 7) :
    decodeWord (packWord opc s n) = sh.decode (packWord opc s n) := by
  simp [decodeWord, h]

theorem decodeWord_plain {opc : BitVec 8} {i : Instr} (h : shapeOf opc = some (.plain i)) :
    decodeWord (packWord opc false 0) = .command i := by
  simp [decodeWord_packWord h, Shape.decode]

theorem decodeWord_stream {opc : BitVec 8} {mk : StreamSel → Instr} (h : shapeOf opc = some (.stream mk))
    (s : StreamSel) : decodeWord (packWord opc s.toBit 0) = .command (mk s) := by
  simp [decodeWord_packWord h, Shape.decode]

theorem decodeWord_counted {opc : BitVec 8} {mk : StreamSel → BitVec 7 → Instr} (h : shapeOf opc = some (.counted mk))
    (s : StreamSel) {n : BitVec 7} (hn : countOk n = true) :
    decodeWord (packWord opc s.toBit n) = .command (mk s n) := by
  simp [decodeWord_packWord h, Shape.decode, hn]

/-- Decoding undoes encoding (R80, R83, R85). -/
theorem decodeWord_encode {i : Instr} (h : i.wf = true) : decodeWord (encode i) = .command i := by
  cases i
  case writeBits s n | readBits s n => exact decodeWord_counted rfl s h
  case bsOpenW s | bsOpenR s | writeBit s | finalize s | readBit s => exact decodeWord_stream rfl s
  all_goals exact decodeWord_plain rfl

theorem decode_commandValue {i : Instr} (h : i.wf = true) : decode (commandValue i) = .command i := by
  unfold decode commandValue
  rw [upper_of_zeroExtend, lower_of_zeroExtend, decodeWord_encode h]
  rfl

theorem decode_upperHalf {v : Word} (h : v.extractLsb' 32 32 ≠ 0) : decode v = .illegal .upperHalf :=
  if_pos (bne_iff_ne.2 h)

/-- The value of a command's 32-bit word in the opcode table is what the host writes to issue it. -/
theorem tableValue_encode (i : Instr) : tableValue 32 (encode i).toNat = commandValue i := by
  unfold tableValue commandValue
  rw [Nat.mod_eq_of_lt (encode i).isLt]
  exact BitVec.ofNat_toNat 64 (encode i)

end Sys2Proof

namespace Sys2Proof.Machine

/-! ## The step of a write to `CMD` (R23) -/

theorem step_command {st : State} {ts : List HostTxn} {v : Word} (h : st.host = .regWrite 0x000 v :: ts) :
    step st = issue v { st with host := ts } := step_cons h

theorem issue_command {v : Word} {i : Instr} (h : decode v = .command i) (st : State) : issue v st = exec i st := by
  unfold issue
  rw [h]

theorem issue_illegal {v : Word} {e : DecodeError} (h : decode v = .illegal e) (st : State) :
    EndsIn (issue v st) .illegalCommand st := by
  unfold issue
  rw [h]
  exact ⟨_, _, rfl⟩

/-- Settles O6: `issue` decodes the value and runs what it stands for. -/
theorem stepRunsDecodedCommand : Obligations.StepRunsDecodedCommand := by
  refine fun st ts v => ⟨fun i h hd => ?command, fun h hu => ?upperHalf, fun h => step_cons h, fun i hw => ?fetch⟩
  case command => rw [step_command h, issue_command hd]
  case upperHalf =>
    rw [step_command h]
    exact issue_illegal (decode_upperHalf hu) _
  case fetch =>
    rw [State.withFetchWord, tableValue_encode, step_command (ts := st.host) rfl, issue_command (decode_commandValue hw)]
    rfl

end Sys2Proof.Machine
end

section
/-! PROOFS. Open readers and the latch (spec/10_state.md R37, spec/20_memory.md R72). -/

namespace Sys2Proof.Machine

/-! ## Reading commands -/

/-- Settles O14: what `Latched` says of a reading body, seen through the epilogue, which writes no stream register. -/
theorem latchedByte : Obligations.LatchedByte := by
  intro i st t s hok hm hr h
  obtain ⟨u, hu, hend⟩ := exec_next h
  have hl : Latched s st u := by
    rw [hu]
    exact body_readOn hr st ⟨hm, hok s⟩
  have hbs : t.bs s = u.bs s := by
    obtain ⟨ht, -⟩ | ⟨k, ht, -⟩ := hend
    · rw [ht, State.bs_endOk]
    · rw [ht, State.bs_endError]
  rw [hbs]
  exact ⟨hl.reader.mode, hl.limit, hl.pos, hl.limit ▸ hl.reader.pos_le, hl.hold⟩

/-! ## Host writes under a reader -/

theorem spaceOf_spaceSel (x : Space) : spaceOf (Script.spaceSel x) = some x := by
  cases x <;> rfl

theorem bufWrite_spaceSel (x : Space) (a : BitVec 32) (v : Byte) (st : State) :
    bufWrite (Script.spaceSel x) a v st = st.memWrite x a.toNat v := by
  unfold bufWrite
  rw [spaceOf_spaceSel]

theorem bufBit_memWrite {st : State} {sp : Space} {a : Nat} (hw : (st.buf sp).wf = true) (ha : a < st.bufSize sp)
    (v : Byte) (n : Nat) :
    (st.memWrite sp a v).bufBit sp n = if n / 8 = a then v.getLsbD (7 - n % 8) else st.bufBit sp n := by
  unfold State.bufBit
  split
  · next h => rw [h, State.memRead_memWrite_same hw ha]
  · next h => rw [State.memRead_memWrite_ne (.inr h)]

/-- A reader sees a byte the host writes unless it has entered it (R37, R72). -/
theorem readerBit_memWrite {st : State} {s : StreamSel} {a : Nat} (hw : (st.buf (streamSpace s)).wf = true)
    (ha : a < st.bufSize (streamSpace s)) (v : Byte) (n : Nat) :
    (st.memWrite (streamSpace s) a v).readerBit s n =
      if n / 8 = a ∧ ¬ (n / 8 = (st.bs s).byte.toNat ∧ (st.bs s).bit ≠ 0) then v.getLsbD (7 - n % 8)
      else st.readerBit s n := by
  unfold State.readerBit
  rw [State.bs_memWrite, bufBit_memWrite hw ha]
  by_cases hentered : n / 8 = (st.bs s).byte.toNat ∧ (st.bs s).bit ≠ 0
  · rw [if_pos hentered, if_neg fun h => h.2 hentered, if_pos hentered]
  · rw [if_neg hentered, if_neg hentered]
    exact if_congr (and_iff_left hentered).symm rfl rfl

/-- Settles O13: the host's write is `State.memWrite`, which moves no stream register. -/
theorem readerLatch : Obligations.ReaderLatch := by
  intro st ts s a v hok _ ha h
  refine ⟨_, step_cons h, ?_⟩
  rw [bufWrite_spaceSel]
  exact ⟨State.bs_memWrite _ s _ _ v, readerBit_memWrite (st := { st with host := ts }) (hok (streamSpace s)).1 ha v⟩

end Sys2Proof.Machine
end

section
/-! PROOFS. The parts of the block that each command leaves alone (spec/10_state.md R21, R30 and R31, spec/20_memory.md R61),
and that no command looks at `STATUS.CODE`, `ERRLOG` or `RESULT` (spec/10_state.md R43). -/

namespace Sys2Proof.Machine

/-! ## The parts a command can change -/

/-- The parts of the block that commands write besides the epilogue's registers: the tables, the arena with the heap, `ROOT`
and `TREE_VALID`, `RAW_LEN`, a stream's registers, a buffer's bytes. -/
inductive Part where
  | freq
  | code
  | tree
  | rawLen
  | stream (s : StreamSel)
  | bytes (x : Space)

/-- The part is in `t` as it is in `st`. -/
def Part.Same : Part → State → State → Prop
  | .freq, st, t     => t.freq = st.freq
  | .code, st, t     => t.code = st.code
  | .tree, st, t     => t.arena = st.arena ∧ t.arenaCount = st.arenaCount ∧ t.heap = st.heap ∧ t.heapSize = st.heapSize ∧
      t.root = st.root ∧ t.treeValid = st.treeValid
  | .rawLen, st, t   => t.rawLen = st.rawLen
  | .stream s, st, t => t.bs s = st.bs s
  | .bytes x, st, t  => ∀ a, t.memRead x a = st.memRead x a

/-- The parts a command writes. -/
def partsOf : Instr → List Part
  | .nop           => []
  | .ctxReset      => [.freq, .code, .tree, .rawLen, .stream .tree, .stream .pay]
  | .bsOpenW s     => [.stream s]
  | .bsOpenR s     => [.stream s]
  | .writeBit s    => [.stream s, .bytes (streamSpace s)]
  | .writeBits s _ => [.stream s, .bytes (streamSpace s)]
  | .finalize s    => [.stream s, .bytes (streamSpace s)]
  | .readBit s     => [.stream s]
  | .readBits s _  => [.stream s]
  | .freqClear     => [.freq]
  | .freqCount     => [.freq]
  | .build         => [.tree]
  | .codegen       => [.code]
  | .treeSave      => [.stream .tree, .bytes .tree]
  | .treeLoad      => [.stream .tree, .tree]
  | .encode        => [.stream .pay, .bytes .pay]
  | .decode        => [.stream .pay, .bytes .raw, .rawLen]

section
variable {st t : State} {p : Part} {s : StreamSel}

/-- Once `p` is known this also proves, by computation, `p.Same st` of `st` with fields updated that are not of `p`. -/
theorem Part.Same.refl (p : Part) (st : State) : p.Same st st := by
  cases p
  case tree => exact ⟨rfl, rfl, rfl, rfl, rfl, rfl⟩
  case bytes => exact fun _ => rfl
  all_goals rfl

@[simp] theorem State.bs_setBuf (st : State) (x : Space) (m : Memory) (s : StreamSel) :
    (st.setBuf x m).bs s = st.bs s :=
  State.bs_congr s (State.setBuf_bsTree st x m) (State.setBuf_bsPay st x m)

theorem OnlyWriter.bs_ne (h : OnlyWriter s st t) {r : StreamSel} (hr : r ≠ s) : t.bs r = st.bs r := by
  unfold OnlyWriter at h
  rw [h, State.bs_setBuf, State.bs_setBs_ne _ _ hr]

theorem OnlyWriter.same (h : OnlyWriter s st t) (hp : p ∉ [.stream s, .bytes (streamSpace s)]) : p.Same st t := by
  have k := h.tables
  cases p with
  | freq => exact k.freq
  | code => exact k.code
  | tree => exact ⟨k.arena, k.arenaCount, k.heap, k.heapSize, k.root, k.treeValid⟩
  | rawLen => exact k.rawLen
  | stream r => exact h.bs_ne fun e => hp (by simp [e])
  | bytes x => exact h.memRead_ne fun e => hp (by simp [e])

theorem OnlyStream.same (h : OnlyStream s st t) (hp : p ∉ [.stream s]) : p.Same st t := by
  cases p
  case bytes x => exact h.memRead x
  case stream r => exact h.writer.same (by simpa using hp)
  all_goals exact h.writer.same (by simp)

theorem OnlyFreq.same (h : OnlyFreq st t) (hp : p ∉ [.freq]) : p.Same st t := by
  unfold OnlyFreq at h
  rw [h]
  have same := Part.Same.refl p st
  cases p
  case freq => simp at hp
  all_goals exact same

theorem OnlyCode.same (h : OnlyCode st t) (hp : p ∉ [.code]) : p.Same st t := by
  unfold OnlyCode at h
  rw [h]
  have same := Part.Same.refl p st
  cases p
  case code => simp at hp
  all_goals exact same

theorem OnlyTree.same (h : OnlyTree st t) (hp : p ∉ [.tree]) : p.Same st t := by
  unfold OnlyTree at h
  rw [h]
  have same := Part.Same.refl p st
  cases p
  case tree => simp at hp
  all_goals exact same

theorem OnlyLoad.same (h : OnlyLoad st t) (hp : p ∉ [.stream .tree, .tree]) : p.Same st t := by
  unfold OnlyLoad at h
  rw [h]
  have same := Part.Same.refl p st
  rcases p with - | - | - | - | (- | -) | x
  case tree => simp at hp
  case stream.tree => simp at hp
  all_goals exact same

theorem OnlyDecode.same (h : OnlyDecode st t) (hp : p ∉ [.stream .pay, .bytes .raw, .rawLen]) : p.Same st t := by
  unfold OnlyDecode at h
  rw [h]
  have same := Part.Same.refl p st
  rcases p with - | - | - | - | (- | -) | (- | - | -)
  case rawLen => simp at hp
  case stream.pay => simp at hp
  case bytes.raw => simp at hp
  all_goals exact same

/-- CTX_RESET keeps the buffers (R211). -/
theorem freshContext_same (hp : p ∉ partsOf .ctxReset) : p.Same st st.freshContext := by
  rcases p with - | - | - | - | (- | -) | x
  case bytes => exact .refl (.bytes x) st
  all_goals simp [partsOf] at hp

theorem touches_same {i : Instr} (h : touches i st t) (hp : p ∉ partsOf i) : p.Same st t := by
  cases i
  case nop =>
    rw [show t = st from h]
    exact .refl p st
  case ctxReset =>
    rw [show t = st.freshContext from h]
    exact freshContext_same hp
  case writeBit | writeBits | finalize | treeSave | encode => exact OnlyWriter.same h hp
  case bsOpenW | bsOpenR | readBit | readBits => exact OnlyStream.same h hp
  case freqClear | freqCount => exact OnlyFreq.same h hp
  case build => exact OnlyTree.same h hp
  case codegen => exact OnlyCode.same h hp
  case treeLoad => exact OnlyLoad.same h hp
  case decode => exact OnlyDecode.same h hp

/-- The epilogue writes none of the parts, so a command changes only those its body does. -/
theorem exec_same {i : Instr} (h : exec i st = .next t) (hp : p ∉ partsOf i) : p.Same st t := by
  obtain ⟨u, hu, hend⟩ := exec_next h
  have hs : p.Same st u := by
    rw [hu]
    exact touches_same (body_touches i st) hp
  obtain ⟨ht, -⟩ | ⟨k, ht, -⟩ := hend <;> rw [ht] <;> cases p <;> exact hs

/-- No command changes its operand, the buffer sizes, what the host has still to do, or what it has read. -/
theorem exec_kept {i : Instr} (h : exec i st = .next t) :
    t.arg0 = st.arg0 ∧ t.params = st.params ∧ t.host = st.host ∧ t.reply = st.reply := by
  obtain ⟨u, hu, hend⟩ := exec_next h
  have k : Kept st u := by
    rw [hu]
    exact body_kept i st
  obtain ⟨ht, -⟩ | ⟨e, ht, -⟩ := hend <;> rw [ht] <;> exact ⟨k.arg0, k.params, k.host, k.reply⟩

end

/-! ## Which commands write a part -/

theorem freq_mem_partsOf (i : Instr) : .freq ∈ partsOf i ↔ i ∈ [.ctxReset, .freqClear, .freqCount] := by
  cases i <;> simp [partsOf]

theorem code_mem_partsOf (i : Instr) : .code ∈ partsOf i ↔ i ∈ [.ctxReset, .codegen] := by
  cases i <;> simp [partsOf]

theorem tree_mem_partsOf (i : Instr) : .tree ∈ partsOf i ↔ i ∈ [.ctxReset, .build, .treeLoad] := by
  cases i <;> simp [partsOf]

theorem rawLen_mem_partsOf (i : Instr) : .rawLen ∈ partsOf i ↔ i ∈ [.ctxReset, .decode] := by
  cases i <;> simp [partsOf]

theorem stream_mem_partsOf (i : Instr) (s : StreamSel) : .stream s ∈ partsOf i ↔ usesStream i s = true := by
  cases i <;> cases s <;> simp [partsOf, usesStream, eq_comm]

theorem streamSpace_inj {r s : StreamSel} : streamSpace r = streamSpace s ↔ r = s := by
  cases r <;> cases s <;> decide

theorem raw_ne_streamSpace (s : StreamSel) : Space.raw ≠ streamSpace s := by
  cases s <;> exact nofun

theorem bytes_mem_partsOf (i : Instr) (s : StreamSel) :
    .bytes (streamSpace s) ∈ partsOf i ↔ writesStream i s = true := by
  cases i
  case treeSave | encode | decode => cases s <;> simp [partsOf, writesStream, streamSpace]
  all_goals simp [partsOf, writesStream, streamSpace_inj, eq_comm]

theorem raw_mem_partsOf (i : Instr) : .bytes .raw ∈ partsOf i ↔ i = .decode := by
  cases i <;> simp [partsOf, raw_ne_streamSpace]

/-- Settles O56: each clause names a part, and `partsOf` lists the commands that write it. -/
theorem commandFootprint : Obligations.CommandFootprint := by
  intro i st t h
  obtain ⟨harg0, hparams, hhost, hreply⟩ := exec_kept h
  have same : ∀ (p : Part) {q : Prop}, (p ∈ partsOf i ↔ q) → ¬ q → p.Same st t := fun p q hq hn =>
    exec_same h (mt hq.1 hn)
  exact ⟨harg0, hparams, hhost, hreply, same .freq (freq_mem_partsOf i), same .code (code_mem_partsOf i),
    same .tree (tree_mem_partsOf i), same .rawLen (rawLen_mem_partsOf i),
    fun s hs => same (.stream s) (stream_mem_partsOf i s) (by simp [hs]),
    fun s hs => same (.bytes (streamSpace s)) (bytes_mem_partsOf i s) (by simp [hs]),
    same (.bytes .raw) (raw_mem_partsOf i)⟩

/-! ## What no command looks at (R43, R226) -/

theorem sameOperand_refl (i : Instr) (v : Word) : sameOperand i v v := by
  cases i
  case writeBits => exact fun _ _ => rfl
  case writeBit | bsOpenW | bsOpenR | decode => rfl
  all_goals trivial

/-- The fields set aside, with other values of the three. -/
def State.asideWith (st : State) (c : ResultCode) (e : BitVec 8) (r : Word) : Side :=
  { st.aside with status := c, errlog := e, result := r }

/-- A body changes none of the fields set aside, so what it leaves differs in the three alone. -/
theorem side_of_kept {st u : State} (k : Kept st u) (c : ResultCode) (e : BitVec 8) (r : Word) :
    u.side (st.asideWith c e r) = { u with status := c, errlog := e, result := r } := by
  unfold State.side State.asideWith State.aside
  rw [← k.arg0, ← k.host, ← k.reply, ← k.freeIdx]

/-- Settles O57: the bodies do not look at the three fields (`body_side`), and the epilogue only adds to `ERRLOG`. -/
theorem statusDoesNotSteer : Obligations.StatusDoesNotSteer := by
  intro i st c e r
  have hbody : body i { st with status := c, errlog := e, result := r } = (body i st).side (st.asideWith c e r) :=
    body_side (x := st.asideWith c e r) (sameOperand_refl i st.arg0)
  have k := body_kept i st
  rw [exec_eq_body, exec_eq_body, hbody]
  cases hb : body i st with
  | ok v u =>
    rw [hb, Result.state_ok] at k
    rw [Result.side_ok, side_of_kept k]
    exact ⟨_, _, rfl, rfl, rfl, rfl, fun _ => rfl⟩
  | raised f u =>
    rw [hb, Result.state_raised] at k
    rw [Result.side_raised, side_of_kept k]
    exact ⟨_, _, rfl, rfl, rfl, rfl, nofun⟩

end Sys2Proof.Machine
end

section
/-! PROOFS. The buffers: every step keeps their form and sizes, what the buffer port does, and which bytes a command can
change (spec/20_memory.md R60, R61 and R69). -/

namespace Sys2Proof.Machine

variable {st t : State} {ts : List HostTxn} {sp : BitVec 2} {x : Space}

/-! ## The form of the buffers (R60, R69) -/

/-- Only the buffer port writes a buffer from outside (R22, R40). -/
@[simp] theorem buf_writeLoc (l : RegLoc) (v : Word) (st : State) (x : Space) :
    (writeLoc l v st).buf x = st.buf x := by
  cases l <;> cases x <;> rfl

@[simp] theorem State.buf_endOk (st : State) (v : Word) (x : Space) : (st.endOk v).buf x = st.buf x := rfl

@[simp] theorem State.buf_endError (st : State) (k : ErrorKind) (x : Space) : (st.endError k).buf x = st.buf x := rfl

theorem buffersOk_partsKeep : PartsKeep BuffersOk where
  host _ _ _ h := h.congr (fun _ => rfl) rfl
  body i h := body_keeps_buffers i _ h
  endOk v h := h.congr (State.buf_endOk _ v) (State.endOk_params _ v)
  endError k h := h.congr (State.buf_endError _ k) (State.endError_params _ k)
  writeLoc l v h := h.congr (buf_writeLoc l v _) (writeLoc_params l v _)
  memWrite x a v h := h.memWrite x a v
  reset {st} _ := (BuffersOk.resetWith st.params).congr (fun _ => rfl) rfl

/-- Settles O17: a command or the host changes a buffer only by `State.memWrite`, which stores below the size and keeps the
canonical form, and reset empties all three. -/
theorem stepKeepsBuffers : Obligations.StepKeepsBuffers := fun _ _ h hs => buffersOk_partsKeep.step hs h

/-! ## The buffer port (R60) -/

theorem step_bufRead {a : BitVec 32} (h : st.host = .bufRead sp a :: ts) :
    step st = .next (bufRead sp a { st with host := ts }) := step_cons h

theorem step_bufWrite {a : BitVec 32} {v : Byte} (h : st.host = .bufWrite sp a v :: ts) :
    step st = .next (bufWrite sp a v { st with host := ts }) := step_cons h

theorem bufRead_spaceSel (x : Space) (a : BitVec 32) (st : State) :
    bufRead (Script.spaceSel x) a st = st.answer ((st.memRead x a.toNat).zeroExtend 64) := by
  unfold bufRead
  rw [spaceOf_spaceSel]

theorem eq_spaceSel_of_spaceOf (h : spaceOf sp = some x) : sp = Script.spaceSel x := by
  revert sp
  cases x <;> decide

theorem State.memRead_of_size_le {a : Nat} (h : st.bufSize x ≤ a) : st.memRead x a = 0 :=
  if_neg (Nat.not_lt.2 h)

theorem State.memWrite_of_size_le {a : Nat} (h : st.bufSize x ≤ a) (v : Byte) : st.memWrite x a v = st :=
  if_neg (Nat.not_lt.2 h)

/-- A read where there is no byte: at or above the size, or of no space. -/
theorem bufRead_outside {a : BitVec 32} (h : ∀ x, sp = Script.spaceSel x → st.bufSize x ≤ a.toNat) :
    bufRead sp a st = st.answer 0 := by
  unfold bufRead
  split
  · next x hx =>
    rw [State.memRead_of_size_le (h x (eq_spaceSel_of_spaceOf hx))]
    rfl
  · rfl

/-- A write where there is no byte. -/
theorem bufWrite_outside {a : BitVec 32} (h : ∀ x, sp = Script.spaceSel x → st.bufSize x ≤ a.toNat) (v : Byte) :
    bufWrite sp a v st = st := by
  unfold bufWrite
  split
  · next x hx => exact State.memWrite_of_size_le (h x (eq_spaceSel_of_spaceOf hx)) v
  · rfl

theorem bytesKept_memWrite (x : Space) (a : Nat) (v : Byte) (st : State) :
    BytesKept x a (a + 1) st (st.memWrite x a v) := by
  intro y b hb
  refine State.memRead_memWrite_ne (not_and_or.1 ?_)
  rintro ⟨rfl, rfl⟩
  exact hb ⟨rfl, Nat.le_refl b, Nat.lt_succ_self b⟩

/-- Settles O15: with a byte at the address the port is `State.memRead` and `State.memWrite`; without one it does nothing. -/
theorem bufferPort : Obligations.BufferPort := by
  intro st ts sp a v hok
  refine ⟨fun x hsp ha => ?inside, fun hout => ⟨fun h => ?readOutside, fun h => ?writeOutside⟩⟩
  case inside =>
    subst hsp
    refine ⟨fun h => ?_, fun h => ⟨_, step_bufWrite h, ?_⟩⟩
    · rw [step_bufRead h, bufRead_spaceSel]
      rfl
    · rw [bufWrite_spaceSel]
      exact ⟨setBuf_memWrite .., State.memRead_memWrite_same (st := { st with host := ts }) (hok x).1 ha,
        bytesKept_memWrite x a.toNat v { st with host := ts }⟩
  case readOutside =>
    rw [step_bufRead h, bufRead_outside (st := { st with host := ts }) hout]
    rfl
  case writeOutside => rw [step_bufWrite h, bufWrite_outside (st := { st with host := ts }) hout]

/-! ## The bytes a command stores (R61, R69) -/

/-- A command in its mode check does to its writer what it does past it; in another mode it changes nothing. -/
theorem writerFrame_inMode {s : StreamSel} {α : Type} {f : State → Result α}
    (ho : (st.bs s).Ok (st.bufSize (streamSpace s))) (hf : WriterKeeps s st (f st).state) :
    WriterFrame s st (inMode s .writer st f).state :=
  inMode_keeps (P := WriterFrame s) (.refl s) fun hm => (hf hm ho).1

/-- Every writing command, on the stream it writes through, in whatever mode. -/
theorem body_writerFrame {i : Instr} {s : StreamSel} (h : writesStream i s = true)
    (ho : (st.bs s).Ok (st.bufSize (streamSpace s))) : WriterFrame s st (body i st).state := by
  cases i <;> simp only [writesStream, Bool.false_eq_true, decide_eq_true_eq] at h
  all_goals subst h
  case writeBit r =>
    rw [body, Result.state_andThen_unit]
    exact writerFrame_inMode ho (writerKeeps_writeBit _ _ st)
  case writeBits r n =>
    rw [body, Result.state_andThen_unit]
    exact writerFrame_inMode ho (writerKeeps_writeBits _ _ _ st)
  case finalize r =>
    rw [body, finalizeBody]
    refine writerFrame_inMode ho ?_
    rw [Result.state_andThen_unit]
    exact writerKeeps_finalize r st
  case treeSave =>
    rw [body, Result.state_andThen_unit]
    refine writerFrame_inMode ho ?_
    split
    · exact writerKeeps_saveNode _ _ st
    · exact (frame_writerKeeps .tree).refl st
  case encode =>
    rw [body, Result.state_andThen_unit]
    refine writerFrame_inMode ho ?_
    split
    · exact (frame_writerKeeps .pay).refl st
    · exact (frame_writerKeeps .pay).forLoop writerKeeps_encodeByte _ _ st

/-- An operand that fits 32 bits is all of `ARG0` (R82). -/
theorem toNat_of_lengthOperand {c : Length} (h : lengthOperand st = some c) : c.toNat = st.arg0.toNat := by
  unfold lengthOperand at h
  split at h
  · cases h
  · next hz =>
    have hupper : (st.arg0.extractLsb' 32 32).toNat = 0 := congrArg BitVec.toNat (by simpa using hz)
    have hlt := st.arg0.isLt
    injection h with h
    rw [BitVec.extractLsb'_toNat, Nat.shiftRight_eq_div_pow] at hupper
    rw [← h, BitVec.extractLsb'_toNat, Nat.shiftRight_zero, Nat.mod_eq_of_lt (by omega)]

theorem frame_bytesKept (x : Space) (lo hi : Nat) : Frame (BytesKept x lo hi) where
  refl _ _ _ _ := rfl
  trans h h' y a hy := (h' y a hy).trans (h y a hy)

/-- DECODE stores in RAW below its count only, however it ends. -/
theorem decodePayload_stores (st : State) : BytesKept .raw 0 st.arg0.toNat st (decodePayload st).state := by
  have F := frame_bytesKept .raw 0 st.arg0.toNat
  unfold decodePayload
  split
  · exact F.refl st
  · next count hcount =>
    rw [← toNat_of_lengthOperand hcount] at F ⊢
    have hloop := decodeLoop_stores count.toNat 0 { st with rawLen := 0 }
    rw [Nat.zero_add] at hloop
    split
    · exact F.andThen (F.trans (t := { st with rawLen := 0 }) (fun _ _ _ => rfl) hloop) fun _ _ _ _ _ => rfl
    · exact F.refl st

theorem decodeBody_stores (st : State) : BytesKept .raw 0 st.arg0.toNat st (decodeBody st).state :=
  inMode_keeps (P := BytesKept .raw 0 st.arg0.toNat) (frame_bytesKept ..).refl fun _ => decodePayload_stores st

/-- The epilogue writes none of the parts. -/
theorem same_of_exec {i : Instr} (h : exec i st = .next t) (p : Part) : p.Same (body i st).state t := by
  obtain ⟨u, rfl, hend⟩ := exec_next h
  have same := Part.Same.refl p (body i st).state
  obtain ⟨ht, -⟩ | ⟨k, ht, -⟩ := hend <;> rw [ht] <;> cases p <;> exact same

theorem Space.eq_raw_or_streamSpace (x : Space) : x = .raw ∨ ∃ s, x = streamSpace s := by
  cases x
  case tree => exact .inr ⟨.tree, rfl⟩
  case pay => exact .inr ⟨.pay, rfl⟩
  case raw => exact .inl rfl

/-- Settles O16: a changed byte is of a buffer that the command writes; in a stream's buffer its writer's cursor passed it, in
RAW DECODE stored it. -/
theorem commandStores : Obligations.CommandStores := by
  intro i st t hok h x a hne
  have hpart : .bytes x ∈ partsOf i := by_contra fun hp => hne (exec_same h hp a)
  have hbyte : t.memRead x a = (body i st).state.memRead x a := same_of_exec h (.bytes x) a
  rw [hbyte] at hne
  obtain rfl | ⟨s, rfl⟩ := x.eq_raw_or_streamSpace
  · obtain rfl := (raw_mem_partsOf i).1 hpart
    exact .inr ⟨rfl, rfl, by_contra fun ha => hne (decodeBody_stores st .raw a fun ⟨_, _, hlt⟩ => ha hlt)⟩
  · have hw := (bytes_mem_partsOf i s).1 hpart
    have hf := body_writerFrame hw (hok s)
    have hle := (body_keeps_stream i st hok s).byte_le
    have hbs : t.bs s = (body i st).state.bs s := same_of_exec h (.stream s)
    have passed := mt (hf.bytes a) hne
    rw [← hbs] at passed
    rw [hf.limit, ← hbs] at hle
    exact .inl ⟨s, rfl, hw, by omega, by omega, hle⟩

end Sys2Proof.Machine
end

section
/-! PROOFS. Decoding and encoding are inverse to each other, the decoder makes the tests of R85 in their order, and it says
the same as the opcode map (spec/30_encoding.md R80 to R86). -/

namespace Sys2Proof

/-! ## Decoding and encoding (R80, R84) -/

/-- Settles O1: the seven words, run. -/
theorem sampleWordsDecode : Obligations.SampleWordsDecode := by
  unfold Obligations.SampleWordsDecode
  decide

/-- Settles O2: the word is packed from fields that pass every test of R85 (`decodeWord_encode`). -/
theorem decodeOfEncode : Obligations.DecodeOfEncode := fun _ h => decode_commandValue h

theorem decode_of_upper_zero {v : Word} (h : v.extractLsb' 32 32 = 0) : decode v = decodeWord (v.extractLsb' 0 32) :=
  if_neg (by simpa using h)

theorem decode_zeroExtend (w : BitVec 32) : decode (w.zeroExtend 64) = decodeWord w := by
  rw [decode_of_upper_zero (upper_of_zeroExtend w), lower_of_zeroExtend]

/-- A command that passed steps 4 to 6 of R85 packs into its opcode and the variable fields of the word. -/
theorem Shape.encode_of_decode {opc : BitVec 8} {sh : Shape} {w : BitVec 32} {i : Instr} (hsh : shapeOf opc = some sh)
    (h : sh.decode w = .command i) : i.wf = true ∧ encode i = packWord opc (fieldS w) (fieldN w) := by
  cases sh with
  | plain j =>
    obtain ⟨-, -, -, hwf, henc⟩ := shapeOf_plain hsh
    simp only [Shape.decode] at h
    split_ifs at h with hS hN
    obtain rfl := Decoded.command.inj h
    rw [Bool.eq_false_of_not_eq_true hS, show fieldN w = 0 by simpa using hN]
    exact ⟨hwf, henc⟩
  | stream mk =>
    obtain ⟨-, -, -, hmk⟩ := shapeOf_stream hsh
    simp only [Shape.decode] at h
    split_ifs at h with hN
    obtain rfl := Decoded.command.inj h
    rw [show fieldN w = 0 by simpa using hN]
    simpa using hmk (.ofBit (fieldS w))
  | counted mk =>
    obtain ⟨-, -, -, hmk⟩ := shapeOf_counted hsh
    simp only [Shape.decode] at h
    split_ifs at h with hN
    obtain rfl := Decoded.command.inj h
    simpa [hN] using hmk (.ofBit (fieldS w)) (fieldN w)

theorem decodeWord_reserved {w : BitVec 32} (h : shapeOf (fieldOPC w) = none) :
    decodeWord w = .illegal .reservedOpcode := by
  rw [decodeWord, h]

theorem decodeWord_of_shape {w : BitVec 32} {sh : Shape} (h : shapeOf (fieldOPC w) = some sh) :
    decodeWord w =
      if fieldZeroLow w != 0 || fieldZeroHigh w != 0 then .illegal .reservedBits else sh.decode w := by
  rw [decodeWord, h]

/-- Step 3 of R85. -/
theorem zeroFields_iff {w : BitVec 32} :
    (fieldZeroLow w != 0 || fieldZeroHigh w != 0) = true ↔ fieldZeroLow w ≠ 0 ∨ fieldZeroHigh w ≠ 0 := by
  rw [Bool.or_eq_true, bne_iff_ne, bne_iff_ne]

/-- A word that decodes is the word of its command. -/
theorem encode_of_decodeWord {w : BitVec 32} {i : Instr} (h : decodeWord w = .command i) :
    i.wf = true ∧ encode i = w := by
  cases hsh : shapeOf (fieldOPC w) with
  | none =>
    rw [decodeWord_reserved hsh] at h
    cases h
  | some sh =>
    rw [decodeWord_of_shape hsh] at h
    split_ifs at h with hz
    obtain ⟨hlow, hhigh⟩ : fieldZeroLow w = 0 ∧ fieldZeroHigh w = 0 := by simpa [zeroFields_iff] using hz
    rw [packWord_fields w hlow hhigh]
    exact Shape.encode_of_decode hsh h

/-- Settles O3: the upper half passed step 1 of R85, and the lower half is the word of its command. -/
theorem decodedCommandEncodes : Obligations.DecodedCommandEncodes := by
  intro v i h
  by_cases hu : v.extractLsb' 32 32 = 0
  · rw [decode_of_upper_zero hu] at h
    obtain ⟨hwf, henc⟩ := encode_of_decodeWord h
    rw [commandValue, henc]
    exact ⟨hwf, word_of_upper_zero hu⟩
  · rw [decode_upperHalf hu] at h
    cases h

end Sys2Proof

namespace Sys2Proof.Machine

/-! ## The tests of R85 in their order -/

/-- The decoder's answer to a value whose first failing test is given: illegal for that reason, or a command. -/
def Agrees : Option DecodeError → Decoded → Prop
  | some e, d => d = .illegal e
  | none, d   => ∃ i, d = .command i

/-- One more test in front of the others. -/
theorem Agrees.test {p : Prop} [Decidable p] {e : DecodeError} {o : Option DecodeError} {d : Decoded}
    (fails : p → d = .illegal e) (passes : ¬ p → Agrees o d) : Agrees (if p then some e else o) d := by
  split
  case isTrue h => exact fails h
  case isFalse h => exact passes h

/-- Steps 4 to 6 of R85. -/
theorem shapeDecode_agrees {opc : BitVec 8} {sh : Shape} (hsh : shapeOf opc = some sh) (w : BitVec 32) :
    Agrees
      (if opc.toNat ∉ streamOpcodes ∧ fieldS w = true then some .strayS
        else if opc.toNat ∉ countOpcodes ∧ fieldN w ≠ 0 then some .strayN
        else if opc.toNat ∈ countOpcodes ∧ 64 < (fieldN w).toNat then some .countTooLarge
        else none)
      (sh.decode w) := by
  cases sh with
  | plain i =>
    obtain ⟨-, hs, hc, -⟩ := shapeOf_plain hsh
    simp only [hs, hc, not_false_eq_true, true_and, false_and, if_false]
    exact .test (fun hS => if_pos hS) fun hS => .test (fun hN => (if_neg hS).trans (if_pos (bne_iff_ne.2 hN)))
      fun hN => ⟨i, (if_neg hS).trans (if_neg (mt bne_iff_ne.1 hN))⟩
  | stream mk =>
    obtain ⟨-, hs, hc, -⟩ := shapeOf_stream hsh
    simp only [hs, hc, not_true_eq_false, not_false_eq_true, true_and, false_and, if_false]
    exact .test (fun hN => if_pos (bne_iff_ne.2 hN)) fun hN => ⟨_, if_neg (mt bne_iff_ne.1 hN)⟩
  | counted mk =>
    obtain ⟨-, hs, hc, -⟩ := shapeOf_counted hsh
    simp only [hs, hc, not_true_eq_false, true_and, false_and, if_false]
    exact .test (fun hN => if_neg (by simpa [countOk] using hN)) fun hN => ⟨_, if_pos (by simpa [countOk] using hN)⟩

/-- All of R85. -/
theorem decode_agrees_firstFailing (v : Word) : Agrees (firstFailing v) (decode v) := by
  refine .test decode_upperHalf fun hu => ?_
  rw [decode_of_upper_zero (not_not.1 hu)]
  cases hsh : shapeOf (fieldOPC (v.extractLsb' 0 32)) with
  | none => exact .test (fun _ => decodeWord_reserved hsh) fun h => absurd (shapeOf_eq_none.1 hsh) h
  | some sh =>
    rw [decodeWord_of_shape hsh]
    refine .test (fun h => absurd (hsh.symm.trans (shapeOf_eq_none.2 h)) nofun) fun _ => ?_
    refine .test (fun hz => if_pos (zeroFields_iff.2 hz)) fun hz => ?_
    rw [if_neg (mt zeroFields_iff.1 hz)]
    exact shapeDecode_agrees hsh _

/-- Settles O5: the decoder makes the tests in R85's order, and an illegal value reaches the epilogue alone. -/
theorem decodeFirstFailingTest : Obligations.DecodeFirstFailingTest := by
  intro v
  have agrees := decode_agrees_firstFailing v
  refine ⟨fun e he => ?illegal, fun hnone => ?legal⟩
  case illegal =>
    rw [he] at agrees
    refine ⟨agrees, fun st ts hst => ?_⟩
    rw [step_command hst]
    exact issue_illegal agrees _
  case legal =>
    rw [hnone] at agrees
    obtain ⟨i, hi⟩ := agrees
    exact ⟨i, hi, (decodedCommandEncodes v i hi).1⟩

end Sys2Proof.Machine

namespace Sys2Proof

/-! ## The opcode map (R83) -/

/-- A field that a row's mask covers has the row's value in every word the row matches. -/
theorem OpRow.field_of_hits {r : OpRow} {w : BitVec 32} (h : r.hits w = true) {start len : Nat} {x : BitVec len}
    (fixed : r.mask.extractLsb' start len = BitVec.allOnes len ∧ r.value.extractLsb' start len = x) :
    w.extractLsb' start len = x := by
  obtain ⟨hmask, hvalue⟩ := fixed
  rw [← hvalue, ← beq_iff_eq.1 h, BitVec.extractLsb'_and, hmask, BitVec.and_allOnes]

theorem OpRow.bit_of_hits {r : OpRow} {w : BitVec 32} (h : r.hits w = true) {j : Nat} {b : Bool}
    (fixed : r.mask.getLsbD j = true ∧ r.value.getLsbD j = b) : w.getLsbD j = b := by
  obtain ⟨hmask, hvalue⟩ := fixed
  rw [← hvalue, ← beq_iff_eq.1 h, BitVec.getLsbD_and, hmask, Bool.and_true]

theorem opRows_opcode_masked : ∀ r ∈ opRows, fieldOPC r.mask = BitVec.allOnes 8 := by decide

theorem opRows_opcode_used : ∀ r ∈ opRows, (fieldOPC r.value).toNat ∈ Machine.opcodes := by decide

theorem opRows_opcodes_differ : (opRows.map fun r => fieldOPC r.value).Nodup := by decide

theorem opRows_zeroLow : ∀ r ∈ opRows, fieldZeroLow r.mask = BitVec.allOnes 7 ∧ fieldZeroLow r.value = 0 := by decide

theorem opRows_zeroHigh : ∀ r ∈ opRows, fieldZeroHigh r.mask = BitVec.allOnes 9 ∧ fieldZeroHigh r.value = 0 := by decide

/-- Where `S` is not used the row wants it 0. -/
theorem opRows_noS : ∀ r ∈ opRows, (fieldOPC r.value).toNat ∉ Machine.streamOpcodes →
    fieldS r.mask = true ∧ fieldS r.value = false := by
  decide

/-- Where `N` is not used the row wants it 0. -/
theorem opRows_noN : ∀ r ∈ opRows, (fieldOPC r.value).toNat ∉ Machine.countOpcodes →
    fieldN r.mask = BitVec.allOnes 7 ∧ fieldN r.value = 0 := by
  decide

theorem opRows_usesN : ∀ r ∈ opRows, (fieldOPC r.value).toNat ∈ Machine.countOpcodes → r.usesN = true := by decide

/-- A word that a row matches has the row's opcode. -/
theorem opcode_of_hits {r : OpRow} (hr : r ∈ opRows) {w : BitVec 32} (h : r.hits w = true) :
    fieldOPC w = fieldOPC r.value :=
  OpRow.field_of_hits h ⟨opRows_opcode_masked r hr, rfl⟩

/-- No word matches two rows. -/
theorem opRows_disjoint : opRows.Pairwise fun r q => ∀ w : BitVec 32, ¬ (r.hits w = true ∧ q.hits w = true) := by
  refine (List.pairwise_map.1 opRows_opcodes_differ).imp_of_mem fun hr hq hne w ⟨hw, hw'⟩ => hne ?_
  rw [← opcode_of_hits hr hw, opcode_of_hits hq hw']

theorem row_unique {r q : OpRow} (hr : r ∈ opRows) (hq : q ∈ opRows) {w : BitVec 32} (hw : r.hits w = true)
    (hw' : q.hits w = true) : r = q :=
  List.inj_on_of_nodup_map opRows_opcodes_differ hr hq ((opcode_of_hits hr hw).symm.trans (opcode_of_hits hq hw'))

/-- A word that a row matches, with a legal count, passes the six tests of R85. -/
theorem firstFailing_of_hits {r : OpRow} (hr : r ∈ opRows) {w : BitVec 32} (h : r.hits w = true)
    (hn : r.usesN = true → (fieldN w).toNat ≤ 64) : Machine.firstFailing (w.zeroExtend 64) = none := by
  have hopc : fieldOPC w = fieldOPC r.value := opcode_of_hits hr h
  have used : (fieldOPC w).toNat ∈ Machine.opcodes := hopc ▸ opRows_opcode_used r hr
  have hlow : fieldZeroLow w = 0 := OpRow.field_of_hits h (opRows_zeroLow r hr)
  have hhigh : fieldZeroHigh w = 0 := OpRow.field_of_hits h (opRows_zeroHigh r hr)
  have strayS : ¬ ((fieldOPC w).toNat ∉ Machine.streamOpcodes ∧ fieldS w = true) := by
    rintro ⟨hs, hS⟩
    have noS : fieldS w = false := OpRow.bit_of_hits h (opRows_noS r hr (hopc ▸ hs))
    exact Bool.false_ne_true (noS.symm.trans hS)
  have strayN : ¬ ((fieldOPC w).toNat ∉ Machine.countOpcodes ∧ fieldN w ≠ 0) := by
    rintro ⟨hc, hN⟩
    exact hN (OpRow.field_of_hits h (opRows_noN r hr (hopc ▸ hc)))
  have count : ¬ ((fieldOPC w).toNat ∈ Machine.countOpcodes ∧ 64 < (fieldN w).toNat) := by
    rintro ⟨hc, hN⟩
    exact Nat.not_le.2 hN (hn (opRows_usesN r hr (hopc ▸ hc)))
  unfold Machine.firstFailing
  simp only [lower_of_zeroExtend]
  exact (if_neg (not_not.2 (upper_of_zeroExtend w))).trans <| (if_neg (not_not.2 used)).trans <|
    (if_neg (not_or.2 ⟨not_not.2 hlow, not_not.2 hhigh⟩)).trans <| (if_neg strayS).trans <|
    (if_neg strayN).trans (if_neg count)

/-- The row a command's mnemonic names matches its word (R83). -/
theorem row_of_encode (i : Instr) : Laws.OpcodeMatch.Statement i := by
  cases i with
  | nop => exact Laws.OpcodeMatch.nop
  | ctxReset => exact Laws.OpcodeMatch.ctxReset
  | bsOpenW s => exact Laws.OpcodeMatch.bsOpenW s
  | bsOpenR s => exact Laws.OpcodeMatch.bsOpenR s
  | writeBit s => exact Laws.OpcodeMatch.writeBit s
  | writeBits s n => exact Laws.OpcodeMatch.writeBits s n
  | finalize s => exact Laws.OpcodeMatch.finalize s
  | readBit s => exact Laws.OpcodeMatch.readBit s
  | readBits s n => exact Laws.OpcodeMatch.readBits s n
  | freqClear => exact Laws.OpcodeMatch.freqClear
  | freqCount => exact Laws.OpcodeMatch.freqCount
  | build => exact Laws.OpcodeMatch.build
  | codegen => exact Laws.OpcodeMatch.codegen
  | treeSave => exact Laws.OpcodeMatch.treeSave
  | treeLoad => exact Laws.OpcodeMatch.treeLoad
  | encode => exact Laws.OpcodeMatch.encode
  | decode => exact Laws.OpcodeMatch.decode

/-- A well-formed command's word never holds a count above 64: without a count its `N` is 0. -/
theorem fieldN_encode_le {i : Instr} (h : i.wf = true) : (fieldN (encode i)).toNat ≤ 64 := by
  cases i
  case writeBits s n | readBits s n =>
    rw [encode, fieldN_packWord]
    exact of_decide_eq_true h
  all_goals
    rw [encode, fieldN_packWord]
    decide

/-- Settles O4: a command's word matches the row of its mnemonic; a word that a row matches passes the tests of R85, and is
then of no other row's command. -/
theorem decodeAgreesWithOpcodeMap : Obligations.DecodeAgreesWithOpcodeMap := by
  refine ⟨fun w m => ⟨?row, ?command⟩, opRows_disjoint⟩
  case row =>
    rintro ⟨i, hi, rfl⟩
    rw [decode_zeroExtend] at hi
    obtain ⟨hwf, rfl⟩ := encode_of_decodeWord hi
    obtain ⟨r, hr, hm, hw⟩ := row_of_encode i
    exact ⟨r, hr, hm, hw, fun _ => fieldN_encode_le hwf⟩
  case command =>
    rintro ⟨r, hr, rfl, hw, hn⟩
    have agrees := Machine.decode_agrees_firstFailing (w.zeroExtend 64)
    rw [firstFailing_of_hits hr hw hn] at agrees
    obtain ⟨i, hi⟩ := agrees
    obtain ⟨-, henc⟩ := encode_of_decodeWord ((decode_zeroExtend w).symm.trans hi)
    obtain ⟨q, hq, hm, hw'⟩ := row_of_encode i
    rw [henc] at hw'
    rw [row_unique hr hq hw hw']
    exact ⟨i, hi, hm.symm⟩

end Sys2Proof

namespace Sys2Proof.Machine

/-! ## What no command looks at but its operand (R82) -/

/-- The state with another operand. -/
theorem side_arg0_of_kept {st u : State} (k : Kept st u) (v : Word) :
    u.side { st.aside with arg0 := v } = { u with arg0 := v } := by
  unfold State.side State.aside
  rw [← k.result, ← k.status, ← k.errlog, ← k.host, ← k.reply, ← k.freeIdx]

/-- Settles O58: no body looks at more of `ARG0` than its operand (`body_side`), and the epilogue does not look at it. -/
theorem operandIndependence : Obligations.OperandIndependence := by
  intro i st v hv
  have hbody : body i { st with arg0 := v } = (body i st).side { st.aside with arg0 := v } :=
    body_side (x := { st.aside with arg0 := v }) hv
  have k := body_kept i st
  rw [exec_eq_body, exec_eq_body, hbody]
  cases hb : body i st with
  | ok r u =>
    rw [hb, Result.state_ok] at k
    rw [Result.side_ok, side_arg0_of_kept k]
    exact ⟨_, rfl, rfl⟩
  | raised e u =>
    rw [hb, Result.state_raised] at k
    rw [Result.side_raised, side_arg0_of_kept k]
    exact ⟨_, rfl, rfl⟩

end Sys2Proof.Machine
end

section
/-! PROOFS. The stream commands: opening, the mode check, bits and fields in and out, FINALIZE, and that a reader reads
what a writer wrote (spec/40_bitstream.md). -/

namespace Sys2Proof.Machine

variable {st t : State} {s : StreamSel}

/-! ## Opening a stream (R100, R101) -/

theorem lengthOperand_wide (h : st.arg0.extractLsb' 32 32 ≠ 0) : lengthOperand st = none :=
  if_pos (bne_iff_ne.2 h)

theorem lengthOperand_low (h : st.arg0.extractLsb' 32 32 = 0) : lengthOperand st = some (st.arg0.extractLsb' 0 32) :=
  if_neg (by simpa using h)

theorem openStream_outOfRange (m : StreamMode)
    (h : st.arg0.extractLsb' 32 32 ≠ 0 ∨ st.bufSize (streamSpace s) < (st.arg0.extractLsb' 0 32).toNat) :
    openStream s m st = .raised .illegalCommand st := by
  unfold openStream
  by_cases hz : st.arg0.extractLsb' 32 32 = 0
  · rw [lengthOperand_low hz]
    exact if_pos (h.resolve_left (not_not.2 hz))
  · rw [lengthOperand_wide hz]

theorem openStream_inRange (m : StreamMode) (hz : st.arg0.extractLsb' 32 32 = 0)
    (hle : (st.arg0.extractLsb' 0 32).toNat ≤ st.bufSize (streamSpace s)) :
    openStream s m st = .ok () (st.setBs s (Stream.opened m (st.arg0.extractLsb' 0 32))) := by
  unfold openStream
  rw [lengthOperand_low hz]
  exact if_neg (Nat.not_lt.2 hle)

end Sys2Proof.Machine

namespace Sys2Proof

open Machine in
/-- Settles O18: both commands are the model's `openStream`, which does not look at the mode the stream is in. -/
theorem openStream : Obligations.OpenStream := by
  intro st s
  refine ⟨fun hout => ?outOfRange, fun hz hle => ?inRange⟩
  case outOfRange =>
    exact ⟨endsIn_of_body (by rw [body, openStream_outOfRange .writer hout, Result.andThen_raised]),
      endsIn_of_body (by rw [body, openStream_outOfRange .reader hout, Result.andThen_raised])⟩
  case inRange =>
    exact ⟨endsOk_of_body (by rw [body, openStream_inRange .writer hz hle, Result.andThen_ok, Stream.opened]),
      endsOk_of_body (by rw [body, openStream_inRange .reader hz hle, Result.andThen_ok, Stream.opened])⟩

end Sys2Proof

namespace Sys2Proof.Machine

variable {st t : State} {s : StreamSel}

/-! ## The mode check (R102) -/

theorem inMode_ne {α : Type} {m : StreamMode} {f : State → Result α} (h : (st.bs s).mode ≠ m) :
    inMode s m st f = .raised .illegalCommand st := if_neg h

/-- A command that writes through a stream that is no writer. -/
theorem body_notWriter {i : Instr} (hi : writesStream i s = true) (h : (st.bs s).mode ≠ .writer) :
    body i st = .raised .illegalCommand st := by
  cases i <;> simp only [writesStream, Bool.false_eq_true, decide_eq_true_eq] at hi
  all_goals subst hi
  case writeBit r => rw [body, writeBitBody, inMode_ne h, Result.andThen_raised]
  case writeBits r n => rw [body, writeBitsBody, inMode_ne h, Result.andThen_raised]
  case finalize r => rw [body, finalizeBody, inMode_ne h]
  case treeSave => rw [body, treeSaveBody, inMode_ne h, Result.andThen_raised]
  case encode => rw [body, encodeBody, inMode_ne h, Result.andThen_raised]

/-- A command that reads through a stream that is no reader. -/
theorem body_notReader {i : Instr} (hi : readsStream i s = true) (h : (st.bs s).mode ≠ .reader) :
    body i st = .raised .illegalCommand st := by
  cases i <;> simp only [readsStream, Bool.false_eq_true, decide_eq_true_eq] at hi
  all_goals subst hi
  case readBit r => rw [body, readBitBody, inMode_ne h]
  case readBits r n => rw [body, readBitsBody, inMode_ne h]
  case treeLoad => rw [body, treeLoadBody, inMode_ne h]
  case decode => rw [body, decodeBody, inMode_ne h]

theorem endsIn_notWriter {i : Instr} (hi : writesStream i s = true) (h : (st.bs s).mode ≠ .writer) :
    EndsIn (exec i st) .illegalCommand st := endsIn_of_body (body_notWriter hi h)

theorem endsIn_notReader {i : Instr} (hi : readsStream i s = true) (h : (st.bs s).mode ≠ .reader) :
    EndsIn (exec i st) .illegalCommand st := endsIn_of_body (body_notReader hi h)

/-- Settles O19: every command that works through a stream begins with its mode check. -/
theorem wrongModeIsIllegal : Obligations.WrongModeIsIllegal := fun _ =>
  ⟨fun _ h => ⟨endsIn_notWriter (decide_eq_true rfl) h, fun _ => endsIn_notWriter (decide_eq_true rfl) h,
      endsIn_notWriter (decide_eq_true rfl) h⟩,
    fun _ h => ⟨endsIn_notReader (decide_eq_true rfl) h, fun _ => endsIn_notReader (decide_eq_true rfl) h⟩,
    endsIn_notWriter rfl, endsIn_notWriter rfl, endsIn_notReader rfl, endsIn_notReader rfl⟩

/-! ## The bodies past the mode check -/

theorem body_writeBit (hm : (st.bs s).mode = .writer) :
    body (.writeBit s) st = (writeBit s (st.arg0.getLsbD 0) st).andThen fun _ t => .ok 0 t := by
  rw [body, writeBitBody, inMode_eq hm]
  rfl

theorem body_writeBits (hm : (st.bs s).mode = .writer) (n : BitVec 7) :
    body (.writeBits s n) st = (writeList s (fieldBits st.arg0 n.toNat) st).andThen fun _ t => .ok 0 t := by
  rw [body, writeBitsBody, inMode_eq hm, writeBits_eq_writeList]
  rfl

theorem body_finalize (hm : (st.bs s).mode = .writer) :
    body (.finalize s) st = (finalize s st).andThen fun count t => .ok (count.zeroExtend 64) t := by
  rw [body, finalizeBody, inMode_eq hm]

theorem body_readBit (hm : (st.bs s).mode = .reader) :
    body (.readBit s) st = (readBit s st).andThen fun b t => .ok ((BitVec.ofBool b).zeroExtend 64) t := by
  rw [body, readBitBody, inMode_eq hm]

theorem body_readBits (hm : (st.bs s).mode = .reader) (n : BitVec 7) :
    body (.readBits s n) st = readBits s n.toNat st := inMode_eq hm

/-! ## Writers (R103 to R105) -/

/-- What committing the byte `h` at the cursor stores. -/
theorem commit_stores (hb : BuffersOk st) (ho : (st.bs s).Ok (st.bufSize (streamSpace s)))
    (hl : (st.bs s).byte.toNat < (st.bs s).limit.toNat) {h : Byte} {q : Stream}
    (ht : t = (st.memWrite (streamSpace s) (st.bs s).byte.toNat h).setBs s q) :
    t = (st.setBs s q).setBuf (streamSpace s) (t.buf (streamSpace s)) ∧
      t.memRead (streamSpace s) (st.bs s).byte.toNat = h ∧
      BytesKept (streamSpace s) (st.bs s).byte.toNat ((st.bs s).byte.toNat + 1) st t := by
  subst ht
  refine ⟨?_, ?_, fun x a hx => ?_⟩
  · rw [State.buf_setBs, ← setBs_setBuf_comm, ← setBuf_memWrite]
  · rw [State.memRead_setBs]
    exact State.memRead_memWrite_same (hb _).1 (hl.trans_le ho.limit_le)
  · rw [State.memRead_setBs]
    exact bytesKept_memWrite _ _ h st x a hx

/-- Settles O20: past its mode check the command is `writeBit`, in its three cases. -/
theorem writeBitEffect : Obligations.WriteBitEffect := by
  intro st s hb hok
  refine ⟨endsIn_notWriter (decide_eq_true rfl), fun hm h hh => ⟨fun hbit => ?pending, fun hbit hl => ?commit,
    fun hbit hl => ?overflow⟩⟩
  case pending =>
    refine endsOk_of_body ?_
    rw [body_writeBit hm, writeBit_pending hbit, hh]
    rfl
  case commit =>
    refine ⟨_, endsOk_of_body ?_, commit_stores hb (hok s) hl rfl⟩
    rw [body_writeBit hm, writeBit_commit (by omega) (BitVec.not_le.2 hl), hh]
    rfl
  case overflow =>
    refine endsIn_of_body ?_
    rw [body_writeBit hm, writeBit_overflow (by omega) hl]
    rfl

theorem OnlyWriter.bufSize (h : OnlyWriter s st t) (x : Space) : t.bufSize x = st.bufSize x :=
  State.bufSize_congr h.kept.params x

theorem WriterFrame.bytesKept (h : WriterFrame s st t) :
    BytesKept (streamSpace s) (st.bs s).byte.toNat (t.bs s).byte.toNat st t := by
  intro x a hx
  by_cases hs : x = streamSpace s
  · subst hs
    rw [not_and_or, not_and_or, not_le, not_lt] at hx
    exact h.bytes a (hx.resolve_left (not_not.2 rfl))
  · exact OnlyWriter.memRead_ne h.rest hs a

/-- What a writer keeps while it writes. -/
theorem WriterFrame.keeps (h : WriterFrame s st t) (hw : WriterOk t s) :
    (t.bs s).mode = .writer ∧ (t.bs s).limit = (st.bs s).limit ∧ (t.bs s).Ok (st.bufSize (streamSpace s)) ∧
      BytesKept (streamSpace s) (st.bs s).byte.toNat (t.bs s).byte.toNat st t :=
  ⟨hw.mode, h.limit, OnlyWriter.bufSize h.rest _ ▸ hw.ok, h.bytesKept⟩

theorem StreamsOk.writerOk (hok : StreamsOk st) (hb : BuffersOk st) (hm : (st.bs s).mode = .writer) : WriterOk st s :=
  ⟨hm, hok s, (hb _).1⟩

/-- Settles O21: the command writes the field's bit string (`writeBits_eq_writeList`): all of it, or what there is room
for. -/
theorem writeBitsEffect : Obligations.WriteBitsEffect := by
  intro st s n _ hb hok
  refine ⟨endsIn_notWriter (decide_eq_true rfl), fun hm hr => ?room, fun hm hr => ?noRoom⟩
  case room =>
    obtain ⟨t, hrun, hw, hwritten, hpos, hf⟩ :=
      writeList_room (fieldBits st.arg0 n.toNat) (hok.writerOk hb hm) (by rwa [fieldBits_length])
    rw [fieldBits_length] at hpos
    refine ⟨t, endsOk_of_body ?_, hf.rest, hwritten, hpos, hf.keeps hw⟩
    rw [body_writeBits hm, hrun]
    rfl
  case noRoom =>
    obtain ⟨t, hrun, hw, hwritten, hend, hf⟩ :=
      writeList_noRoom (fieldBits st.arg0 n.toNat) (hok.writerOk hb hm) (by rwa [fieldBits_length])
    have hpos : (t.bs s).pos = (st.bs s).pos + (st.bs s).space := by
      have hbit := (st.bs s).bit_lt
      have hle := (hok s).byte_le
      rw [hend]
      unfold Stream.space Stream.pos
      omega
    refine ⟨t, endsIn_of_body ?_, hf.rest, hwritten, hpos, hf.keeps hw⟩
    rw [body_writeBits hm, hrun]
    rfl

/-- Settles O22: past its mode check the command is `finalize`; the unwritten bits of `hold` are 0 by R36. -/
theorem finalizeEffect : Obligations.FinalizeEffect := by
  intro st s hb hok
  refine ⟨endsIn_notWriter (decide_eq_true rfl), fun hm hbit => ?idle, fun hm hbit hl => ?commit,
    fun hm hbit hl => ?overflow⟩
  case idle =>
    refine endsOk_of_body ?_
    rw [body_finalize hm, finalize_idle hbit]
    rfl
  case commit =>
    obtain ⟨hrest, hread, hkept⟩ := commit_stores hb (hok s) hl rfl
    refine ⟨_, endsOk_of_body ?_, hrest, hread, (hok s).padded hm, hkept⟩
    rw [body_finalize hm, finalize_commit hbit (BitVec.not_le.2 hl)]
    rfl
  case overflow =>
    refine endsIn_of_body ?_
    rw [body_finalize hm, finalize_overflow hbit hl]
    rfl

/-! ## Readers (R106, R107) -/

theorem readBit_truncated (hbit : (st.bs s).bit = 0) (hl : (st.bs s).limit ≤ (st.bs s).byte) :
    readBit s st = .raised .truncated st := if_pos ⟨hbit, hl⟩

theorem readBit_next (h : (st.bs s).bit = 0 → (st.bs s).byte.toNat < (st.bs s).limit.toNat) :
    readBit s st = .ok ((latched s st).getLsbD (7 - (st.bs s).bit.toNat))
      (st.setBs s
        (if (st.bs s).bit.toNat < 7 then { st.bs s with hold := latched s st, bit := (st.bs s).bit + 1 }
         else { st.bs s with hold := latched s st, bit := 0, byte := (st.bs s).byte + 1 })) := by
  have hmore : ¬ ((st.bs s).bit = 0 ∧ (st.bs s).limit ≤ (st.bs s).byte) := fun ⟨hbit, hl⟩ =>
    BitVec.not_le.2 (h hbit) hl
  simp only [readBit, if_neg hmore]
  split <;> rfl

/-- The bit in `RESULT`. -/
theorem zeroExtend_ofBool (b : Bool) : (BitVec.ofBool b).zeroExtend 64 = if b then 1 else 0 := by
  cases b <;> rfl

/-- Settles O23: past its mode check the command is `readBit`. -/
theorem readBitEffect : Obligations.ReadBitEffect := by
  intro st s
  refine ⟨endsIn_notReader (decide_eq_true rfl), fun hm hbit hl => ?truncated, fun hm hmore h hh => ?next⟩
  case truncated =>
    refine endsIn_of_body ?_
    rw [body_readBit hm, readBit_truncated hbit hl]
    rfl
  case next =>
    obtain rfl : h = latched s st := hh
    refine endsOk_of_body ?_
    rw [body_readBit hm, readBit_next hmore, Result.andThen_ok, zeroExtend_ofBool]

theorem ReaderOk.pos_of_unread_nil (hw : ReaderOk st s) (h : st.unread s = []) :
    (st.bs s).pos = 8 * (st.bs s).limit.toNat := by
  have hlen := st.unread_length s
  have hle := hw.pos_le
  rw [h, List.length_nil] at hlen
  omega

/-- Settles O24: `readBits` takes its bits from the front of the bits still to deliver, or all of them. -/
theorem readBitsEffect : Obligations.ReadBitsEffect := by
  intro st s n _ hok
  refine ⟨endsIn_notReader (decide_eq_true rfl), fun hm hlen => ?enough, fun hm hlen => ?short⟩
  case enough =>
    have htake : ((st.unread s).take n.toNat).length = n.toNat := List.length_take_of_le hlen
    obtain ⟨t, hrun, hr, hunread, hpos, hf⟩ :=
      readBits_of_unread _ _ ⟨hm, hok s⟩ (List.take_append_drop n.toNat (st.unread s)).symm
    have hlt := bitsToNat_lt ((st.unread s).take n.toNat)
    rw [htake] at hrun hpos hlt
    exact ⟨t, endsOk_of_body ((body_readBits hm n).trans hrun), hf.only, hunread, hpos, hr.mode, hf.limit, hlt⟩
  case short =>
    obtain ⟨t, hrun, hr, hunread, hf⟩ := readBitsFrom_short n.toNat 0 ⟨hm, hok s⟩ hlen
    have hpos := hr.pos_of_unread_nil hunread
    rw [hf.limit] at hpos
    exact ⟨t, endsIn_of_body ((body_readBits hm n).trans hrun), hf.only, hunread, hpos, hr.mode, hf.limit⟩

/-! ## From a writer to a reader (R114) -/

/-- Settles O25: a reader just opened still has every bit of the finalized bytes to deliver. -/
theorem streamRoundTrip : Obligations.StreamRoundTrip := by
  intro st s cap bs hb hcap hlen
  obtain ⟨t, u, hwrite, -, -, hfin, hu, -, -, hcount, hcountCap, hbits⟩ := write_finalize bs hb hcap hlen
  generalize (u.bs s).byte = c at hfin hcount hcountCap hbits
  have hunread : (u.setBs s (Stream.opened .reader c)).unread s =
      (bs ++ List.replicate (8 * c.toNat - bs.length) false) ++ [] := by
    rw [unread_opened, hbits, List.append_nil]
  have hopen : ReaderOk (u.setBs s (Stream.opened .reader c)) s :=
    readerOk_opened (by rw [hu.bufSize]; exact hcountCap.trans hcap)
  obtain ⟨v, hread, hr, hv⟩ := readList_of_unread _ _ hopen hunread
  have htotal : (bs ++ List.replicate (8 * c.toNat - bs.length) false).length = 8 * c.toNat := by
    rw [List.length_append, List.length_replicate]
    omega
  rw [htotal] at hread
  exact ⟨t, u, v, c, hwrite, hfin, by omega, by omega, hread, readBit_of_unread_nil hr hv⟩

end Sys2Proof.Machine
end

section
/-! PROOFS. The arena and the heap (spec/41_arena_heap.md): what one allocation, one push and one pop do, from the laws of
`allocNode`, `heapPush` and `heapPop`. -/

namespace Sys2Proof.Machine

/-- A full arena raises (R121). -/
theorem allocNode_full (n : Node) {st : State} (h : 511 ≤ st.arenaCount.val) :
    allocNode n st = .raised .capacityExceeded st := by
  rcases allocNode_cases n st with ⟨_, _, _, hroom, _⟩ | ⟨hfull, _⟩
  · exact absurd hroom (Nat.not_lt.2 h)
  · exact hfull

/-- The index of an allocation, as the next slot's number. -/
theorem Allocated.index_eq {n : Node} {i : NodeIdx} {st t : State} (h : Allocated n i st t) :
    i = BitVec.ofNat 10 st.arenaCount.val := by
  rw [← h.index, BitVec.ofNat_toNat, BitVec.setWidth_eq]

/-- Settles O27: the state after an allocation is the one `Allocated` describes, and `allocNode` has no other way to
fail than a full arena. -/
theorem allocateNode : Obligations.AllocateNode := by
  intro n st
  refine ⟨fun hroom => ?room, allocNode_full n⟩
  case room =>
    obtain ⟨i, t, hrun, ha⟩ := allocNode_room n hroom
    obtain rfl := ha.index_eq
    exact ⟨t, hrun, ha.count, ha.new, ha.old, ha.rest⟩

/-- Settles O28: the path of a push is `siftUp`'s (`siftUp_rises`) and that of a pop is `siftDown`'s (`siftDown_falls`);
each keeps the live entries and restores the order along its path. -/
theorem heapOperations : Obligations.HeapOperations := by
  intro st
  refine ⟨fun n hroom => ?push, fun n hfull => ?full, fun hsome => ?pop⟩
  case push =>
    obtain ⟨t, hrun, hsize, honly, hperm, hord, k, hrises⟩ := heapPush_room n hroom
    exact ⟨t, k, hrun, hsize, hrises, hperm, honly, hord⟩
  case full =>
    have hcap := st.heapSize.isLt
    exact heapPush_full n (by omega)
  case pop =>
    obtain ⟨htop, hsize, honly, hperm, hord, hfalls⟩ := heapPop_some hsome
    rw [htop] at hperm hord
    exact ⟨(heapPop st).2, Prod.ext htop rfl, hsize, fun h => hfalls (Nat.sub_pos_of_lt h), hperm, honly, hord⟩

end Sys2Proof.Machine
end

section
/-! PROOFS. The frequency table and the tree builder (spec/42_tree_builder.md): what FREQ_CLEAR and FREQ_COUNT leave in
`FREQ`, when BUILD fails, and the shape and the cost of the tree it makes, from `countLoop`, `buildTree_cases` and
`agree_buildTree`. -/

namespace Sys2Proof.Machine

/-! ## The frequency table (R140 to R142) -/

@[simp] theorem State.freqAt_clearFreq (st : State) (y : Symbol) : st.clearFreq.freqAt y = 0 := by
  rw [State.freqAt, State.clearFreq, Vector.getElem_replicate]

/-- Settles O31: the command is `State.clearFreq`. -/
theorem freqClearEffect : Obligations.FreqClearEffect := fun st =>
  ⟨st.clearFreq, endsOk_of_body rfl, rfl, st.freqAt_clearFreq⟩

/-- A table that counts the symbols of a list sums to the list's length (R142). -/
theorem totalFreq_of_counts {st : State} {xs : List Byte} (h : ∀ y, (st.freqAt y).toNat = xs.count y) :
    st.totalFreq = xs.length := by
  rw [State.totalFreq, ← sum_count xs]
  simp only [h]

theorem State.rawBytes_length (st : State) (n : Nat) : (st.rawBytes n).length = n := by
  rw [State.rawBytes, List.length_map, List.length_range]

theorem freqCountBody_tooLong {st : State} (h : st.bufSize .raw < st.rawLen.toNat) :
    freqCountBody st = .raised .illegalCommand st := if_pos h

/-- FREQ_COUNT on a `RAW_LEN` that the buffer holds (R141): no count wraps, each starting at 0 with less than 2^32 to come. -/
theorem freqCountBody_fits {st : State} (h : st.rawLen.toNat ≤ st.bufSize .raw) :
    ∃ t, freqCountBody st = .ok (st.rawLen.zeroExtend 64) t ∧ OnlyFreq st t ∧
      ∀ y, (t.freqAt y).toNat = (st.rawBytes st.rawLen.toNat).count y := by
  have hnoWrap : ∀ y, (st.clearFreq.freqAt y).toNat + st.rawLen.toNat < 2 ^ 64 := fun y => by
    rw [State.freqAt_clearFreq]
    exact (Nat.zero_add _).trans_lt (st.rawLen.isLt.trans (by decide))
  obtain ⟨t, hrun, honly, hcount⟩ := countLoop st.rawLen.toNat 0 st.clearFreq hnoWrap
  have hfrom : OnlyFreq st t := frame_onlyFreq.trans (t := st.clearFreq) rfl honly
  have hlen : t.rawLen = st.rawLen := by rw [hfrom]
  refine ⟨t, ?_, hfrom, fun y => ?_⟩
  · rw [freqCountBody, if_neg (Nat.not_lt.2 h), hrun, Result.andThen_ok, hlen]
  · rw [hcount, State.freqAt_clearFreq, State.rawFrom_zero]
    exact Nat.zero_add _

/-- Settles O32: the loop counts every byte of `RAW` once (`countLoop`), and a list's counts sum to its length. -/
theorem freqCountEffect : Obligations.FreqCountEffect := by
  intro st
  refine ⟨fun h => endsIn_of_body (freqCountBody_tooLong h), fun h => ?fits⟩
  case fits =>
    obtain ⟨t, hrun, honly, hcount⟩ := freqCountBody_fits h
    refine ⟨t, endsOk_of_body hrun, honly, hcount, ?_⟩
    rw [totalFreq_of_counts hcount, State.rawBytes_length]

/-! ## When BUILD fails (R143 to R145) -/

theorem exec_build_ok {st t : State} (h : exec .build st = .next t) (hs : t.status = .ok) :
    ∃ v u, buildTree st = .ok v u ∧ t = u.endOk v := by
  rcases exec_cases .build st with ⟨v, u, hrun, hend⟩ | ⟨k, u, hrun, hend⟩ <;>
    obtain rfl := Host.Outcome.next.inj (h.symm.trans hend)
  · exact ⟨v, u, hrun, rfl⟩
  · cases hs

theorem exec_build_error {st t : State} {k : ErrorKind} (h : exec .build st = .next t) (hs : t.status = .error k) :
    ∃ u, buildTree st = .raised k u := by
  rcases exec_cases .build st with ⟨v, u, hrun, hend⟩ | ⟨k', u, hrun, hend⟩ <;>
    obtain rfl := Host.Outcome.next.inj (h.symm.trans hend)
  · cases hs
  · obtain rfl := ResultCode.error.inj hs
    exact ⟨u, hrun⟩

theorem buildTree_empty {st : State} (h : st.totalFreq = 0) : buildTree st = .raised .emptyInput st.arenaReset := by
  rcases buildTree_cases st with ⟨_, hrun⟩ | ⟨hpos, _⟩ | ⟨hbig, _⟩
  · exact hrun
  · omega
  · omega

theorem buildTree_tooMany {st : State} (h : 2 ^ 64 ≤ st.totalFreq) :
    ∃ t, buildTree st = .raised .capacityExceeded t ∧ OnlyTree st t ∧ t.treeValid = false ∧ t.root = Config.nil := by
  rcases buildTree_cases st with ⟨htotal, _⟩ | ⟨_, hlt, _⟩ | ⟨_, t, _, hrun, _, _, htree⟩
  · omega
  · omega
  · exact ⟨t, hrun, htree⟩

/-- BUILD has no other way to fail than these two. -/
theorem buildTree_raised {st u : State} {k : ErrorKind} (h : buildTree st = .raised k u) :
    k = .emptyInput ∧ st.totalFreq = 0 ∨ k = .capacityExceeded ∧ 2 ^ 64 ≤ st.totalFreq := by
  rcases buildTree_cases st with ⟨htotal, hrun⟩ | ⟨_, _, _, _, hrun, _⟩ | ⟨hbig, _, _, hrun, _⟩
  · exact .inl ⟨(Result.raised.inj (h.symm.trans hrun)).1, htotal⟩
  · cases h.symm.trans hrun
  · exact .inr ⟨(Result.raised.inj (h.symm.trans hrun)).1, hbig⟩

/-- Settles O33: `buildTree_empty` and `buildTree_tooMany` say how BUILD fails, `buildTree_raised` that it fails only so. -/
theorem buildFailures : Obligations.BuildFailures := by
  intro st
  refine ⟨fun hzero => ?empty, fun hbig => ?tooMany, fun t hend => ⟨fun hs => ?onlyEmpty, fun hs => ?onlyTooMany⟩⟩
  case empty => exact endsIn_of_body (buildTree_empty (totalFreq_eq_zero.2 hzero))
  case tooMany =>
    obtain ⟨t, hrun, htree⟩ := buildTree_tooMany hbig
    exact ⟨t, endsIn_of_body hrun, htree⟩
  case onlyEmpty =>
    obtain ⟨u, hrun⟩ := exec_build_error hend hs
    rcases buildTree_raised hrun with ⟨_, htotal⟩ | ⟨hk, _⟩
    · exact totalFreq_eq_zero.1 htotal
    · cases hk
  case onlyTooMany =>
    obtain ⟨u, hrun⟩ := exec_build_error hend hs
    rcases buildTree_raised hrun with ⟨hk, _⟩ | ⟨_, hbig⟩
    · cases hk
    · exact hbig

/-! ## The tree BUILD makes (R146, R147) -/

theorem buildTree_built {st : State} (h0 : 0 < st.totalFreq) (h1 : st.totalFreq < 2 ^ 64) :
    ∃ t T, buildTree st = .ok (t.root.zeroExtend 64) t ∧ Built st.freqAt st t T := by
  rcases buildTree_cases st with ⟨htotal, _⟩ | ⟨_, _, h⟩ | ⟨hbig, _⟩
  · omega
  · exact h
  · omega

section
variable {st t : State} {T : Tree}

theorem Built.holds (h : Built st.freqAt st t T) : Holds t T t.root :=
  h.building.forest.holds (t.root, T) (List.mem_singleton_self _)

theorem Built.symbols (h : Built st.freqAt st t T) : T.symbols.Perm st.usedSymbols := by
  have := h.building.symbols
  rwa [List.flatMap_singleton] at this

theorem Built.leaves_eq (h : Built st.freqAt st t T) : T.leaves = st.usedSymbols.length := by
  rw [← T.symbols_length]
  exact h.symbols.length_eq

theorem Built.arenaCount_eq (h : Built st.freqAt st t T) : t.arenaCount.val = 2 * T.leaves - 1 := by
  have hcount := h.building.counts.1
  rw [List.length_singleton] at hcount
  have hleaves : T.leaves = (nonzero st.freqAt 256).length := h.leaves_eq
  omega

theorem Built.root_freq (h : Built st.freqAt st t T) : (t.slot t.root).freq.toNat = st.totalFreq := by
  calc (t.slot t.root).freq.toNat
      = T.weight st.freqAt := h.building.weight (t.root, T) (List.mem_singleton_self _)
    _ = (([(t.root, T)] : List (NodeIdx × Tree)).map fun p => p.2.weight st.freqAt).sum := by simp
    _ = ((nonzero st.freqAt 256).map fun y => (st.freqAt y).toNat).sum := h.building.total
    _ = st.totalFreq := sum_nonzero _ _

/-- A slot past the leaves is an internal node, its children below it, with the sum of their frequencies. -/
theorem Built.inner (h : Built st.freqAt st t T) {i : NodeIdx} (hi : T.leaves ≤ i.toNat)
    (hi' : i.toNat < t.arenaCount.val) :
    (t.slot i).kind = .internal ∧ (t.slot i).left < i ∧ (t.slot i).right < i ∧
      (t.slot i).freq.toNat = (t.slot (t.slot i).left).freq.toNat + (t.slot (t.slot i).right).freq.toNat := by
  rw [h.leaves_eq] at hi
  obtain ⟨hkind, hfreq⟩ := h.building.inner i hi hi'
  obtain ⟨hleft, hright, _⟩ := (h.building.forest.nodes i hi').internal hkind
  exact ⟨hkind, hleft, hright, hfreq⟩

theorem Built.reaches (h : Built st.freqAt st t T) {j : NodeIdx} (hj : j.toNat < t.arenaCount.val) :
    Reaches t t.root j := by
  obtain ⟨p, hp, hr⟩ := h.building.forest.covered j hj
  obtain rfl := List.mem_singleton.1 hp
  exact hr

/-- Every full binary tree over the used symbols costs at least what BUILD's does: of the trees made so far, which `Best`
says can be completed without loss, there is only this one. -/
theorem Built.cost_le (h : Built st.freqAt st t T) {U : Tree} (hU : (U.paths.map Prod.fst).Perm st.usedSymbols) :
    T.cost st.freqAt ≤ U.cost st.freqAt := by
  have hweights : ((U.paths.map fun p => ((st.freqAt p.1).toNat, p.2.length)).map Prod.fst).Perm
      (st.usedSymbols.map fun y => (st.freqAt y).toNat) := by
    simpa only [List.map_map, Function.comp_def] using hU.map fun y => (st.freqAt y).toNat
  obtain ⟨_, _, _, hle⟩ := h.building.best _ (U.realised st.freqAt) hweights
  rw [U.leavesCost_eq, List.map_singleton, List.sum_singleton] at hle
  exact Nat.le_trans (Nat.le_add_left ..) hle

end

/-- Settles O34: `Built` is R146; the last slot's number follows from the number of leaves. -/
theorem buildResult : Obligations.BuildResult := by
  intro st h0 h1
  obtain ⟨t, T, hrun, hb⟩ := buildTree_built h0 h1
  have hpos := T.leaves_pos
  have hcap := arenaCount_le t
  have hcount := hb.arenaCount_eq
  have hlast := hb.last
  exact ⟨t, T, endsOk_of_body hrun, hb.only, hb.valid, hb.holds, hb.leaves_eq, hpos, by omega,
    T.symbols_eq ▸ hb.symbols, hcount, by omega, hb.size, hb.top, hb.building.leaves, fun _ => hb.inner,
    hb.root_freq, hb.building.forest.parent, fun _ => hb.reaches⟩

/-- A BUILD that ended with `OK` left a tree as R146 says, and it is the tree at `ROOT`. -/
theorem built_of_exec {st t : State} {T : Tree} (h : exec .build st = .next t) (hs : t.status = .ok)
    (hT : Holds t T t.root) : ∃ v u, t = u.endOk v ∧ Built st.freqAt st u T := by
  obtain ⟨v, u, hok, rfl⟩ := exec_build_ok h hs
  have hTu : Holds u T u.root := Holds.of_arena (st := u.endOk v) (t := u) ⟨rfl, rfl⟩ hT
  rcases buildTree_cases st with ⟨_, hrun⟩ | ⟨_, _, u', T', hrun, hb⟩ | ⟨_, _, _, hrun, _⟩
  · cases hok.symm.trans hrun
  · obtain ⟨_, rfl⟩ := Result.ok.inj (hok.symm.trans hrun)
    obtain rfl := hTu.unique hb.holds
    exact ⟨v, u, rfl, hb⟩
  · cases hok.symm.trans hrun

/-- Settles O35: joining the two least weights never loses anything (`Best.join`), down to the one tree left. -/
theorem buildIsOptimal : Obligations.BuildIsOptimal := by
  intro st t T U hend hs hT hU
  obtain ⟨_, _, _, hb⟩ := built_of_exec hend hs hT
  exact hb.cost_le hU

/-! ## What BUILD depends on (R147) -/

theorem Agree.liveHeap_eq {st st' : State} (h : Agree st st') : st.liveHeap = st'.liveHeap := by
  rw [State.liveHeap_eq, State.liveHeap_eq, h.size]
  exact (live_congr h.heap.same).symm

/-- Settles O37: the two bodies end alike, in states that agree (`agree_buildTree`), and so do the epilogues. -/
theorem buildDependsOnFreqOnly : Obligations.BuildDependsOnFreqOnly := by
  intro st st' hfreq
  have hat : ∀ y, st'.freqAt y = st.freqAt y := fun y => by rw [State.freqAt, State.freqAt, hfreq]
  obtain ⟨v, k, t, t', ⟨hrun, hrun'⟩ | ⟨hrun, hrun'⟩, ha⟩ := agree_buildTree hat
  · exact ⟨t.endOk v, t'.endOk v, congrArg finish hrun, congrArg finish hrun', rfl, ha.count.symm, ha.size.symm,
      ha.root.symm, ha.valid.symm, fun i hi => (ha.slots i hi).symm, ha.liveHeap_eq, fun _ => rfl⟩
  · refine ⟨t.endError k, t'.endError k, congrArg finish hrun, congrArg finish hrun', rfl, ha.count.symm, ha.size.symm,
      ha.root.symm, ha.valid.symm, fun i hi => (ha.slots i hi).symm, ha.liveHeap_eq, fun hok => ?_⟩
    cases hok

end Sys2Proof.Machine
end

section
/-! PROOFS. The code table (spec/43_codegen.md): what CODEGEN stores, from the laws of its walk (`generateCodes_fits`,
`generateCodes_tooDeep`), and the properties of the codes a tree gives, from those of the tree's paths. -/

namespace Sys2Proof.Machine

/-! ## What CODEGEN stores (R160 to R162, R164) -/

theorem endsOk_codegen {st t : State} (h : generateCodes st = .ok () t) : EndsOk (exec .codegen st) 0 t :=
  endsOk_of_body (by rw [body, h, Result.andThen_ok])

theorem endsIn_codegen {st t : State} {k : ErrorKind} (h : generateCodes st = .raised k t) :
    EndsIn (exec .codegen st) k t :=
  endsIn_of_body (by rw [body, h, Result.andThen_raised])

/-- Without a tree the table is cleared all the same (R160). -/
theorem generateCodes_noTree {st : State} (h : st.treeValid = false) :
    generateCodes st = .raised .corruptTree st.clearCode := by
  simp only [generateCodes, State.clearCode_treeValid, h, Bool.false_eq_true, if_false]

/-- Settles O38: the walk assigns the codes of all leaves in pre-order (`generateCodes_fits`). -/
theorem codegenFillsTable : Obligations.CodegenFillsTable := by
  intro st T hv hT hd
  obtain ⟨t, hrun, honly, hcode⟩ := generateCodes_fits hv hT hd
  exact ⟨t, endsOk_codegen hrun, honly, hcode⟩

/-- Settles O39: the walk stops at the depth bound with the codes given so far (`generateCodes_tooDeep`), or does not
begin (`generateCodes_noTree`). -/
theorem codegenFailures : Obligations.CodegenFailures := by
  intro st
  refine ⟨fun T hv hT hd => ?tooDeep, fun hv => ?noTree⟩
  case tooDeep =>
    obtain ⟨t, hrun, honly, hcode⟩ := generateCodes_tooDeep hv hT hd
    exact ⟨t, endsIn_codegen hrun, honly, hcode⟩
  case noTree => exact ⟨st.clearCode, endsIn_codegen (generateCodes_noTree hv), rfl, st.codeAt_clearCode⟩

/-! ## The codes of a tree (R163) -/

theorem CodeEntry.bits_length (e : CodeEntry) : e.bits.length = e.len.toNat := fieldBits_length _ _

theorem pathCode_pat_lt {p : List Bool} (h : p.length ≤ 64) :
    (pathCode p).pat.toNat < 2 ^ (pathCode p).len.toNat := by
  have hpat : (pathCode p).pat.toNat ≤ bitsToNat p := (BitVec.toNat_ofNat _ _).trans_le (Nat.mod_le _ _)
  have hlen : p.length ≤ (pathCode p).len.toNat := by
    rw [pathCode_len h]
    split
    next hnil => simp [hnil]
    next => exact Nat.le_refl _
  calc (pathCode p).pat.toNat ≤ bitsToNat p := hpat
    _ < 2 ^ p.length := bitsToNat_lt p
    _ ≤ 2 ^ (pathCode p).len.toNat := Nat.pow_le_pow_right (by decide) hlen

/-- Only a tree with two or more leaves has two symbols. -/
theorem Tree.two_le_leaves {T : Tree} {y z : Symbol} (hy : y ∈ T.paths.map Prod.fst) (hz : z ∈ T.paths.map Prod.fst)
    (hne : y ≠ z) : 2 ≤ T.leaves := by
  cases T with
  | leaf x =>
    rw [← Tree.symbols_eq, Tree.symbols, List.mem_singleton] at hy hz
    exact absurd (hy.trans hz.symm) hne
  | node l r => exact Nat.add_le_add l.leaves_pos r.leaves_pos

theorem Tree.codeOf_leaf_bits (y : Symbol) : ((Tree.leaf y).codeOf y).bits = [false] := by
  have hcode : (Tree.leaf y).codeOf y = pathCode [] :=
    Tree.codeOf_path (T := .leaf y) (List.nodup_singleton y) (List.mem_singleton_self _)
  rw [hcode, pathCode_bits (Nat.zero_le _), if_pos rfl]

/-- The share of the code space that one code takes up, `2^(63 − len)` of `2^63`; an unassigned symbol takes none. -/
def CodeEntry.share (e : CodeEntry) : Nat := if e.len.toNat = 0 then 0 else 2 ^ (63 - e.len.toNat)

theorem CodeEntry.share_assigned {e : CodeEntry} (h : 0 < e.len.toNat) : e.share = 2 ^ (63 - e.len.toNat) :=
  if_neg h.ne'

section
variable {T : Tree} (hd : T.depth < 64)
include hd

theorem Tree.codeOf_len_pos_iff (y : Symbol) : 0 < (T.codeOf y).len.toNat ↔ y ∈ T.paths.map Prod.fst := by
  constructor
  · intro hpos
    rcases T.codeOf_spec y with ⟨hnone, _⟩ | ⟨p, hp, _⟩
    · rw [hnone] at hpos
      exact absurd hpos (by decide)
    · exact List.mem_map_of_mem hp
  · exact fun hy => Nat.pos_of_ne_zero fun h0 => (Tree.codeOf_len hd hy).1 (BitVec.eq_of_toNat_eq h0)

theorem Tree.codeOf_pat_lt (y : Symbol) : (T.codeOf y).pat.toNat < 2 ^ (T.codeOf y).len.toNat := by
  rcases T.codeOf_spec y with ⟨hnone, _⟩ | ⟨p, hp, hcode⟩
  · rw [hnone]; decide
  · have hle := Tree.length_path_le hp
    rw [hcode]
    exact pathCode_pat_lt (by omega)

theorem Tree.share_codeOf_of_not_mem {y : Symbol} (h : y ∉ T.paths.map Prod.fst) : (T.codeOf y).share = 0 :=
  if_pos (Nat.eq_zero_of_not_pos fun hpos => h ((Tree.codeOf_len_pos_iff hd y).1 hpos))

/-- With two or more leaves a code is the path to one of its symbol's leaves. -/
theorem Tree.codeOf_bits_mem (h2 : 2 ≤ T.leaves) {y : Symbol} (hy : y ∈ T.paths.map Prod.fst) :
    (y, (T.codeOf y).bits) ∈ T.paths := by
  rcases T.codeOf_spec y with ⟨_, hnone⟩ | ⟨p, hp, hcode⟩
  · obtain ⟨⟨_, q⟩, hq, rfl⟩ := List.mem_map.1 hy
    exact absurd hq (hnone q)
  · have hle := Tree.length_path_le hp
    have hne : p ≠ [] := by
      rintro rfl
      rw [Tree.leaf_of_nil_path hp] at h2
      exact absurd h2 (by simp [Tree.leaves])
    rwa [hcode, pathCode_bits (by omega), if_neg hne]

/-- No two symbols have codes of which one begins the other: their codes are paths of one tree. -/
theorem Tree.codeOf_prefix_free {y z : Symbol} (hy : y ∈ T.paths.map Prod.fst) (hz : z ∈ T.paths.map Prod.fst)
    (hne : y ≠ z) : ¬ (T.codeOf y).bits <+: (T.codeOf z).bits := by
  have h2 := Tree.two_le_leaves hy hz hne
  exact fun hpre => hne (Tree.paths_prefix_free (Tree.codeOf_bits_mem hd h2 hy) (Tree.codeOf_bits_mem hd h2 hz) hpre).1

/-- With two or more leaves, of distinct symbols, a leaf's code is as long as the way to it. -/
theorem Tree.codeOf_len_eq (h2 : 2 ≤ T.leaves) (hn : (T.paths.map Prod.fst).Nodup) {y : Symbol} {p : List Bool}
    (h : (y, p) ∈ T.paths) : (T.codeOf y).len.toNat = p.length := by
  have hpath : (y, (T.codeOf y).bits) = (y, p) :=
    List.inj_on_of_nodup_map hn (Tree.codeOf_bits_mem hd h2 (List.mem_map_of_mem h)) h rfl
  rw [← CodeEntry.bits_length, (Prod.mk.inj hpath).2]

/-- The shares of the tree's own symbols fill the code space. -/
theorem Tree.sum_share_symbols (h2 : 2 ≤ T.leaves) (hn : (T.paths.map Prod.fst).Nodup) :
    ((T.paths.map Prod.fst).map fun y => (T.codeOf y).share).sum = 2 ^ 63 := by
  rw [List.map_map, ← T.kraft 63 (by omega)]
  refine congrArg List.sum (List.map_congr_left fun p hp => ?_)
  have hpos := (Tree.codeOf_len_pos_iff hd p.1).2 (List.mem_map_of_mem hp)
  rw [Function.comp_apply, CodeEntry.share_assigned hpos, Tree.codeOf_len_eq hd h2 hn hp]

end

/-- A sum over the whole symbol table is the sum over the symbols of a list outside which its terms are 0. -/
theorem sum_table_eq {g : Symbol → Nat} {ys : List Symbol} (hn : ys.Nodup) (h0 : ∀ y, y ∉ ys → g y = 0) :
    ((List.range 256).map fun i => g (symbolOf i)).sum = (ys.map g).sum := by
  have hall : ∀ y, y ∈ (List.range 256).map symbolOf := fun y =>
    List.mem_map.2 ⟨y.toNat, List.mem_range.2 y.isLt, symbolOf_of_toNat y⟩
  have hnodup : ((List.range 256).map symbolOf).Nodup := List.Nodup.map_on (fun a ha b hb e => by
    rw [← symbolOf_toNat (List.mem_range.1 ha), e, symbolOf_toNat (List.mem_range.1 hb)]) List.nodup_range
  calc ((List.range 256).map fun i => g (symbolOf i)).sum
      = (((List.range 256).map symbolOf).map g).sum := congrArg List.sum List.map_map.symm
    _ = ∑ y ∈ ((List.range 256).map symbolOf).toFinset, g y := (List.sum_toFinset g hnodup).symm
    _ = ∑ y ∈ ys.toFinset, g y :=
        (Finset.sum_subset (fun y _ => List.mem_toFinset.2 (hall y)) fun y _ hy => h0 y (hy ∘ List.mem_toFinset.2)).symm
    _ = (ys.map g).sum := List.sum_toFinset g hn

/-- The codes are complete: over the whole table the shares fill the code space (R163 item 4). -/
theorem Tree.sum_share_table {T : Tree} (hd : T.depth < 64) (h2 : 2 ≤ T.leaves) (hn : (T.paths.map Prod.fst).Nodup) :
    ((List.range 256).map fun i => (T.codeOf (symbolOf i)).share).sum = 2 ^ 63 :=
  (sum_table_eq hn fun _ => Tree.share_codeOf_of_not_mem hd).trans (Tree.sum_share_symbols hd h2 hn)

/-! ## BUILD's trees (R163) -/

/-- A BUILD that ends with `OK` leaves a tree as R146 says. -/
theorem exists_built_of_exec {st t : State} (h : exec .build st = .next t) (hs : t.status = .ok) :
    ∃ v u T, t = u.endOk v ∧ Built st.freqAt st u T := by
  obtain ⟨v, u, hok, rfl⟩ := exec_build_ok h hs
  rcases buildTree_cases st with ⟨_, hrun⟩ | ⟨_, _, u', T, hrun, hb⟩ | ⟨_, _, _, hrun, _⟩
  · cases hok.symm.trans hrun
  · obtain ⟨_, rfl⟩ := Result.ok.inj (hok.symm.trans hrun)
    exact ⟨v, u, T, rfl, hb⟩
  · cases hok.symm.trans hrun

section
variable {st t : State} {T : Tree}

theorem Built.symbols_nodup (h : Built st.freqAt st t T) : (T.paths.map Prod.fst).Nodup := by
  rw [← T.symbols_eq, h.symbols.nodup_iff]
  exact nonzero_nodup st.freqAt

theorem Built.mem_symbols (h : Built st.freqAt st t T) (y : Symbol) : y ∈ T.paths.map Prod.fst ↔ st.freqAt y ≠ 0 := by
  rw [← T.symbols_eq, h.symbols.mem_iff]
  exact mem_nonzero

end

/-- Settles O40: the table is `Tree.codeOf` (`generateCodes_fits`), whose codes are the tree's paths
(`Tree.codeOf_bits_mem`); the leaves of a built tree are the used symbols, each once. -/
theorem codegenCodes : Obligations.CodegenCodes := by
  refine ⟨fun st T hv hT hd hn => ?codes, fun st t hend hs => ?build⟩
  case codes =>
    obtain ⟨t, hrun, -, hcode⟩ := generateCodes_fits hv hT hd
    refine ⟨t, endsOk_codegen hrun, ?_⟩
    simp only [hcode]
    have hassigned := Tree.codeOf_len_pos_iff hd
    exact ⟨hassigned, Tree.codeOf_pat_lt hd,
      fun y z hy hz => Tree.codeOf_prefix_free hd ((hassigned y).1 hy) ((hassigned z).1 hz),
      fun h2 => Tree.sum_share_table hd h2 hn,
      fun y hleaf => hleaf ▸ Tree.codeOf_leaf_bits y,
      fun h2 y rest hy => Tree.walk_path (Tree.codeOf_bits_mem hd h2 hy) rest⟩
  case build =>
    obtain ⟨v, u, T, rfl, hb⟩ := exists_built_of_exec hend hs
    exact ⟨T, Holds.of_arena (st := u) (t := u.endOk v) ⟨rfl, rfl⟩ hb.holds, hb.symbols_nodup, hb.mem_symbols⟩

end Sys2Proof.Machine
end

section
/-! PROOFS. The tree serializer and deserializer (spec/44_tree_codec.md): what TREE_SAVE appends, what TREE_LOAD makes of a
tree's bits and where it stops on any others, and that a tree saved and loaded is the same tree. -/

namespace Sys2Proof.Machine

variable {st t u : State} {s : StreamSel} {T : Tree}

/-! ## How a command has ended -/

theorem EndsOk.status {o : Host.Outcome State Fault Refusal} {v : Word} (h : EndsOk o v t) (hu : o = .next u) :
    u.status = .ok := by
  obtain rfl := Host.Outcome.next.inj (h.symm.trans hu)
  rfl

theorem EndsIn.status {o : Host.Outcome State Fault Refusal} {k : ErrorKind} (h : EndsIn o k t) (hu : o = .next u) :
    u.status = .error k := by
  obtain ⟨r, n, hr⟩ := h
  obtain rfl := Host.Outcome.next.inj (hr.symm.trans hu)
  rfl

/-! ## Writing a bit string (R103, R104) -/

/-- From `st` to `t` the writer on stream `s` appended the bits `bs`, and nothing else changed. -/
def Appended (s : StreamSel) (bs : List Bool) (st t : State) : Prop :=
  OnlyWriter s st t ∧ t.written s = st.written s ++ bs ∧ (t.bs s).pos = (st.bs s).pos + bs.length ∧
    (t.bs s).mode = .writer ∧ (t.bs s).limit = (st.bs s).limit ∧ (t.bs s).Ok (st.bufSize (streamSpace s)) ∧
    BytesKept (streamSpace s) (st.bs s).byte.toNat (t.bs s).byte.toNat st t

theorem WriterOk.appended {bs : List Bool} (ht : WriterOk t s) (hf : WriterFrame s st t)
    (hw : t.written s = st.written s ++ bs) : Appended s bs st t := by
  refine ⟨hf.rest, hw, ?_, hf.keeps ht⟩
  rw [← State.written_length t, hw, List.length_append, State.written_length]

theorem writeList_appends (bs : List Bool) (hw : WriterOk st s) (hr : (st.bs s).hasRoom bs.length) :
    ∃ t, writeList s bs st = .ok () t ∧ Appended s bs st t := by
  obtain ⟨t, hrun, ht, hwritten, -, hf⟩ := writeList_room bs hw hr
  exact ⟨t, hrun, ht.appended hf hwritten⟩

/-- Without room for all the bits, those there is room for are appended. -/
theorem writeList_overflows (bs : List Bool) (hw : WriterOk st s) (hr : ¬ (st.bs s).hasRoom bs.length) :
    ∃ t, writeList s bs st = .raised .overflow t ∧ Appended s (bs.take (st.bs s).space) st t := by
  obtain ⟨t, hrun, ht, hwritten, -, hf⟩ := writeList_noRoom bs hw hr
  exact ⟨t, hrun, ht.appended hf hwritten⟩

theorem WriterOk.length_take_space {bs : List Bool} (hw : WriterOk st s) (hr : ¬ (st.bs s).hasRoom bs.length) :
    (bs.take (st.bs s).space).length = (st.bs s).space := by
  rw [Stream.hasRoom_iff hw.ok.byte_le] at hr
  exact List.length_take_of_le (by omega)

/-! ## TREE_SAVE (R171, R172) -/

theorem body_treeSave_noTree (hm : (st.bs .tree).mode = .writer) (hv : st.treeValid = false) :
    body .treeSave st = .raised .corruptTree st := by
  rw [body, treeSaveBody, inMode_eq hm, hv]
  rfl

/-- Settles O42: past its checks the command writes the tree's bit string (`body_treeSave`): all of it, or what there is
room for. -/
theorem treeSaveEffect : Obligations.TreeSaveEffect := by
  intro st hb hok
  refine ⟨endsIn_notWriter rfl, fun hm hv => endsIn_of_body (body_treeSave_noTree hm hv), fun T hm hv hT =>
    ⟨?length, fun hr => ?room, fun hr => ?noRoom⟩⟩
  case length =>
    have := T.bits_length
    omega
  case room =>
    obtain ⟨t, hrun, happ⟩ := writeList_appends T.bits (hok.writerOk hb hm) hr
    refine ⟨t, endsOk_of_body ?_, happ⟩
    rw [body_treeSave hm hv hT, hrun, Result.andThen_ok]
  case noRoom =>
    have hw := hok.writerOk hb hm
    obtain ⟨t, hrun, happ⟩ := writeList_overflows T.bits hw hr
    rw [Appended, hw.length_take_space hr] at happ
    refine ⟨t, endsIn_of_body ?_, happ⟩
    rw [body_treeSave hm hv hT, hrun, Result.andThen_raised]

/-! ## TREE_LOAD (R176, R177) -/

theorem body_treeLoad (hm : (st.bs .tree).mode = .reader) : body .treeLoad st = loadTree st := inMode_eq hm

/-- A reader's cursor moves past the bits it has delivered. -/
theorem ReaderOk.pos_of_unread {bs : List Bool} (h : ReaderOk st s) (h' : ReaderOk t s)
    (hl : (t.bs s).limit = (st.bs s).limit) (hu : st.unread s = bs ++ t.unread s) :
    (t.bs s).pos = (st.bs s).pos + bs.length := by
  have hlen := congrArg List.length hu
  rw [List.length_append, State.unread_length, State.unread_length, hl] at hlen
  have hle := h.pos_le
  have hle' := h'.pos_le
  rw [hl] at hle'
  omega

/-- Settles O43: the recursive procedure makes the tree its bits spell (`loadTree_tree`), and a load touches no
buffer (`OnlyLoad`). -/
theorem treeLoadEffect : Obligations.TreeLoadEffect := by
  intro st T rest hok hm hu hL
  have hr : ReaderOk st .tree := ⟨hm, hok .tree⟩
  obtain ⟨t, hrun, hv, hT, hroot, hcount, hheap, ht, hrest, hfreq, -, hlimit, honly⟩ := loadTree_tree hr hu hL
  have hpos := hr.pos_of_unread ht hlimit (hrest.symm ▸ hu)
  exact ⟨t, endsOk_of_body ((body_treeLoad hm).trans hrun), honly, hv, hT, by omega, hcount, hheap, hfreq, hrest, hpos,
    ht.mode, hlimit, fun x => honly.same (p := .bytes x) (by simp)⟩

/-! ## Where TREE_LOAD stops (R178, R181) -/

/-- A load that stops inside a tree fails there, the arena a forest without a root. -/
theorem treeLoad_stops {z : Unfinished} {n : Nat} {k : ErrorKind} (hr : ReaderOk st .tree)
    (h : LoadStops (st.unread .tree) z n k) :
    ∃ t, EndsIn (exec .treeLoad st) k t ∧ LoadFailed z n st t ∧ ArenaOk t := by
  obtain ⟨t, hrun, hfail⟩ := loadTree_stops hr h
  refine ⟨t, endsIn_of_body ((body_treeLoad hr.mode).trans hrun), hfail, ?_⟩
  rcases loadTree_cases st with ⟨_, _, hok, -⟩ | ⟨_, _, hraised, -, harena, -⟩
  · cases hrun.symm.trans hok
  · obtain ⟨-, rfl⟩ := Result.raised.inj (hrun.symm.trans hraised)
    exact harena

/-- Settles O44: every bit string begins with the bits of a tree that fits, or a load of it stops (`tree_or_loadStops`). -/
theorem treeLoadAcceptsExactly : Obligations.TreeLoadAcceptsExactly := by
  intro st hok hm
  have hr : ReaderOk st .tree := ⟨hm, hok .tree⟩
  refine ⟨fun ⟨t, hend, hs⟩ => ?accepted, fun ⟨T, rest, hu, hL⟩ => ?tree⟩
  case accepted =>
    refine (tree_or_loadStops (st.unread .tree)).resolve_right fun ⟨z, n, k, hstop⟩ => ?_
    obtain ⟨u, hu, -⟩ := treeLoad_stops hr hstop
    cases hs.symm.trans (hu.status hend)
  case tree =>
    obtain ⟨t, ht, -⟩ := treeLoadEffect st T rest hok hm hu hL
    exact ⟨_, ht, rfl⟩

/-- Settles O45: what a load leaves where it stops (`treeLoad_stops`); on all other bits, those of a tree
(`tree_or_loadStops`), it ends with `OK`. -/
theorem treeLoadFailure : Obligations.TreeLoadFailure := by
  intro st hok hm
  have hr : ReaderOk st .tree := ⟨hm, hok .tree⟩
  refine ⟨fun z n k hstop => treeLoad_stops hr hstop, fun t k hend hs => ?_⟩
  rcases tree_or_loadStops (st.unread .tree) with ⟨T, rest, hu, hL⟩ | ⟨z, n, k', hstop⟩
  case inl =>
    obtain ⟨u, hu, -⟩ := treeLoadEffect st T rest hok hm hu hL
    cases hs.symm.trans (hu.status hend)
  case inr =>
    obtain ⟨u, hu, -⟩ := treeLoad_stops hr hstop
    obtain rfl := ResultCode.error.inj (hs.symm.trans (hu.status hend))
    exact ⟨z, n, hstop⟩

/-! ## A tree saved and loaded (R180) -/

/-- The host opens a writer of `cap` bytes, saves the tree and finalizes. -/
def saveLines (cap : Length) : Script.Lines :=
  Script.openW .tree (cap.zeroExtend 64) ++ Script.command .treeSave ++ Script.command (.finalize .tree)

/-- The host opens a reader of `c` bytes and loads the tree. -/
def loadLines (c : Length) : Script.Lines := Script.openR .tree (c.zeroExtend 64) ++ Script.command .treeLoad

/-- After a save the tree's bits are in the buffer, and `RESULT` is the number of their bytes. -/
theorem run_saveLines {cap : Length} (hb : BuffersOk st) (hv : st.treeValid = true) (hT : Holds st T st.root)
    (hcap : cap.toNat ≤ st.bufSize .tree) (hlen : T.bits.length ≤ 8 * cap.toNat) :
    ∃ (b : State) (x : Side) (pad : List Bool), runLines (saveLines cap) st = .next (b.side x) ∧
      x.status = .ok ∧ x.errlog = st.errlog ∧ x.result = (b.bs .tree).byte.zeroExtend 64 ∧
      (b.bs .tree).byte.toNat = (T.bits.length + 7) / 8 ∧ (b.bs .tree).byte.toNat ≤ b.bufSize .tree ∧
      ((List.range (8 * (b.bs .tree).byte.toNat)).map fun n => b.bufBit .tree n) = T.bits ++ pad := by
  have hopen := onlyStream_setBs .tree st (Stream.opened .writer cap)
  obtain ⟨b, hrun, honly, -, hcount, hle, hbits⟩ := run_write_finalize (n := 0) (ts := []) (i := .treeSave)
    (x := { st.aside with host := saveLines cap }) rfl hb hcap hlen (by decide) (fun _ _ => trivial)
    (body_treeSave (mode_opened st .tree .writer cap) hv (hT.of_arena hopen.arena))
  exact ⟨b, _, _, hrun, rfl, rfl, rfl, hcount, hle.trans (hcap.trans_eq (honly.bufSize .tree).symm), hbits⟩

/-- A load from a buffer that holds a tree's bits makes that tree. -/
theorem run_loadLines {b : State} {x : Side} {c : Length} {pad : List Bool} (hL : T.leaves ≤ 256)
    (hc : c.toNat ≤ b.bufSize .tree)
    (hbits : ((List.range (8 * c.toNat)).map fun n => b.bufBit .tree n) = T.bits ++ pad) :
    ∃ v, runLines (loadLines c) (b.side x) = .next v ∧ v.status = .ok ∧ v.errlog = x.errlog ∧ v.treeValid = true ∧
      Holds v T v.root := by
  obtain ⟨t, hload, hv, hT, -⟩ := load_saved hc hL hbits
  have hopen := run_openR (n := 1) (s := .tree) (ts := Script.command .treeLoad) (x := { x with host := loadLines c })
    rfl hc
  exact ⟨_, hopen.trans (run_command rfl (by decide) trivial hload), rfl, rfl, hv, State.holds_side hT⟩

/-- Settles O46: `run_saveLines` leaves the tree's bits and padding in the buffer, and `run_loadLines` makes the tree of them. -/
theorem treeRoundTrip : Obligations.TreeRoundTrip := by
  intro st T cap hb hv hT hL hcap hroom
  have hlen := T.bits_length
  obtain ⟨b, x, pad, hrun, hstatus, hlog, hresult, hcount, hle, hbits⟩ := run_saveLines hb hv hT hcap (by omega)
  obtain ⟨v, hload, hok, hlog', hvalid, hholds⟩ := run_loadLines (x := x) hL hle hbits
  refine ⟨b.side x, hrun, hstatus, hlog, ?count, v, ?load, hok, hlog'.trans hlog, hvalid, hholds⟩
  case count =>
    calc x.result.toNat = (b.bs .tree).byte.toNat := by
          rw [hresult]
          exact BitVec.toNat_setWidth_of_le (by decide)
      _ = (10 * T.leaves + 6) / 8 := by omega
  case load =>
    rw [show (b.side x).result = _ from hresult]
    exact hload

end Sys2Proof.Machine
end

section
/-! PROOFS. The payload codec (spec/45_payload_codec.md): how deep BUILD's trees are, what ENCODE appends and DECODE
stores, how they stop, and that a buffer encoded and decoded is the same buffer. -/

namespace Sys2Proof.Machine

variable {st t : State} {T : Tree}

/-! ## How deep BUILD's trees are (R198) -/

theorem Built.weight_eq (h : Built st.freqAt st t T) : T.weight st.freqAt = st.totalFreq := by
  rw [← h.root_freq]
  exact (h.building.weight (t.root, T) (List.mem_singleton_self _)).symm

theorem Built.fib_le (h : Built st.freqAt st t T) : Nat.fib (T.depth + 2) ≤ st.totalFreq :=
  h.weight_eq ▸ (h.building.grown (t.root, T) (List.mem_singleton_self _)).fib_le.1

/-- Settles O36: no node of a built tree is lighter than a child of its sibling, so each level down takes the next
Fibonacci number (`Tree.Grown.fib_le`). -/
theorem buildDepthBound : Obligations.BuildDepthBound := by
  intro st t T hend hs hT
  obtain ⟨_, _, _, hb⟩ := built_of_exec hend hs hT
  refine ⟨hb.fib_le, fun hlt => ?_⟩
  by_contra hdeep
  have hmono : Nat.fib 66 ≤ Nat.fib (T.depth + 2) := Nat.fib_mono (by omega)
  have h66 : Nat.fib 66 = 27777890035288 := by norm_num
  exact absurd (hmono.trans hb.fib_le) (by omega)

/-! ## ENCODE (R190, R191) -/

theorem body_encode (hm : (st.bs .pay).mode = .writer) (hl : st.rawLen.toNat ≤ st.bufSize .raw) :
    body .encode st = (forLoop encodeByte st.rawLen.toNat 0 st).andThen fun _ t => .ok 0 t := by
  rw [body, encodeBody, inMode_eq hm, if_neg (Nat.not_lt.2 hl)]

theorem body_encode_illegal (h : (st.bs .pay).mode ≠ .writer ∨ st.bufSize .raw < st.rawLen.toNat) :
    body .encode st = .raised .illegalCommand st := by
  by_cases hm : (st.bs .pay).mode = .writer
  · rw [body, encodeBody, inMode_eq hm, if_pos (h.resolve_left (not_not.2 hm)), Result.andThen_raised]
  · exact body_notWriter rfl hm

/-- When every valid byte has a code ENCODE writes the codes. -/
theorem body_encode_assigned (hm : (st.bs .pay).mode = .writer) (hl : st.rawLen.toNat ≤ st.bufSize .raw)
    (h : ∀ x ∈ st.rawBytes st.rawLen.toNat, (st.codeAt x).len ≠ 0) :
    body .encode st =
      (writeList .pay (st.codeBits (st.rawBytes st.rawLen.toNat)) st).andThen fun _ t => .ok 0 t := by
  rw [← State.rawFrom_zero] at h ⊢
  rw [body_encode hm hl, encodeLoop_assigned _ _ _ h]

/-- ENCODE's loop stops where the codes of its first `j` bytes do. -/
theorem encodeLoop_raised {n j : Nat} {k : ErrorKind} (hj : j ≤ n) (h : ∀ x ∈ st.rawBytes j, (st.codeAt x).len ≠ 0)
    (hw : writeList .pay (st.codeBits (st.rawBytes j)) st = .raised k t) :
    forLoop encodeByte n 0 st = .raised k t := by
  rw [← State.rawFrom_zero] at h hw
  rw [← Nat.add_sub_cancel' hj, forLoop_add, encodeLoop_assigned j 0 st h, hw, Result.andThen_raised]

/-- Settles O47: the loop writes the codes of the bytes as one bit string (`encodeLoop_assigned`), and stops at a byte
without a code or where that bit string has no more room. -/
theorem encodeEffect : Obligations.EncodeEffect := by
  intro st hb hok
  refine ⟨fun h => endsIn_of_body (body_encode_illegal h), fun hm hl hcodes hr => ?all,
    fun j hm hl hj hcodes hx hr => ?unassigned, fun j hm hl hj hcodes hr => ?noRoom⟩
  case all =>
    obtain ⟨t, hrun, happ⟩ := writeList_appends _ (hok.writerOk hb hm) hr
    refine ⟨t, endsOk_of_body ?_, happ⟩
    rw [body_encode_assigned hm hl hcodes, hrun, Result.andThen_ok]
  case unassigned =>
    obtain ⟨t, hrun, happ⟩ := writeList_appends _ (hok.writerOk hb hm) hr
    refine ⟨t, endsIn_of_body ?_, happ⟩
    rw [← State.rawFrom_zero] at hcodes hrun
    rw [body_encode hm hl, encodeLoop_unassigned st hj hcodes (by rwa [Nat.zero_add]), hrun, Result.andThen_ok,
      Result.andThen_raised]
  case noRoom =>
    have hw := hok.writerOk hb hm
    obtain ⟨t, hrun, happ⟩ := writeList_overflows _ hw hr
    rw [Appended, hw.length_take_space hr] at happ
    refine ⟨t, endsIn_of_body ?_, happ⟩
    rw [body_encode hm hl, encodeLoop_raised hj hcodes hrun, Result.andThen_raised]

/-! ## DECODE (R195, R196) -/

theorem body_decode {count : Length} (hm : (st.bs .pay).mode = .reader) (ha : st.arg0 = count.zeroExtend 64)
    (hv : st.treeValid = true) :
    body .decode st = (forLoop decodeSymbol count.toNat 0 { st with rawLen := 0 }).andThen fun _ t =>
      .ok (count.zeroExtend 64) { t with rawLen := count } := by
  rw [body, decodeBody, inMode_eq hm, decodePayload, lengthOperand_eq ha]
  exact if_pos hv

theorem body_decode_ok {count : Length} (hm : (st.bs .pay).mode = .reader) (ha : st.arg0 = count.zeroExtend 64)
    (hv : st.treeValid = true) (h : forLoop decodeSymbol count.toNat 0 { st with rawLen := 0 } = .ok () t) :
    body .decode st = .ok (count.zeroExtend 64) { t with rawLen := count } := by
  rw [body_decode hm ha hv, h, Result.andThen_ok]

theorem body_decode_raised {count : Length} {k : ErrorKind} (hm : (st.bs .pay).mode = .reader)
    (ha : st.arg0 = count.zeroExtend 64) (hv : st.treeValid = true)
    (h : forLoop decodeSymbol count.toNat 0 { st with rawLen := 0 } = .raised k t) :
    body .decode st = .raised k t := by
  rw [body_decode hm ha hv, h, Result.andThen_raised]

theorem body_decode_illegal (h : (st.bs .pay).mode ≠ .reader ∨ st.arg0.extractLsb' 32 32 ≠ 0) :
    body .decode st = .raised .illegalCommand st := by
  by_cases hm : (st.bs .pay).mode = .reader
  · rw [body, decodeBody, inMode_eq hm, decodePayload, lengthOperand_wide (h.resolve_left (not_not.2 hm))]
  · exact body_notReader rfl hm

theorem body_decode_noTree (hm : (st.bs .pay).mode = .reader) (ha : st.arg0.extractLsb' 32 32 = 0)
    (hv : st.treeValid = false) : body .decode st = .raised .corruptTree st := by
  rw [body, decodeBody, inMode_eq hm, decodePayload, lengthOperand_low ha, hv]
  rfl

theorem DecodeFrame.rawLen {a b : Nat} (h : DecodeFrame a b st t) : t.rawLen = st.rawLen := by rw [h.rest]

theorem DecodeFrame.only {a b : Nat} (h : DecodeFrame a b st t) : OnlyDecode st t := by
  unfold OnlyDecode
  rw [h.rawLen]
  exact h.rest

theorem DecodeFrame.bytesKept {a b : Nat} (h : DecodeFrame a b st t) : BytesKept .raw a b st t := by
  intro x adr hx
  by_cases hr : x = .raw
  · subst hr
    exact h.raw adr fun hadr => hx ⟨rfl, hadr⟩
  · exact h.only.same (p := .bytes x) (by simp [hr]) adr

theorem Holds.setRawLen {i : NodeIdx} (h : Holds st T i) (len : Length) : Holds { st with rawLen := len } T i :=
  Holds.of_arena (st := st) (t := { st with rawLen := len }) ⟨rfl, rfl⟩ h

/-- From `st` to `t` DECODE stored the symbols `ys` at the first `n` addresses of RAW, set `RAW_LEN` to `len` and left
the bits `rest` for the reader; nothing else changed. -/
def Decoded (n : Nat) (len : Length) (ys : List Symbol) (rest : List Bool) (st t : State) : Prop :=
  OnlyDecode st t ∧ t.rawLen = len ∧ t.rawBytes n = ys ∧ t.unread .pay = rest ∧ (t.bs .pay).mode = .reader ∧
    (t.bs .pay).limit = (st.bs .pay).limit ∧ BytesKept .raw 0 n st t

section
variable {n : Nat} {ys : List Symbol} {rest : List Bool}

/-- What DECODE's loop leaves; `RAW_LEN` is 0 while it runs (R196). -/
theorem DecodeFrame.decoded (h : DecodeFrame 0 n { st with rawLen := 0 } t) (hr : ReaderOk t .pay)
    (hraw : t.rawBytes n = ys) (hu : t.unread .pay = rest) : Decoded n 0 ys rest st t :=
  ⟨frame_onlyDecode.trans (t := { st with rawLen := 0 }) rfl h.only, h.rawLen, hraw, hu, hr.mode, h.limit, h.bytesKept⟩

theorem Decoded.setRawLen {l : Length} (h : Decoded n l ys rest st t) (len : Length) :
    Decoded n len ys rest st { t with rawLen := len } := by
  obtain ⟨honly, -, hdone⟩ := h
  exact ⟨frame_onlyDecode.trans honly rfl, rfl, hdone⟩

end

/-- Settles O48: the loop stores the symbols `Tree.decodeMany` gives of the bits left (`decodeLoop_some`). -/
theorem decodeEffect : Obligations.DecodeEffect := by
  intro st T count ys rest hb hok hm ha hv hT hroom hdec
  have hT' := hT.setRawLen 0
  obtain ⟨t, hrun, hr, hu, hraw, hf⟩ := decodeLoop_some count.toNat 0 hT' ⟨hm, hok .pay⟩ (hb .raw)
    (by rwa [Nat.zero_add]) hdec
  rw [State.rawFrom_zero] at hraw
  rw [Nat.zero_add] at hf
  exact ⟨{ t with rawLen := count }, endsOk_of_body (body_decode_ok hm ha hv hrun),
    (hf.decoded hr hraw hu).setRawLen count⟩

/-- Settles O49: the checks come before the loop; the loop fails in a walk that runs out of bits (`decodeLoop_truncated`)
or after one for whose symbol RAW has no room (`decodeLoop_overflow`). -/
theorem decodeFailures : Obligations.DecodeFailures := by
  intro st hb hok
  refine ⟨fun h => endsIn_of_body (body_decode_illegal h), fun hm ha hv => endsIn_of_body (body_decode_noTree hm ha hv),
    fun T count j ys bits hm ha hv hT hj hdec => ?_⟩
  have hT' := hT.setRawLen 0
  have hr' : ReaderOk { st with rawLen := 0 } .pay := ⟨hm, hok .pay⟩
  refine ⟨fun hroom hwalk => ?truncated, fun hfull y rest hwalk => ?overflow⟩
  case truncated =>
    obtain ⟨t, hrun, hr, hu, hraw, hf⟩ := decodeLoop_truncated hT' hr' (hb .raw) hj hroom hdec hwalk
    exact ⟨t, endsIn_of_body (body_decode_raised hm ha hv hrun), hf.decoded hr hraw hu⟩
  case overflow =>
    subst hfull
    obtain ⟨t, hrun, hr, hu, hraw, hf⟩ := decodeLoop_overflow hT' hr' (hb .raw) hj hdec hwalk
    exact ⟨t, endsIn_of_body (body_decode_raised hm ha hv hrun), hf.decoded hr hraw hu⟩

/-! ## A one-leaf tree (R197) -/

section
variable {y : Symbol}

theorem walk_leaf {fuel : Nat} {i : NodeIdx} (hT : Holds st (.leaf y) i) : walk (fuel + 1) i st = .ok y st := by
  obtain ⟨r, hr, hkind, rfl⟩ := hT
  simp only [walk, hr, hkind]

theorem decodeSymbol_leaf {k : Nat} (hT : Holds st (.leaf y) st.root) (hk : k < st.bufSize .raw) :
    decodeSymbol k st = .ok () (st.memWrite .raw k y) := by
  rw [decodeSymbol, walk_leaf hT, Result.andThen_ok, if_neg (Nat.not_le.2 hk)]

theorem decodeSymbol_leaf_full {k : Nat} (hT : Holds st (.leaf y) st.root) (hk : st.bufSize .raw ≤ k) :
    decodeSymbol k st = .raised .overflow st := by
  rw [decodeSymbol, walk_leaf hT, Result.andThen_ok, if_pos hk]

/-- While RAW has room DECODE's loop stores copies of the one symbol and reads nothing. -/
theorem decodeLoop_leaf (n k : Nat) (hT : Holds st (.leaf y) st.root) (hb : BufferOk st.rawBuf (st.bufSize .raw))
    (hk : k + n ≤ st.bufSize .raw) :
    ∃ t, forLoop decodeSymbol n k st = .ok () t ∧ t.rawFrom k n = List.replicate n y ∧ t.bsPay = st.bsPay ∧
      DecodeFrame k (k + n) st t := by
  induction n generalizing k st with
  | zero => exact ⟨st, rfl, rfl, rfl, .refl k st⟩
  | succ n ih =>
    have hk' : k < st.bufSize .raw := by omega
    have hf : DecodeFrame k (k + 1) st (st.memWrite .raw k y) := .of_write hk' y
    obtain ⟨t, hrun, hraw, hbs, hf'⟩ := ih (k + 1) (st := st.memWrite .raw k y)
      (by rw [hf.root]; exact hT.of_arena hf.arena) (hf.ok hb) (by rw [hf.rawSize]; omega)
    refine ⟨t, ?run, ?raw, hbs.trans (st.bs_memWrite .pay .raw k y), ?frame⟩
    case run => rw [forLoop, decodeSymbol_leaf hT hk', Result.andThen_ok, hrun]
    case raw =>
      rw [State.rawFrom_succ, hraw, hf'.raw k (by omega), State.memRead_memWrite_same (sp := .raw) hb.1 hk',
        List.replicate_succ]
    case frame =>
      rw [show k + (n + 1) = k + 1 + n by omega]
      exact hf.trans (Nat.le_succ k) (Nat.le_add_right ..) hf'

/-- Past the end of RAW the loop ends with `OVERFLOW`, still without a read. -/
theorem decodeLoop_leaf_full {n : Nat} (hT : Holds st (.leaf y) st.root) (hb : BufferOk st.rawBuf (st.bufSize .raw))
    (hn : st.bufSize .raw < n) :
    ∃ t, forLoop decodeSymbol n 0 st = .raised .overflow t ∧ t.bsPay = st.bsPay := by
  obtain ⟨t, hrun, -, hbs, hf⟩ := decodeLoop_leaf (st.bufSize .raw) 0 hT hb (by omega)
  have hT' : Holds t (.leaf y) t.root := by
    rw [hf.root]
    exact hT.of_arena hf.arena
  refine ⟨t, ?_, hbs⟩
  rw [show n = st.bufSize .raw + (n - st.bufSize .raw - 1 + 1) by omega, forLoop_add, hrun, Result.andThen_ok, forLoop,
    decodeSymbol_leaf_full hT' (by rw [hf.rawSize]; omega), Result.andThen_raised]

end

/-- Settles O50: a walk in a one-leaf tree ends where it begins (`walk_leaf`), so the loop only stores, as far as RAW
goes. -/
theorem decodeOneLeaf : Obligations.DecodeOneLeaf := by
  intro st y count hb hm ha hv hT
  have hT' := hT.setRawLen 0
  have hfits (hroom : count.toNat ≤ st.bufSize .raw) := decodeLoop_leaf count.toNat 0 hT' (hb .raw)
    (by rwa [Nat.zero_add])
  refine ⟨fun hroom => ?copies, fun t hend => ?noRead, Tree.codeOf_leaf_bits y⟩
  case copies =>
    obtain ⟨t, hrun, hraw, hbs, hf⟩ := hfits hroom
    rw [State.rawFrom_zero] at hraw
    rw [Nat.zero_add] at hf
    refine ⟨{ t with rawLen := count }, endsOk_of_body (body_decode_ok hm ha hv hrun), ?_, hraw, hf.bytesKept⟩
    conv_lhs => rw [hf.rest, hbs]
  case noRead =>
    by_cases hroom : count.toNat ≤ st.bufSize .raw
    · obtain ⟨u, hrun, -, hbs, -⟩ := hfits hroom
      obtain rfl := Host.Outcome.next.inj ((endsOk_of_body (body_decode_ok hm ha hv hrun)).symm.trans hend)
      exact ⟨nofun, hbs⟩
    · obtain ⟨u, hrun, hbs⟩ := decodeLoop_leaf_full hT' (hb .raw) (Nat.lt_of_not_le hroom)
      obtain ⟨r, n, hnext⟩ := endsIn_of_body (body_decode_raised hm ha hv hrun)
      obtain rfl := Host.Outcome.next.inj (hnext.symm.trans hend)
      exact ⟨nofun, hbs⟩

/-! ## A buffer encoded and decoded (R198) -/

theorem BuffersOk.of_body {i : Instr} {v : Word} (hb : BuffersOk st) (h : body i st = .ok v t) : BuffersOk t := by
  have hkept := body_keeps_buffers i st hb
  rwa [h] at hkept

/-- The codes of a byte string under the tree `T`, one after another (R190). -/
def Tree.payload (T : Tree) (ys : List Symbol) : List Bool := ys.flatMap fun y => (T.codeOf y).bits

/-- The first `c` bytes of a buffer as a bit string (R63). -/
def State.byteBits (st : State) (x : Space) (c : Nat) : List Bool := (List.range (8 * c)).map fun n => st.bufBit x n

theorem State.byteBits_congr {x : Space} {c : Nat} (h : ∀ a, a < c → t.memRead x a = st.memRead x a) :
    t.byteBits x c = st.byteBits x c := bufBits_congr h

/-- The tree `T` can carry the byte string `ys`: it fits CODEGEN's and the arena's bounds and has a leaf for
every byte. -/
structure Carries (T : Tree) (ys : List Symbol) : Prop where
  depth   : T.depth < 64
  leaves  : T.leaves ≤ 256
  symbols : ∀ y ∈ ys, y ∈ T.paths.map Prod.fst

/-- The machine is ready to save `T` and encode `ys`: the tree is in the arena, its codes in the table, the bytes
in RAW. -/
structure ReadyToEncode (T : Tree) (ys : List Symbol) (st : State) : Prop extends Carries T ys where
  valid : st.treeValid = true
  holds : Holds st T st.root
  codes : ∀ y, st.codeAt y = T.codeOf y
  fits  : st.rawLen.toNat ≤ st.bufSize .raw
  raw   : st.rawBytes st.rawLen.toNat = ys

/-- The buffers hold what HUF_ENCODE leaves of `ys`: the tree in the first `m` bytes of TREE, the codes in the first `n`
of PAY, each with padding after it. -/
structure HoldsPayload (T : Tree) (ys : List Symbol) (m n : Nat) (st : State) : Prop extends Carries T ys where
  tree : ∃ pad, st.byteBits .tree m = T.bits ++ pad
  pay  : ∃ pad, st.byteBits .pay n = T.payload ys ++ pad

section
variable {ys : List Symbol} {m n : Nat}

/-- Every code has at most 63 bits (R192). -/
theorem Carries.payload_length_le (h : Carries T ys) : (T.payload ys).length ≤ 63 * ys.length := by
  rw [Tree.payload, List.length_flatMap, Nat.mul_comm, ← List.length_map (as := ys) fun y => (T.codeOf y).bits.length]
  refine List.sum_le_card_nsmul _ 63 fun len hlen => ?_
  obtain ⟨y, hy, rfl⟩ := List.mem_map.1 hlen
  rw [CodeEntry.bits_length]
  exact (Tree.codeOf_len h.depth (h.symbols y hy)).2

theorem HoldsPayload.congr (h : HoldsPayload T ys m n st) (htree : ∀ a, a < m → t.memRead .tree a = st.memRead .tree a)
    (hpay : ∀ a, a < n → t.memRead .pay a = st.memRead .pay a) : HoldsPayload T ys m n t where
  toCarries := h.toCarries
  tree := State.byteBits_congr htree ▸ h.tree
  pay := State.byteBits_congr hpay ▸ h.pay

/-- Writing through a stream touches none of what ENCODE reads. -/
theorem ReadyToEncode.onlyWriter {s : StreamSel} (h : ReadyToEncode T ys st) (ho : OnlyWriter s st t) :
    ReadyToEncode T ys t where
  toCarries := h.toCarries
  valid := ho.tables.treeValid.trans h.valid
  holds := ho.tables.root ▸ h.holds.of_arena ho.arena
  codes y := by
    rw [State.codeAt, ho.tables.code]
    exact h.codes y
  fits := by
    rw [ho.bufSize, ho.tables.rawLen]
    exact h.fits
  raw := by
    rw [← h.raw, ho.tables.rawLen]
    exact List.map_congr_left fun i _ => ho.memRead_ne (raw_ne_streamSpace s) i

theorem ReadyToEncode.body_encode (h : ReadyToEncode T ys st) (hm : (st.bs .pay).mode = .writer) :
    body .encode st = (writeList .pay (T.payload ys) st).andThen fun _ t => .ok 0 t := by
  have hassigned : ∀ y ∈ ys, (st.codeAt y).len ≠ 0 := fun y hy => by
    rw [h.codes]
    exact (Tree.codeOf_len h.depth (h.symbols y hy)).1
  have hbits : st.codeBits ys = T.payload ys := by simp only [State.codeBits, h.codes, Tree.payload]
  rw [body_encode_assigned hm h.fits (h.raw.symm ▸ hassigned), h.raw, hbits]

/-! ### HUF_ENCODE (R89) -/

/-- The host counts the bytes of RAW, builds the tree and generates the codes. -/
def buildLines : Script.Lines :=
  Script.command .freqCount ++ Script.command .build ++ Script.command .codegen

/-- The host opens a writer of `cap` bytes, encodes RAW and finalizes. -/
def encodeLines (cap : Length) : Script.Lines :=
  Script.openW .pay (cap.zeroExtend 64) ++ Script.command .encode ++ Script.command (.finalize .pay)

variable {x : Side} {ts : List HostTxn}

theorem run_buildLines (hx : x.host = buildLines ++ ts) (hb : BuffersOk st) (h1 : 1 ≤ st.rawLen.toNat)
    (h2 : st.rawLen.toNat ≤ st.bufSize .raw) :
    ∃ T b z, Host.Core.run Sys2Proof.core (n + 3) (st.side x) = Host.Core.run Sys2Proof.core n (State.side z b) ∧
      z.host = ts ∧ z.errlog = x.errlog ∧ ReadyToEncode T (st.rawBytes st.rawLen.toNat) b ∧ BuffersOk b ∧
      b.params = st.params := by
  obtain ⟨b1, b2, b3, T, v2, hcount, hbuild, hcodegen, hd, hL, hT, hv, hcodes, hsymbols, -, hlen, hmem, hparams⟩ :=
    count_build_codes st h1 h2
  have hrun := (run_command (n := n + 2) (i := .freqCount) hx (by decide) trivial hcount).trans
    ((run_command (n := n + 1) (i := .build) rfl (by decide) trivial hbuild).trans
      (run_command (n := n) (i := .codegen) (ts := ts) rfl (by decide) trivial hcodegen))
  refine ⟨T, b3, _, hrun, rfl, rfl, ⟨⟨hd, hL, fun y => (hsymbols y).2⟩, hv, hT, hcodes, ?fits, ?raw⟩,
    ((hb.of_body hcount).of_body hbuild).of_body hcodegen, hparams⟩
  case fits =>
    rw [hlen, State.bufSize_congr hparams]
    exact h2
  case raw =>
    rw [hlen]
    exact List.map_congr_left fun i _ => hmem .raw i

/-- The save: the tree is in the TREE buffer, and the machine can still encode. -/
theorem run_saveLines_ready {cap : Length} (hx : x.host = saveLines cap ++ ts) (h : ReadyToEncode T ys st)
    (hb : BuffersOk st) (hcap : 320 ≤ cap.toNat) (hsize : cap.toNat ≤ st.bufSize .tree) :
    ∃ b z, Host.Core.run Sys2Proof.core (n + 4) (st.side x) = Host.Core.run Sys2Proof.core n (State.side z b) ∧
      z.host = ts ∧ z.errlog = x.errlog ∧ ReadyToEncode T ys b ∧ BuffersOk b ∧ b.params = st.params ∧
      ∃ pad, b.byteBits .tree (b.bs .tree).byte.toNat = T.bits ++ pad := by
  have hlen := T.bits_length
  have hleaves := h.leaves
  have hopen := h.onlyWriter (onlyStream_setBs .tree st (Stream.opened .writer cap)).writer
  obtain ⟨b, hrun, honly, hbb, -, -, hbits⟩ := run_write_finalize (n := n) (i := .treeSave) hx hb hsize (by omega)
    (by decide) (fun _ _ => trivial) (body_treeSave (mode_opened st .tree .writer cap) hopen.valid hopen.holds)
  exact ⟨b, _, hrun, rfl, rfl, h.onlyWriter honly, hbb, honly.kept.params, _, hbits⟩

/-- The encoding: the payload is in the PAY buffer, `RESULT` is the number of its bytes, and the TREE buffer is as
before. -/
theorem run_encodeLines {cap : Length} (hx : x.host = encodeLines cap ++ ts) (h : ReadyToEncode T ys st)
    (hb : BuffersOk st) (hcap : 63 * ys.length ≤ 8 * cap.toNat) (hsize : cap.toNat ≤ st.bufSize .pay) :
    ∃ b z, Host.Core.run Sys2Proof.core (n + 4) (st.side x) = Host.Core.run Sys2Proof.core n (State.side z b) ∧
      z.status = .ok ∧ z.errlog = x.errlog ∧ z.result = (b.bs .pay).byte.zeroExtend 64 ∧ OnlyWriter .pay st b ∧
      ∃ pad, b.byteBits .pay (b.bs .pay).byte.toNat = T.payload ys ++ pad := by
  have hopen := h.onlyWriter (onlyStream_setBs .pay st (Stream.opened .writer cap)).writer
  obtain ⟨b, hrun, honly, -, -, -, hbits⟩ := run_write_finalize (n := n) (i := .encode) hx hb hsize
    (h.payload_length_le.trans hcap) (by decide) (fun _ _ => trivial)
    (hopen.body_encode (mode_opened st .pay .writer cap))
  exact ⟨b, _, hrun, rfl, rfl, rfl, honly, _, hbits⟩

theorem run_hufEncode {tcap pcap : Length} (hb : BuffersOk st) (h1 : 1 ≤ st.rawLen.toNat)
    (h2 : st.rawLen.toNat ≤ st.bufSize .raw) (htcap : 320 ≤ tcap.toNat) (htree : tcap.toNat ≤ st.bufSize .tree)
    (hpcap : 63 * st.rawLen.toNat ≤ 8 * pcap.toNat) (hpay : pcap.toNat ≤ st.bufSize .pay) :
    ∃ T b z, runLines (Script.hufEncode (tcap.zeroExtend 64) (pcap.zeroExtend 64)) st = .next (State.side z b) ∧
      z.status = .ok ∧ z.errlog = st.errlog ∧ z.result = (b.bs .pay).byte.zeroExtend 64 ∧
      HoldsPayload T (st.rawBytes st.rawLen.toNat) (b.bs .tree).byte.toNat (b.bs .pay).byte.toNat b := by
  obtain ⟨T, a, x, hbuild, hxhost, hxlog, ha, hba, hpa⟩ := run_buildLines (n := 8)
    (x := { st.aside with host := buildLines ++ (saveLines tcap ++ encodeLines pcap) }) rfl hb h1 h2
  obtain ⟨b, y, hsave, hyhost, hylog, hb', hbb, hpb, treePad, htreeBits⟩ := run_saveLines_ready (n := 4)
    hxhost ha hba htcap (by rwa [State.bufSize_congr hpa])
  obtain ⟨c, z, hencode, hstatus, hzlog, hresult, honly, payPad, hpayBits⟩ := run_encodeLines (n := 0) (ts := [])
    (hyhost.trans (List.append_nil _).symm) hb' hbb (by rwa [State.rawBytes_length])
    (by rwa [State.bufSize_congr (hpb.trans hpa)])
  refine ⟨T, c, z, hbuild.trans (hsave.trans hencode), hstatus, hzlog.trans (hylog.trans hxlog), hresult,
    ⟨ha.toCarries, ⟨treePad, ?_⟩, payPad, hpayBits⟩⟩
  have htreeSame : c.bs .tree = b.bs .tree := honly.same (p := .stream .tree) (by simp [streamSpace])
  have hbytesSame : ∀ a, c.memRead .tree a = b.memRead .tree a := honly.same (p := .bytes .tree) (by simp [streamSpace])
  rw [htreeSame, State.byteBits_congr fun a _ => hbytesSame a]
  exact htreeBits

/-! ### HUF_DECODE (R89) -/

/-- The reader of the payload: the codes in PAY give the bytes back, whatever the padding. -/
theorem decodeLoop_payload {c : Length} (h : Carries T ys) (hT : Holds st T st.root) (hb : BuffersOk st)
    (hn : c.toNat ≤ st.bufSize .pay) (hroom : ys.length ≤ st.bufSize .raw) {pad : List Bool}
    (hpay : st.byteBits .pay c.toNat = T.payload ys ++ pad) :
    ∃ t, forLoop decodeSymbol ys.length 0 { st.setBs .pay (Stream.opened .reader c) with rawLen := 0 } = .ok () t ∧
      t.rawBytes ys.length = ys := by
  obtain ⟨rest, hdec⟩ := Tree.decodeMany_all h.depth h.symbols pad
  have hopen : ReaderOk (st.setBs .pay (Stream.opened .reader c)) .pay := readerOk_opened hn
  have hunread := (unread_opened st .pay c).trans hpay
  obtain ⟨t, hrun, -, -, hraw, -⟩ := decodeLoop_some ys.length 0
    (st := { st.setBs .pay (Stream.opened .reader c) with rawLen := 0 })
    ((hT.of_arena (onlyStream_setBs .pay st _).arena).setRawLen 0) ⟨hopen.mode, hopen.ok⟩ (hb .raw)
    (by rwa [Nat.zero_add]) (hunread ▸ hdec)
  exact ⟨t, hrun, by rwa [State.rawFrom_zero] at hraw⟩

theorem run_hufDecode {w : State} {tlen plen count : Length} (h : HoldsPayload T ys tlen.toNat plen.toNat w)
    (hb : BuffersOk w) (htree : tlen.toNat ≤ w.bufSize .tree) (hpay : plen.toNat ≤ w.bufSize .pay)
    (hcount : count.toNat = ys.length) (hroom : ys.length ≤ w.bufSize .raw) :
    ∃ v, runLines (Script.hufDecode (tlen.zeroExtend 64) (plen.zeroExtend 64) (count.zeroExtend 64)) w = .next v ∧
      v.status = .ok ∧ v.errlog = w.errlog ∧ v.rawLen = count ∧ v.rawBytes count.toNat = ys := by
  obtain ⟨treePad, htreeBits⟩ := h.tree
  obtain ⟨payPad, hpayBits⟩ := h.pay
  obtain ⟨t, hload, hv, hT, honly⟩ := load_saved htree h.leaves htreeBits
  have hbt : BuffersOk t := ((buffersKeep_setBs .tree _ w).2 hb).of_body hload
  have hsize := State.bufSize_congr honly.kept.params
  have hpayBits' : t.byteBits .pay plen.toNat = T.payload ys ++ payPad := by
    rw [State.byteBits_congr fun a _ => honly.same (p := .bytes .pay) (by simp) a]
    exact hpayBits
  obtain ⟨u, hloop, hraw⟩ := decodeLoop_payload h.toCarries hT hbt (by rwa [hsize]) (by rwa [hsize]) hpayBits'
  rw [← hcount] at hloop hraw
  have hopenTree := run_openR (n := 5) (s := .tree) (b := w)
    (ts := Script.command .treeLoad ++ Script.openR .pay (plen.zeroExtend 64) ++ Script.dec (count.zeroExtend 64))
    (x := { w.aside with host := Script.hufDecode (tlen.zeroExtend 64) (plen.zeroExtend 64) (count.zeroExtend 64) })
    rfl htree
  exact ⟨_, hopenTree.trans ((run_command (n := 4) (i := .treeLoad) rfl (by decide) trivial hload).trans
    ((run_openR (n := 2) (s := .pay) (ts := Script.dec (count.zeroExtend 64)) rfl (by rwa [hsize])).trans
      (run_dec (n := 0) (ts := []) rfl (mode_opened t .pay .reader plen) hv hloop))), rfl, rfl, rfl, hraw⟩

end

/-- Settles O51: `run_hufEncode` leaves the tree and the payload in the buffers, and `run_hufDecode` gives the bytes back
on any machine that holds them there. -/
theorem payloadRoundTrip : Obligations.PayloadRoundTrip := by
  intro st tcap pcap hb h1 h2 htcap htree hpcap hpay
  obtain ⟨T, b, z, hrun, hstatus, hlog, hresult, hholds⟩ := run_hufEncode hb h1 h2 htcap htree hpcap hpay
  refine ⟨b.side z, hrun, hstatus, hlog, hresult, fun w hw htlen hplen hroom htreeBytes hpayBytes => ?decode⟩
  case decode =>
    have hholds' := hholds.congr (fun a ha => (htreeBytes a ha).trans (State.memRead_side ..))
      fun a ha => (hpayBytes a ha).trans (State.memRead_side ..)
    rw [show (b.side z).result = _ from hresult]
    exact run_hufDecode hholds' hw htlen hplen (State.rawBytes_length ..).symm (by rwa [State.rawBytes_length])

end Sys2Proof.Machine
end

section
/-! PROOFS. The system commands (spec/46_system.md): what NOP and CTX_RESET leave, from their bodies. -/

namespace Sys2Proof.Machine

/-- Settles O52: the command's body leaves the state as it is. -/
theorem nopEffect : Obligations.NopEffect := fun _ => endsOk_of_body rfl

/-! ## The fresh context (R211) -/

@[simp] theorem State.freqAt_freshContext (st : State) (y : Symbol) : st.freshContext.freqAt y = 0 :=
  st.arenaReset.freqAt_clearFreq y

@[simp] theorem State.codeAt_freshContext (st : State) (y : Symbol) :
    st.freshContext.codeAt y = CodeEntry.unassigned :=
  st.arenaReset.clearFreq.codeAt_clearCode y

/-- Settles O53: the command is `State.freshContext`. -/
theorem ctxResetEffect : Obligations.CtxResetEffect := fun st =>
  ⟨st.freshContext, endsOk_of_body rfl, rfl, st.freqAt_freshContext, st.codeAt_freshContext⟩

end Sys2Proof.Machine
end

section
/-! PROOFS. How commands end (spec/60_exceptions.md): each with the epilogue, an error with a code of its row in R222, and
no transaction stops the machine. -/

namespace Sys2Proof.Machine

/-! ## Every transaction and command goes on (R224, R226, R264) -/

theorem finish_completes (r : Result Word) : ∃ t, finish r = .next t := by
  cases r
  case ok => exact ⟨_, rfl⟩
  case raised => exact ⟨_, rfl⟩

theorem exec_completes (i : Instr) (st : State) : ∃ t, exec i st = .next t := by
  rw [exec_eq_body]
  exact finish_completes _

/-- A value that is no command also ends with the epilogue (R85). -/
theorem issue_completes (v : Word) (st : State) : ∃ t, issue v st = .next t := by
  cases hd : decode v with
  | command i =>
    rw [issue_command hd]
    exact exec_completes i st
  | illegal e =>
    obtain ⟨_, _, h⟩ := issue_illegal hd st
    exact ⟨_, h⟩

theorem transact_completes (x : HostTxn) (st : State) : ∃ t, transact x st = .next t := by
  cases x
  case regWrite idx v =>
    by_cases hcmd : regLoc idx = .cmd
    · rw [transact, hcmd]
      exact issue_completes v st
    · exact ⟨_, transact_regWrite hcmd⟩
  case regRead | bufRead | bufWrite | reset => exact ⟨_, rfl⟩

theorem step_completes (st : State) : ∃ t, step st = .next t := by
  cases hh : st.host with
  | nil => exact ⟨st, step_nil hh⟩
  | cons x ts =>
    rw [step_cons hh]
    exact transact_completes x _

/-- Settles O7: a step is one transaction or none, and a command's transaction ends with the epilogue. -/
theorem everyStepCompletes : Obligations.EveryStepCompletes := fun st =>
  ⟨step_completes st, step_nil, fun i => exec_completes i st⟩

/-! ## The epilogue (R224) -/

/-- A command's body returns or raises, and the epilogue follows from the state it leaves. -/
theorem exec_ends (i : Instr) (st : State) :
    (∃ v, body i st = .ok v (body i st).state ∧ EndsOk (exec i st) v (body i st).state) ∨
      ∃ k, body i st = .raised k (body i st).state ∧ EndsIn (exec i st) k (body i st).state := by
  cases hb : body i st with
  | ok v s => exact .inl ⟨v, rfl, endsOk_of_body hb⟩
  | raised k s => exact .inr ⟨k, rfl, endsIn_of_body hb⟩

/-- Settles O54: the state is the one the body leaves, and `Kept` says what a body never touches. -/
theorem commandEpilogue : Obligations.CommandEpilogue := by
  intro i st
  have k := body_kept i st
  exact ⟨(body i st).state, exec_ends i st, k.status, k.errlog, k.result, k.arg0, k.params, k.host, k.reply, k.freeIdx⟩

/-! ## The codes of R222 -/

/-- The epilogue writes the code the body raised, so the command failed because its body did. -/
theorem body_raised_of_status {i : Instr} {st t : State} {k : ErrorKind} (h : exec i st = .next t)
    (hk : t.status = .error k) : ∃ u, body i st = .raised k u := by
  obtain ⟨u, -, ⟨ht, -⟩ | ⟨k', ht, hraised⟩⟩ := exec_next h
  · rw [ht] at hk
    exact nomatch hk
  · rw [ht] at hk
    obtain rfl : k' = k := ResultCode.error.inj hk
    exact ⟨u, hraised⟩

/-- Settles O55: the code is one the body raised, and `body_raises` lists those row by row. -/
theorem commandErrorCodes : Obligations.CommandErrorCodes := by
  intro i st t k h hk
  obtain ⟨u, hraised⟩ := body_raised_of_status h hk
  exact body_raises hraised

end Sys2Proof.Machine
end
